-- ==== Sys2Proof/Word.lean ====
section
/-! DEFINITION. The word types of the BZ40 (spec/00_scope.md R8, R9; spec/01_sequential_machine.md R11, R12) and the
plainest functions on them. -/

namespace Sys2Proof

/-- A vector register's contents, and an instruction word (R11, R18). -/
abbrev Word := BitVec 32
/-- A byte of storage (R8). -/
abbrev Byte := BitVec 8
/-- The number of a vector register v0 to v63 (R11). -/
abbrev Reg := Fin 64
/-- The number of a predicate register p0 to p7 (R12). -/
abbrev PReg := Fin 8

/-- One bit from a truth value. -/
abbrev bb (b : Bool) : BitVec 1 := BitVec.ofBool b
/-- A register number as its six-bit field (R54). -/
abbrev rb (r : Reg) : BitVec 6 := BitVec.ofFin r
/-- A predicate number as its three-bit field (R54). -/
abbrev pb (r : PReg) : BitVec 3 := BitVec.ofFin r

/-- An even register, which names a pair (R11). -/
def isEven (r : Reg) : Bool := r.val % 2 == 0
/-- A register whose number is a multiple of 4 (R62). -/
def isQuad (r : Reg) : Bool := r.val % 4 == 0

end Sys2Proof
end

