-- ==== Sys2Proof/Config.lean ====
section
/-! DEFINITION. What the spec leaves open (the free values, each an opaque constant without a body) and what one part fixes.
Every entry names its log entry in notes/assumptions. -/

namespace Sys2Proof.Config

/-- Which of the enabled agents moves next, for the n-th such choice (R150, R211, R213: not architected; DESIGN CHOICE, log 1). -/
opaque pick : Nat → Nat

/-- In which order the n-th such choice takes several things of one kind, by the numbers of those things (R162, R303, R309: not
architected; DESIGN CHOICE, log 14). -/
opaque rank : Nat → Nat → Nat

/-- A value that the spec leaves unstated, the n-th drawn (DESIGN CHOICE, log 1). -/
opaque freeValue : Nat → Nat

/-- What an SFU word returns for an argument inside the open part of its error bound (R86, R87: a fixed function of the
function number, the argument's bits, FI and FO; DESIGN CHOICE, log 6). -/
opaque sfu : Nat → BitVec 32 → Bool → Bool → BitVec 32

/-- A byte of the node pool of a context outside its nodes and descriptors: context, change number, physical address (R194; DESIGN
CHOICE, log 8). -/
opaque treeByte : Nat → Nat → Nat → BitVec 8
/-- Where a node or a group of descriptors lies in the pool: context, change number, its number (R194; DESIGN CHOICE, log 8). -/
opaque treePlace : Nat → Nat → Nat → Nat
/-- How full a node is: context, its number and level (R194; DESIGN CHOICE, log 8). -/
opaque treeFill : Nat → Nat → Nat

/-- A word fetched from a loaded code object that the physical function wrote behind the loader's back (R17; DESIGN CHOICE, log 9). -/
opaque fetchByte : Nat → BitVec 8

/-- The device identity number, fused (R357; DESIGN CHOICE, log 10). -/
opaque devid : BitVec 64

/-- Whether the signature of a firmware image verifies against the fused key (R371; DESIGN CHOICE, log 10). -/
opaque fwSigned : Nat → Bool
/-- The security version an image carries (R371; DESIGN CHOICE, log 10). -/
opaque fwVersion : Nat → Nat
/-- The fused rollback counter (R371; DESIGN CHOICE, log 10). -/
opaque fuseRollback : Nat
/-- The bytes of a firmware image (R371, R372; DESIGN CHOICE, log 10). -/
opaque fwBytes : Nat → List (BitVec 8)
/-- SHAKE256 with a 512-bit output (R372; DESIGN CHOICE, log 10). -/
opaque shake256 : List (BitVec 8) → BitVec 512
/-- The SLH-DSA-SHAKE-256f signature of a report (R372; DESIGN CHOICE, log 10). -/
opaque attestSign : List (BitVec 8) → List (BitVec 8)
/-- The key that a wrapped key record holds, when its GCM tag verifies (R369; DESIGN CHOICE, log 10). -/
opaque unwrapKey : List (BitVec 8) → Option Nat
/-- The key that the device generates for slot 0 of the n-th context created (R360, R368; DESIGN CHOICE, log 10). -/
opaque freshKey : Nat → Nat
/-- The save pool's place for the n-th record of a context (R329 names the pool and not the place; DESIGN CHOICE, log 12). -/
opaque savePlace : Nat → Nat → Nat
/-- The identity of the neighbour that a device-link port reaches (R363; DESIGN CHOICE, log 10). -/
opaque portPeer : Nat → BitVec 64
/-- In which order the scheduler takes the spindles of a C-die into the gale reservation (R313; DESIGN CHOICE, log 20). -/
opaque galeRank : Nat → Nat

end Sys2Proof.Config
end

