-- ==== Sys2Proof/Syntax.lean ====
section
/-! DEFINITION. The instructions of the BZ40: one constructor per row of spec/opcode_table.json. Gang words (R54 to R64) carry
their header bits C and S (R19) in `h`; matrix-stream words are R65 and R66; the other rows are steps that the device takes on its
own or that come from outside (spec/95_what_each_step_holds.md), with the numbers that say on what they act. The constructors
that carry nothing stand last: Lean's runtime numbers no more than 245 constructors that carry data. -/

namespace Sys2Proof

/-- The chain bit C and the switch marker S of a gang word (R19). -/
structure Hdr where
  c : Bool
  s : Bool
deriving DecidableEq, Repr, Inhabited

/-- FI, FO and rm of format F3 (R54). -/
structure FMod where
  fi : Bool
  fo : Bool
  rm : BitVec 2
deriving DecidableEq, Repr, Inhabited

/-- FI, FO, T and RS of format F3-H (R55). -/
structure HMod where
  fi : Bool
  fo : Bool
  t : Bool
  rs : Bool
deriving DecidableEq, Repr, Inhabited

/-- What the scheduler saves and restores as a whole (R326, R329): a crew, a spawn gang, or all crews of a co-resident region. -/
inductive Victim where
  | crew (k : Nat)
  | gang (g : Nat)
  | region (r : Nat)
deriving DecidableEq, Repr, Inhabited

/-- A host access: function number (0 the physical function), write or read, byte offset or address, length, and the bytes written. -/
structure HostAccess where
  fn : Nat
  write : Bool
  off : Nat
  len : Nat
  data : List Byte
deriving DecidableEq, Repr, Inhabited

/-- Where an SRAM error strikes (R325). -/
inductive SramSite where
  | cleanCache
  | dirtyL1 (sp : Nat) (far : Option Nat) (pa : Nat) -- a sector of this device, or of another rank
  | dirtyL2 (pa : Nat)
  | crewLocal (crew : Nat) (off : Nat)
  | csm (addr : Nat)
  | hostWindow (off : Nat)
  | registers (u : Nat)
deriving DecidableEq, Repr, Inhabited

/-- One constructor per row of the opcode table. -/
inductive Instr where
  /-- NOP (R110): Does nothing. -/
  | nop (h : Hdr)
  /-- EXIT (R111): Waits for the pending set to empty and ends the thread, or traps with FRAME when %frng is not zero. -/
  | exit (h : Hdr)
  /-- TRAP (R112): Raises USER with %trapi set to v[a]. -/
  | trap (h : Hdr) (a : Reg)
  /-- YIELD (R113): Waits for the pending set to empty, then becomes a pre-emption save point or moves the run behind the gang's other runs. -/
  | yield (h : Hdr)
  /-- WAITC (R114): Reads a word repeatedly and delivers it as a long result once it differs from v[b], pre-emption is requested or the wait times out. -/
  | waitc (h : Hdr) (d a b : Reg)
  /-- ENTRY (R108): Marks an indirect-call target with a signature class and has no effect when it executes. -/
  | entry (h : Hdr) (cls : BitVec 12)
  /-- ERET (R318): Leaves handler mode, reissues replay entries with F = 1 and resumes at %trapa. -/
  | eret (h : Hdr)
  /-- BRA (R104): Branches by a packet offset when its predicate condition holds. -/
  | bra (h : Hdr) (cc : BitVec 4) (hint : BitVec 2) (off : BitVec 18)
  /-- YCHK (R57): Branches when pre-emption is requested (%preq bit 0 is 1). -/
  | ychk (h : Hdr) (hint : BitVec 2) (off : BitVec 18)
  /-- CALL (R106): Writes the next packet address to %lnk and transfers by a 24-bit packet offset. -/
  | call (h : Hdr) (off : BitVec 24)
  /-- RET (R107): Transfers to %lnk. -/
  | ret (h : Hdr)
  /-- BRX (R107): Transfers to the address in a register pair. -/
  | brx (h : Hdr) (a : Reg)
  /-- CALLI (R107): Checks the target's ENTRY class and calls through a register pair. -/
  | calli (h : Hdr) (cls : BitVec 12) (a : Reg)
  /-- MOVS (R15): Copies a special register into a vector register or pair. -/
  | movs (h : Hdr) (d : Reg) (sp : BitVec 6)
  /-- SMOV (R15): Copies a vector register or pair into a writable special register. -/
  | smov (h : Hdr) (sp : BitVec 6) (a : Reg)
  /-- MJOIN (R177): ORs the run's lane set into gang mask m[k]. -/
  | mjoin (h : Hdr) (k : BitVec 6)
  /-- MLEAVE (R177): Removes the run's lanes from gang mask m[k]. -/
  | mleave (h : Hdr) (k : BitVec 6)
  /-- MWAIT (R178): Holds the run until every live lane of gang mask m[k] waits, then issues once released. -/
  | mwait (h : Hdr) (k : BitVec 6)
  /-- MSET (R177): Sets gang mask m[k] from v[a] of the run's lowest lane. -/
  | mset (h : Hdr) (k : BitVec 6) (a : Reg)
  /-- MGET (R177): Writes gang mask m[k] to v[d] of every lane of the run. -/
  | mget (h : Hdr) (d : Reg) (k : BitVec 6)
  /-- MACT (R177): Writes the run's lane set as a mask to v[d]. -/
  | mact (h : Hdr) (d : Reg)
  /-- FORK (R120): Pushes a latent point frame, or makes an overflow call when the frame stack is nearly full. -/
  | fork (h : Hdr) (vs : Reg) (off : BitVec 18)
  /-- ADD (R70): Writes the 32-bit sum of v[a] and v[b]. -/
  | add (h : Hdr) (d a b : Reg)
  /-- SUB (R70): Writes v[a] minus v[b] modulo 2^32. -/
  | sub (h : Hdr) (d a b : Reg)
  /-- AND (R70): Writes the bitwise AND of v[a] and v[b]. -/
  | and (h : Hdr) (d a b : Reg)
  /-- OR (R70): Writes the bitwise OR of v[a] and v[b]. -/
  | or (h : Hdr) (d a b : Reg)
  /-- XOR (R70): Writes the bitwise XOR of v[a] and v[b]. -/
  | xor (h : Hdr) (d a b : Reg)
  /-- ANDN (R70): Writes v[a] AND NOT v[b]. -/
  | andn (h : Hdr) (d a b : Reg)
  /-- SHL (R70): Shifts v[a] left by v[b][7:0], giving 0 at 32 or more. -/
  | shl (h : Hdr) (d a b : Reg)
  /-- SHR (R70): Shifts v[a] right logically by v[b][7:0]. -/
  | shr (h : Hdr) (d a b : Reg)
  /-- SAR (R70): Shifts v[a] right arithmetically by v[b][7:0]. -/
  | sar (h : Hdr) (d a b : Reg)
  /-- ROTL (R70): Rotates v[a] left by v[b][7:0] modulo 32. -/
  | rotl (h : Hdr) (d a b : Reg)
  /-- MIN (R70): Writes the signed minimum of v[a] and v[b]. -/
  | min (h : Hdr) (d a b : Reg)
  /-- MAX (R70): Writes the signed maximum of v[a] and v[b]. -/
  | max (h : Hdr) (d a b : Reg)
  /-- MINU (R70): Writes the unsigned minimum of v[a] and v[b]. -/
  | minu (h : Hdr) (d a b : Reg)
  /-- MAXU (R70): Writes the unsigned maximum of v[a] and v[b]. -/
  | maxu (h : Hdr) (d a b : Reg)
  /-- ADDMIN (R70): Writes the minimum of v[d] and the saturated signed sum of v[a] and v[b]. -/
  | addmin (h : Hdr) (d a b : Reg)
  /-- ADDSAT (R70): Writes the saturated signed sum of v[a] and v[b]. -/
  | addsat (h : Hdr) (d a b : Reg)
  /-- SUBSAT (R70): Writes the saturated signed difference of v[a] and v[b]. -/
  | subsat (h : Hdr) (d a b : Reg)
  /-- ABSDIFF (R70): Writes the unsigned absolute difference of the signed values of v[a] and v[b]. -/
  | absdiff (h : Hdr) (d a b : Reg)
  /-- MUL (R71): Writes the low word of v[a] × v[b]. -/
  | mul (h : Hdr) (d a b : Reg)
  /-- MULH (R71): Writes the high word of the signed 64-bit product. -/
  | mulh (h : Hdr) (d a b : Reg)
  /-- MULHU (R71): Writes the high word of the unsigned 64-bit product. -/
  | mulhu (h : Hdr) (d a b : Reg)
  /-- MULA (R71): Writes v[d] + v[a] × v[b] modulo 2^32. -/
  | mula (h : Hdr) (d a b : Reg)
  /-- CLZ (R71): Writes the count of leading zero bits of v[a]. -/
  | clz (h : Hdr) (d a : Reg)
  /-- CTZ (R71): Writes the count of trailing zero bits of v[a]. -/
  | ctz (h : Hdr) (d a : Reg)
  /-- POPC (R71): Writes the count of set bits of v[a]. -/
  | popc (h : Hdr) (d a : Reg)
  /-- BREV (R71): Writes v[a] with its bits reversed. -/
  | brev (h : Hdr) (d a : Reg)
  /-- BFX (R72): Extracts a sign-extended bit field of v[a] described by v[b]. -/
  | bfx (h : Hdr) (d a b : Reg)
  /-- BFXU (R72): Extracts a zero-extended bit field of v[a] described by v[b]. -/
  | bfxu (h : Hdr) (d a b : Reg)
  /-- BFI (R72): Inserts the low bits of v[a] into a field of v[d] described by v[b]. -/
  | bfi (h : Hdr) (d a b : Reg)
  /-- SEL (R73): Selects bits of v[a] or v[b] with v[d] as the mask. -/
  | sel (h : Hdr) (d a b : Reg)
  /-- EXTB (R71): Sign-extends the low byte of v[a]. -/
  | extb (h : Hdr) (d a : Reg)
  /-- EXTH (R71): Sign-extends the low half of v[a]. -/
  | exth (h : Hdr) (d a : Reg)
  /-- ADD64 (R74): Adds two register pairs modulo 2^64. -/
  | add64 (h : Hdr) (d a b : Reg)
  /-- SUB64 (R74): Subtracts two register pairs modulo 2^64. -/
  | sub64 (h : Hdr) (d a b : Reg)
  /-- SHL64 (R74): Shifts a register pair left by v[b][7:0]. -/
  | shl64 (h : Hdr) (d a b : Reg)
  /-- SHR64 (R74): Shifts a register pair right logically by v[b][7:0]. -/
  | shr64 (h : Hdr) (d a b : Reg)
  /-- LEA (R74): Adds a sign-extended 32-bit offset to a 64-bit base pair. -/
  | lea (h : Hdr) (d a b : Reg)
  /-- CMP (R75): Writes an integer comparison of v[a] and v[b] to a predicate. -/
  | cmp (h : Hdr) (pd : PReg) (cond : BitVec 3) (a b : Reg)
  /-- PLOG (R76): Writes a predicate from two predicates through a four-bit truth table. -/
  | plog (h : Hdr) (pd pa pq : PReg) (lut : BitVec 4)
  /-- ADDI (R77): Adds a sign-extended 12-bit immediate to v[a]. -/
  | addi (h : Hdr) (d a : Reg) (imm : BitVec 12)
  /-- ANDI (R77): ANDs v[a] with a zero-extended 12-bit immediate. -/
  | andi (h : Hdr) (d a : Reg) (imm : BitVec 12)
  /-- ORI (R77): ORs v[a] with a zero-extended 12-bit immediate. -/
  | ori (h : Hdr) (d a : Reg) (imm : BitVec 12)
  /-- XORI (R77): XORs v[a] with a zero-extended 12-bit immediate. -/
  | xori (h : Hdr) (d a : Reg) (imm : BitVec 12)
  /-- SHLI (R77): Shifts v[a] left by an immediate amount. -/
  | shli (h : Hdr) (d a : Reg) (n : BitVec 5)
  /-- SHRI (R77): Shifts v[a] right logically by an immediate amount. -/
  | shri (h : Hdr) (d a : Reg) (n : BitVec 5)
  /-- SARI (R77): Shifts v[a] right arithmetically by an immediate amount. -/
  | sari (h : Hdr) (d a : Reg) (n : BitVec 5)
  /-- ROTLI (R77): Rotates v[a] left by an immediate amount. -/
  | rotli (h : Hdr) (d a : Reg) (n : BitVec 5)
  /-- CMPI (R77): Writes a comparison of v[a] with a sign-extended immediate to a predicate. -/
  | cmpi (h : Hdr) (pd : PReg) (cond : BitVec 3) (a : Reg) (imm : BitVec 12)
  /-- MULI (R77): Multiplies v[a] by a sign-extended immediate modulo 2^32. -/
  | muli (h : Hdr) (d a : Reg) (imm : BitVec 12)
  /-- ADDI64 (R77): Adds a sign-extended immediate to a register pair. -/
  | addi64 (h : Hdr) (d a : Reg) (imm : BitVec 12)
  /-- MOVI (R77): Writes a sign-extended 18-bit immediate to v[d]. -/
  | movi (h : Hdr) (d : Reg) (imm : BitVec 18)
  /-- MOVHI (R77): Writes an 18-bit immediate into v[d][31:14], keeping v[d][13:0]. -/
  | movhi (h : Hdr) (d : Reg) (imm : BitVec 18)
  /-- FADD (R79): Adds two FP32 values with one rounding. -/
  | fadd (h : Hdr) (d a b : Reg) (fm : FMod)
  /-- FSUB (R79): Subtracts two FP32 values with one rounding. -/
  | fsub (h : Hdr) (d a b : Reg) (fm : FMod)
  /-- FMUL (R79): Multiplies two FP32 values with one rounding. -/
  | fmul (h : Hdr) (d a b : Reg) (fm : FMod)
  /-- FMIN (R80): Returns the FP32 minimumNumber of two operands. -/
  | fmin (h : Hdr) (d a b : Reg) (fm : FMod)
  /-- FFMA (R79): Computes v[a] × v[b] + v[d] in FP32 with one rounding. -/
  | ffma (h : Hdr) (d a b : Reg) (fm : FMod)
  /-- FFMS (R79): Computes v[a] × v[b] − v[d] in FP32 with one rounding. -/
  | ffms (h : Hdr) (d a b : Reg) (fm : FMod)
  /-- FNFMA (R79): Computes −(v[a] × v[b]) + v[d] in FP32 with one rounding. -/
  | fnfma (h : Hdr) (d a b : Reg) (fm : FMod)
  /-- FMAX (R80): Returns the FP32 maximumNumber of two operands. -/
  | fmax (h : Hdr) (d a b : Reg) (fm : FMod)
  /-- FCVT_H_F (R81): Converts FP32 to FP16. -/
  | fcvtHF (h : Hdr) (d a : Reg) (fm : FMod)
  /-- FCVT_BF_F (R81): Converts FP32 to BF16. -/
  | fcvtBfF (h : Hdr) (d a : Reg) (fm : FMod)
  /-- FCVT_F_H (R81): Converts FP16 to FP32 exactly. -/
  | fcvtFH (h : Hdr) (d a : Reg) (fm : FMod)
  /-- FCVT_F_BF (R81): Converts BF16 to FP32 exactly. -/
  | fcvtFBf (h : Hdr) (d a : Reg) (fm : FMod)
  /-- FCVT_I_F (R81): Converts FP32 to a saturated signed 32-bit integer. -/
  | fcvtIF (h : Hdr) (d a : Reg) (fm : FMod)
  /-- FCVT_U_F (R81): Converts FP32 to a saturated unsigned 32-bit integer. -/
  | fcvtUF (h : Hdr) (d a : Reg) (fm : FMod)
  /-- FCVT_F_I (R81): Converts a signed 32-bit integer to FP32. -/
  | fcvtFI (h : Hdr) (d a : Reg) (fm : FMod)
  /-- FCVT_F_U (R81): Converts an unsigned 32-bit integer to FP32. -/
  | fcvtFU (h : Hdr) (d a : Reg) (fm : FMod)
  /-- FCVT_F_L (R81): Converts a signed 64-bit integer pair to FP32. -/
  | fcvtFL (h : Hdr) (d a : Reg) (fm : FMod)
  /-- FRINT (R81): Rounds an FP32 value to an integral FP32 value by the mode. -/
  | frint (h : Hdr) (d a : Reg) (fm : FMod)
  /-- FCMP (R82): Writes a floating-point comparison of v[a] and v[b] to a predicate. -/
  | fcmp (h : Hdr) (pd : PReg) (cond : BitVec 3) (a b : Reg) (fm : FMod)
  /-- FCLASS (R83): Writes a one-hot class mask of the FP32 value in v[a]. -/
  | fclass (h : Hdr) (d a : Reg) (fm : FMod)
  /-- FABS (R84): Clears the sign bit of v[a]. -/
  | fabs (h : Hdr) (d a : Reg) (fi fo : Bool)
  /-- FNEG (R84): Inverts the sign bit of v[a]. -/
  | fneg (h : Hdr) (d a : Reg) (fi fo : Bool)
  /-- FCOPYSIGN (R84): Gives v[a] the sign bit of v[b]. -/
  | fcopysign (h : Hdr) (d a b : Reg) (fi fo : Bool)
  /-- HADD2 (R85): Adds packed 16-bit pairs, each half rounded alone. -/
  | hadd2 (h : Hdr) (d a b : Reg) (hm : HMod)
  /-- HMUL2 (R85): Multiplies packed 16-bit pairs, each half rounded alone. -/
  | hmul2 (h : Hdr) (d a b : Reg) (hm : HMod)
  /-- HFMA2 (R85): Fused multiply-adds packed 16-bit pairs into v[d]. -/
  | hfma2 (h : Hdr) (d a b : Reg) (hm : HMod)
  /-- FDOT2 (R85): Adds the exact pair dot product of two packed operands to FP32 v[d] with one rounding. -/
  | fdot2 (h : Hdr) (d a b : Reg) (hm : HMod)
  /-- RCP (R87): Computes 1/x as a long result. -/
  | rcp (h : Hdr) (d a : Reg) (fi fo : Bool)
  /-- RSQ (R87): Computes 1/√x as a long result. -/
  | rsq (h : Hdr) (d a : Reg) (fi fo : Bool)
  /-- SQRT (R87): Computes √x correctly rounded as a long result. -/
  | sqrt (h : Hdr) (d a : Reg) (fi fo : Bool)
  /-- LG2 (R87): Computes log2 x as a long result. -/
  | lg2 (h : Hdr) (d a : Reg) (fi fo : Bool)
  /-- EX2 (R87): Computes 2^x as a long result. -/
  | ex2 (h : Hdr) (d a : Reg) (fi fo : Bool)
  /-- SIN (R87): Computes sin x as a long result. -/
  | sin (h : Hdr) (d a : Reg) (fi fo : Bool)
  /-- COS (R87): Computes cos x as a long result. -/
  | cos (h : Hdr) (d a : Reg) (fi fo : Bool)
  /-- TANH (R87): Computes tanh x as a long result. -/
  | tanh (h : Hdr) (d a : Reg) (fi fo : Bool)
  /-- XSHUF (R169): Gives each lane of the run v[a] of the lane that v[b] names, or the fill value. -/
  | xshuf (h : Hdr) (d a b : Reg) (f : Bool)
  /-- XSHUFI (R169): Gives each lane of the run v[a] of a lane fixed by an immediate pattern, or the fill value. -/
  | xshufi (h : Hdr) (d a : Reg) (imm : BitVec 6) (f : Bool)
  /-- XVOTE (R171): Writes an ALL, ANY or UNI vote over the run. -/
  | xvote (h : Hdr) (d a : Reg) (imm : BitVec 6)
  /-- XBALLOT (R171): Writes the mask of run lanes whose v[a] is non-zero. -/
  | xballot (h : Hdr) (d a : Reg)
  /-- XMATCH (R171): Writes the mask of run lanes whose value equals the reading lane's. -/
  | xmatch (h : Hdr) (d a : Reg) (f : Bool)
  /-- XCOMPACT (R172): Moves the values of kept lanes to the lowest lanes of the run. -/
  | xcompact (h : Hdr) (d a b : Reg) (f : Bool)
  /-- XRED (R173): Writes the reduction of v[a] over the run by the fixed tree of R52. -/
  | xred (h : Hdr) (d a : Reg) (imm : BitVec 6)
  /-- XSCAN (R173): Writes the inclusive or exclusive scan of v[a] over the run. -/
  | xscan (h : Hdr) (d a : Reg) (imm : BitVec 6) (f : Bool)
  /-- XGATH (R170): Reads four bytes at each lane's offset from a 128-byte line formed by the lanes' v[a]. -/
  | xgath (h : Hdr) (d a b : Reg) (f : Bool)
  /-- PERMB (R175): Looks up each byte's nibble in a 16-byte table held in the lane's own registers. -/
  | permb (h : Hdr) (d a b : Reg) (f : Bool)
  /-- XRANK (R174): Writes each run lane's rank of its key. -/
  | xrank (h : Hdr) (d a : Reg) (imm : BitVec 6)
  /-- REGROUP (R180): Moves each run lane's thread into the regrouping table under its key. -/
  | regroup (h : Hdr) (a : Reg)
  /-- RSTEP (R122): Claims the next grain of the innermost range frame. -/
  | rstep (h : Hdr) (d : Reg)
  /-- JOIN (R123): Pays an overflow call, runs a latent frame inline, or stalls until a promoted frame's piece is done. -/
  | join (h : Hdr)
  /-- RJOIN (R124): Returns the partial of the next piece of an exhausted range, stalling until it is done. -/
  | rjoin (h : Hdr) (d : Reg)
  /-- ENDP (R125): Ends an overflow call, an inline body or a root frame, delivering its partial. -/
  | endp (h : Hdr) (a : Reg)
  /-- FORKR (R121): Opens an active range frame and runs its body at once. -/
  | forkr (h : Hdr) (vs : Reg) (off : BitVec 18)
  /-- DBNZ (R105): Decrements a register and branches when it is not zero. -/
  | dbnz (h : Hdr) (vs : Reg) (off : BitVec 18)
  /-- LD_B (R90): Loads a sign-extended byte as a long result. -/
  | ldB (h : Hdr) (d base : Reg) (off : BitVec 12)
  /-- LD_BU (R90): Loads a zero-extended byte as a long result. -/
  | ldBu (h : Hdr) (d base : Reg) (off : BitVec 12)
  /-- LD_H (R90): Loads a sign-extended half as a long result. -/
  | ldH (h : Hdr) (d base : Reg) (off : BitVec 12)
  /-- LD_HU (R90): Loads a zero-extended half as a long result. -/
  | ldHu (h : Hdr) (d base : Reg) (off : BitVec 12)
  /-- LD_W (R90): Loads a 32-bit word as a long result. -/
  | ldW (h : Hdr) (d base : Reg) (off : BitVec 12)
  /-- LD_D (R90): Loads 8 bytes into a register pair. -/
  | ldD (h : Hdr) (d base : Reg) (off : BitVec 12)
  /-- LD_Q (R90): Loads 16 bytes into four registers. -/
  | ldQ (h : Hdr) (d base : Reg) (off : BitVec 12)
  /-- LD_T (R98): Loads one element decoded by the memory's format as FP32. -/
  | ldT (h : Hdr) (d base : Reg) (off : BitVec 12)
  /-- ST_B (R90): Stores the low byte of a register. -/
  | stB (h : Hdr) (vs base : Reg) (off : BitVec 12)
  /-- ST_H (R90): Stores the low half of a register. -/
  | stH (h : Hdr) (vs base : Reg) (off : BitVec 12)
  /-- ST_W (R90): Stores a 32-bit register. -/
  | stW (h : Hdr) (vs base : Reg) (off : BitVec 12)
  /-- ST_D (R90): Stores a register pair. -/
  | stD (h : Hdr) (vs base : Reg) (off : BitVec 12)
  /-- ST_Q (R90): Stores four registers. -/
  | stQ (h : Hdr) (vs base : Reg) (off : BitVec 12)
  /-- ST_T (R99): Encodes an FP32 value into one element of the memory's format and writes only its bits. -/
  | stT (h : Hdr) (vs base : Reg) (off : BitVec 12)
  /-- ATOM (R212): Performs an indivisible read-modify-write at the target and returns the old value. -/
  | atom (h : Hdr) (d a : Reg) (w : Bool) (op : BitVec 4) (sc : BitVec 3)
  /-- ACAS (R212): Performs an indivisible compare-and-swap at the target and returns the old value. -/
  | acas (h : Hdr) (d a : Reg) (w : Bool) (sc : BitVec 3)
  /-- FRED (R215): Combines a value into a memory word indivisibly and returns nothing. -/
  | fred (h : Hdr) (vs a : Reg) (op fmt : BitVec 2) (sc : BitVec 3)
  /-- ACQ (R222): Reads a synchronisation word at its target as an acquire of its scope. -/
  | acq (h : Hdr) (d a : Reg) (sc : BitVec 3)
  /-- REL (R223): Writes a synchronisation word after the thread's earlier accesses have performed. -/
  | rel (h : Hdr) (vs a : Reg) (sc : BitVec 3)
  /-- FENCE (R224): Completes after every earlier access and, at die scope or wider, after writing back and dropping the L1. -/
  | fence (h : Hdr) (sc : BitVec 3)
  /-- CFLUSH (R218): Writes back dirty sectors of a span as far as the scope requires. -/
  | cflush (h : Hdr) (sc : BitVec 3) (a b : Reg)
  /-- CINV (R218): Flushes a span and drops its clean cached copies. -/
  | cinv (h : Hdr) (sc : BitVec 3) (a b : Reg)
  /-- PREF (R218): Asks for a block to be brought to L1 or L2, with no other effect. -/
  | pref (h : Hdr) (lv : BitVec 6) (a : Reg)
  /-- QPUSH (R241): Appends a 64-bit entry to the matrix mailbox q4, stalling while it is full. -/
  | qpush (h : Hdr) (k : BitVec 6) (a : Reg)
  /-- QPOP (R241): Removes the oldest entry of q1, q3 or q5 and delivers it as a long result. -/
  | qpop (h : Hdr) (d : Reg) (k : BitVec 6)
  /-- QSTAT (R241): Writes the count of credits or entries of a queue port. -/
  | qstat (h : Hdr) (d : Reg) (k : BitVec 6)
  /-- CPY (R246): Supplies one gang's slice of a crew copy command. -/
  | cpy (h : Hdr) (a : Reg)
  /-- CPYT (R248): Pushes a copy described by a tensor layout record or a record-cache handle. -/
  | cpyt (h : Hdr) (vc a : Reg) (mode : BitVec 6)
  /-- CPYQ (R250): Pushes a copy that quantises FP source elements into L6, K8 or K4 blocks. -/
  | cpyq (h : Hdr) (a : Reg)
  /-- CPRES (R257): Resumes or cancels the crew's frozen copy in a landing slot. -/
  | cpres (h : Hdr) (a : Reg)
  /-- WMRD (R256): Reads the watermark of the oldest active copy covering an address. -/
  | wmrd (h : Hdr) (d a : Reg)
  /-- TLREG (R249): Checks a tensor layout record and pins it in the record cache, returning a handle. -/
  | tlreg (h : Hdr) (d a : Reg)
  /-- TLRFL (R249): Re-reads and rechecks the record of a handle. -/
  | tlrfl (h : Hdr) (d a : Reg)
  /-- TLUNREG (R249): Releases a record-cache handle. -/
  | tlunreg (h : Hdr) (a : Reg)
  /-- LSEG (R209): Sets a crew-local segment entry with its format attributes. -/
  | lseg (h : Hdr) (k : BitVec 6) (a : Reg)
  /-- IXJOB (R291): Reads a job descriptor and pushes an index job. -/
  | ixjob (h : Hdr) (vc a : Reg)
  /-- IXRES (R296): Resumes or cancels the suspended index job named by its cursor record. -/
  | ixres (h : Hdr) (vc a : Reg)
  /-- NBINIT (R262): Sets a named barrier's expected count. -/
  | nbinit (h : Hdr) (a : Reg) (k : BitVec 6)
  /-- NBARR (R262): Makes one arrival of the gang at a named barrier. -/
  | nbarr (h : Hdr) (k : BitVec 6)
  /-- NBWAIT (R262): Stalls until the named barrier's phase fixed at first attempt completes. -/
  | nbwait (h : Hdr) (k : BitVec 6)
  /-- NBSYNC (R262): Arrives at a named barrier at first attempt and waits for that phase. -/
  | nbsync (h : Hdr) (k : BitVec 6)
  /-- GBAR (R265): Arrives at and waits on the region-wide barrier of a co-resident region. -/
  | gbar (h : Hdr)
  /-- RGINIT (R259): Initialises a crew ring's base, stage size, stage count and counters. -/
  | rginit (h : Hdr) (a : Reg) (k : BitVec 6)
  /-- RGRES (R259): Reserves the next ring stage, stalling while the ring is full. -/
  | rgres (h : Hdr) (d : Reg) (k : BitVec 6)
  /-- RGPUB (R259): Marks a ring sequence published as a crew-scope release. -/
  | rgpub (h : Hdr) (a : Reg) (k : BitVec 6)
  /-- RGWAIT (R259): Delivers the next published ring stage as a long result. -/
  | rgwait (h : Hdr) (d : Reg) (k : BitVec 6)
  /-- RGREL (R259): Marks a ring sequence released. -/
  | rgrel (h : Hdr) (a : Reg) (k : BitVec 6)
  /-- CHUNK (R217): Claims a shrinking chunk of iterations from a counter cell indivisibly. -/
  | chunk (h : Hdr) (d a : Reg)
  /-- MSTREAM (R270): Starts a matrix stream on a sequencer or returns a refusal code. -/
  | mstream (h : Hdr) (d a : Reg)
  /-- LAUNCH (R306): Admits a launch record as a child region or writes it into an EDGE queue. -/
  | launch (h : Hdr) (d a b : Reg)
  /-- RSPLIT (R198): Cuts a range into two at an address. -/
  | rsplit (h : Hdr) (d a : Reg)
  /-- RMERGE (R198): Joins two adjacent matching ranges into one. -/
  | rmerge (h : Hdr) (d a : Reg)
  /-- RBIND (R199): Binds a range to a synchronisation object at a scope. -/
  | rbind (h : Hdr) (d a b : Reg)
  /-- RQUERY (R200): Returns 64 bits of the descriptor of the range containing an address. -/
  | rquery (h : Hdr) (d a : Reg) (qw : BitVec 6)
  /-- RSET (R201): Installs or updates a range descriptor in a context. -/
  | rset (h : Hdr) (d a b : Reg)
  /-- RINV (R202): Removes a range from a context and returns a ticket. -/
  | rinv (h : Hdr) (d a b : Reg)
  /-- RWAIT (R203): Stalls until everything a ticket covers has performed. -/
  | rwait (h : Hdr) (d a : Reg)
  /-- RCOMPACT (R204): Starts the planer moving a range to a new physical base and returns a ticket. -/
  | rcompact (h : Hdr) (d a b : Reg)
  /-- MLDB (R276): Loads a B-slot of the matrix array from memory indivisibly. -/
  | mldb (bslot : BitVec 8) (off : BitVec 40)
  /-- MMA (R278): Adds the exact dense tile product of A and a B-slot into a C tile with one rounding. -/
  | mma (r : Bool) (rnd acc : BitVec 2) (bslot : BitVec 8) (aoff coff : BitVec 10)
  /-- MMAS (R278): Adds the exact tile product with an N:12 sparse B-slot into a C tile. -/
  | mmas (r : Bool) (rnd acc : BitVec 2) (bslot : BitVec 8) (aoff coff : BitVec 10) (sp : BitVec 4)
  /-- MMAP (R278): Adds the exact tile products of a paired B-slot into two C tiles. -/
  | mmap (r : Bool) (rnd acc : BitVec 2) (bslot : BitVec 8) (aoff coff : BitVec 10)
  /-- MCLR (R280): Writes +0 to every element of a C tile. -/
  | mclr (acc : BitVec 2) (coff : BitVec 10)
  /-- MOUT (R281): Writes a C tile to memory in increasing address order. -/
  | mout (coff : BitVec 10) (acc : BitVec 2) (off : BitVec 40)
  /-- MARRIVE (R282): Waits for earlier MOUTs and arrives at a crew barrier. -/
  | marrive (nb : BitVec 4)
  /-- STREAM_MWAIT (R282): Stalls the stream until the barrier has completed enough phases since acceptance. -/
  | streamMwait (nb : BitVec 4)
  /-- MLOOP (R283): Opens a counted loop on the stream's loop stack. -/
  | mloop (count : BitVec 16) (off : BitVec 24)
  /-- MJMP (R283): Jumps within the stream leaving the loop stack unchanged. -/
  | mjmp (off : BitVec 24)
  /-- SERVICE_RESTART (R275): A service-mode stream takes the next q4 entry and restarts at word 0 or ends. -/
  | serviceRestart (k : Nat)
  /-- LONG_RESULT_RETURN (R24): A long result is written to its destination, releasing a switch-marker park when the pending set empties. -/
  | longResultReturn (k : Nat)
  /-- FETCH_AGENT_DELIVERY (R355): The die fetch agent reads a missed 192-byte block and delivers it to the spindles that missed on it. -/
  | fetchAgentDelivery (die ctx blk : Nat)
  /-- HEARTBEAT_TICK (R153): At every multiple of the period P, each live held thread of a cycle-mode region becomes due for promotion. -/
  | heartbeatTick (r : Nat)
  /-- LOGICAL_TICK (R164): A deterministic thread's retired-packet count reaching a multiple of H makes it due for promotion. -/
  | logicalTick (u : Nat)
  /-- PROMOTION (R127): At a due thread's packet boundary the lowest promotable frame is promoted and a spawn request written, or deferred. -/
  | promotion (u : Nat)
  /-- GANG_ASSEMBLER_TAKE (R158): The gang assembler takes a spawn request into a spawn gang, releasing it when full. -/
  | gangAssemblerTake (die : Nat)
  /-- SPAWN_GANG_TIMEOUT (R158): In cycle mode a partial spawn gang is released when its oldest request has waited 256 cycles. -/
  | spawnGangTimeout (die k : Nat)
  /-- SPAWN_GANG_PLACE (R159): A released spawn gang is placed in a free gang slot within the budget and its threads start. -/
  | spawnGangPlace (die k sp : Nat)
  /-- REGROUP_TIMEOUT (R163): In cycle mode a regrouping entry is released when its oldest thread has waited 256 cycles. -/
  | regroupTimeout (sp k : Nat)
  /-- CREW_WIDE_FLUSH (R163): In deterministic mode, once every live lane of a crew is in the table or stalled, all its entries are released. -/
  | crewWideFlush (k : Nat)
  /-- TIMER_TRAP (R322): %wtime reaching %wtrap makes a timer trap pending for the gang's next issue. -/
  | timerTrap (g : Nat)
  /-- WAITC_TIMEOUT (R114): A WAITC delivers its last value 65,536 cycles after issue. -/
  | waitcTimeout (k : Nat)
  /-- MEMORY_ACCESS_PERFORM (R220): A store, atomic, FRED or REL performs at its target in the byte's write order. -/
  | memoryAccessPerform (k : Nat)
  /-- ROUTER_MERGE (R216): A router merges two commutative requests to one target into one request. -/
  | routerMerge (k l : Nat)
  /-- PLANER_BLOCK_MOVE (R205): The planer drains accesses to a 64-byte block, copies it and advances CWM, finishing or freezing the compaction. -/
  | planerBlockMove (k : Nat)
  /-- COPY_START (R251): An accepted copy starts once it holds a landing slot, its ring stage and no earlier overlapping copy is active. -/
  | copyStart (k : Nat)
  /-- COPY_LAND (R251): A copy segment translates and lands bytes in increasing order, raising the watermark. -/
  | copyLand (k n : Nat)
  /-- INDEX_JOB_START (R290): An accepted gather job starts once a landing slot frees. -/
  | indexJobStart (k : Nat)
  /-- INDEX_ELEMENT (R288): An index engine processes one element of a job, completing or suspending it. -/
  | indexElement (k : Nat)
  /-- CONTEXT_SAVE (R326): A victim whose gangs are all at save points is saved. -/
  | contextSave (vt : Victim)
  /-- FORCED_SAVE (R327): At the pre-emption deadline issue stops and the victim is saved by force. -/
  | forcedSave (vt : Victim)
  /-- CONTEXT_RESTORE (R331): A saved crew is restored, replaying F = 0 entries before its first group. -/
  | contextRestore (vt : Victim) (sp : Nat)
  /-- RECORD_ADMISSION (R307): The scheduler admits or refuses the next record of an enabled work queue. -/
  | recordAdmission (q : Nat)
  /-- CREW_PLACE (R312): A waiting crew is placed on a spindle when a slot within its budget frees. -/
  | crewPlace (k sp : Nat)
  /-- REGION_COMPLETE (R309): A region whose crews, spawns and children are complete writes its completion word. -/
  | regionComplete (r : Nat)
  /-- TOKEN_ACCRUAL (R310): Each cycle a context's balance drops by spindles held and rises by its rate. -/
  | tokenAccrual (ctx : Nat)
  /-- FUNCTION_LEVEL_RESET (R334): A virtual function reset removes its contexts' fault domains and reports completion. -/
  | functionLevelReset (vf : Nat)
  /-- POWER_ON (R371): The ROM verifies and starts firmware and bring-up runs in order. `ports`: the ports that trained; none where some memory
  did not train, since device links train after it (R373). -/
  | powerOn (image : Nat) (ports : Option (BitVec 12))
  /-- ATTESTATION_REQUEST (R372): An SPDM vendor-defined request returns a signed attestation report. -/
  | attestationRequest (ctx : Nat) (nonce : BitVec 256)
  /-- LINK_CRC_ERROR (R362): A device-link flit that fails its CRC is replayed. -/
  | linkCrcError (port : Nat)
  /-- LINK_REQUEST_TIMEOUT (R362): A link request not delivered in 1,000,000 cycles is answered as an uncorrectable error. -/
  | linkRequestTimeout (k : Nat)
  /-- HOST_WINDOW_ACCESS (R233): A host access to the host window over CXL.cache or BAR4 performs coherently. -/
  | hostWindowAccess (acc : HostAccess)
  /-- HOST_BAR2_ACCESS (R365): A host CXL.io access through BAR2 is translated by the context's ranges and checked. -/
  | hostBar2Access (acc : HostAccess)
  /-- SRAM_ERROR (R325): A soft error in SRAM is corrected, refetched, deferred or removes the owning domain. -/
  | sramError (site : SramSite) (single : Bool)
  /-- POWER_THROTTLE (R3): The device throttles issue to hold its power limit. -/
  | powerThrottle (on : Bool)
  /-- THERMAL_THROTTLE (R374): A die junction reaching 105 °C throttles issue. -/
  | thermalThrottle (die temp : Nat)
  /-- THERMAL_RECOVERY (R374): A throttled die cooling below 100 °C ends the throttle. -/
  | thermalRecovery (die temp : Nat)
  /-- THERMAL_SHUTDOWN (R374): A junction at 115 °C kills every fault domain, drops links and turns off regulators. -/
  | thermalShutdown (die temp : Nat)
  /-- REGISTER_WRITE (R10): A write to a register with no row of its own takes effect by its Access code. -/
  | registerWrite (fn off : Nat) (val : BitVec 64)
  /-- ILLEGAL_ENCODING (R62): A gang word whose major is reserved or 0x3F, or whose function code, kind, condition, zero field, hint or pair register is invalid, traps with ILLEGAL when its group issues. -/
  | illegalEncoding (w : Word)
  /-- ILLEGAL_STREAM_WORD (R67): A sequencer that fetches a stream word with a reserved major, a reserved field value or a non-zero reserved bit stops the stream with status ILLEGAL. -/
  | illegalStreamWord (w : BitVec 64)
  /-- MNOP (R283): Stream word with no effect. -/
  | mnop
  /-- MEND (R283): Ends the stream, or in service mode posts NEXT and waits on q4, after earlier MOUTs perform. -/
  | mend
  /-- LOAD (R352): The loader checks, places and relocates a code object and enters its symbols. -/
  | load
  /-- LOAD_WITH_OVERRIDE (R353): Loads a code object whose strong definitions may replace weak bindings. -/
  | loadWithOverride
  /-- UNLOAD (R354): Removes a code object unless it is in use. -/
  | unload
  /-- FORCED_UNLOAD (R354): Removes a code object, marking saved crews that use it GONE. -/
  | forcedUnload
  /-- CREATE (R360): Creates a context from a context descriptor. -/
  | create
  /-- DESTROY (R359): Destroys a context with no live region. -/
  | destroy
  /-- SETACC (R367): Replaces, adds or removes an access-table entry after draining and flushing affected accesses. -/
  | setacc
  /-- INSTALL_KEY (R369): Unwraps a key sent under an SPDM session into a context key slot. -/
  | installKey
  /-- RESUME (R361): Marks a fault record resumed, releasing its sub-gang when all its records are resumed. -/
  | resume
  /-- KILL (R359): Removes a fault domain of a context with KILLED. -/
  | kill
  /-- SETGALE (R313): Sets the number of spindles per die reserved for the gale class. -/
  | setgale
deriving DecidableEq, Repr

end Sys2Proof
end

