-- ==== Sys2Proof/WellFormed.lean ====
section
/-! DEFINITION. Which operands an instruction may carry (R11, R55, R59, R61, R62 and the limits of each entry): the conditions that
the decoder applies after it has cut the fields. A word that breaks one is no instruction and traps with ILLEGAL (R62). -/

namespace Sys2Proof

/-- A special-register number that R14 assigns. -/
def spReadable (sp : BitVec 6) : Bool := decide (sp.toNat < 0x16)
/-- A special register of 64 bits (R14). -/
def spWide (sp : BitVec 6) : Bool :=
  sp == 0x08#6 || sp == 0x09#6 || sp == 0x0A#6 || sp == 0x0C#6 || sp == 0x0E#6 || sp == 0x14#6
/-- A special register whose Access is RW (R14, R15). -/
def spWritable (sp : BitVec 6) : Bool := sp == 0x0A#6 || sp == 0x0E#6 || sp == 0x0F#6 || sp == 0x10#6
/-- XSHUFI patterns: a broadcast, or one of four kinds with e from 0 to 4 (R169). -/
def xshufiOk (imm : BitVec 6) : Bool := imm.getLsbD 5 || decide ((imm.extractLsb' 0 3).toNat < 5)
/-- XRED and XSCAN: operations 0 to 10, no rounding field for the integer ones (R173). -/
def xredOk (imm : BitVec 6) : Bool :=
  decide ((imm.extractLsb' 0 4).toNat < 11) && (decide (8 ≤ (imm.extractLsb' 0 4).toNat) || imm.extractLsb' 4 2 == 0#2)
/-- XRANK: [5:3] zero and a key type that is not 0b11 (R168, R174). -/
def xrankOk (imm : BitVec 6) : Bool := imm.extractLsb' 3 3 == 0#3 && imm.extractLsb' 0 2 != 3#2
/-- Scope codes 0 to 5 (R212, R219). -/
def scopeOk (sc : BitVec 3) : Bool := decide (sc.toNat < 6)
/-- ATOM: operations 0 to 12, the floating-point ones only at 32 bits, and an even d at 64 bits (R212). -/
def atomOk (d : Reg) (w : Bool) (op : BitVec 4) : Bool :=
  decide (op.toNat < 13) && (!w || (decide (op.toNat < 10) && isEven d))

/-- The operand limits of each instruction. The steps that are no words have none; an encoding that is no instruction carries its
word as it is. -/
def Instr.wellFormed : Instr → Bool
  | .nop _ => true
  | .exit _ => true
  | .trap _ _ => true
  | .yield _ => true
  | .waitc _ _ a _ => isEven a
  | .entry _ _ => true
  | .eret _ => true
  | .bra _ cc hint _ => cc != 15#4 && hint != 3#2
  | .ychk _ hint _ => hint != 3#2
  | .call _ _ => true
  | .ret _ => true
  | .brx _ a => isEven a
  | .calli _ _ a => isEven a
  | .movs _ d sp => spReadable sp && (!spWide sp || isEven d)
  | .smov _ sp a => spWritable sp && (!spWide sp || isEven a)
  | .mjoin _ k => decide (k.toNat < 12)
  | .mleave _ k => decide (k.toNat < 12)
  | .mwait _ k => decide (k.toNat < 12)
  | .mset _ k _ => decide (k.toNat < 12)
  | .mget _ _ k => decide (k.toNat < 12)
  | .mact _ _ => true
  | .fork _ vs _ => isEven vs
  | .add _ _ _ _ => true
  | .sub _ _ _ _ => true
  | .and _ _ _ _ => true
  | .or _ _ _ _ => true
  | .xor _ _ _ _ => true
  | .andn _ _ _ _ => true
  | .shl _ _ _ _ => true
  | .shr _ _ _ _ => true
  | .sar _ _ _ _ => true
  | .rotl _ _ _ _ => true
  | .min _ _ _ _ => true
  | .max _ _ _ _ => true
  | .minu _ _ _ _ => true
  | .maxu _ _ _ _ => true
  | .addmin _ _ _ _ => true
  | .addsat _ _ _ _ => true
  | .subsat _ _ _ _ => true
  | .absdiff _ _ _ _ => true
  | .mul _ _ _ _ => true
  | .mulh _ _ _ _ => true
  | .mulhu _ _ _ _ => true
  | .mula _ _ _ _ => true
  | .clz _ _ _ => true
  | .ctz _ _ _ => true
  | .popc _ _ _ => true
  | .brev _ _ _ => true
  | .bfx _ _ _ _ => true
  | .bfxu _ _ _ _ => true
  | .bfi _ _ _ _ => true
  | .sel _ _ _ _ => true
  | .extb _ _ _ => true
  | .exth _ _ _ => true
  | .add64 _ d a b => isEven d && isEven a && isEven b
  | .sub64 _ d a b => isEven d && isEven a && isEven b
  | .shl64 _ d a _ => isEven d && isEven a
  | .shr64 _ d a _ => isEven d && isEven a
  | .lea _ d a _ => isEven d && isEven a
  | .cmp _ _ _ _ _ => true
  | .plog _ _ _ _ _ => true
  | .addi _ _ _ _ => true
  | .andi _ _ _ _ => true
  | .ori _ _ _ _ => true
  | .xori _ _ _ _ => true
  | .shli _ _ _ _ => true
  | .shri _ _ _ _ => true
  | .sari _ _ _ _ => true
  | .rotli _ _ _ _ => true
  | .cmpi _ _ _ _ _ => true
  | .muli _ _ _ _ => true
  | .addi64 _ d a _ => isEven d && isEven a
  | .movi _ _ _ => true
  | .movhi _ _ _ => true
  | .fadd _ _ _ _ _ => true
  | .fsub _ _ _ _ _ => true
  | .fmul _ _ _ _ _ => true
  | .fmin _ _ _ _ _ => true
  | .ffma _ _ _ _ _ => true
  | .ffms _ _ _ _ _ => true
  | .fnfma _ _ _ _ _ => true
  | .fmax _ _ _ _ _ => true
  | .fcvtHF _ _ _ _ => true
  | .fcvtBfF _ _ _ _ => true
  | .fcvtFH _ _ _ _ => true
  | .fcvtFBf _ _ _ _ => true
  | .fcvtIF _ _ _ _ => true
  | .fcvtUF _ _ _ _ => true
  | .fcvtFI _ _ _ _ => true
  | .fcvtFU _ _ _ _ => true
  | .fcvtFL _ _ a _ => isEven a
  | .frint _ _ _ _ => true
  | .fcmp _ _ cond _ _ _ => decide (cond.toNat < 6)
  | .fclass _ _ _ _ => true
  | .fabs _ _ _ _ _ => true
  | .fneg _ _ _ _ _ => true
  | .fcopysign _ _ _ _ _ _ => true
  | .hadd2 _ _ _ _ _ => true
  | .hmul2 _ _ _ _ _ => true
  | .hfma2 _ _ _ _ _ => true
  | .fdot2 _ _ _ _ _ => true
  | .rcp _ _ _ _ _ => true
  | .rsq _ _ _ _ _ => true
  | .sqrt _ _ _ _ _ => true
  | .lg2 _ _ _ _ _ => true
  | .ex2 _ _ _ _ _ => true
  | .sin _ _ _ _ _ => true
  | .cos _ _ _ _ _ => true
  | .tanh _ _ _ _ _ => true
  | .xshuf _ _ _ _ _ => true
  | .xshufi _ _ _ imm _ => xshufiOk imm
  | .xvote _ _ _ imm => decide (imm.toNat < 3)
  | .xballot _ _ _ => true
  | .xmatch _ _ a f => (!f || isEven a)
  | .xcompact _ _ _ _ _ => true
  | .xred _ _ _ imm => xredOk imm
  | .xscan _ _ _ imm _ => xredOk imm
  | .xgath _ _ _ _ _ => true
  | .permb _ _ a _ _ => isQuad a
  | .xrank _ _ _ imm => xrankOk imm
  | .regroup _ _ => true
  | .rstep _ d => isEven d
  | .join _ => true
  | .rjoin _ d => isQuad d
  | .endp _ a => isEven a
  | .forkr _ vs _ => isEven vs && decide (vs.val ≤ 58)
  | .dbnz _ _ _ => true
  | .ldB _ _ base _ => isEven base
  | .ldBu _ _ base _ => isEven base
  | .ldH _ _ base _ => isEven base
  | .ldHu _ _ base _ => isEven base
  | .ldW _ _ base _ => isEven base
  | .ldD _ d base _ => isEven base && isEven d
  | .ldQ _ d base _ => isEven base && isQuad d
  | .ldT _ _ base _ => isEven base
  | .stB _ _ base _ => isEven base
  | .stH _ _ base _ => isEven base
  | .stW _ _ base _ => isEven base
  | .stD _ vs base _ => isEven base && isEven vs
  | .stQ _ vs base _ => isEven base && isQuad vs
  | .stT _ _ base _ => isEven base
  | .atom _ d a w op sc => isEven a && scopeOk sc && atomOk d w op
  | .acas _ d a w sc => isEven a && scopeOk sc && (if w then isQuad d else isEven d)
  | .fred _ _ a op _ sc => isEven a && scopeOk sc && op != 3#2
  | .acq _ _ a sc => isEven a && scopeOk sc
  | .rel _ _ a sc => isEven a && scopeOk sc
  | .fence _ sc => scopeOk sc
  | .cflush _ sc a _ => isEven a && scopeOk sc
  | .cinv _ sc a _ => isEven a && scopeOk sc
  | .pref _ lv a => isEven a && decide (lv.toNat < 2)
  | .qpush _ k a => isEven a && k == 4#6
  | .qpop _ d k => isEven d && (k == 1#6 || k == 3#6 || k == 5#6)
  | .qstat _ _ k => decide (k.toNat < 6)
  | .cpy _ a => isEven a && decide (a.val ≤ 58)
  | .cpyt _ _ a mode => (mode == 1#6 || (mode == 0#6 && isEven a))
  | .cpyq _ a => isEven a && decide (a.val ≤ 58)
  | .cpres _ _ => true
  | .wmrd _ d a => isEven d && isEven a
  | .tlreg _ _ a => isEven a
  | .tlrfl _ _ _ => true
  | .tlunreg _ _ => true
  | .lseg _ k a => isQuad a && decide (k.toNat < 8)
  | .ixjob _ _ a => isEven a
  | .ixres _ _ a => isEven a
  | .nbinit _ _ k => decide (k.toNat < 16)
  | .nbarr _ k => decide (k.toNat < 16)
  | .nbwait _ k => decide (k.toNat < 16)
  | .nbsync _ k => decide (k.toNat < 16)
  | .gbar _ => true
  | .rginit _ a k => isQuad a && decide (k.toNat < 8)
  | .rgres _ d k => isEven d && decide (k.toNat < 8)
  | .rgpub _ _ k => decide (k.toNat < 8)
  | .rgwait _ d k => isEven d && decide (k.toNat < 8)
  | .rgrel _ _ k => decide (k.toNat < 8)
  | .chunk _ d a => isEven d && isEven a
  | .mstream _ _ a => isQuad a && decide (a.val ≤ 56)
  | .launch _ d a _ => isEven d && isEven a
  | .rsplit _ _ a => isEven a
  | .rmerge _ _ a => isEven a
  | .rbind _ _ a b => isEven a && isEven b
  | .rquery _ d a qw => isEven d && isEven a && decide (qw.toNat < 8)
  | .rset _ _ a _ => isEven a
  | .rinv _ d a _ => isEven d && isEven a
  | .rwait _ _ _ => true
  | .rcompact _ d a b => isEven d && isEven a && isEven b
  | .mnop => true
  | .mldb _ off => off.extractLsb' 0 6 == 0#6
  | .mma _ _ acc _ _ _ => acc != 3#2
  | .mmas _ _ acc _ _ _ sp => acc != 3#2 && decide (sp.toNat < 4)
  | .mmap _ _ acc _ _ _ => acc != 3#2
  | .mclr acc _ => acc != 3#2
  | .mout _ acc off => acc != 3#2 && off.extractLsb' 0 6 == 0#6
  | .marrive _ => true
  | .streamMwait _ => true
  | .mloop count _ => count != 0#16
  | .mjmp _ => true
  | .mend => true
  | .serviceRestart _ => true
  | .longResultReturn _ => true
  | .fetchAgentDelivery _ _ _ => true
  | .heartbeatTick _ => true
  | .logicalTick _ => true
  | .promotion _ => true
  | .gangAssemblerTake _ => true
  | .spawnGangTimeout _ _ => true
  | .spawnGangPlace _ _ _ => true
  | .regroupTimeout _ _ => true
  | .crewWideFlush _ => true
  | .timerTrap _ => true
  | .waitcTimeout _ => true
  | .memoryAccessPerform _ => true
  | .routerMerge _ _ => true
  | .planerBlockMove _ => true
  | .copyStart _ => true
  | .copyLand _ _ => true
  | .indexJobStart _ => true
  | .indexElement _ => true
  | .contextSave _ => true
  | .forcedSave _ => true
  | .contextRestore _ _ => true
  | .recordAdmission _ => true
  | .crewPlace _ _ => true
  | .regionComplete _ => true
  | .tokenAccrual _ => true
  | .load => true
  | .loadWithOverride => true
  | .unload => true
  | .forcedUnload => true
  | .create => true
  | .destroy => true
  | .setacc => true
  | .installKey => true
  | .resume => true
  | .kill => true
  | .setgale => true
  | .functionLevelReset _ => true
  | .powerOn _ _ => true
  | .attestationRequest _ _ => true
  | .linkCrcError _ => true
  | .linkRequestTimeout _ => true
  | .hostWindowAccess _ => true
  | .hostBar2Access _ => true
  | .sramError _ _ => true
  | .powerThrottle _ => true
  | .thermalThrottle _ _ => true
  | .thermalRecovery _ _ => true
  | .thermalShutdown _ _ => true
  | .registerWrite _ _ _ => true
  | .illegalEncoding _ => true
  | .illegalStreamWord _ => true

end Sys2Proof
end

