-- ==== Sys2Proof/Decode.lean ====
section
/-! DEFINITION. The decoder of gang words and of matrix-stream words, total on all words and rejecting by name, and after it the
encoder, both written from R19, R54 to R62 and R65, R66. A word is cut once into its header and its four six-bit fields. -/

namespace Sys2Proof

/-- Why a word is no instruction (R59, R62, R67). -/
inductive Reject where
  | shortBytes          -- fewer bytes than a word has
  | reservedMajor       -- 0x1A, 0x1B, 0x39 to 0x3E
  | permanentlyIllegal  -- 0x3F
  | unassignedFunction  -- a function code, kind or condition that is not assigned
  | nonzeroField        -- a field marked zero is not zero
  | badOperand          -- an operand breaks its limit
deriving DecidableEq, Repr

/-- A 12-bit immediate as two six-bit fields, and an 18-bit and a 24-bit one as three and four (R54). -/
abbrev hi6 (x : BitVec 12) : BitVec 6 := x.extractLsb' 6 6
abbrev lo6 (x : BitVec 12) : BitVec 6 := x.extractLsb' 0 6
abbrev t2 (x : BitVec 18) : BitVec 6 := x.extractLsb' 12 6
abbrev t1 (x : BitVec 18) : BitVec 6 := x.extractLsb' 6 6
abbrev t0 (x : BitVec 18) : BitVec 6 := x.extractLsb' 0 6
abbrev u3 (x : BitVec 24) : BitVec 6 := x.extractLsb' 18 6
abbrev u2 (x : BitVec 24) : BitVec 6 := x.extractLsb' 12 6
abbrev u1 (x : BitVec 24) : BitVec 6 := x.extractLsb' 6 6
abbrev u0 (x : BitVec 24) : BitVec 6 := x.extractLsb' 0 6
/-- FI, FO and rm as they stand above fn2 (R54), and FI, FO, T, RS (R55). -/
abbrev fmb (fm : FMod) : BitVec 4 := bb fm.fi ++ bb fm.fo ++ fm.rm
abbrev hmb (hm : HMod) : BitVec 4 := bb hm.fi ++ bb hm.fo ++ bb hm.t ++ bb hm.rs

/-- A gang word from its header and fields (R19, R54). -/
def mkWord (h : Hdr) (mj f3 f2 f1 f0 : BitVec 6) : Word :=
  (bb h.c ++ bb h.s ++ mj ++ f3 ++ f2 ++ f1 ++ f0 : BitVec 32)
/-- The header of a gang word (R19). -/
def hdrOf (w : Word) : Hdr := ⟨w.getLsbD 31, w.getLsbD 30⟩
/-- The major opcode of a gang word (R19). -/
def majorOf (w : Word) : BitVec 6 := w.extractLsb' 24 6
/-- Take the instruction when its zero fields are zero. -/
def okIf (z : Bool) (i : Instr) : Except Reject Instr := if z then .ok i else .error .nonzeroField

/-- Major 0x00 (R58, R59). -/
def decMajor00 (h : Hdr) (f3 f2 f1 f0 : BitVec 6) : Except Reject Instr :=
  match f0.toNat with
  | 0 => okIf (f3 == 0#6 && f2 == 0#6 && f1 == 0#6) (.nop h)
  | 1 => okIf (f3 == 0#6 && f2 == 0#6 && f1 == 0#6) (.exit h)
  | 2 => okIf (f3 == 0#6 && f1 == 0#6) (.trap h f2.toFin)
  | 3 => okIf (f3 == 0#6 && f2 == 0#6 && f1 == 0#6) (.yield h)
  | 4 => .ok (.waitc h f3.toFin f2.toFin f1.toFin)
  | 5 => okIf (f3 == 0#6) (.entry h (f2 ++ f1))
  | 6 => okIf (f3 == 0#6 && f2 == 0#6 && f1 == 0#6) (.eret h)
  | _ => .error .unassignedFunction

/-- Major 0x01 (R58, R59). -/
def decMajor01 (h : Hdr) (f3 f2 f1 f0 : BitVec 6) : Except Reject Instr :=
  if f3.extractLsb' 2 4 == 15#4 then .ok (.ychk h (f3.extractLsb' 0 2) (f2 ++ f1 ++ f0))
  else .ok (.bra h (f3.extractLsb' 2 4) (f3.extractLsb' 0 2) (f2 ++ f1 ++ f0))

/-- Major 0x02 (R58, R59). -/
def decMajor02 (h : Hdr) (f3 f2 f1 f0 : BitVec 6) : Except Reject Instr :=
  .ok (.call h (f3 ++ f2 ++ f1 ++ f0))

/-- Major 0x03 (R58, R59). -/
def decMajor03 (h : Hdr) (f3 f2 f1 f0 : BitVec 6) : Except Reject Instr :=
  match f0.toNat with
  | 0 => okIf (f3 == 0#6 && f2 == 0#6 && f1 == 0#6) (.ret h)
  | 1 => okIf (f3 == 0#6 && f1 == 0#6) (.brx h f2.toFin)
  | 2 => .ok (.calli h (f3 ++ f1) f2.toFin)
  | 8 => okIf (f1 == 0#6) (.movs h f3.toFin f2)
  | 9 => okIf (f1 == 0#6) (.smov h f3 f2.toFin)
  | 16 => okIf (f2 == 0#6 && f1 == 0#6) (.mjoin h f3)
  | 17 => okIf (f2 == 0#6 && f1 == 0#6) (.mleave h f3)
  | 18 => okIf (f2 == 0#6 && f1 == 0#6) (.mwait h f3)
  | 19 => okIf (f1 == 0#6) (.mset h f3 f2.toFin)
  | 20 => okIf (f2 == 0#6) (.mget h f3.toFin f1)
  | 21 => okIf (f2 == 0#6 && f1 == 0#6) (.mact h f3.toFin)
  | _ => .error .unassignedFunction

/-- Major 0x04 (R58, R59). -/
def decMajor04 (h : Hdr) (f3 f2 f1 f0 : BitVec 6) : Except Reject Instr :=
  .ok (.fork h f3.toFin (f2 ++ f1 ++ f0))

/-- Major 0x05 (R58, R59). -/
def decMajor05 (h : Hdr) (f3 f2 f1 f0 : BitVec 6) : Except Reject Instr :=
  match f0.toNat with
  | 0 => .ok (.add h f3.toFin f2.toFin f1.toFin)
  | 1 => .ok (.sub h f3.toFin f2.toFin f1.toFin)
  | 2 => .ok (.and h f3.toFin f2.toFin f1.toFin)
  | 3 => .ok (.or h f3.toFin f2.toFin f1.toFin)
  | 4 => .ok (.xor h f3.toFin f2.toFin f1.toFin)
  | 5 => .ok (.andn h f3.toFin f2.toFin f1.toFin)
  | 6 => .ok (.shl h f3.toFin f2.toFin f1.toFin)
  | 7 => .ok (.shr h f3.toFin f2.toFin f1.toFin)
  | 8 => .ok (.sar h f3.toFin f2.toFin f1.toFin)
  | 9 => .ok (.rotl h f3.toFin f2.toFin f1.toFin)
  | 10 => .ok (.min h f3.toFin f2.toFin f1.toFin)
  | 11 => .ok (.max h f3.toFin f2.toFin f1.toFin)
  | 12 => .ok (.minu h f3.toFin f2.toFin f1.toFin)
  | 13 => .ok (.maxu h f3.toFin f2.toFin f1.toFin)
  | 14 => .ok (.addmin h f3.toFin f2.toFin f1.toFin)
  | 15 => .ok (.addsat h f3.toFin f2.toFin f1.toFin)
  | 16 => .ok (.subsat h f3.toFin f2.toFin f1.toFin)
  | 17 => .ok (.absdiff h f3.toFin f2.toFin f1.toFin)
  | _ => .error .unassignedFunction

/-- Major 0x06 (R58, R59). -/
def decMajor06 (h : Hdr) (f3 f2 f1 f0 : BitVec 6) : Except Reject Instr :=
  match f0.toNat with
  | 0 => .ok (.mul h f3.toFin f2.toFin f1.toFin)
  | 1 => .ok (.mulh h f3.toFin f2.toFin f1.toFin)
  | 2 => .ok (.mulhu h f3.toFin f2.toFin f1.toFin)
  | 3 => .ok (.mula h f3.toFin f2.toFin f1.toFin)
  | 4 => okIf (f1 == 0#6) (.clz h f3.toFin f2.toFin)
  | 5 => okIf (f1 == 0#6) (.ctz h f3.toFin f2.toFin)
  | 6 => okIf (f1 == 0#6) (.popc h f3.toFin f2.toFin)
  | 7 => okIf (f1 == 0#6) (.brev h f3.toFin f2.toFin)
  | 8 => .ok (.bfx h f3.toFin f2.toFin f1.toFin)
  | 9 => .ok (.bfxu h f3.toFin f2.toFin f1.toFin)
  | 10 => .ok (.bfi h f3.toFin f2.toFin f1.toFin)
  | 11 => .ok (.sel h f3.toFin f2.toFin f1.toFin)
  | 12 => okIf (f1 == 0#6) (.extb h f3.toFin f2.toFin)
  | 13 => okIf (f1 == 0#6) (.exth h f3.toFin f2.toFin)
  | 14 => .ok (.add64 h f3.toFin f2.toFin f1.toFin)
  | 15 => .ok (.sub64 h f3.toFin f2.toFin f1.toFin)
  | 16 => .ok (.shl64 h f3.toFin f2.toFin f1.toFin)
  | 17 => .ok (.shr64 h f3.toFin f2.toFin f1.toFin)
  | 18 => .ok (.lea h f3.toFin f2.toFin f1.toFin)
  | _ => .error .unassignedFunction

/-- Major 0x07 (R58, R59). -/
def decMajor07 (h : Hdr) (f3 f2 f1 f0 : BitVec 6) : Except Reject Instr :=
  match f0.toNat with
  | 0 => .ok (.cmp h (f3.extractLsb' 3 3).toFin (f3.extractLsb' 0 3) f2.toFin f1.toFin)
  | 1 => okIf (f1.extractLsb' 0 5 == 0#5) (.plog h (f3.extractLsb' 3 3).toFin (f3.extractLsb' 0 3).toFin (f2.extractLsb' 3 3).toFin (f2.extractLsb' 0 3 ++ f1.extractLsb' 5 1))
  | _ => .error .unassignedFunction

/-- Major 0x08 (R58, R59). -/
def decMajor08 (h : Hdr) (f3 f2 f1 f0 : BitVec 6) : Except Reject Instr :=
  .ok (.addi h f3.toFin f2.toFin (f1 ++ f0))

/-- Major 0x09 (R58, R59). -/
def decMajor09 (h : Hdr) (f3 f2 f1 f0 : BitVec 6) : Except Reject Instr :=
  .ok (.andi h f3.toFin f2.toFin (f1 ++ f0))

/-- Major 0x0A (R58, R59). -/
def decMajor0A (h : Hdr) (f3 f2 f1 f0 : BitVec 6) : Except Reject Instr :=
  .ok (.ori h f3.toFin f2.toFin (f1 ++ f0))

/-- Major 0x0B (R58, R59). -/
def decMajor0B (h : Hdr) (f3 f2 f1 f0 : BitVec 6) : Except Reject Instr :=
  .ok (.xori h f3.toFin f2.toFin (f1 ++ f0))

/-- Major 0x0C (R58, R59). -/
def decMajor0C (h : Hdr) (f3 f2 f1 f0 : BitVec 6) : Except Reject Instr :=
  match (f1.extractLsb' 4 2).toNat with
  | 0 => okIf (f1.extractLsb' 0 4 == 0#4 && f0.extractLsb' 5 1 == 0#1) (.shli h f3.toFin f2.toFin (f0.extractLsb' 0 5))
  | 1 => okIf (f1.extractLsb' 0 4 == 0#4 && f0.extractLsb' 5 1 == 0#1) (.shri h f3.toFin f2.toFin (f0.extractLsb' 0 5))
  | 2 => okIf (f1.extractLsb' 0 4 == 0#4 && f0.extractLsb' 5 1 == 0#1) (.sari h f3.toFin f2.toFin (f0.extractLsb' 0 5))
  | 3 => okIf (f1.extractLsb' 0 4 == 0#4 && f0.extractLsb' 5 1 == 0#1) (.rotli h f3.toFin f2.toFin (f0.extractLsb' 0 5))
  | _ => .error .unassignedFunction

/-- Major 0x0D (R58, R59). -/
def decMajor0D (h : Hdr) (f3 f2 f1 f0 : BitVec 6) : Except Reject Instr :=
  .ok (.cmpi h (f3.extractLsb' 3 3).toFin (f3.extractLsb' 0 3) f2.toFin (f1 ++ f0))

/-- Major 0x0E (R58, R59). -/
def decMajor0E (h : Hdr) (f3 f2 f1 f0 : BitVec 6) : Except Reject Instr :=
  .ok (.muli h f3.toFin f2.toFin (f1 ++ f0))

/-- Major 0x0F (R58, R59). -/
def decMajor0F (h : Hdr) (f3 f2 f1 f0 : BitVec 6) : Except Reject Instr :=
  .ok (.addi64 h f3.toFin f2.toFin (f1 ++ f0))

/-- Major 0x10 (R58, R59). -/
def decMajor10 (h : Hdr) (f3 f2 f1 f0 : BitVec 6) : Except Reject Instr :=
  .ok (.movi h f3.toFin (f2 ++ f1 ++ f0))

/-- Major 0x11 (R58, R59). -/
def decMajor11 (h : Hdr) (f3 f2 f1 f0 : BitVec 6) : Except Reject Instr :=
  .ok (.movhi h f3.toFin (f2 ++ f1 ++ f0))

/-- Major 0x12 (R58, R59). -/
def decMajor12 (h : Hdr) (f3 f2 f1 f0 : BitVec 6) : Except Reject Instr :=
  match (f0.extractLsb' 0 2).toNat with
  | 0 => .ok (.fadd h f3.toFin f2.toFin f1.toFin ⟨f0.getLsbD 5, f0.getLsbD 4, f0.extractLsb' 2 2⟩)
  | 1 => .ok (.fsub h f3.toFin f2.toFin f1.toFin ⟨f0.getLsbD 5, f0.getLsbD 4, f0.extractLsb' 2 2⟩)
  | 2 => .ok (.fmul h f3.toFin f2.toFin f1.toFin ⟨f0.getLsbD 5, f0.getLsbD 4, f0.extractLsb' 2 2⟩)
  | 3 => .ok (.fmin h f3.toFin f2.toFin f1.toFin ⟨f0.getLsbD 5, f0.getLsbD 4, f0.extractLsb' 2 2⟩)
  | _ => .error .unassignedFunction

/-- Major 0x13 (R58, R59). -/
def decMajor13 (h : Hdr) (f3 f2 f1 f0 : BitVec 6) : Except Reject Instr :=
  match (f0.extractLsb' 0 2).toNat with
  | 0 => .ok (.ffma h f3.toFin f2.toFin f1.toFin ⟨f0.getLsbD 5, f0.getLsbD 4, f0.extractLsb' 2 2⟩)
  | 1 => .ok (.ffms h f3.toFin f2.toFin f1.toFin ⟨f0.getLsbD 5, f0.getLsbD 4, f0.extractLsb' 2 2⟩)
  | 2 => .ok (.fnfma h f3.toFin f2.toFin f1.toFin ⟨f0.getLsbD 5, f0.getLsbD 4, f0.extractLsb' 2 2⟩)
  | 3 => .ok (.fmax h f3.toFin f2.toFin f1.toFin ⟨f0.getLsbD 5, f0.getLsbD 4, f0.extractLsb' 2 2⟩)
  | _ => .error .unassignedFunction

/-- Major 0x14 (R58, R59). -/
def decMajor14 (h : Hdr) (f3 f2 f1 f0 : BitVec 6) : Except Reject Instr :=
  match f1.toNat with
  | 0 => okIf (f0.extractLsb' 0 2 == 0#2) (.fcvtHF h f3.toFin f2.toFin ⟨f0.getLsbD 5, f0.getLsbD 4, f0.extractLsb' 2 2⟩)
  | 1 => okIf (f0.extractLsb' 0 2 == 0#2) (.fcvtBfF h f3.toFin f2.toFin ⟨f0.getLsbD 5, f0.getLsbD 4, f0.extractLsb' 2 2⟩)
  | 2 => okIf (f0.extractLsb' 0 2 == 0#2) (.fcvtFH h f3.toFin f2.toFin ⟨f0.getLsbD 5, f0.getLsbD 4, f0.extractLsb' 2 2⟩)
  | 3 => okIf (f0.extractLsb' 0 2 == 0#2) (.fcvtFBf h f3.toFin f2.toFin ⟨f0.getLsbD 5, f0.getLsbD 4, f0.extractLsb' 2 2⟩)
  | 4 => okIf (f0.extractLsb' 0 2 == 0#2) (.fcvtIF h f3.toFin f2.toFin ⟨f0.getLsbD 5, f0.getLsbD 4, f0.extractLsb' 2 2⟩)
  | 5 => okIf (f0.extractLsb' 0 2 == 0#2) (.fcvtUF h f3.toFin f2.toFin ⟨f0.getLsbD 5, f0.getLsbD 4, f0.extractLsb' 2 2⟩)
  | 6 => okIf (f0.extractLsb' 0 2 == 0#2) (.fcvtFI h f3.toFin f2.toFin ⟨f0.getLsbD 5, f0.getLsbD 4, f0.extractLsb' 2 2⟩)
  | 7 => okIf (f0.extractLsb' 0 2 == 0#2) (.fcvtFU h f3.toFin f2.toFin ⟨f0.getLsbD 5, f0.getLsbD 4, f0.extractLsb' 2 2⟩)
  | 8 => okIf (f0.extractLsb' 0 2 == 0#2) (.fcvtFL h f3.toFin f2.toFin ⟨f0.getLsbD 5, f0.getLsbD 4, f0.extractLsb' 2 2⟩)
  | 9 => okIf (f0.extractLsb' 0 2 == 0#2) (.frint h f3.toFin f2.toFin ⟨f0.getLsbD 5, f0.getLsbD 4, f0.extractLsb' 2 2⟩)
  | _ => .error .unassignedFunction

/-- Major 0x15 (R58, R59). -/
def decMajor15 (h : Hdr) (f3 f2 f1 f0 : BitVec 6) : Except Reject Instr :=
  match (f0.extractLsb' 0 2).toNat with
  | 0 => .ok (.fcmp h (f3.extractLsb' 3 3).toFin (f3.extractLsb' 0 3) f2.toFin f1.toFin ⟨f0.getLsbD 5, f0.getLsbD 4, f0.extractLsb' 2 2⟩)
  | 1 => okIf (f1 == 0#6) (.fclass h f3.toFin f2.toFin ⟨f0.getLsbD 5, f0.getLsbD 4, f0.extractLsb' 2 2⟩)
  | 2 =>
    match (f0.extractLsb' 2 2).toNat with
    | 0 => okIf (f1 == 0#6) (.fabs h f3.toFin f2.toFin (f0.getLsbD 5) (f0.getLsbD 4))
    | 1 => okIf (f1 == 0#6) (.fneg h f3.toFin f2.toFin (f0.getLsbD 5) (f0.getLsbD 4))
    | 2 => .ok (.fcopysign h f3.toFin f2.toFin f1.toFin (f0.getLsbD 5) (f0.getLsbD 4))
    | _ => .error .unassignedFunction
  | _ => .error .unassignedFunction

/-- Major 0x16 (R58, R59). -/
def decMajor16 (h : Hdr) (f3 f2 f1 f0 : BitVec 6) : Except Reject Instr :=
  match (f0.extractLsb' 0 2).toNat with
  | 0 => .ok (.hadd2 h f3.toFin f2.toFin f1.toFin ⟨f0.getLsbD 5, f0.getLsbD 4, f0.getLsbD 3, f0.getLsbD 2⟩)
  | 1 => .ok (.hmul2 h f3.toFin f2.toFin f1.toFin ⟨f0.getLsbD 5, f0.getLsbD 4, f0.getLsbD 3, f0.getLsbD 2⟩)
  | 2 => .ok (.hfma2 h f3.toFin f2.toFin f1.toFin ⟨f0.getLsbD 5, f0.getLsbD 4, f0.getLsbD 3, f0.getLsbD 2⟩)
  | 3 => .ok (.fdot2 h f3.toFin f2.toFin f1.toFin ⟨f0.getLsbD 5, f0.getLsbD 4, f0.getLsbD 3, f0.getLsbD 2⟩)
  | _ => .error .unassignedFunction

/-- Major 0x17 (R58, R59). -/
def decMajor17 (h : Hdr) (f3 f2 f1 f0 : BitVec 6) : Except Reject Instr :=
  match (f1.extractLsb' 3 3).toNat with
  | 0 => okIf (f1.extractLsb' 0 3 == 0#3 && f0.extractLsb' 0 4 == 0#4) (.rcp h f3.toFin f2.toFin (f0.getLsbD 5) (f0.getLsbD 4))
  | 1 => okIf (f1.extractLsb' 0 3 == 0#3 && f0.extractLsb' 0 4 == 0#4) (.rsq h f3.toFin f2.toFin (f0.getLsbD 5) (f0.getLsbD 4))
  | 2 => okIf (f1.extractLsb' 0 3 == 0#3 && f0.extractLsb' 0 4 == 0#4) (.sqrt h f3.toFin f2.toFin (f0.getLsbD 5) (f0.getLsbD 4))
  | 3 => okIf (f1.extractLsb' 0 3 == 0#3 && f0.extractLsb' 0 4 == 0#4) (.lg2 h f3.toFin f2.toFin (f0.getLsbD 5) (f0.getLsbD 4))
  | 4 => okIf (f1.extractLsb' 0 3 == 0#3 && f0.extractLsb' 0 4 == 0#4) (.ex2 h f3.toFin f2.toFin (f0.getLsbD 5) (f0.getLsbD 4))
  | 5 => okIf (f1.extractLsb' 0 3 == 0#3 && f0.extractLsb' 0 4 == 0#4) (.sin h f3.toFin f2.toFin (f0.getLsbD 5) (f0.getLsbD 4))
  | 6 => okIf (f1.extractLsb' 0 3 == 0#3 && f0.extractLsb' 0 4 == 0#4) (.cos h f3.toFin f2.toFin (f0.getLsbD 5) (f0.getLsbD 4))
  | 7 => okIf (f1.extractLsb' 0 3 == 0#3 && f0.extractLsb' 0 4 == 0#4) (.tanh h f3.toFin f2.toFin (f0.getLsbD 5) (f0.getLsbD 4))
  | _ => .error .unassignedFunction

/-- Major 0x18 (R58, R59). -/
def decMajor18 (h : Hdr) (f3 f2 f1 f0 : BitVec 6) : Except Reject Instr :=
  match (f0.extractLsb' 0 5).toNat with
  | 0 => .ok (.xshuf h f3.toFin f2.toFin f1.toFin (f0.getLsbD 5))
  | 1 => .ok (.xshufi h f3.toFin f2.toFin f1 (f0.getLsbD 5))
  | 2 => okIf (f0.extractLsb' 5 1 == 0#1) (.xvote h f3.toFin f2.toFin f1)
  | 3 => okIf (f1 == 0#6 && f0.extractLsb' 5 1 == 0#1) (.xballot h f3.toFin f2.toFin)
  | 4 => okIf (f1 == 0#6) (.xmatch h f3.toFin f2.toFin (f0.getLsbD 5))
  | 5 => .ok (.xcompact h f3.toFin f2.toFin f1.toFin (f0.getLsbD 5))
  | 6 => okIf (f0.extractLsb' 5 1 == 0#1) (.xred h f3.toFin f2.toFin f1)
  | 7 => .ok (.xscan h f3.toFin f2.toFin f1 (f0.getLsbD 5))
  | _ => .error .unassignedFunction

/-- Major 0x19 (R58, R59). -/
def decMajor19 (h : Hdr) (f3 f2 f1 f0 : BitVec 6) : Except Reject Instr :=
  match (f0.extractLsb' 0 5).toNat with
  | 0 => .ok (.xgath h f3.toFin f2.toFin f1.toFin (f0.getLsbD 5))
  | 1 => .ok (.permb h f3.toFin f2.toFin f1.toFin (f0.getLsbD 5))
  | 2 => okIf (f0.extractLsb' 5 1 == 0#1) (.xrank h f3.toFin f2.toFin f1)
  | 3 => okIf (f3 == 0#6 && f1 == 0#6 && f0.extractLsb' 5 1 == 0#1) (.regroup h f2.toFin)
  | _ => .error .unassignedFunction

/-- Major 0x1C (R58, R59). -/
def decMajor1C (h : Hdr) (f3 f2 f1 f0 : BitVec 6) : Except Reject Instr :=
  match f0.toNat with
  | 0 => okIf (f2 == 0#6 && f1 == 0#6) (.rstep h f3.toFin)
  | _ => .error .unassignedFunction

/-- Major 0x1D (R58, R59). -/
def decMajor1D (h : Hdr) (f3 f2 f1 f0 : BitVec 6) : Except Reject Instr :=
  match f0.toNat with
  | 0 => okIf (f3 == 0#6 && f2 == 0#6 && f1 == 0#6) (.join h)
  | 1 => okIf (f2 == 0#6 && f1 == 0#6) (.rjoin h f3.toFin)
  | 2 => okIf (f3 == 0#6 && f1 == 0#6) (.endp h f2.toFin)
  | _ => .error .unassignedFunction

/-- Major 0x1E (R58, R59). -/
def decMajor1E (h : Hdr) (f3 f2 f1 f0 : BitVec 6) : Except Reject Instr :=
  .ok (.forkr h f3.toFin (f2 ++ f1 ++ f0))

/-- Major 0x1F (R58, R59). -/
def decMajor1F (h : Hdr) (f3 f2 f1 f0 : BitVec 6) : Except Reject Instr :=
  .ok (.dbnz h f3.toFin (f2 ++ f1 ++ f0))

/-- Major 0x20 (R58, R59). -/
def decMajor20 (h : Hdr) (f3 f2 f1 f0 : BitVec 6) : Except Reject Instr :=
  .ok (.ldB h f3.toFin f2.toFin (f1 ++ f0))

/-- Major 0x21 (R58, R59). -/
def decMajor21 (h : Hdr) (f3 f2 f1 f0 : BitVec 6) : Except Reject Instr :=
  .ok (.ldBu h f3.toFin f2.toFin (f1 ++ f0))

/-- Major 0x22 (R58, R59). -/
def decMajor22 (h : Hdr) (f3 f2 f1 f0 : BitVec 6) : Except Reject Instr :=
  .ok (.ldH h f3.toFin f2.toFin (f1 ++ f0))

/-- Major 0x23 (R58, R59). -/
def decMajor23 (h : Hdr) (f3 f2 f1 f0 : BitVec 6) : Except Reject Instr :=
  .ok (.ldHu h f3.toFin f2.toFin (f1 ++ f0))

/-- Major 0x24 (R58, R59). -/
def decMajor24 (h : Hdr) (f3 f2 f1 f0 : BitVec 6) : Except Reject Instr :=
  .ok (.ldW h f3.toFin f2.toFin (f1 ++ f0))

/-- Major 0x25 (R58, R59). -/
def decMajor25 (h : Hdr) (f3 f2 f1 f0 : BitVec 6) : Except Reject Instr :=
  .ok (.ldD h f3.toFin f2.toFin (f1 ++ f0))

/-- Major 0x26 (R58, R59). -/
def decMajor26 (h : Hdr) (f3 f2 f1 f0 : BitVec 6) : Except Reject Instr :=
  .ok (.ldQ h f3.toFin f2.toFin (f1 ++ f0))

/-- Major 0x27 (R58, R59). -/
def decMajor27 (h : Hdr) (f3 f2 f1 f0 : BitVec 6) : Except Reject Instr :=
  .ok (.ldT h f3.toFin f2.toFin (f1 ++ f0))

/-- Major 0x28 (R58, R59). -/
def decMajor28 (h : Hdr) (f3 f2 f1 f0 : BitVec 6) : Except Reject Instr :=
  .ok (.stB h f3.toFin f2.toFin (f1 ++ f0))

/-- Major 0x29 (R58, R59). -/
def decMajor29 (h : Hdr) (f3 f2 f1 f0 : BitVec 6) : Except Reject Instr :=
  .ok (.stH h f3.toFin f2.toFin (f1 ++ f0))

/-- Major 0x2A (R58, R59). -/
def decMajor2A (h : Hdr) (f3 f2 f1 f0 : BitVec 6) : Except Reject Instr :=
  .ok (.stW h f3.toFin f2.toFin (f1 ++ f0))

/-- Major 0x2B (R58, R59). -/
def decMajor2B (h : Hdr) (f3 f2 f1 f0 : BitVec 6) : Except Reject Instr :=
  .ok (.stD h f3.toFin f2.toFin (f1 ++ f0))

/-- Major 0x2C (R58, R59). -/
def decMajor2C (h : Hdr) (f3 f2 f1 f0 : BitVec 6) : Except Reject Instr :=
  .ok (.stQ h f3.toFin f2.toFin (f1 ++ f0))

/-- Major 0x2D (R58, R59). -/
def decMajor2D (h : Hdr) (f3 f2 f1 f0 : BitVec 6) : Except Reject Instr :=
  .ok (.stT h f3.toFin f2.toFin (f1 ++ f0))

/-- Major 0x2E (R58, R59). -/
def decMajor2E (h : Hdr) (f3 f2 f1 f0 : BitVec 6) : Except Reject Instr :=
  match (f0.extractLsb' 0 3).toNat with
  | 0 => okIf (f1.extractLsb' 0 1 == 0#1) (.atom h f3.toFin f2.toFin (f1.getLsbD 5) (f1.extractLsb' 1 4) (f0.extractLsb' 3 3))
  | 1 => okIf (f1.extractLsb' 0 5 == 0#5) (.acas h f3.toFin f2.toFin (f1.getLsbD 5) (f0.extractLsb' 3 3))
  | _ => .error .unassignedFunction

/-- Major 0x2F (R58, R59). -/
def decMajor2F (h : Hdr) (f3 f2 f1 f0 : BitVec 6) : Except Reject Instr :=
  okIf (f1.extractLsb' 0 2 == 0#2 && f0.extractLsb' 0 3 == 0#3) (.fred h f3.toFin f2.toFin (f1.extractLsb' 4 2) (f1.extractLsb' 2 2) (f0.extractLsb' 3 3))

/-- Major 0x30 (R58, R59). -/
def decMajor30 (h : Hdr) (f3 f2 f1 f0 : BitVec 6) : Except Reject Instr :=
  match f0.toNat with
  | 0 => okIf (f1.extractLsb' 0 3 == 0#3) (.acq h f3.toFin f2.toFin (f1.extractLsb' 3 3))
  | 1 => okIf (f1.extractLsb' 0 3 == 0#3) (.rel h f3.toFin f2.toFin (f1.extractLsb' 3 3))
  | 2 => okIf (f3 == 0#6 && f2 == 0#6 && f1.extractLsb' 0 3 == 0#3) (.fence h (f1.extractLsb' 3 3))
  | 3 => okIf (f3.extractLsb' 0 3 == 0#3) (.cflush h (f3.extractLsb' 3 3) f2.toFin f1.toFin)
  | 4 => okIf (f3.extractLsb' 0 3 == 0#3) (.cinv h (f3.extractLsb' 3 3) f2.toFin f1.toFin)
  | 5 => okIf (f1 == 0#6) (.pref h f3 f2.toFin)
  | _ => .error .unassignedFunction

/-- Major 0x31 (R58, R59). -/
def decMajor31 (h : Hdr) (f3 f2 f1 f0 : BitVec 6) : Except Reject Instr :=
  match f0.toNat with
  | 0 => okIf (f1 == 0#6) (.qpush h f3 f2.toFin)
  | 1 => okIf (f1 == 0#6) (.qpop h f3.toFin f2)
  | 2 => okIf (f1 == 0#6) (.qstat h f3.toFin f2)
  | _ => .error .unassignedFunction

/-- Major 0x32 (R58, R59). -/
def decMajor32 (h : Hdr) (f3 f2 f1 f0 : BitVec 6) : Except Reject Instr :=
  match f0.toNat with
  | 0 => okIf (f3 == 0#6 && f1 == 0#6) (.cpy h f2.toFin)
  | 1 => .ok (.cpyt h f3.toFin f2.toFin f1)
  | 2 => okIf (f3 == 0#6 && f1 == 0#6) (.cpyq h f2.toFin)
  | 3 => okIf (f3 == 0#6 && f1 == 0#6) (.cpres h f2.toFin)
  | 4 => okIf (f1 == 0#6) (.wmrd h f3.toFin f2.toFin)
  | 5 => okIf (f1 == 0#6) (.tlreg h f3.toFin f2.toFin)
  | 6 => okIf (f1 == 0#6) (.tlrfl h f3.toFin f2.toFin)
  | 7 => okIf (f3 == 0#6 && f1 == 0#6) (.tlunreg h f2.toFin)
  | 8 => okIf (f1 == 0#6) (.lseg h f3 f2.toFin)
  | _ => .error .unassignedFunction

/-- Major 0x33 (R58, R59). -/
def decMajor33 (h : Hdr) (f3 f2 f1 f0 : BitVec 6) : Except Reject Instr :=
  match f0.toNat with
  | 0 => okIf (f1 == 0#6) (.ixjob h f3.toFin f2.toFin)
  | 1 => okIf (f1 == 0#6) (.ixres h f3.toFin f2.toFin)
  | _ => .error .unassignedFunction

/-- Major 0x34 (R58, R59). -/
def decMajor34 (h : Hdr) (f3 f2 f1 f0 : BitVec 6) : Except Reject Instr :=
  match f0.toNat with
  | 0 => okIf (f3 == 0#6) (.nbinit h f2.toFin f1)
  | 1 => okIf (f3 == 0#6 && f2 == 0#6) (.nbarr h f1)
  | 2 => okIf (f3 == 0#6 && f2 == 0#6) (.nbwait h f1)
  | 3 => okIf (f3 == 0#6 && f2 == 0#6) (.nbsync h f1)
  | 4 => okIf (f3 == 0#6 && f2 == 0#6 && f1 == 0#6) (.gbar h)
  | _ => .error .unassignedFunction

/-- Major 0x35 (R58, R59). -/
def decMajor35 (h : Hdr) (f3 f2 f1 f0 : BitVec 6) : Except Reject Instr :=
  match f0.toNat with
  | 0 => okIf (f3 == 0#6) (.rginit h f2.toFin f1)
  | 1 => okIf (f2 == 0#6) (.rgres h f3.toFin f1)
  | 2 => okIf (f3 == 0#6) (.rgpub h f2.toFin f1)
  | 3 => okIf (f2 == 0#6) (.rgwait h f3.toFin f1)
  | 4 => okIf (f3 == 0#6) (.rgrel h f2.toFin f1)
  | _ => .error .unassignedFunction

/-- Major 0x36 (R58, R59). -/
def decMajor36 (h : Hdr) (f3 f2 f1 f0 : BitVec 6) : Except Reject Instr :=
  match f0.toNat with
  | 0 => okIf (f1 == 0#6) (.chunk h f3.toFin f2.toFin)
  | 1 => okIf (f1 == 0#6) (.mstream h f3.toFin f2.toFin)
  | 2 => .ok (.launch h f3.toFin f2.toFin f1.toFin)
  | _ => .error .unassignedFunction

/-- Major 0x37 (R58, R59). -/
def decMajor37 (h : Hdr) (f3 f2 f1 f0 : BitVec 6) : Except Reject Instr :=
  match f0.toNat with
  | 0 => okIf (f1 == 0#6) (.rsplit h f3.toFin f2.toFin)
  | 1 => okIf (f1 == 0#6) (.rmerge h f3.toFin f2.toFin)
  | 2 => .ok (.rbind h f3.toFin f2.toFin f1.toFin)
  | 3 => .ok (.rquery h f3.toFin f2.toFin f1)
  | _ => .error .unassignedFunction

/-- Major 0x38 (R58, R59). -/
def decMajor38 (h : Hdr) (f3 f2 f1 f0 : BitVec 6) : Except Reject Instr :=
  match f0.toNat with
  | 0 => .ok (.rset h f3.toFin f2.toFin f1.toFin)
  | 1 => .ok (.rinv h f3.toFin f2.toFin f1.toFin)
  | 2 => okIf (f1 == 0#6) (.rwait h f3.toFin f2.toFin)
  | 3 => .ok (.rcompact h f3.toFin f2.toFin f1.toFin)
  | _ => .error .unassignedFunction

/-- The instruction that a major and four fields spell, before the operand limits are applied (R58, R62). -/
def decodeFields (h : Hdr) (mj f3 f2 f1 f0 : BitVec 6) : Except Reject Instr :=
  match mj.toNat with
  | 0x00 => decMajor00 h f3 f2 f1 f0
  | 0x01 => decMajor01 h f3 f2 f1 f0
  | 0x02 => decMajor02 h f3 f2 f1 f0
  | 0x03 => decMajor03 h f3 f2 f1 f0
  | 0x04 => decMajor04 h f3 f2 f1 f0
  | 0x05 => decMajor05 h f3 f2 f1 f0
  | 0x06 => decMajor06 h f3 f2 f1 f0
  | 0x07 => decMajor07 h f3 f2 f1 f0
  | 0x08 => decMajor08 h f3 f2 f1 f0
  | 0x09 => decMajor09 h f3 f2 f1 f0
  | 0x0A => decMajor0A h f3 f2 f1 f0
  | 0x0B => decMajor0B h f3 f2 f1 f0
  | 0x0C => decMajor0C h f3 f2 f1 f0
  | 0x0D => decMajor0D h f3 f2 f1 f0
  | 0x0E => decMajor0E h f3 f2 f1 f0
  | 0x0F => decMajor0F h f3 f2 f1 f0
  | 0x10 => decMajor10 h f3 f2 f1 f0
  | 0x11 => decMajor11 h f3 f2 f1 f0
  | 0x12 => decMajor12 h f3 f2 f1 f0
  | 0x13 => decMajor13 h f3 f2 f1 f0
  | 0x14 => decMajor14 h f3 f2 f1 f0
  | 0x15 => decMajor15 h f3 f2 f1 f0
  | 0x16 => decMajor16 h f3 f2 f1 f0
  | 0x17 => decMajor17 h f3 f2 f1 f0
  | 0x18 => decMajor18 h f3 f2 f1 f0
  | 0x19 => decMajor19 h f3 f2 f1 f0
  | 0x1C => decMajor1C h f3 f2 f1 f0
  | 0x1D => decMajor1D h f3 f2 f1 f0
  | 0x1E => decMajor1E h f3 f2 f1 f0
  | 0x1F => decMajor1F h f3 f2 f1 f0
  | 0x20 => decMajor20 h f3 f2 f1 f0
  | 0x21 => decMajor21 h f3 f2 f1 f0
  | 0x22 => decMajor22 h f3 f2 f1 f0
  | 0x23 => decMajor23 h f3 f2 f1 f0
  | 0x24 => decMajor24 h f3 f2 f1 f0
  | 0x25 => decMajor25 h f3 f2 f1 f0
  | 0x26 => decMajor26 h f3 f2 f1 f0
  | 0x27 => decMajor27 h f3 f2 f1 f0
  | 0x28 => decMajor28 h f3 f2 f1 f0
  | 0x29 => decMajor29 h f3 f2 f1 f0
  | 0x2A => decMajor2A h f3 f2 f1 f0
  | 0x2B => decMajor2B h f3 f2 f1 f0
  | 0x2C => decMajor2C h f3 f2 f1 f0
  | 0x2D => decMajor2D h f3 f2 f1 f0
  | 0x2E => decMajor2E h f3 f2 f1 f0
  | 0x2F => decMajor2F h f3 f2 f1 f0
  | 0x30 => decMajor30 h f3 f2 f1 f0
  | 0x31 => decMajor31 h f3 f2 f1 f0
  | 0x32 => decMajor32 h f3 f2 f1 f0
  | 0x33 => decMajor33 h f3 f2 f1 f0
  | 0x34 => decMajor34 h f3 f2 f1 f0
  | 0x35 => decMajor35 h f3 f2 f1 f0
  | 0x36 => decMajor36 h f3 f2 f1 f0
  | 0x37 => decMajor37 h f3 f2 f1 f0
  | 0x38 => decMajor38 h f3 f2 f1 f0
  | 0x3F => .error .permanentlyIllegal
  | _ => .error .reservedMajor

/-- Apply the operand limits (R62). -/
def limited : Except Reject Instr → Except Reject Instr
  | .ok i => if i.wellFormed then .ok i else .error .badOperand
  | .error e => .error e

/-- The instruction of a gang word, or why it is none (R62; DEDUCED, log 74). -/
def decodeWord (w : Word) : Except Reject Instr :=
  limited (decodeFields (hdrOf w) (majorOf w) (w.extractLsb' 18 6) (w.extractLsb' 12 6) (w.extractLsb' 6 6) (w.extractLsb' 0 6))

/-- The instruction that issues for a gang word: an encoding that is no instruction issues as one that traps with ILLEGAL (R62). -/
def issueOf (w : Word) : Instr :=
  match decodeWord w with
  | .ok i => i
  | .error _ => .illegalEncoding w

/-! ### Matrix-stream words -/

/-- The instruction that a stream word spells, before its field limits are applied (R65, R66). -/
def decodeStreamFields (w : BitVec 64) : Except Reject Instr :=
  match (w.extractLsb' 58 6).toNat with
  | 0x00 => okIf (w.extractLsb' 0 58 == 0#58) (.mnop)
  | 0x01 => okIf (w.extractLsb' 56 2 == 0#2 && w.extractLsb' 40 8 == 0#8) (.mldb (w.extractLsb' 48 8) (w.extractLsb' 0 40))
  | 0x02 => okIf (w.extractLsb' 21 4 == 0#4 && w.extractLsb' 0 21 == 0#21) (.mma (w.getLsbD 57) (w.extractLsb' 55 2) (w.extractLsb' 53 2) (w.extractLsb' 45 8) (w.extractLsb' 35 10) (w.extractLsb' 25 10))
  | 0x03 => okIf (w.extractLsb' 0 21 == 0#21) (.mmas (w.getLsbD 57) (w.extractLsb' 55 2) (w.extractLsb' 53 2) (w.extractLsb' 45 8) (w.extractLsb' 35 10) (w.extractLsb' 25 10) (w.extractLsb' 21 4))
  | 0x04 => okIf (w.extractLsb' 21 4 == 0#4 && w.extractLsb' 0 21 == 0#21) (.mmap (w.getLsbD 57) (w.extractLsb' 55 2) (w.extractLsb' 53 2) (w.extractLsb' 45 8) (w.extractLsb' 35 10) (w.extractLsb' 25 10))
  | 0x05 => okIf (w.extractLsb' 55 3 == 0#3 && w.extractLsb' 35 18 == 0#18 && w.extractLsb' 0 25 == 0#25) (.mclr (w.extractLsb' 53 2) (w.extractLsb' 25 10))
  | 0x06 => okIf (w.extractLsb' 40 6 == 0#6) (.mout (w.extractLsb' 48 10) (w.extractLsb' 46 2) (w.extractLsb' 0 40))
  | 0x07 => okIf (w.extractLsb' 0 54 == 0#54) (.marrive (w.extractLsb' 54 4))
  | 0x08 => okIf (w.extractLsb' 0 54 == 0#54) (.streamMwait (w.extractLsb' 54 4))
  | 0x09 => okIf (w.extractLsb' 24 18 == 0#18) (.mloop (w.extractLsb' 42 16) (w.extractLsb' 0 24))
  | 0x0A => okIf (w.extractLsb' 42 16 == 0#16 && w.extractLsb' 24 18 == 0#18) (.mjmp (w.extractLsb' 0 24))
  | 0x0B => okIf (w.extractLsb' 0 58 == 0#58) (.mend)
  | 0x3F => .error .permanentlyIllegal
  | _ => .error .reservedMajor

/-- The instruction of a stream word, or why it is none (R67). -/
def decodeStream (w : BitVec 64) : Except Reject Instr := limited (decodeStreamFields w)

/-- The instruction that a sequencer runs for a stream word (R67). -/
def streamIssueOf (w : BitVec 64) : Instr :=
  match decodeStream w with
  | .ok i => i
  | .error _ => .illegalStreamWord w

/-! ### Bytes -/

/-- Four bytes at increasing addresses as a word, the lowest address least significant (R8). -/
def wordOfBytes (b0 b1 b2 b3 : Byte) : Word := (b3 ++ b2 ++ b1 ++ b0 : BitVec 32)
/-- The bytes of a word in address order (R8). -/
def bytesOfWord (w : Word) : List Byte := [w.extractLsb' 0 8, w.extractLsb' 8 8, w.extractLsb' 16 8, w.extractLsb' 24 8]
/-- The number that bytes in address order hold (R8). -/
def leNat : List Byte → Nat
  | [] => 0
  | b :: bs => b.toNat + 256 * leNat bs
/-- A number as n bytes in address order (R8, R9: the low bits are kept). -/
def leBytes : Nat → Nat → List Byte
  | 0, _ => []
  | n + 1, x => BitVec.ofNat 8 x :: leBytes n (x / 256)

/-- The gang word at the head of some bytes, and the bytes after it. -/
def decodeBytes : List Byte → Except Reject (Instr × List Byte)
  | b0 :: b1 :: b2 :: b3 :: rest =>
    match decodeWord (wordOfBytes b0 b1 b2 b3) with
    | .ok i => .ok (i, rest)
    | .error e => .error e
  | _ => .error .shortBytes

/-- The stream word at the head of some bytes, and the bytes after it (R65). -/
def decodeStreamBytes : List Byte → Except Reject (Instr × List Byte)
  | b0 :: b1 :: b2 :: b3 :: b4 :: b5 :: b6 :: b7 :: rest =>
    match decodeStream (BitVec.ofNat 64 (leNat [b0, b1, b2, b3, b4, b5, b6, b7])) with
    | .ok i => .ok (i, rest)
    | .error e => .error e
  | _ => .error .shortBytes

/-- What this decoder reads from a row of the opcode table: the word's bits laid out as the hardware stores them. -/
def decodeTableWord (nbits w : Nat) : Option Instr :=
  if nbits ≤ 32 then
    match decodeBytes (leBytes 4 (w % 2 ^ nbits)) with
    | .ok (i, _) => some i
    | .error _ => none
  else if nbits ≤ 64 then
    match decodeStreamBytes (leBytes 8 (w % 2 ^ nbits)) with
    | .ok (i, _) => some i
    | .error _ => none
  else none

/-! ### The encoder -/

/-- The gang word of an instruction (R54 to R60). Steps that are no gang words have none. -/
def encodeWord : Instr → Option Word
  | .nop h => some (mkWord h 0x00#6 0#6 0#6 0#6 0#6)
  | .exit h => some (mkWord h 0x00#6 0#6 0#6 0#6 1#6)
  | .trap h a => some (mkWord h 0x00#6 0#6 (rb a) 0#6 2#6)
  | .yield h => some (mkWord h 0x00#6 0#6 0#6 0#6 3#6)
  | .waitc h d a b => some (mkWord h 0x00#6 (rb d) (rb a) (rb b) 4#6)
  | .entry h cls => some (mkWord h 0x00#6 0#6 (hi6 cls) (lo6 cls) 5#6)
  | .eret h => some (mkWord h 0x00#6 0#6 0#6 0#6 6#6)
  | .bra h cc hint off => some (mkWord h 0x01#6 (cc ++ hint) (t2 off) (t1 off) (t0 off))
  | .ychk h hint off => some (mkWord h 0x01#6 (15#4 ++ hint) (t2 off) (t1 off) (t0 off))
  | .call h off => some (mkWord h 0x02#6 (u3 off) (u2 off) (u1 off) (u0 off))
  | .ret h => some (mkWord h 0x03#6 0#6 0#6 0#6 0#6)
  | .brx h a => some (mkWord h 0x03#6 0#6 (rb a) 0#6 1#6)
  | .calli h cls a => some (mkWord h 0x03#6 (hi6 cls) (rb a) (lo6 cls) 2#6)
  | .movs h d sp => some (mkWord h 0x03#6 (rb d) sp 0#6 8#6)
  | .smov h sp a => some (mkWord h 0x03#6 sp (rb a) 0#6 9#6)
  | .mjoin h k => some (mkWord h 0x03#6 k 0#6 0#6 16#6)
  | .mleave h k => some (mkWord h 0x03#6 k 0#6 0#6 17#6)
  | .mwait h k => some (mkWord h 0x03#6 k 0#6 0#6 18#6)
  | .mset h k a => some (mkWord h 0x03#6 k (rb a) 0#6 19#6)
  | .mget h d k => some (mkWord h 0x03#6 (rb d) 0#6 k 20#6)
  | .mact h d => some (mkWord h 0x03#6 (rb d) 0#6 0#6 21#6)
  | .fork h vs off => some (mkWord h 0x04#6 (rb vs) (t2 off) (t1 off) (t0 off))
  | .add h d a b => some (mkWord h 0x05#6 (rb d) (rb a) (rb b) 0#6)
  | .sub h d a b => some (mkWord h 0x05#6 (rb d) (rb a) (rb b) 1#6)
  | .and h d a b => some (mkWord h 0x05#6 (rb d) (rb a) (rb b) 2#6)
  | .or h d a b => some (mkWord h 0x05#6 (rb d) (rb a) (rb b) 3#6)
  | .xor h d a b => some (mkWord h 0x05#6 (rb d) (rb a) (rb b) 4#6)
  | .andn h d a b => some (mkWord h 0x05#6 (rb d) (rb a) (rb b) 5#6)
  | .shl h d a b => some (mkWord h 0x05#6 (rb d) (rb a) (rb b) 6#6)
  | .shr h d a b => some (mkWord h 0x05#6 (rb d) (rb a) (rb b) 7#6)
  | .sar h d a b => some (mkWord h 0x05#6 (rb d) (rb a) (rb b) 8#6)
  | .rotl h d a b => some (mkWord h 0x05#6 (rb d) (rb a) (rb b) 9#6)
  | .min h d a b => some (mkWord h 0x05#6 (rb d) (rb a) (rb b) 10#6)
  | .max h d a b => some (mkWord h 0x05#6 (rb d) (rb a) (rb b) 11#6)
  | .minu h d a b => some (mkWord h 0x05#6 (rb d) (rb a) (rb b) 12#6)
  | .maxu h d a b => some (mkWord h 0x05#6 (rb d) (rb a) (rb b) 13#6)
  | .addmin h d a b => some (mkWord h 0x05#6 (rb d) (rb a) (rb b) 14#6)
  | .addsat h d a b => some (mkWord h 0x05#6 (rb d) (rb a) (rb b) 15#6)
  | .subsat h d a b => some (mkWord h 0x05#6 (rb d) (rb a) (rb b) 16#6)
  | .absdiff h d a b => some (mkWord h 0x05#6 (rb d) (rb a) (rb b) 17#6)
  | .mul h d a b => some (mkWord h 0x06#6 (rb d) (rb a) (rb b) 0#6)
  | .mulh h d a b => some (mkWord h 0x06#6 (rb d) (rb a) (rb b) 1#6)
  | .mulhu h d a b => some (mkWord h 0x06#6 (rb d) (rb a) (rb b) 2#6)
  | .mula h d a b => some (mkWord h 0x06#6 (rb d) (rb a) (rb b) 3#6)
  | .clz h d a => some (mkWord h 0x06#6 (rb d) (rb a) 0#6 4#6)
  | .ctz h d a => some (mkWord h 0x06#6 (rb d) (rb a) 0#6 5#6)
  | .popc h d a => some (mkWord h 0x06#6 (rb d) (rb a) 0#6 6#6)
  | .brev h d a => some (mkWord h 0x06#6 (rb d) (rb a) 0#6 7#6)
  | .bfx h d a b => some (mkWord h 0x06#6 (rb d) (rb a) (rb b) 8#6)
  | .bfxu h d a b => some (mkWord h 0x06#6 (rb d) (rb a) (rb b) 9#6)
  | .bfi h d a b => some (mkWord h 0x06#6 (rb d) (rb a) (rb b) 10#6)
  | .sel h d a b => some (mkWord h 0x06#6 (rb d) (rb a) (rb b) 11#6)
  | .extb h d a => some (mkWord h 0x06#6 (rb d) (rb a) 0#6 12#6)
  | .exth h d a => some (mkWord h 0x06#6 (rb d) (rb a) 0#6 13#6)
  | .add64 h d a b => some (mkWord h 0x06#6 (rb d) (rb a) (rb b) 14#6)
  | .sub64 h d a b => some (mkWord h 0x06#6 (rb d) (rb a) (rb b) 15#6)
  | .shl64 h d a b => some (mkWord h 0x06#6 (rb d) (rb a) (rb b) 16#6)
  | .shr64 h d a b => some (mkWord h 0x06#6 (rb d) (rb a) (rb b) 17#6)
  | .lea h d a b => some (mkWord h 0x06#6 (rb d) (rb a) (rb b) 18#6)
  | .cmp h pd cond a b => some (mkWord h 0x07#6 (pb pd ++ cond) (rb a) (rb b) 0#6)
  | .plog h pd pa pq lut => some (mkWord h 0x07#6 (pb pd ++ pb pa) (pb pq ++ lut.extractLsb' 1 3) (lut.extractLsb' 0 1 ++ 0#5) 1#6)
  | .addi h d a imm => some (mkWord h 0x08#6 (rb d) (rb a) (hi6 imm) (lo6 imm))
  | .andi h d a imm => some (mkWord h 0x09#6 (rb d) (rb a) (hi6 imm) (lo6 imm))
  | .ori h d a imm => some (mkWord h 0x0A#6 (rb d) (rb a) (hi6 imm) (lo6 imm))
  | .xori h d a imm => some (mkWord h 0x0B#6 (rb d) (rb a) (hi6 imm) (lo6 imm))
  | .shli h d a n => some (mkWord h 0x0C#6 (rb d) (rb a) (0#2 ++ 0#4) (0#1 ++ n))
  | .shri h d a n => some (mkWord h 0x0C#6 (rb d) (rb a) (1#2 ++ 0#4) (0#1 ++ n))
  | .sari h d a n => some (mkWord h 0x0C#6 (rb d) (rb a) (2#2 ++ 0#4) (0#1 ++ n))
  | .rotli h d a n => some (mkWord h 0x0C#6 (rb d) (rb a) (3#2 ++ 0#4) (0#1 ++ n))
  | .cmpi h pd cond a imm => some (mkWord h 0x0D#6 (pb pd ++ cond) (rb a) (hi6 imm) (lo6 imm))
  | .muli h d a imm => some (mkWord h 0x0E#6 (rb d) (rb a) (hi6 imm) (lo6 imm))
  | .addi64 h d a imm => some (mkWord h 0x0F#6 (rb d) (rb a) (hi6 imm) (lo6 imm))
  | .movi h d imm => some (mkWord h 0x10#6 (rb d) (t2 imm) (t1 imm) (t0 imm))
  | .movhi h d imm => some (mkWord h 0x11#6 (rb d) (t2 imm) (t1 imm) (t0 imm))
  | .fadd h d a b fm => some (mkWord h 0x12#6 (rb d) (rb a) (rb b) (fmb fm ++ 0#2))
  | .fsub h d a b fm => some (mkWord h 0x12#6 (rb d) (rb a) (rb b) (fmb fm ++ 1#2))
  | .fmul h d a b fm => some (mkWord h 0x12#6 (rb d) (rb a) (rb b) (fmb fm ++ 2#2))
  | .fmin h d a b fm => some (mkWord h 0x12#6 (rb d) (rb a) (rb b) (fmb fm ++ 3#2))
  | .ffma h d a b fm => some (mkWord h 0x13#6 (rb d) (rb a) (rb b) (fmb fm ++ 0#2))
  | .ffms h d a b fm => some (mkWord h 0x13#6 (rb d) (rb a) (rb b) (fmb fm ++ 1#2))
  | .fnfma h d a b fm => some (mkWord h 0x13#6 (rb d) (rb a) (rb b) (fmb fm ++ 2#2))
  | .fmax h d a b fm => some (mkWord h 0x13#6 (rb d) (rb a) (rb b) (fmb fm ++ 3#2))
  | .fcvtHF h d a fm => some (mkWord h 0x14#6 (rb d) (rb a) 0#6 (fmb fm ++ 0#2))
  | .fcvtBfF h d a fm => some (mkWord h 0x14#6 (rb d) (rb a) 1#6 (fmb fm ++ 0#2))
  | .fcvtFH h d a fm => some (mkWord h 0x14#6 (rb d) (rb a) 2#6 (fmb fm ++ 0#2))
  | .fcvtFBf h d a fm => some (mkWord h 0x14#6 (rb d) (rb a) 3#6 (fmb fm ++ 0#2))
  | .fcvtIF h d a fm => some (mkWord h 0x14#6 (rb d) (rb a) 4#6 (fmb fm ++ 0#2))
  | .fcvtUF h d a fm => some (mkWord h 0x14#6 (rb d) (rb a) 5#6 (fmb fm ++ 0#2))
  | .fcvtFI h d a fm => some (mkWord h 0x14#6 (rb d) (rb a) 6#6 (fmb fm ++ 0#2))
  | .fcvtFU h d a fm => some (mkWord h 0x14#6 (rb d) (rb a) 7#6 (fmb fm ++ 0#2))
  | .fcvtFL h d a fm => some (mkWord h 0x14#6 (rb d) (rb a) 8#6 (fmb fm ++ 0#2))
  | .frint h d a fm => some (mkWord h 0x14#6 (rb d) (rb a) 9#6 (fmb fm ++ 0#2))
  | .fcmp h pd cond a b fm => some (mkWord h 0x15#6 (pb pd ++ cond) (rb a) (rb b) (fmb fm ++ 0#2))
  | .fclass h d a fm => some (mkWord h 0x15#6 (rb d) (rb a) 0#6 (fmb fm ++ 1#2))
  | .fabs h d a fi fo => some (mkWord h 0x15#6 (rb d) (rb a) 0#6 (bb fi ++ bb fo ++ 0#2 ++ 2#2))
  | .fneg h d a fi fo => some (mkWord h 0x15#6 (rb d) (rb a) 0#6 (bb fi ++ bb fo ++ 1#2 ++ 2#2))
  | .fcopysign h d a b fi fo => some (mkWord h 0x15#6 (rb d) (rb a) (rb b) (bb fi ++ bb fo ++ 2#2 ++ 2#2))
  | .hadd2 h d a b hm => some (mkWord h 0x16#6 (rb d) (rb a) (rb b) (hmb hm ++ 0#2))
  | .hmul2 h d a b hm => some (mkWord h 0x16#6 (rb d) (rb a) (rb b) (hmb hm ++ 1#2))
  | .hfma2 h d a b hm => some (mkWord h 0x16#6 (rb d) (rb a) (rb b) (hmb hm ++ 2#2))
  | .fdot2 h d a b hm => some (mkWord h 0x16#6 (rb d) (rb a) (rb b) (hmb hm ++ 3#2))
  | .rcp h d a fi fo => some (mkWord h 0x17#6 (rb d) (rb a) (0#3 ++ 0#3) (bb fi ++ bb fo ++ 0#4))
  | .rsq h d a fi fo => some (mkWord h 0x17#6 (rb d) (rb a) (1#3 ++ 0#3) (bb fi ++ bb fo ++ 0#4))
  | .sqrt h d a fi fo => some (mkWord h 0x17#6 (rb d) (rb a) (2#3 ++ 0#3) (bb fi ++ bb fo ++ 0#4))
  | .lg2 h d a fi fo => some (mkWord h 0x17#6 (rb d) (rb a) (3#3 ++ 0#3) (bb fi ++ bb fo ++ 0#4))
  | .ex2 h d a fi fo => some (mkWord h 0x17#6 (rb d) (rb a) (4#3 ++ 0#3) (bb fi ++ bb fo ++ 0#4))
  | .sin h d a fi fo => some (mkWord h 0x17#6 (rb d) (rb a) (5#3 ++ 0#3) (bb fi ++ bb fo ++ 0#4))
  | .cos h d a fi fo => some (mkWord h 0x17#6 (rb d) (rb a) (6#3 ++ 0#3) (bb fi ++ bb fo ++ 0#4))
  | .tanh h d a fi fo => some (mkWord h 0x17#6 (rb d) (rb a) (7#3 ++ 0#3) (bb fi ++ bb fo ++ 0#4))
  | .xshuf h d a b f => some (mkWord h 0x18#6 (rb d) (rb a) (rb b) (bb f ++ 0#5))
  | .xshufi h d a imm f => some (mkWord h 0x18#6 (rb d) (rb a) imm (bb f ++ 1#5))
  | .xvote h d a imm => some (mkWord h 0x18#6 (rb d) (rb a) imm (0#1 ++ 2#5))
  | .xballot h d a => some (mkWord h 0x18#6 (rb d) (rb a) 0#6 (0#1 ++ 3#5))
  | .xmatch h d a f => some (mkWord h 0x18#6 (rb d) (rb a) 0#6 (bb f ++ 4#5))
  | .xcompact h d a b f => some (mkWord h 0x18#6 (rb d) (rb a) (rb b) (bb f ++ 5#5))
  | .xred h d a imm => some (mkWord h 0x18#6 (rb d) (rb a) imm (0#1 ++ 6#5))
  | .xscan h d a imm f => some (mkWord h 0x18#6 (rb d) (rb a) imm (bb f ++ 7#5))
  | .xgath h d a b f => some (mkWord h 0x19#6 (rb d) (rb a) (rb b) (bb f ++ 0#5))
  | .permb h d a b f => some (mkWord h 0x19#6 (rb d) (rb a) (rb b) (bb f ++ 1#5))
  | .xrank h d a imm => some (mkWord h 0x19#6 (rb d) (rb a) imm (0#1 ++ 2#5))
  | .regroup h a => some (mkWord h 0x19#6 0#6 (rb a) 0#6 (0#1 ++ 3#5))
  | .rstep h d => some (mkWord h 0x1C#6 (rb d) 0#6 0#6 0#6)
  | .join h => some (mkWord h 0x1D#6 0#6 0#6 0#6 0#6)
  | .rjoin h d => some (mkWord h 0x1D#6 (rb d) 0#6 0#6 1#6)
  | .endp h a => some (mkWord h 0x1D#6 0#6 (rb a) 0#6 2#6)
  | .forkr h vs off => some (mkWord h 0x1E#6 (rb vs) (t2 off) (t1 off) (t0 off))
  | .dbnz h vs off => some (mkWord h 0x1F#6 (rb vs) (t2 off) (t1 off) (t0 off))
  | .ldB h d base off => some (mkWord h 0x20#6 (rb d) (rb base) (hi6 off) (lo6 off))
  | .ldBu h d base off => some (mkWord h 0x21#6 (rb d) (rb base) (hi6 off) (lo6 off))
  | .ldH h d base off => some (mkWord h 0x22#6 (rb d) (rb base) (hi6 off) (lo6 off))
  | .ldHu h d base off => some (mkWord h 0x23#6 (rb d) (rb base) (hi6 off) (lo6 off))
  | .ldW h d base off => some (mkWord h 0x24#6 (rb d) (rb base) (hi6 off) (lo6 off))
  | .ldD h d base off => some (mkWord h 0x25#6 (rb d) (rb base) (hi6 off) (lo6 off))
  | .ldQ h d base off => some (mkWord h 0x26#6 (rb d) (rb base) (hi6 off) (lo6 off))
  | .ldT h d base off => some (mkWord h 0x27#6 (rb d) (rb base) (hi6 off) (lo6 off))
  | .stB h vs base off => some (mkWord h 0x28#6 (rb vs) (rb base) (hi6 off) (lo6 off))
  | .stH h vs base off => some (mkWord h 0x29#6 (rb vs) (rb base) (hi6 off) (lo6 off))
  | .stW h vs base off => some (mkWord h 0x2A#6 (rb vs) (rb base) (hi6 off) (lo6 off))
  | .stD h vs base off => some (mkWord h 0x2B#6 (rb vs) (rb base) (hi6 off) (lo6 off))
  | .stQ h vs base off => some (mkWord h 0x2C#6 (rb vs) (rb base) (hi6 off) (lo6 off))
  | .stT h vs base off => some (mkWord h 0x2D#6 (rb vs) (rb base) (hi6 off) (lo6 off))
  | .atom h d a w op sc => some (mkWord h 0x2E#6 (rb d) (rb a) (bb w ++ op ++ 0#1) (sc ++ 0#3))
  | .acas h d a w sc => some (mkWord h 0x2E#6 (rb d) (rb a) (bb w ++ 0#5) (sc ++ 1#3))
  | .fred h vs a op fmt sc => some (mkWord h 0x2F#6 (rb vs) (rb a) (op ++ fmt ++ 0#2) (sc ++ 0#3))
  | .acq h d a sc => some (mkWord h 0x30#6 (rb d) (rb a) (sc ++ 0#3) 0#6)
  | .rel h vs a sc => some (mkWord h 0x30#6 (rb vs) (rb a) (sc ++ 0#3) 1#6)
  | .fence h sc => some (mkWord h 0x30#6 0#6 0#6 (sc ++ 0#3) 2#6)
  | .cflush h sc a b => some (mkWord h 0x30#6 (sc ++ 0#3) (rb a) (rb b) 3#6)
  | .cinv h sc a b => some (mkWord h 0x30#6 (sc ++ 0#3) (rb a) (rb b) 4#6)
  | .pref h lv a => some (mkWord h 0x30#6 lv (rb a) 0#6 5#6)
  | .qpush h k a => some (mkWord h 0x31#6 k (rb a) 0#6 0#6)
  | .qpop h d k => some (mkWord h 0x31#6 (rb d) k 0#6 1#6)
  | .qstat h d k => some (mkWord h 0x31#6 (rb d) k 0#6 2#6)
  | .cpy h a => some (mkWord h 0x32#6 0#6 (rb a) 0#6 0#6)
  | .cpyt h vc a mode => some (mkWord h 0x32#6 (rb vc) (rb a) mode 1#6)
  | .cpyq h a => some (mkWord h 0x32#6 0#6 (rb a) 0#6 2#6)
  | .cpres h a => some (mkWord h 0x32#6 0#6 (rb a) 0#6 3#6)
  | .wmrd h d a => some (mkWord h 0x32#6 (rb d) (rb a) 0#6 4#6)
  | .tlreg h d a => some (mkWord h 0x32#6 (rb d) (rb a) 0#6 5#6)
  | .tlrfl h d a => some (mkWord h 0x32#6 (rb d) (rb a) 0#6 6#6)
  | .tlunreg h a => some (mkWord h 0x32#6 0#6 (rb a) 0#6 7#6)
  | .lseg h k a => some (mkWord h 0x32#6 k (rb a) 0#6 8#6)
  | .ixjob h vc a => some (mkWord h 0x33#6 (rb vc) (rb a) 0#6 0#6)
  | .ixres h vc a => some (mkWord h 0x33#6 (rb vc) (rb a) 0#6 1#6)
  | .nbinit h a k => some (mkWord h 0x34#6 0#6 (rb a) k 0#6)
  | .nbarr h k => some (mkWord h 0x34#6 0#6 0#6 k 1#6)
  | .nbwait h k => some (mkWord h 0x34#6 0#6 0#6 k 2#6)
  | .nbsync h k => some (mkWord h 0x34#6 0#6 0#6 k 3#6)
  | .gbar h => some (mkWord h 0x34#6 0#6 0#6 0#6 4#6)
  | .rginit h a k => some (mkWord h 0x35#6 0#6 (rb a) k 0#6)
  | .rgres h d k => some (mkWord h 0x35#6 (rb d) 0#6 k 1#6)
  | .rgpub h a k => some (mkWord h 0x35#6 0#6 (rb a) k 2#6)
  | .rgwait h d k => some (mkWord h 0x35#6 (rb d) 0#6 k 3#6)
  | .rgrel h a k => some (mkWord h 0x35#6 0#6 (rb a) k 4#6)
  | .chunk h d a => some (mkWord h 0x36#6 (rb d) (rb a) 0#6 0#6)
  | .mstream h d a => some (mkWord h 0x36#6 (rb d) (rb a) 0#6 1#6)
  | .launch h d a b => some (mkWord h 0x36#6 (rb d) (rb a) (rb b) 2#6)
  | .rsplit h d a => some (mkWord h 0x37#6 (rb d) (rb a) 0#6 0#6)
  | .rmerge h d a => some (mkWord h 0x37#6 (rb d) (rb a) 0#6 1#6)
  | .rbind h d a b => some (mkWord h 0x37#6 (rb d) (rb a) (rb b) 2#6)
  | .rquery h d a qw => some (mkWord h 0x37#6 (rb d) (rb a) qw 3#6)
  | .rset h d a b => some (mkWord h 0x38#6 (rb d) (rb a) (rb b) 0#6)
  | .rinv h d a b => some (mkWord h 0x38#6 (rb d) (rb a) (rb b) 1#6)
  | .rwait h d a => some (mkWord h 0x38#6 (rb d) (rb a) 0#6 2#6)
  | .rcompact h d a b => some (mkWord h 0x38#6 (rb d) (rb a) (rb b) 3#6)
  | .mnop => none
  | .mldb _ _ => none
  | .mma _ _ _ _ _ _ => none
  | .mmas _ _ _ _ _ _ _ => none
  | .mmap _ _ _ _ _ _ => none
  | .mclr _ _ => none
  | .mout _ _ _ => none
  | .marrive _ => none
  | .streamMwait _ => none
  | .mloop _ _ => none
  | .mjmp _ => none
  | .mend => none
  | .serviceRestart _ => none
  | .longResultReturn _ => none
  | .fetchAgentDelivery _ _ _ => none
  | .heartbeatTick _ => none
  | .logicalTick _ => none
  | .promotion _ => none
  | .gangAssemblerTake _ => none
  | .spawnGangTimeout _ _ => none
  | .spawnGangPlace _ _ _ => none
  | .regroupTimeout _ _ => none
  | .crewWideFlush _ => none
  | .timerTrap _ => none
  | .waitcTimeout _ => none
  | .memoryAccessPerform _ => none
  | .routerMerge _ _ => none
  | .planerBlockMove _ => none
  | .copyStart _ => none
  | .copyLand _ _ => none
  | .indexJobStart _ => none
  | .indexElement _ => none
  | .contextSave _ => none
  | .forcedSave _ => none
  | .contextRestore _ _ => none
  | .recordAdmission _ => none
  | .crewPlace _ _ => none
  | .regionComplete _ => none
  | .tokenAccrual _ => none
  | .load => none
  | .loadWithOverride => none
  | .unload => none
  | .forcedUnload => none
  | .create => none
  | .destroy => none
  | .setacc => none
  | .installKey => none
  | .resume => none
  | .kill => none
  | .setgale => none
  | .functionLevelReset _ => none
  | .powerOn _ _ => none
  | .attestationRequest _ _ => none
  | .linkCrcError _ => none
  | .linkRequestTimeout _ => none
  | .hostWindowAccess _ => none
  | .hostBar2Access _ => none
  | .sramError _ _ => none
  | .powerThrottle _ => none
  | .thermalThrottle _ _ => none
  | .thermalRecovery _ _ => none
  | .thermalShutdown _ _ => none
  | .registerWrite _ _ _ => none
  | .illegalEncoding w => some w
  | .illegalStreamWord _ => none

/-- The word of a matrix-stream instruction (R65, R66). -/
def encodeStream : Instr → Option (BitVec 64)
  | .mnop => some (0x00#6 ++ 0#58 : BitVec 64)
  | .mldb bslot off => some (0x01#6 ++ 0#2 ++ bslot ++ 0#8 ++ off : BitVec 64)
  | .mma r rnd acc bslot aoff coff => some (0x02#6 ++ bb r ++ rnd ++ acc ++ bslot ++ aoff ++ coff ++ 0#4 ++ 0#21 : BitVec 64)
  | .mmas r rnd acc bslot aoff coff sp => some (0x03#6 ++ bb r ++ rnd ++ acc ++ bslot ++ aoff ++ coff ++ sp ++ 0#21 : BitVec 64)
  | .mmap r rnd acc bslot aoff coff => some (0x04#6 ++ bb r ++ rnd ++ acc ++ bslot ++ aoff ++ coff ++ 0#4 ++ 0#21 : BitVec 64)
  | .mclr acc coff => some (0x05#6 ++ 0#3 ++ acc ++ 0#18 ++ coff ++ 0#25 : BitVec 64)
  | .mout coff acc off => some (0x06#6 ++ coff ++ acc ++ 0#6 ++ off : BitVec 64)
  | .marrive nb => some (0x07#6 ++ nb ++ 0#54 : BitVec 64)
  | .streamMwait nb => some (0x08#6 ++ nb ++ 0#54 : BitVec 64)
  | .mloop count off => some (0x09#6 ++ count ++ 0#18 ++ off : BitVec 64)
  | .mjmp off => some (0x0A#6 ++ 0#16 ++ 0#18 ++ off : BitVec 64)
  | .mend => some (0x0B#6 ++ 0#58 : BitVec 64)
  | .nop _ => none
  | .exit _ => none
  | .trap _ _ => none
  | .yield _ => none
  | .waitc _ _ _ _ => none
  | .entry _ _ => none
  | .eret _ => none
  | .bra _ _ _ _ => none
  | .ychk _ _ _ => none
  | .call _ _ => none
  | .ret _ => none
  | .brx _ _ => none
  | .calli _ _ _ => none
  | .movs _ _ _ => none
  | .smov _ _ _ => none
  | .mjoin _ _ => none
  | .mleave _ _ => none
  | .mwait _ _ => none
  | .mset _ _ _ => none
  | .mget _ _ _ => none
  | .mact _ _ => none
  | .fork _ _ _ => none
  | .add _ _ _ _ => none
  | .sub _ _ _ _ => none
  | .and _ _ _ _ => none
  | .or _ _ _ _ => none
  | .xor _ _ _ _ => none
  | .andn _ _ _ _ => none
  | .shl _ _ _ _ => none
  | .shr _ _ _ _ => none
  | .sar _ _ _ _ => none
  | .rotl _ _ _ _ => none
  | .min _ _ _ _ => none
  | .max _ _ _ _ => none
  | .minu _ _ _ _ => none
  | .maxu _ _ _ _ => none
  | .addmin _ _ _ _ => none
  | .addsat _ _ _ _ => none
  | .subsat _ _ _ _ => none
  | .absdiff _ _ _ _ => none
  | .mul _ _ _ _ => none
  | .mulh _ _ _ _ => none
  | .mulhu _ _ _ _ => none
  | .mula _ _ _ _ => none
  | .clz _ _ _ => none
  | .ctz _ _ _ => none
  | .popc _ _ _ => none
  | .brev _ _ _ => none
  | .bfx _ _ _ _ => none
  | .bfxu _ _ _ _ => none
  | .bfi _ _ _ _ => none
  | .sel _ _ _ _ => none
  | .extb _ _ _ => none
  | .exth _ _ _ => none
  | .add64 _ _ _ _ => none
  | .sub64 _ _ _ _ => none
  | .shl64 _ _ _ _ => none
  | .shr64 _ _ _ _ => none
  | .lea _ _ _ _ => none
  | .cmp _ _ _ _ _ => none
  | .plog _ _ _ _ _ => none
  | .addi _ _ _ _ => none
  | .andi _ _ _ _ => none
  | .ori _ _ _ _ => none
  | .xori _ _ _ _ => none
  | .shli _ _ _ _ => none
  | .shri _ _ _ _ => none
  | .sari _ _ _ _ => none
  | .rotli _ _ _ _ => none
  | .cmpi _ _ _ _ _ => none
  | .muli _ _ _ _ => none
  | .addi64 _ _ _ _ => none
  | .movi _ _ _ => none
  | .movhi _ _ _ => none
  | .fadd _ _ _ _ _ => none
  | .fsub _ _ _ _ _ => none
  | .fmul _ _ _ _ _ => none
  | .fmin _ _ _ _ _ => none
  | .ffma _ _ _ _ _ => none
  | .ffms _ _ _ _ _ => none
  | .fnfma _ _ _ _ _ => none
  | .fmax _ _ _ _ _ => none
  | .fcvtHF _ _ _ _ => none
  | .fcvtBfF _ _ _ _ => none
  | .fcvtFH _ _ _ _ => none
  | .fcvtFBf _ _ _ _ => none
  | .fcvtIF _ _ _ _ => none
  | .fcvtUF _ _ _ _ => none
  | .fcvtFI _ _ _ _ => none
  | .fcvtFU _ _ _ _ => none
  | .fcvtFL _ _ _ _ => none
  | .frint _ _ _ _ => none
  | .fcmp _ _ _ _ _ _ => none
  | .fclass _ _ _ _ => none
  | .fabs _ _ _ _ _ => none
  | .fneg _ _ _ _ _ => none
  | .fcopysign _ _ _ _ _ _ => none
  | .hadd2 _ _ _ _ _ => none
  | .hmul2 _ _ _ _ _ => none
  | .hfma2 _ _ _ _ _ => none
  | .fdot2 _ _ _ _ _ => none
  | .rcp _ _ _ _ _ => none
  | .rsq _ _ _ _ _ => none
  | .sqrt _ _ _ _ _ => none
  | .lg2 _ _ _ _ _ => none
  | .ex2 _ _ _ _ _ => none
  | .sin _ _ _ _ _ => none
  | .cos _ _ _ _ _ => none
  | .tanh _ _ _ _ _ => none
  | .xshuf _ _ _ _ _ => none
  | .xshufi _ _ _ _ _ => none
  | .xvote _ _ _ _ => none
  | .xballot _ _ _ => none
  | .xmatch _ _ _ _ => none
  | .xcompact _ _ _ _ _ => none
  | .xred _ _ _ _ => none
  | .xscan _ _ _ _ _ => none
  | .xgath _ _ _ _ _ => none
  | .permb _ _ _ _ _ => none
  | .xrank _ _ _ _ => none
  | .regroup _ _ => none
  | .rstep _ _ => none
  | .join _ => none
  | .rjoin _ _ => none
  | .endp _ _ => none
  | .forkr _ _ _ => none
  | .dbnz _ _ _ => none
  | .ldB _ _ _ _ => none
  | .ldBu _ _ _ _ => none
  | .ldH _ _ _ _ => none
  | .ldHu _ _ _ _ => none
  | .ldW _ _ _ _ => none
  | .ldD _ _ _ _ => none
  | .ldQ _ _ _ _ => none
  | .ldT _ _ _ _ => none
  | .stB _ _ _ _ => none
  | .stH _ _ _ _ => none
  | .stW _ _ _ _ => none
  | .stD _ _ _ _ => none
  | .stQ _ _ _ _ => none
  | .stT _ _ _ _ => none
  | .atom _ _ _ _ _ _ => none
  | .acas _ _ _ _ _ => none
  | .fred _ _ _ _ _ _ => none
  | .acq _ _ _ _ => none
  | .rel _ _ _ _ => none
  | .fence _ _ => none
  | .cflush _ _ _ _ => none
  | .cinv _ _ _ _ => none
  | .pref _ _ _ => none
  | .qpush _ _ _ => none
  | .qpop _ _ _ => none
  | .qstat _ _ _ => none
  | .cpy _ _ => none
  | .cpyt _ _ _ _ => none
  | .cpyq _ _ => none
  | .cpres _ _ => none
  | .wmrd _ _ _ => none
  | .tlreg _ _ _ => none
  | .tlrfl _ _ _ => none
  | .tlunreg _ _ => none
  | .lseg _ _ _ => none
  | .ixjob _ _ _ => none
  | .ixres _ _ _ => none
  | .nbinit _ _ _ => none
  | .nbarr _ _ => none
  | .nbwait _ _ => none
  | .nbsync _ _ => none
  | .gbar _ => none
  | .rginit _ _ _ => none
  | .rgres _ _ _ => none
  | .rgpub _ _ _ => none
  | .rgwait _ _ _ => none
  | .rgrel _ _ _ => none
  | .chunk _ _ _ => none
  | .mstream _ _ _ => none
  | .launch _ _ _ _ => none
  | .rsplit _ _ _ => none
  | .rmerge _ _ _ => none
  | .rbind _ _ _ _ => none
  | .rquery _ _ _ _ => none
  | .rset _ _ _ _ => none
  | .rinv _ _ _ _ => none
  | .rwait _ _ _ => none
  | .rcompact _ _ _ _ => none
  | .serviceRestart _ => none
  | .longResultReturn _ => none
  | .fetchAgentDelivery _ _ _ => none
  | .heartbeatTick _ => none
  | .logicalTick _ => none
  | .promotion _ => none
  | .gangAssemblerTake _ => none
  | .spawnGangTimeout _ _ => none
  | .spawnGangPlace _ _ _ => none
  | .regroupTimeout _ _ => none
  | .crewWideFlush _ => none
  | .timerTrap _ => none
  | .waitcTimeout _ => none
  | .memoryAccessPerform _ => none
  | .routerMerge _ _ => none
  | .planerBlockMove _ => none
  | .copyStart _ => none
  | .copyLand _ _ => none
  | .indexJobStart _ => none
  | .indexElement _ => none
  | .contextSave _ => none
  | .forcedSave _ => none
  | .contextRestore _ _ => none
  | .recordAdmission _ => none
  | .crewPlace _ _ => none
  | .regionComplete _ => none
  | .tokenAccrual _ => none
  | .load => none
  | .loadWithOverride => none
  | .unload => none
  | .forcedUnload => none
  | .create => none
  | .destroy => none
  | .setacc => none
  | .installKey => none
  | .resume => none
  | .kill => none
  | .setgale => none
  | .functionLevelReset _ => none
  | .powerOn _ _ => none
  | .attestationRequest _ _ => none
  | .linkCrcError _ => none
  | .linkRequestTimeout _ => none
  | .hostWindowAccess _ => none
  | .hostBar2Access _ => none
  | .sramError _ _ => none
  | .powerThrottle _ => none
  | .thermalThrottle _ _ => none
  | .thermalRecovery _ _ => none
  | .thermalShutdown _ _ => none
  | .registerWrite _ _ _ => none
  | .illegalEncoding _ => none
  | .illegalStreamWord w => some w

/-- The bytes of a gang instruction in address order (R8). -/
def encode (i : Instr) : Option (List Byte) :=
  match encodeWord i with
  | some w => some (bytesOfWord w)
  | none =>
    match encodeStream i with
    | some w => some (leBytes 8 w.toNat)
    | none => none

end Sys2Proof
end

