-- ==== Sys2Proof/Machine/State.lean ====
section
/-! DEFINITION. The state of the BZ40, as plain data: everything the spec names (INVENTORY.md, State), the chain group that is
issuing, and the queue of turns that says who moves next. Each field's docstring cites the rule that names it. -/

namespace Sys2Proof.Machine

/-- Things kept under a number. Every number is listed at most once (Store.set keeps it so). -/
abbrev Store (α : Type) := List (Nat × α)

/-- Memory: the bytes that differ from 0, which every unlisted address reads as, in rising address order (DESIGN CHOICE, log 2). -/
abbrev Mem := List Host.Cell

/-! ### Threads -/

/-- A program counter in the sense of R148: a packet address and the slot of the next group's first word. -/
structure Pos where
  pkt : BitVec 56
  slot : BitVec 2
deriving DecidableEq, Repr, Inhabited

/-- The causes of R314, in the order of their codes. -/
inductive Cause where
  | illegal | hazard | packet | priv | align | rangeMiss | rangePerm | residency | format | dataError | accessTable | determ
  | user | frame | queue | barrier | sigclass | wmFrozen | timer | codeGone | grid | killed | watch
deriving DecidableEq, Repr, Inhabited

/-- Where a trap resumes: at its group, at the group after it (R112, R324), or at the next packet (R180). -/
inductive Resume where
  | group | after | packet
deriving DecidableEq, Repr, Inhabited

/-- A trap: its cause, what %trapi receives (R314), the virtual address of the first failing byte (R361), where it resumes, and D. -/
structure Trap where
  cause : Cause
  info : Word
  va : BitVec 64 := 0
  res : Resume := .group
  d : Bool := false
deriving DecidableEq, Repr, Inhabited

/-- KIND of a frame (R116). -/
inductive FKind where
  | point | range
deriving DecidableEq, Repr, Inhabited

/-- STATE of a frame (R116). -/
inductive FState where
  | latent | active | promoted
deriving DecidableEq, Repr, Inhabited

/-- A frame of the frame stack (R116). -/
structure Frame where
  entry : BitVec 56
  kind : FKind
  state : FState
  root : Bool
  arg : BitVec 64
  link : BitVec 56
  piece : BitVec 3
  lo : Word
  hi : Word
deriving DecidableEq, Repr, Inhabited

/-- A piece of a join cell (R117). -/
structure Piece where
  lo : Word
  hi : Word
  part : BitVec 64
deriving DecidableEq, Repr, Inhabited

/-- A join cell (R117). -/
structure Cell where
  grain : BitVec 16
  npiece : BitVec 3
  done : BitVec 7
  taken : BitVec 7
  actdepth : BitVec 16
  pieces : Vector Piece 7
deriving DecidableEq, Repr, Inhabited

/-- What a thread that leaves its run still has to do once its pending set is empty (R24): EXIT, YIELD, ERET, an ENDP of a root frame
with its partial, REGROUP with its key; an ERET and a REGROUP with the run that issued them, in ascending lane order, whose lanes go on
together. -/
inductive Leave where
  | exit
  | yield (save : Bool)            -- %preq bit 0 was 1 as it issued
  | eret (us : List Nat)
  | root (x : BitVec 64)
  | regroup (key : Word) (us : List Nat)
deriving DecidableEq, Repr, Inhabited

/-- Where a thread stands (R146, R317, R321, R162). -/
inductive Stat where
  | run                            -- active or diverged
  | parked                         -- at a switch marker (R24)
  | stalled                        -- its next group stalls and has taken no effect
  | joinWait                       -- in a stalled JOIN or RJOIN, which parks it (R146)
  | yieldWait                      -- at a YIELD that is a save point (R113, R326)
  | trapping (t : Trap) (at' : BitVec 64)  -- waits for its pending set to empty before it takes the trap (R317)
  | eretWait                       -- ERET waits for its reissued accesses (R375)
  | leaving (l : Leave)            -- at a word that waits for the pending set to empty, its group done (R24)
  | subgang (n : Nat) (c : Cause) (va : BitVec 64)  -- in a parked sub-gang, with its cause and failing address (R321)
  | inTable                        -- in the regrouping table (R162)
  | exited                         -- after EXIT or a root ENDP (R146)
deriving DecidableEq, Repr, Inhabited

/-- A deferred report: cause, failing address, and the number of the failing word in program order (R101, R324, R375). -/
structure Deferred where
  cause : Cause
  info : Word
  seq : Nat
deriving DecidableEq, Repr, Inhabited

/-- A barrier group that has been first attempted: its position, and the phase that the attempt fixed (R262, R265). -/
structure Attempt where
  pos : Pos
  phase : Option Word := none
deriving DecidableEq, Repr, Inhabited

/-- One thread (R11 to R14, R115, R145, R164, R315). -/
structure Thread where
  region : Nat := 0
  gang : Nat := 0                  -- the gang whose lane it holds
  lane : Nat := 0                  -- %laneid (R14)
  stat : Stat := .run
  pos : Pos := ⟨0, 0⟩
  v : Vector Word 64 := Vector.replicate 64 0
  p : BitVec 8 := 0                -- bit 7 is not held: p7 reads as true (R12)
  lnk : BitVec 64 := 0
  fmode : Word := 0
  fstat : Word := 0
  trapc : Word := 0
  trapa : BitVec 64 := 0
  trapi : Word := 0
  h : Bool := false                -- handler mode (R317)
  preq : Bool := false             -- %preq bit 0 (R326)
  tid : Word := 0
  fstk : BitVec 64 := 0
  frames : List Frame := []        -- slots in use, slot 0 first (R115)
  cells : List Cell := []          -- the join cell of each slot in use (R117)
  depth : BitVec 16 := 0           -- overflow depth (R118)
  pend : BitVec 64 := 0            -- the pending set (R24)
  retired : Word := 0              -- retired packets (R164)
  due : Bool := false              -- a due promotion (R153, R164)
  skip : Nat := 0                  -- skip count of its run (R148)
  yield : Bool := false            -- YIELD mark of its run (R149)
  spawn : Bool := false            -- a spawn thread (R128)
  parent : Nat := 0                -- of a spawn: the parent thread
  pslot : Nat := 0                 -- and the parent's slot whose cell the root frame's LINK names (R116)
  entry : Nat := 0                 -- its entry of the stack pool (R301)
  stk : BitVec 64 := 0             -- where that entry lies
  tick : Bool := false             -- its retired count has reached a multiple of H (R164)
  tried : Bool := false            -- its due promotion was deferred at this boundary (R154)
  deferred : Option Deferred := none
  owed : Option Trap := none       -- a USER or TIMER trap that a deferred report has gone before (R112, R322, R324)
  fence : Option Nat := none       -- the number of accesses before a promotion, whose fence has still to perform (R226)
  att : Option Attempt := none     -- a barrier group that has been first attempted (R262, R265)
  hatt : Option Attempt := none    -- and one of its handler (R262, R317)
  gone : Bool := false             -- traps with CODE_GONE at its first issue (R332)
deriving DecidableEq, Repr, Inhabited

/-! ### Bytes of storage -/

/-- The kinds of storage (R207, R356); `remote` is another device of the process group (HOME 5) (DESIGN CHOICE, log 61). -/
inductive Sto where
  | dram | csm | host | crew (k : Nat) | remote (rank : Nat)
deriving DecidableEq, Repr, Inhabited

/-- Where a global byte may be cached: CACHE of R190. -/
inductive CacheMode where
  | l1l2 | l2 | none
deriving DecidableEq, Repr, Inhabited

/-- The key and tweak of a cipher block (R368). -/
structure Tag where
  key : Nat
  ctx : Nat
  blk : Nat                        -- VA[55:6]
deriving DecidableEq, Repr, Inhabited

/-- One byte of storage as a translated access reaches it, with its virtual address (R191, R207). -/
structure Loc where
  sto : Sto
  addr : Nat
  va : Nat := 0
  tag : Tag := ⟨0, 0, 0⟩
  home : Nat := 0
  cache : CacheMode := .l1l2
deriving DecidableEq, Repr, Inhabited

/-! ### Gangs -/

/-- What a gang holds for one named barrier (R261, R262). -/
inductive Arrival where
  | none
  | opened (p : Word)              -- an open arrival at phase p
  | waiting (p : Word)             -- a pending wait at p with no arrival
deriving DecidableEq, Repr, Inhabited

/-- An entry of the replay list (R330, R375). -/
structure Replay where
  u : Nat                          -- the lane's thread
  va : BitVec 64
  data : List Word                 -- operands read at issue
  reg : Reg
  f : Bool                         -- F: abandoned at a freeze
  word : Word
  wordNo : Nat := 0                -- which issued word made it (R214)
  told : Bool := false             -- its reissue met RESIDENCY or WATCH, and a fault record was posted
  scat : Bool := false             -- of a scatter store (R94, R334)
  seq : Nat := 0                   -- its number in program order
  ls : List Loc := []              -- the bytes that it was to reach, which later accesses of its thread follow (R16)
deriving DecidableEq, Repr, Inhabited

/-- Whether a gang or crew is on a spindle. -/
inductive Life where
  | waiting | live | saved | ended
deriving DecidableEq, Repr, Inhabited

/-- One gang (R145, R240, R261, R322). -/
structure Gang where
  region : Nat := 0
  crew : Option Nat := none        -- none: a spawn gang
  sp : Nat := 0                    -- spindle number in the device, 96 × C-die + spindle
  slot : Nat := 0                  -- gang slot
  gangid : Word := 0
  life : Life := .live
  lanes : List (Option Nat) := List.replicate 32 none  -- the thread of each lane
  masks : Vector Word 12 := Vector.replicate 12 0      -- m0 to m11 (R176)
  released : Word := 0             -- lanes released by MWAIT (R178)
  wtime : BitVec 64 := 0
  wtrap : BitVec 64 := BitVec.allOnes 64
  tpend : Bool := false            -- timer trap pending (R322)
  qc : Nat := 0                    -- q0 credits in use (R243)
  ic : Nat := 0                    -- index credits in use (R292)
  q1 : List (BitVec 64) := []
  q3 : List (BitVec 64) := []
  q4 : List (BitVec 64) := []
  q4at : List Nat := []            -- of each entry, the gang's accesses before its push (R275)
  q5 : List (BitVec 64) := []
  arr : Vector Arrival 16 := Vector.replicate 16 Arrival.none
  recOut : Nat := 0                -- cycles for which a link has not delivered a record that its next group loads (R362)
  gbar : Option Word := none       -- arrived at GBAR in this phase (R265)
  replay : List Replay := []
  issued : Option (BitVec 64) := none  -- the cycle of its last issue (R149: one group an opportunity)
  preqAt : Option (BitVec 64) := none -- a spawn gang: when pre-emption was requested (R326)
  capped : Bool := false           -- and whether its deadline is capped (R312)
deriving DecidableEq, Repr, Inhabited

/-! ### Crews and regions -/

/-- A crew-local segment entry (R209). -/
structure Seg where
  start : Nat := 0
  len : Nat := 0
  fmt : Nat := 0
  blk : Nat := 0
  sparse : Nat := 0
  soff : Nat := 0
deriving DecidableEq, Repr, Inhabited

/-- A ring (R258): counters are 32-bit, and the marks are the sequences published or released ahead of their prefix. -/
structure Ring where
  init : Bool := false
  base : Nat := 0
  z : Nat := 0
  s : Nat := 0
  res : Word := 0
  pub : Word := 0
  tak : Word := 0
  fre : Word := 0
  pubm : List Word := []
  relm : List Word := []
deriving DecidableEq, Repr, Inhabited

/-- A named barrier (R261). -/
structure Bar where
  e : Nat := 0
  a : Nat := 0
  p : Word := 0
deriving DecidableEq, Repr, Inhabited

/-- One slice of a crew copy (R246). -/
structure Slice where
  gang : Nat
  src : Nat
  dst : Nat
  len : Nat
  cw : Word
  us : List Nat                    -- the run that supplied it, and the program order of its CPY
  after : Nat
deriving DecidableEq, Repr, Inhabited

/-- An entry of the regrouping table (R162). -/
structure RgEntry where
  crew : Nat
  key : Word
  us : List Nat                    -- in order of arrival
  since : BitVec 64
  due : Option (BitVec 64) := none -- the cycle at which it became due; it then waits for a gang slot (R163)
deriving DecidableEq, Repr, Inhabited

/-- One crew (R145, R209, R258, R261). -/
structure Crew where
  region : Nat := 0
  crewid : Word := 0
  life : Life := .waiting
  sp : Nat := 0
  cslot : Option Nat := none       -- its crew slot of the pool (R303)
  loc : Mem := []                  -- crew-local memory (R208)
  locSize : Nat := 0               -- its `.local` size
  nbWin : Nat := 0                 -- its window of named barriers (R261)
  segs : Vector Seg 8 := Vector.replicate 8 {}
  rings : Vector Ring 8 := Vector.replicate 8 {}
  bars : Vector Bar 16 := Vector.replicate 16 {}
  forming : List (List Slice) := []  -- crew copies not yet joined by every live gang (R246)
  preqAt : Option (BitVec 64) := none -- when pre-emption was requested (R326)
  capped : Bool := false           -- the deadline is capped for a gale crew (R312)
  gone : Bool := false             -- GONE (R332)
  recAt : Nat := 0                 -- where its latest save record lies (R329)
  barNo : List Nat := []           -- the spindle's barriers that its window is mapped onto (R261)
  bound : Bool := false            -- saved spindle-bound (R328)
  entries : List Nat := []         -- entries of the spawn part that its threads take (R303)
  table : List RgEntry := []       -- its entries of the regrouping table while it is saved (R162)
  goneIn : List (Nat × Nat) := []  -- the code that a forced unload took from it while saved (R332)
deriving DecidableEq, Repr, Inhabited

/-- A region control block or launch record (R301). -/
structure Rcb where
  args : Vector Word 8 := Vector.replicate 8 0
  sig : BitVec 64 := 0
  entry : BitVec 56 := 0
  compl : BitVec 56 := 0
  pool : BitVec 56 := 0
  parent : BitVec 56 := 0
  pooln : Nat := 0
  stksz : Nat := 0
  crews : Nat := 0
  gangs : Nat := 0
  spbud : Nat := 0
  gbud : Nat := 0
  fdom : Nat := 0
  cls : Nat := 0
  det : Bool := false
  hbexp : Nat := 0
  lpexp : Nat := 0
  pdead : Nat := 0
  fslots : Nat := 0
  cores : Bool := false
  ovr : BitVec 12 := 0
  status : BitVec 8 := 0
  ctx : Nat := 0
  resv : Bool := false             -- some reserved bit is set
deriving DecidableEq, Repr, Inhabited

/-- One region (R145, R147, R301). -/
structure Region where
  rcb : Rcb := {}
  ctx : Nat := 0
  parent : Option Nat := none
  poolF : Nat := 8                 -- F of the pool's owner, by which its entries are sized (R301)
  poolOwn : Bool := true           -- it owns its pool
  poolCrew : Nat := 0              -- entries of the pool's crew part
  need : Nat := 8                  -- NEED, `.local`, `.barriers` and class of its kernel (R345)
  loc : Nat := 0
  nbar : Nat := 0
  kcls : Nat := 0
  placed : Nat := 0                -- crews placed so far
  crewsLeft : Nat := 0             -- crews not yet complete
  spawns : Nat := 0                -- spawn threads started, for %tid (R159)
  live : Bool := true
  cause : Nat := 0                 -- the trap cause that ended its fault domain (R309)
  gbarP : Word := 0                -- GBAR phases completed (R265)
  ticked : BitVec 64 := 0          -- the cycle of its last tick, or of its admission (R153)
  addr : Nat := 0                  -- where its RCB lies (R301)
deriving DecidableEq, Repr, Inhabited

/-! ### Storage and translation -/

/-- A byte of a sector that an L1 holds (R210), and which of its bits stores of the spindle have changed. -/
structure Line where
  loc : Loc
  val : Byte
  dirty : Byte
deriving DecidableEq, Repr, Inhabited

/-- A range (R190). -/
structure Range where
  baseg : Nat
  limg : Nat
  offg : BitVec 44 := 0
  noffg : BitVec 44 := 0
  cwm : Nat := 0                   -- VA[55:6] of the lowest byte not yet moved
  rlo : Nat := 0
  rhi : Nat := 0
  sync : BitVec 56 := 0
  sscope : BitVec 3 := 0
  soff : Nat := 0
  r : Bool := false
  w : Bool := false
  x : Bool := false
  a : Bool := false
  fmt : Nat := 0
  blk : Nat := 0
  sparse : Nat := 0
  home : Nat := 0
  hdev : Nat := 0
  cache : Nat := 0
  key : Nat := 0
  cstate : Nat := 0                -- 0 idle, 1 moving, 2 frozen
  gen : BitVec 16 := 0
deriving DecidableEq, Repr, Inhabited

/-- An access-table entry (R366). -/
structure Acc where
  ctx : Nat
  w : Bool
  r : Bool
  limg : Nat
  baseg : Nat
deriving DecidableEq, Repr, Inhabited

/-- A global name of a context's symbol table (R353). -/
structure Sym where
  name : List Byte
  addr : Nat
  weak : Bool
  obj : Nat
deriving DecidableEq, Repr, Inhabited

/-- A launchable kernel (R345, R307). -/
structure Kern where
  entry : Nat
  need : Nat
  loc : Nat
  nbar : Nat
  cls : Nat
  obj : Nat
  level : Nat
  trans : Nat
deriving DecidableEq, Repr, Inhabited

/-- A loaded code object (R344, R354). -/
structure Obj where
  secs : List (Nat × Nat)          -- first and last-but-one addresses of its sections in virtual space
  uses : List Nat                  -- the loaded objects its relocations target
  streams : List (Nat × Nat) := [] -- those of its sections that hold stream words, which no gang fetches (R67)
  image : List Byte                -- for the attestation digest (R372)
  unloading : Bool := false
  order : Nat := 0
deriving DecidableEq, Repr, Inhabited

/-- One context (R360, R316, R310, R353, R368). -/
structure Ctx where
  mgr : Nat := 0xFFFF
  func : Nat := 0
  sys : Bool := false
  csmb : Nat := 0
  csml : Nat := 0
  hwb : Nat := 0
  hwl : Nat := 0
  tree : Nat := 0
  treen : Nat := 0
  save : Nat := 0
  saven : Nat := 0
  group : Nat := 0
  rank : Nat := 0                  -- %devrank (R363)
  ranks : Nat := 1                 -- devices in its process group
  trapE : BitVec 128 := 0          -- the trap entry (R316)
  tok : BitVec 128 := 0            -- the token entry without BAL (R310)
  bal : Int := 0                   -- BAL in units of 1/64 spindle-cycle (R310)
  ranges : List Range := []
  treeGen : Nat := 0               -- counts changes of the tree
  keys : Store Nat := []           -- filled key slots (R368)
  syms : List Sym := []
  kerns : List Kern := []
  objs : Store Obj := []
  saveN : Nat := 0                 -- records written to the save pool
  accrued : BitVec 64 := 0         -- the cycle up to which its balance is accounted (R310)
deriving DecidableEq, Repr, Inhabited

/-! ### Outstanding work of threads -/

/-- How the bytes of a load become a register value (R90, R98). -/
inductive Conv where
  | sext (bits : Nat)
  | zext
  | words (n : Nat)
  | typed (fmt : Nat) (sub : Nat)  -- a dense element: bit offset in its bytes; the last byte is its scale where it has one
  | sparse (fmt n pos : Nat)       -- an N:12 group, the last byte its scale
deriving DecidableEq, Repr, Inhabited

/-- What a long result waits for (R23, R24). -/
inductive Src where
  | val (xs : List Word)           -- its value is fixed
  | load (ls : List Loc) (cv : Conv)
  | acq (ls : List Loc) (cov : List (Nat × Nat)) -- and the virtual spans that it covers (R222, R227)
  | req (r : Nat)                  -- the request of that number performs first
  | pop (port : Nat)
  | ring (k : Nat)
  | waitc (ls : List Loc) (cmp : Word)
deriving DecidableEq, Repr, Inhabited

/-- An outstanding long result: the threads that receive it, its first register and how many (R24). -/
structure Res where
  seq : Nat
  us : List Nat
  gang : Nat
  dst : Reg
  n : Nat
  src : Src
  va : BitVec 64 := 0
  at' : BitVec 64 := 0             -- %clock at issue
  word : Word := 0
  replayed : Bool := false         -- issued again by ERET or restore (R330, R375)
  got : List (Nat × Byte) := []    -- bytes of a typed load read already, by their place (R100)
  out : Nat := 0                   -- cycles for which a link has not delivered it (R362)
deriving DecidableEq, Repr, Inhabited

/-- What a request does at its target (R212 to R218, R223). -/
inductive ReqK where
  | store (val mask : Nat)         -- the bits of mask take val
  | typed (fmt sub x : Nat)        -- ST.T of x into a block format: element bit offset; the last byte is the scale (R99)
  | atom (op : Nat) (w8 : Bool) (x : Nat)
  | acas (w8 : Bool) (e n : Nat)
  | fred (op fmt : Nat) (x : Nat)
  | chunk
  | rel (x : Nat) (cov : List (Nat × Nat)) -- and the virtual spans that it covers (R223, R227)
  | flush (inv : Bool) (scope : Nat) (ctx : Nat) (len : Nat)
deriving DecidableEq, Repr, Inhabited

/-- A request on its way to its target (R213); a request that a router has merged into another performs with it (R216). -/
structure Req where
  seq : Nat
  u : Nat
  gang : Nat
  sp : Nat
  kind : ReqK
  ls : List Loc
  va : BitVec 64
  scope : Nat := 0
  word : Word := 0
  data : List Word := []
  regs : Reg := 0
  wordNo : Nat := 0                -- which issued word made it (R214)
  out : Nat := 0                   -- cycles for which a link has not delivered it (R362)
  into : Option Nat := none        -- the request that a router has merged it into
  pre : Nat := 0                   -- and the operand that applies before its own
  own : Option Nat := none         -- its own operand, where its kind holds what others bring too (R216)
  got : Option Byte := none        -- the scale byte of an ST.T read already (R100)
  scat : Bool := false             -- its word stores at more than one address: a scatter store (R94, R334)
deriving DecidableEq, Repr, Inhabited

/-! ### Spawns -/

/-- A spawn request (R155). -/
structure SpawnReq where
  region : Nat
  entry : BitVec 56
  arg : BitVec 64
  kind : FKind
  parent : Nat
  pslot : Nat
  cellAddr : BitVec 56
  piece : BitVec 3
  lo : Word
  hi : Word
  grain : BitVec 16
  at' : BitVec 64
  poolIdx : Nat                    -- the entry of the pool taken for it
  seq : Nat := 0                   -- the parent's accesses before the promotion (R226)
deriving DecidableEq, Repr, Inhabited

/-- A gang that the assembler holds (R158). -/
structure HeldGang where
  id : Nat
  region : Nat
  entry : BitVec 56
  reqs : List SpawnReq
  released : Bool
deriving DecidableEq, Repr, Inhabited

/-- One C-die: its spawn queue and assembler (R155, R158). -/
structure Die where
  queue : List SpawnReq := []
  held : List HeldGang := []
  hot : Bool := false              -- issue throttled by a junction at 105 °C (R374)
deriving DecidableEq, Repr, Inhabited

/-! ### Engines -/

/-- A tensor layout record (R247): COUNT, SSTRIDE and DSTRIDE of the used dimensions, innermost first. -/
structure Tlr where
  src : Nat
  dst : Nat
  esize : Nat
  dims : List (Nat × Int × Int)
deriving DecidableEq, Repr, Inhabited

/-- What a copy moves (R246, R247, R250). -/
inductive CKind where
  | bytes (sl : List Slice)
  | tensor (t : Tlr)
  | quant (src sfmt dst sc lim fmt blk n : Nat) -- source bytes and format, first code byte, first scale byte, the end of their range or
                                   -- segment, format, block length, elements
deriving DecidableEq, Repr, Inhabited

/-- A translated segment of a copy: the addresses of the range or window it lies in, and the range as it stood when the segment
began; none for a window (R192, R253). -/
structure SegTr where
  lo : Nat
  hi : Nat
  r : Option Range
deriving DecidableEq, Repr, Inhabited

/-- What a pushed command asks for (R246 to R250, R257, R291). -/
inductive PushK where
  | cpy (sl : List Slice)
  | cpyt (cw w : Word) (u : Nat) (va : BitVec 64) (ls : List Loc) -- the record's bytes, by loads of word w of thread u
  | cpytR (cw w : Word) (u : Nat) (va : BitVec 64) (ls : Option (List Loc)) -- they were abandoned at a freeze, and issued again at ERET (R375)
  | cpyh (cw : Word) (h : Nat)                    -- a handle
  | cpyq (src dst n : Nat) (cw : Word)
  | cpres (v : Word)
  | job (raw : List Byte) (cw : Word)
  | ixres (cancel : Bool) (va : Nat) (raw : List Byte) -- the record as its lane has read it
deriving DecidableEq, Repr, Inhabited

/-- A pushed command that is not accepted yet: its crew, the gang that issued it last, and the runs that issued it with their program
order (R230, R243) (DEDUCED, log 13). -/
structure Push where
  crew : Nat
  gang : Nat
  sp : Nat
  by' : List (Nat × List Nat × Nat)  -- gang, threads, program order
  k : PushK
  out : Nat := 0                     -- cycles for which a link has not delivered its record (R362)
deriving DecidableEq, Repr, Inhabited

/-- An accepted copy (R243, R251, R255). Its number orders it by acceptance. -/
structure Copy where
  crew : Nat
  gangs : List Nat                 -- the gangs that receive its next status word
  sp : Nat
  kind : CKind
  cw : Word
  base : Nat                       -- destination base
  hi : Nat                         -- one past the highest destination byte
  total : Nat                      -- bytes it writes
  done : Nat := 0                  -- bytes landed
  wm : Nat                         -- the watermark W
  slot : Option Nat := none
  started : Bool := false
  frozen : Option Nat := none      -- the frozen code of R244
  paused : Option Nat := none      -- a registered copy that waits for residency: its fault record's number of sub-gang (R254)
  regd : Bool := false             -- through a registered record
  acted : Bool := false            -- completion actions done (R255)
  stage : Option Word := none      -- ring sequence when G = 1
  ssrc : List SegTr := []          -- its begun segment of the source; a block of a CPYQ may lie in two
  sdst : List SegTr := []          -- and of the destination
  segNo : Nat := 0                 -- segments begun so far
  buf : List Byte := []            -- codes of the block in the staging buffer (R250)
  out : Nat := 0                   -- cycles for which a link has not delivered its next access (R362)
deriving DecidableEq, Repr, Inhabited

/-- A registered record (R249). -/
structure Handle where
  crew : Nat
  addr : Nat
  rec' : Tlr
deriving DecidableEq, Repr, Inhabited

/-- An index job descriptor (R287). -/
structure Desc where
  ef : Bool := false
  kind : Nat := 0
  bag : Nat := 0
  tstride : Nat := 0
  rowb : Nat := 0
  nrows : Nat := 0
  count : Nat := 0
  cur : Nat := 0
  data : Nat := 0
  idx : Nat := 0
  table : Nat := 0
  resv : Bool := false
deriving DecidableEq, Repr, Inhabited

/-- An accepted index job (R287, R290, R295). -/
structure Job where
  crew : Nat
  gang : Nat                       -- the gang that receives its next status word
  sp : Nat
  d : Desc
  raw : List Byte                  -- the descriptor as accepted
  cw : Word
  cur0 : Nat                       -- CUR as accepted (R296)
  elem : Nat := 0
  rowoff : Nat := 0
  wm : Nat := 0
  slot : Option Nat := none
  started : Bool := false
  bagPos : Nat := 0                -- elements of the current bag taken (R288)
  pool : Option (List Nat) := none -- the bag's sum so far, by words
  ex : Option Nat := none          -- the index of element e, once read (R295, R341)
  susp : Option Nat := none        -- the suspension code of R294
  acted : Bool := false
  stamp : Nat := 0                 -- order of suspension (R296)
  out : Nat := 0                   -- cycles for which a link has not delivered its next access (R362)
  eng : Bool := false              -- holds an index engine of its C-die (R287, R295)
deriving DecidableEq, Repr, Inhabited

/-- A block of B: the code byte and scale of each element and the slot's mode and format (R266). -/
structure BSlot where
  mode : Nat := 0                  -- 0 empty, 1 dense, 2 to 5 sparse N = 2, 3, 4, 6, 6 paired
  fmt : Nat := 0
  cols : List (List (Nat × Int)) := []  -- per filter column, per k: code and block scale
deriving DecidableEq, Repr, Inhabited

/-- An A fragment: format, and per row, per k: code and block scale (R269). -/
structure Frag where
  fmt : Nat
  rows : List (List (Nat × Int))
deriving DecidableEq, Repr, Inhabited

/-- A running stream (R270, R272, R282, R283). -/
structure Stream where
  crew : Nat
  gang : Nat
  sp : Nat
  seqNo : Nat                      -- sequencer 0 to 3
  addr : Nat
  data : Nat
  abase : Nat
  bbase : Nat
  bcnt : Nat
  cbase : Nat
  ccnt : Nat
  cpitch : Nat
  serv : Bool
  tag : BitVec 16
  memb : BitVec 16
  p0 : Vector Word 16
  wc : Vector Word 16 := Vector.replicate 16 0
  arrived : Vector (Option Word) 16 := Vector.replicate 16 none  -- the phase of its last arrival
  idx : Int := 0
  loops : List (Nat × Int × Int) := []  -- count, start, end; the top first
  latch : Option Frag := none
  waitQ : Bool := false            -- paused after NEXT, waiting on q4 (R275)
  post : Option (BitVec 64) := none -- a status word that waits for room in q5 (R273)
  ending : Bool := false           -- it ends once that word is posted
  got : Bool := false              -- its next word has been fetched
  out : Nat := 0                   -- cycles for which a link has not delivered its next access (R362)
deriving DecidableEq, Repr, Inhabited

/-- One spindle's stores (R193, R210, R162, R249, R266) (DESIGN CHOICE, log 3). -/
structure Spindle where
  l1 : List Line := []             -- bytes held in L1 (R210, R211)
  bad : List (Sto × Nat) := []     -- sectors of it that hold an uncorrectable error (R325)
  icache : List (Nat × Nat × List Byte) := [] -- packets that the instruction cache holds: context, address, 12 bytes
  ifault : List (Nat × Nat × Trap) := []    -- fetch faults reported: context, packet address (R355)
  imiss : List (Nat × Nat) := []            -- packets that wait for the fetch agent: context, address (R355)
  missOut : List (Nat × Nat × Nat) := []    -- context, block, and the cycles for which a link has not delivered it (R362)
  regroup : List RgEntry := []
  handles : Store Handle := []
  bslots : Store (Nat × BSlot) := []        -- claimed B-slots: crew and content
  units : Store Nat := []                   -- claimed accumulator units: crew
  acc : Mem := []                           -- the accumulator store
  served : Nat := 3                         -- the sequencer whose tile word the array served last (R286)
  gale : Bool := false                      -- reserved for the gale class (R313)
  busy : List (Nat × Nat × BitVec 64) := [] -- quadrant and pipe, and the cycle from which it takes a word again (R88, R150, R167)
deriving DecidableEq, Repr, Inhabited

/-! ### Device -/

/-- What a ticket covers (R202 to R204): the accesses of a context, made before number `bound`, that translated through the range
over [lo, hi); or a compaction of the range at a base. -/
inductive TicketK where
  | inv (ctx lo hi bound : Nat)
  | move (ctx : Nat) (base : Nat)
deriving DecidableEq, Repr, Inhabited

/-- An issued ticket: its number, what it covers, the copies with segments begun in the range and
their numbers, whether its compaction froze. -/
structure Ticket where
  num : Word
  kind : TicketK
  copies : List (Nat × Nat) := []
  frozen : Bool := false
deriving DecidableEq, Repr, Inhabited

/-- A fault record of the fault ring (R361). -/
structure FaultRec where
  num : BitVec 16
  sub : Nat                        -- its sub-gang
  resumed : Bool := false
  bytes : List Byte := []
deriving DecidableEq, Repr, Inhabited

/-- A ring head (R304, R358). -/
structure QHead where
  ring : Nat := 0
  root : Nat := 0
  ctx : Nat := 0
  logn : Nat := 0
  edge : Bool := false
  en : Bool := false
  cons : Word := 0
  prod : Word := 0
deriving DecidableEq, Repr, Inhabited

/-- How far bring-up has come, and whether power is on (R371, R373, R374) (DESIGN CHOICE, log 4). -/
inductive Power where
  | off | refused | untrained | up | shut
deriving DecidableEq, Repr, Inhabited

/-- Who moves next. -/
inductive Turn where
  | issue (g : Nat)                -- gang g has an issue opportunity (R149)
  | event (i : Instr)              -- a step that is no gang word
  | seq (k : Nat)                  -- stream k executes its next word (R272)
  | cycle                          -- a cycle passes (R3)
  | l1Fill (sp ctx va : Nat)       -- a fill that no rule forbids (R211, R298)
  | l1Evict (sp pa : Nat)          -- a write-back or drop (R211)
  | l2Evict (pa : Nat)             -- an L2 write-back (R211)
  | typedPart (k : Nat) (scale : Bool) -- a typed access reads its scale, or its element, before the rest (R100)
  | badCommand (ring : Nat)        -- a loader (0) or management (1) record that no operation names (R351, R359)
  | acceptFar                      -- a command whose record lies on another device is accepted (R362)
  | barRead (fn off : Nat)         -- a host function reads a register of its BAR0 (R2, R10, R357)
deriving DecidableEq, Repr, Inhabited

/-- The machine; the counters and lists of the model's own are DESIGN CHOICE, log 7. -/
structure Mach where
  clock : BitVec 64 := 0
  dram : Mem := []
  l2 : Store Byte := []                      -- bytes held dirty in L2, by physical address (R210, R218)
  owner : Store Tag := []                    -- the key and tweak of each data unit written, by physical address / 64 (R368)
  csm : Mem := []                           -- by (C-die × 2^32 + offset) (R207)
  host : Mem := []                          -- the host window
  remote : Store Mem := []                  -- storage of the other devices of the group, by rank
  remoteAcc : Store (Store (List Acc)) := [] -- and their access tables, by rank and target (R356, R366)
  lost : Bool := false                      -- a link loses the accesses to other devices of the step that now runs (R362)
  whole : Bool := false                     -- the step that now runs completes an element, past the planer's block (R205, R333)
  bad : List (Sto × Nat) := []              -- 32-byte sectors that hold an uncorrectable error (R324)
  ctxs : Store Ctx := []
  regions : Store Region := []
  crews : Store Crew := []
  gangs : Store Gang := []
  threads : Store Thread := []
  spindles : Store Spindle := []
  dies : Store Die := []
  pools : Store (List Nat) := []            -- entries of the spawn part in use, by POOL (R301, R303)
  results : List Res := []
  reqs : List Req := []
  seq : Nat := 0                            -- results and requests made so far, their program order
  wordNo : Nat := 0                         -- words issued so far
  pushes : List Push := []                  -- pushed commands not accepted yet, oldest first (R230)
  copies : Store Copy := []
  jobs : Store Job := []
  streams : Store Stream := []
  nextId : Nat := 0                         -- the next number for a new thing
  tickets : List Ticket := []
  ticketN : Word := 0                       -- the last ticket issued
  codePas : List Nat := []                  -- physical addresses of loaded code (R17)
  tainted : List Nat := []                  -- those of them that the physical function has written since (R17)
  access : Store (List Acc) := []           -- access tables of targets 0 to 4 (R366)
  gale : Nat := 0                           -- G (R313)
  loader : QHead := {}
  mgmt : QHead := {}
  faultQ : QHead := {}
  faults : List FaultRec := []
  faultN : Nat := 0                         -- fault records posted
  subs : Nat := 0                           -- parked sub-gangs formed
  subsPosted : Nat := 0                     -- those of them whose fault records are posted
  msix : Nat := 0                           -- MSI-X vector 0 raised so often (R358)
  flr : Store (BitVec 32) := []             -- function reset registers (R334)
  power : Power := .off
  fwImage : Nat := 0                        -- the running firmware image
  links : BitVec 12 := 0                    -- device-link ports up (R362, R373)
  untold : BitVec 12 := 0                   -- ports whose failed training is not yet reported (R373)
  queueOut : List (Nat × Nat × Nat) := []   -- of work queues: number, 0, cycles for which a link has not delivered the next record (R362)
  planOut : List (Nat × Nat × Nat) := []    -- of moving ranges: context, base, cycles for which a link has not delivered the next block (R362)
  recs : List (Nat × Nat × List (Nat × Nat)) := [] -- of written cursor records: context, address, the spans that their release covers (R231)
  replays : Nat := 0                        -- link flits replayed (R362)
  throttled : Bool := false                 -- issue throttled for power (R3)
  hostOut : List (List Byte) := []          -- what host reads and reports returned, newest first
  turns : List Turn := []                   -- who moves next
  pickN : Nat := 0                          -- choices made by Config.pick
  freeN : Nat := 0                          -- free values drawn
  created : Nat := 0                        -- contexts created so far
deriving DecidableEq, Repr, Inhabited

/-- The chain group that is issuing (R20, R26): its gang, the threads of its run that complete, the machine before the group, and
what its words have gathered so far. -/
structure Group where
  gang : Nat
  run : List Nat                            -- in ascending lane order
  pos : Pos                                 -- the group's position
  slot : Nat                                -- the slot of the word that executes now
  rest : List Word                          -- the words of the group from it on
  pre : Mach
  traps : List (Nat × Trap) := []           -- lanes that meet a cause (R317)
  xfer : List (Nat × Pos) := []             -- taken transfers (R22)
  flags : List (Nat × BitVec 5) := []       -- floating-point flags raised (R38)
  sw : Bool := false                        -- some word carries S (R19)
  held : List Nat := []                     -- threads that leave with this group: EXIT, a root ENDP, REGROUP
  stats : List (Nat × Stat) := []           -- how a thread stands after the group, where not in a run
  attempted : Bool := false                 -- the group has been attempted before (R262)
deriving DecidableEq, Repr, Inhabited

/-- What executes now. -/
inductive Act where
  | idle
  | group (g : Group)
  | stream (k : Nat)
deriving DecidableEq, Repr, Inhabited

/-- The state: the machine and what executes now. -/
structure State where
  m : Mach := {}
  act : Act := .idle
deriving DecidableEq, Repr, Inhabited

/-- Why the machine stops. -/
inductive Fault where
  /-- Raised by `step` once the module has turned its regulators off (R374): nothing executes any more. Safe: the hardware
  executes nothing either. -/
  | poweredOff
deriving DecidableEq, Repr

/-- Why a step has no meaning here. -/
inductive Refusal where
  /-- Raised by exec's arm of an instruction without a meaning. Safe. -/
  | notModelled (mnemonic : String)
  /-- Raised by a meaning whose step cannot happen in this state: a gang word with no group issuing, a stream word with no
  sequencer at it, an engine or scheduler step whose condition its rule names does not hold. `step` lets a cycle pass
  instead. Safe: such a step does not occur on the hardware. -/
  | notEnabled
deriving DecidableEq, Repr

/-- The machine right after device reset (R304, R310, R313, R316, R358: Reset columns; no context, no region, %clock 0). -/
def State.reset : State := {}

end Sys2Proof.Machine
end

