-- ==== Sys2Proof/Machine/Ops.lean ====
section
/-! DEFINITION. The named operations over what the machine holds: things kept under a number, memory, threads and their registers,
gangs, crews, regions and contexts. Every read and write of the state by a meaning goes through one of these. -/

namespace Sys2Proof.Machine

/-! ### Things kept under a number -/

/-- What is kept under k, if anything is. -/
def Store.find (s : Store α) (k : Nat) : Option α :=
  match s with
  | [] => none
  | (j, v) :: r => if j = k then some v else Store.find r k
/-- Keep v under k. -/
def Store.put (s : Store α) (k : Nat) (v : α) : Store α :=
  match s with
  | [] => [(k, v)]
  | (j, w) :: r => if j = k then (k, v) :: r else (j, w) :: Store.put r k v
/-- Keep nothing under k. -/
def Store.drop (s : Store α) (k : Nat) : Store α := s.filter (fun x => x.1 != k)
/-- What is kept under k, or the default. -/
def Store.at [Inhabited α] (s : Store α) (k : Nat) : α := (s.find k).getD default
/-- Whether something is kept under k. -/
def Store.has (s : Store α) (k : Nat) : Bool := (s.find k).isSome
/-- Change everything kept, each by its number. -/
def Store.mapV (s : Store α) (f : Nat → α → α) : Store α := s.map (fun x => (x.1, f x.1 x.2))
/-- Change what is kept under k, if anything is. -/
def Store.mod (s : Store α) (k : Nat) (f : α → α) : Store α := s.mapV (fun j x => if j = k then f x else x)
/-- The numbers in use. -/
def Store.nums (s : Store α) : List Nat := s.map (·.1)

/-! ### Memory: bytes that differ from 0, in rising address order -/

/-- The canonical form: addresses strictly rising, no byte that equals what an unlisted address reads as. -/
def Mem.wf (m : Mem) : Bool :=
  match m with
  | [] => true
  | [c] => c.2 != 0
  | c :: d :: r => c.2 != 0 && decide (c.1 < d.1) && Mem.wf (d :: r)
/-- What an address reads as that nothing has written (DESIGN CHOICE, log 2). -/
def Mem.blank : Byte := 0
/-- The byte at an address. -/
def Mem.get (m : Mem) (a : Nat) : Byte :=
  match m with
  | [] => Mem.blank
  | c :: r => if c.1 = a then c.2 else Mem.get r a
/-- Write one byte, keeping the canonical form. -/
def Mem.set (m : Mem) (a : Nat) (v : Byte) : Mem :=
  match m with
  | [] => if v = Mem.blank then [] else [(a, v)]
  | c :: r =>
    if a < c.1 then (if v = Mem.blank then c :: r else (a, v) :: c :: r)
    else if c.1 = a then (if v = Mem.blank then r else (a, v) :: r)
    else c :: Mem.set r a v
/-- n bytes from an address. -/
def Mem.bytes (m : Mem) (a n : Nat) : List Byte := (List.range n).map (fun i => m.get (a + i))
/-- Write bytes from an address on. -/
def Mem.setBytes (m : Mem) (a : Nat) (bs : List Byte) : Mem :=
  match bs with
  | [] => m
  | b :: r => Mem.setBytes (m.set a b) (a + 1) r
/-- The bytes of a list that a memory lists, from an address on. -/
def Mem.cells (a : Nat) : List Byte → Mem
  | [] => []
  | b :: r => if b = Mem.blank then Mem.cells (a + 1) r else (a, b) :: Mem.cells (a + 1) r
/-- Replace a whole span of bytes at once. -/
def Mem.block (m : Mem) (a : Nat) (bs : List Byte) : Mem :=
  m.filter (fun c => decide (c.1 < a)) ++ (Mem.cells a bs ++ m.filter (fun c => decide (a + bs.length ≤ c.1)))
/-- n bytes as a little-endian number. -/
def Mem.nat (m : Mem) (a n : Nat) : Nat := leNat (m.bytes a n)

/-- The lowest n bits of x above bit i. -/
def bitsOf (x i n : Nat) : Nat := x / 2 ^ i % 2 ^ n
/-- A field's two's complement value. -/
def signedOf (x n : Nat) : Int := if bitsOf x 0 n < 2 ^ (n - 1) then (bitsOf x 0 n : Int) else (bitsOf x 0 n : Int) - 2 ^ n
/-- A number with the n bits from i on replaced. -/
def setBits (x i n v : Nat) : Nat := x - bitsOf x i n * 2 ^ i + v % 2 ^ n * 2 ^ i

/-! ### Free values -/

/-- The sub-gang of a lane that is parked in one (R321). -/
def Stat.sub : Stat → Option Nat
  | .subgang n _ _ => some n
  | _ => none
/-- The next choice that the spec does not fix, below n (DESIGN CHOICE, log 1). -/
def Mach.choose (m : Mach) (n : Nat) : Nat × Mach :=
  (if n = 0 then 0 else Config.pick m.pickN % n, { m with pickN := m.pickN + 1 })

/-! ### Registers of a thread -/

/-- A vector register (R11). -/
def Thread.rd (t : Thread) (r : Reg) : Word := t.v[r.val]
/-- A pair, named by its even register, which holds the low word (R11). -/
def Thread.rdPair (t : Thread) (r : Reg) : BitVec 64 := t.rd (r + 1) ++ t.rd r
/-- Write a vector register. -/
def Thread.wr (t : Thread) (r : Reg) (x : Word) : Thread := { t with v := t.v.set r.val x r.isLt }
/-- Write a pair. -/
def Thread.wrPair (t : Thread) (r : Reg) (x : BitVec 64) : Thread :=
  (t.wr r (x.extractLsb' 0 32)).wr (r + 1) (x.extractLsb' 32 32)
/-- Write consecutive registers. -/
def Thread.wrs (t : Thread) (r : Reg) (xs : List Word) : Thread :=
  match xs with
  | [] => t
  | x :: ys => Thread.wrs (t.wr r x) (r + 1) ys
/-- A predicate register; p7 reads as true (R12). -/
def Thread.rdP (t : Thread) (q : PReg) : Bool := q.val == 7 || t.p.getLsbD q.val
/-- Write a predicate register; a write to p7 is discarded (R12). -/
def Thread.wrP (t : Thread) (q : PReg) (b : Bool) : Thread :=
  if q.val = 7 then t else { t with p := if b then t.p ||| (1#8 <<< q.val) else t.p &&& ~~~(1#8 <<< q.val) }
/-- n registers from r on. -/
def Thread.rdN (t : Thread) (r : Reg) (n : Nat) : List Word := (List.range n).map (fun i => t.rd (r + Fin.ofNat 64 i))

/-- Add registers to the pending set (R24). -/
def Thread.pendSet (t : Thread) (rs : List Reg) : Thread :=
  { t with pend := rs.foldl (fun x r => x ||| (1#64 <<< r.val)) t.pend }
/-- Whether a register is pending. -/
def Thread.isPend (t : Thread) (r : Reg) : Bool := t.pend.getLsbD r.val
/-- n registers from r on. -/
def regsFrom (r : Reg) (n : Nat) : List Reg := (List.range n).map (fun i => r + Fin.ofNat 64 i)

/-! ### Positions (R18, R148, R315) -/

/-- A position as %trapa holds it, without D (R315). -/
def Pos.word (q : Pos) : BitVec 64 := (0#6 ++ q.slot ++ q.pkt : BitVec 64)
/-- The position that a %trapa value names. -/
def Pos.ofWord (x : BitVec 64) : Pos := ⟨x.extractLsb' 0 56, x.extractLsb' 56 2⟩
/-- The order of positions (R148). -/
def Pos.lt (a b : Pos) : Bool :=
  decide (a.pkt.toNat < b.pkt.toNat) || (a.pkt == b.pkt && decide (a.slot.toNat < b.slot.toNat))
/-- The position after a group whose last word stands in slot e (R18). -/
def Pos.after (q : Pos) (e : Nat) : Pos := if e < 2 then ⟨q.pkt, BitVec.ofNat 2 (e + 1)⟩ else ⟨q.pkt + 12, 0⟩
/-- A packet's first group. -/
def Pos.start (a : BitVec 56) : Pos := ⟨a, 0⟩
/-- Whether an address is a packet start: a multiple of 12 inside the virtual space (R18, R107). -/
def isPacket (a : BitVec 64) : Bool := a.toNat % 12 == 0 && decide (a.toNat < 2 ^ 56)

/-! ### Parts of the machine -/

def Mach.thr (m : Mach) (u : Nat) : Thread := m.threads.at u
def Mach.gang (m : Mach) (g : Nat) : Gang := m.gangs.at g
def Mach.crew (m : Mach) (k : Nat) : Crew := m.crews.at k
def Mach.region (m : Mach) (r : Nat) : Region := m.regions.at r
def Mach.ctx (m : Mach) (c : Nat) : Ctx := m.ctxs.at c
def Mach.spindle (m : Mach) (p : Nat) : Spindle := m.spindles.at p
def Mach.die (m : Mach) (d : Nat) : Die := m.dies.at d
/-- Change every thread, each by its number. -/
def Mach.mapThr (m : Mach) (f : Nat → Thread → Thread) : Mach := { m with threads := m.threads.mapV f }
/-- Change the threads of a run. -/
def Mach.onRun (m : Mach) (us : List Nat) (f : Nat → Thread → Thread) : Mach :=
  m.mapThr (fun u t => if us.contains u then f u t else t)
def Mach.setThr (m : Mach) (u : Nat) (t : Thread) : Mach := { m with threads := m.threads.put u t }
def Mach.modThr (m : Mach) (u : Nat) (f : Thread → Thread) : Mach := { m with threads := m.threads.mod u f }
def Mach.setGang (m : Mach) (g : Nat) (x : Gang) : Mach := { m with gangs := m.gangs.put g x }
def Mach.modGang (m : Mach) (g : Nat) (f : Gang → Gang) : Mach := { m with gangs := m.gangs.mod g f }
def Mach.setCrew (m : Mach) (k : Nat) (x : Crew) : Mach := { m with crews := m.crews.put k x }
def Mach.modCrew (m : Mach) (k : Nat) (f : Crew → Crew) : Mach := { m with crews := m.crews.mod k f }
def Mach.setRegion (m : Mach) (r : Nat) (x : Region) : Mach := { m with regions := m.regions.put r x }
def Mach.modRegion (m : Mach) (r : Nat) (f : Region → Region) : Mach := { m with regions := m.regions.mod r f }
def Mach.setCtx (m : Mach) (c : Nat) (x : Ctx) : Mach := { m with ctxs := m.ctxs.put c x }
def Mach.modCtx (m : Mach) (c : Nat) (f : Ctx → Ctx) : Mach := { m with ctxs := m.ctxs.mod c f }
def Mach.setSp (m : Mach) (p : Nat) (x : Spindle) : Mach := { m with spindles := m.spindles.put p x }
def Mach.modSp (m : Mach) (p : Nat) (f : Spindle → Spindle) : Mach := m.setSp p (f (m.spindle p))
def Mach.modDie (m : Mach) (d : Nat) (f : Die → Die) : Mach := { m with dies := m.dies.put d (f (m.die d)) }

/-- The context of a region, of a gang, of a thread. -/
def Mach.ctxOfRegion (m : Mach) (r : Nat) : Nat := (m.region r).ctx
def Mach.ctxOfGang (m : Mach) (g : Nat) : Nat := m.ctxOfRegion (m.gang g).region
def Mach.ctxOf (m : Mach) (u : Nat) : Nat := m.ctxOfRegion (m.thr u).region
def Mach.gangOf (m : Mach) (u : Nat) : Gang := m.gang (m.thr u).gang
def Mach.regionOf (m : Mach) (u : Nat) : Region := m.region (m.thr u).region
/-- C-die of a spindle number (R145). -/
def dieOf (sp : Nat) : Nat := sp / 96
/-- The deterministic-mode bit of a thread's region (R301). -/
def Mach.detOf (m : Mach) (u : Nat) : Bool := (m.regionOf u).rcb.det
/-- System privilege of a thread (R319). -/
def Mach.privOf (m : Mach) (u : Nat) : Bool := (m.ctx (m.ctxOf u)).sys
/-- The frame slots F of a region: 8 × (FSLOTS + 1) (R115, R301). -/
def Region.frameSlots (r : Region) : Nat := 8 * (r.rcb.fslots + 1)
/-- The tick period P and the logical period H (R301). -/
def Region.period (r : Region) : Nat := 2 ^ (r.rcb.hbexp + 8)
def Region.logical (r : Region) : Nat := 2 ^ (r.rcb.lpexp + 6)

/-- A lane that has not ended: it still holds its gang (R146). -/
def Stat.live (s : Stat) : Bool := s != .exited
/-- Threads of a gang, in lane order. -/
def Gang.threads (g : Gang) : List Nat := g.lanes.filterMap id
/-- Its lanes whose threads live and have not moved out. -/
def Mach.liveThreads (m : Mach) (g : Nat) : List Nat := (m.gang g).threads.filter (fun u => (m.thr u).stat.live)
/-- A gang that still has a live lane, on a spindle or saved. -/
def Mach.gangLive (m : Mach) (g : Nat) : Bool := (m.gang g).life != .ended
/-- Insert into a sorted list. -/
def insertBy (le : α → α → Bool) (x : α) : List α → List α
  | [] => [x]
  | y :: r => if le x y then x :: y :: r else y :: insertBy le x r
/-- Sorted by an order; equal members keep their order. -/
def sortBy (le : α → α → Bool) : List α → List α
  | [] => []
  | x :: r => insertBy le x (sortBy le r)
/-- Numbers in an order that the spec does not fix (DESIGN CHOICE, log 14). -/
def Mach.inAnyOrder (m : Mach) (l : List Nat) : List Nat :=
  sortBy (fun a b => decide (Config.rank m.pickN a ≤ Config.rank m.pickN b)) l
/-- The gangs of a crew that have not ceased, in %gangid order. -/
def Mach.crewGangs (m : Mach) (k : Nat) : List Nat :=
  sortBy (fun a b => decide ((m.gang a).gangid.toNat ≤ (m.gang b).gangid.toNat))
    ((m.gangs.filter (fun x => x.2.crew == some k && x.2.life != .ended)).map (·.1))
/-- The crews of a region. -/
def Mach.regionCrews (m : Mach) (r : Nat) : List Nat := (m.crews.filter (fun x => x.2.region == r)).map (·.1)
/-- The gangs of a region that have not ceased. -/
def Mach.regionGangs (m : Mach) (r : Nat) : List Nat :=
  (m.gangs.filter (fun x => x.2.region == r && x.2.life != .ended)).map (·.1)
/-- The bits of a lane mask for some lanes. -/
def maskOf (ls : List Nat) : Word := ls.foldl (fun w l => w ||| (1#32 <<< l)) 0
/-- The threads that hold the lanes of a mask. -/
def Mach.laneMask (m : Mach) (us : List Nat) : Word := maskOf (us.map (fun u => (m.thr u).lane))

/-- A new number for a new thing. -/
def Mach.fresh (m : Mach) : Nat × Mach := (m.nextId, { m with nextId := m.nextId + 1 })

/-! ### Taking an exception and returning from one (R314 to R320) -/

/-- The cause codes (R314). -/
def Cause.code : Cause → Nat
  | .illegal => 0x01
  | .hazard => 0x02
  | .packet => 0x03
  | .priv => 0x04
  | .align => 0x05
  | .rangeMiss => 0x06
  | .rangePerm => 0x07
  | .residency => 0x08
  | .format => 0x09
  | .dataError => 0x0A
  | .accessTable => 0x0B
  | .determ => 0x0C
  | .user => 0x0D
  | .frame => 0x0E
  | .queue => 0x0F
  | .barrier => 0x10
  | .sigclass => 0x11
  | .wmFrozen => 0x12
  | .timer => 0x13
  | .codeGone => 0x14
  | .grid => 0x15
  | .killed => 0x16
  | .watch => 0x17

/-- Where a cause goes (R314). -/
inductive Route where
  | handler | system | fatal
deriving DecidableEq, Repr

/-- The route of a cause (R314). -/
def Cause.route : Cause → Route
  | .residency => .system
  | .watch => .system
  | .accessTable => .fatal
  | .codeGone => .fatal
  | .killed => .fatal
  | _ => .handler

/-- The packet address of a context's trap handler; 0 means none (R316). -/
def Ctx.hvec (c : Ctx) : BitVec 56 := c.trapE.extractLsb' 0 56

/-- Write the three trap registers (R315). -/
def Thread.setTrap (t : Thread) (tr : Trap) (resume : BitVec 64) : Thread :=
  { t with trapc := BitVec.ofNat 32 tr.cause.code, trapa := resume, trapi := tr.info }

/-- TAKING AN EXCEPTION: the lane, its pending set empty, enters the handler (R317). The trap registers take the cause, the position
to resume at and the information; H becomes 1 and the pc HVEC, slot 0; no other register changes. -/
def Thread.takeTrap (t : Thread) (hvec : BitVec 56) (tr : Trap) (resume : BitVec 64) : Thread :=
  { (t.setTrap tr resume) with h := true, pos := Pos.start hvec, stat := .run, pend := 0 }

/-- RETURNING FROM ONE: H becomes 0 and the lane resumes at %trapa (R318). -/
def Thread.eret (t : Thread) : Thread := { t with h := false, pos := Pos.ofWord t.trapa, stat := .run, pend := 0 }

/-- Whether a trap removes the fault domain instead (R314, R320): a Fatal cause, no handler, or a cause other than TIMER in handler
mode. -/
def Mach.removes (m : Mach) (t : Thread) (tr : Trap) : Bool :=
  match tr.cause.route with
  | .fatal => true
  | .system => false
  | .handler => (m.ctx (m.ctxOfRegion t.region)).hvec == 0 || (t.h && tr.cause != .timer)

/-- %trapa for a trap of a group at q whose last word stands in slot e (R315). -/
def resumeWord (q : Pos) (e : Nat) (tr : Trap) : BitVec 64 :=
  (match tr.res with
    | .group => q.word
    | .after => (q.after e).word
    | .packet => (Pos.start (q.pkt + 12)).word) ||| (if tr.d then 1#64 <<< 63 else 0)

/-- A pushed copy whose record loads a thread has issued again at its ERET, and has not read yet (R375). -/
def Push.reloads (p : Push) (u : Nat) : Bool :=
  match p.k with
  | .cpytR _ _ v _ (some _) => v == u
  | _ => false
/-- A thread with a result that has not returned, or with an access that a restore, or the loads of a record that its ERET, has still to
complete (R24, R330, R375). -/
def Mach.waiting (m : Mach) (u : Nat) : Bool :=
  m.results.any (fun r => r.us.contains u) || (m.gangOf u).replay.any (fun e => !e.f && e.u == u) || m.pushes.any (fun p => p.reloads u)

/-- A deferred report as the trap that a thread takes at the point where it now stands (R101, R324, R375). -/
def Deferred.trap (d : Deferred) : Trap := { cause := d.cause, info := d.info, d := true }

/-- Release a parked lane: its pending set is empty, and a deferred report is made here (R24, R152,
R324) (DEDUCED, log 30). -/
def Mach.unpark (m : Mach) (u : Nat) (t : Thread) : Thread :=
  if t.stat = .parked ∧ !m.waiting u then
    match t.deferred with
    | none => { t with stat := .run, pend := 0 }
    | some d => { t with stat := .trapping d.trap (resumeWord t.pos 0 d.trap), deferred := none }
  else t
/-- Complete an ERET whose reissued accesses have returned (R375): the lane stands at a new packet boundary (R154). A report that is due
is made first; a USER or TIMER trap that a report has gone before is taken next, where the lane now stands (DEDUCED, log 31). -/
def Mach.endEret (m : Mach) (u : Nat) (t : Thread) : Thread :=
  if t.stat = .eretWait ∧ !m.waiting u then
    match t.deferred, t.owed with
    | some d, _ => { t.eret with stat := .trapping d.trap (resumeWord (Pos.ofWord t.trapa) 0 d.trap), deferred := none }
    | none, some tr => { t.eret with stat := .trapping tr (Pos.ofWord t.trapa).word, owed := none, tried := false }
    | none, none => { t.eret with tried := false }
  else t
/-- A trap whose effect is not repeated when its lane comes to the group again: what a report goes before, its ERET takes up. -/
def Trap.owing (tr : Trap) : Bool := tr.cause == .user || tr.cause == .timer
/-- Take a trap whose pending set has emptied (R317). The entry is a point at which a deferred report is made (R324): the report goes
first, with the position after the point, which is the trap's own (R315); a USER or TIMER trap follows at its ERET, and another trap is
met again at its group (DEDUCED, log 31). A trap that removes the fault domain stays until the domain is removed. -/
def Mach.takeReady (m : Mach) (u : Nat) (t : Thread) : Thread :=
  let hvec := (m.ctx (m.ctxOfRegion t.region)).hvec
  match t.stat with
  | .trapping tr resume =>
    if m.waiting u || m.removes t tr then t
    else match t.deferred with
    | none => { t.takeTrap hvec tr resume with tried := false }
    | some d =>
      let at' := resume ||| 1#64 <<< 63
      if m.removes t d.trap then { t with stat := .trapping d.trap at', deferred := none }
      else { t.takeTrap hvec d.trap at' with deferred := none, tried := false, owed := if tr.owing then some tr else t.owed }
  | _ => t
/-- Let every lane go on whose pending set has emptied. -/
def Mach.settle (m : Mach) : Mach :=
  let m1 := m.mapThr m.unpark
  let m2 := m1.mapThr m1.endEret
  m2.mapThr m2.takeReady

end Sys2Proof.Machine
end

