-- ==== Sys2Proof/Machine/Flags.lean ====
section
/-! DEFINITION. Floating-point numbers, rounding and flags (R29 to R39), and the block formats that only memory holds (R40 to R50).
Values are exact: a number is a sign, a natural number and a power of two; one function rounds. -/

namespace Sys2Proof.Machine

/-! ### Flags (R37) -/

abbrev Flags := BitVec 5
def nvFlag : Flags := 16
def dzFlag : Flags := 8
def ofFlag : Flags := 4
def ufFlag : Flags := 2
def nxFlag : Flags := 1
/-- A flag when a condition holds. -/
def flagIf (b : Bool) (f : Flags) : Flags := if b then f else 0

/-! ### Formats and values (R29) -/

/-- A floating-point format: exponent bits and fraction bits. -/
structure Fmt where
  eb : Nat
  fb : Nat
deriving DecidableEq, Repr

def fp32 : Fmt := ⟨8, 23⟩
def fp16 : Fmt := ⟨5, 10⟩
def bf16 : Fmt := ⟨8, 7⟩
/-- The exponent bias. -/
def Fmt.bias (f : Fmt) : Nat := 2 ^ (f.eb - 1) - 1
/-- The exponent of the last place of a subnormal. -/
def Fmt.qmin (f : Fmt) : Int := 1 - (f.bias : Int) - f.fb
/-- Where the sign bit stands. -/
def Fmt.signBit (f : Fmt) : Nat := f.eb + f.fb
/-- ∞ without its sign. -/
def Fmt.infBits (f : Fmt) : Nat := (2 ^ f.eb - 1) * 2 ^ f.fb
/-- The canonical NaN, 0x7FC0 in both 16-bit formats (R29). -/
def Fmt.nanBits (f : Fmt) : Nat := if f.eb + f.fb = 15 then 0x7FC0 else f.infBits + 2 ^ (f.fb - 1)
/-- The largest finite number without its sign. -/
def Fmt.maxBits (f : Fmt) : Nat := f.infBits - 1
/-- A sign bit in place. -/
def Fmt.sg (f : Fmt) (s : Bool) : Nat := if s then 2 ^ f.signBit else 0

/-- A decoded value: NaN (signalling or not), an infinity, or ± m × 2^e. -/
inductive FVal where
  | nan (sig : Bool)
  | inf (s : Bool)
  | fin (s : Bool) (m : Nat) (e : Int)
deriving DecidableEq, Repr

/-- Decode the bits of a number (R29). -/
def Fmt.decode (f : Fmt) (x : Nat) : FVal :=
  let s := x.testBit f.signBit
  let ex := bitsOf x f.fb f.eb
  let fr := bitsOf x 0 f.fb
  if ex = 2 ^ f.eb - 1 then (if fr = 0 then .inf s else .nan (!fr.testBit (f.fb - 1)))
  else if ex = 0 then .fin s fr f.qmin
  else .fin s (2 ^ f.fb + fr) (f.qmin + (ex - 1 : Nat))
/-- A nonzero number below the smallest normal. -/
def Fmt.isSub (f : Fmt) (x : Nat) : Bool := bitsOf x f.fb f.eb == 0 && bitsOf x 0 f.fb != 0
def Fmt.isNan (f : Fmt) (x : Nat) : Bool := bitsOf x f.fb f.eb == 2 ^ f.eb - 1 && bitsOf x 0 f.fb != 0
def Fmt.isSnan (f : Fmt) (x : Nat) : Bool := f.isNan x && !x.testBit (f.fb - 1)
/-- A subnormal input replaced by a zero of its sign when fi holds (R30). -/
def Fmt.flushIn (f : Fmt) (fi : Bool) (x : Nat) : Nat := if fi && f.isSub x then f.sg (x.testBit f.signBit) else x
/-- A result flushed when fo holds, with its flags (R30). -/
def Fmt.flushOut (f : Fmt) (fo : Bool) (x : Nat) : Nat × Flags :=
  if fo && f.isSub x then (f.sg (x.testBit f.signBit), ufFlag ||| nxFlag) else (x, 0)

def FVal.isNan : FVal → Bool
  | .nan _ => true
  | _ => false
def FVal.isSnan : FVal → Bool
  | .nan s => s
  | _ => false
def FVal.neg : FVal → FVal
  | .nan s => .nan s
  | .inf s => .inf (!s)
  | .fin s m e => .fin (!s) m e

/-! ### Rounding (R34) -/

inductive RM where
  | rne | rtz | rup | rdn
deriving DecidableEq, Repr

/-- The modes of %fmode (R36). -/
def RM.ofMode (w : Word) : RM :=
  match (w.extractLsb' 0 2).toNat with
  | 0 => .rne
  | 1 => .rtz
  | 2 => .rup
  | _ => .rdn
/-- The mode of an rm field: 0 takes %fmode (R35). -/
def RM.ofField (rm : BitVec 2) (fmode : Word) : RM :=
  match rm.toNat with
  | 0 => RM.ofMode fmode
  | 1 => .rne
  | 2 => .rtz
  | _ => .rdn
/-- The mode of a tile word's rnd field (R66). -/
def RM.ofRnd (rnd : BitVec 2) : RM := RM.ofMode (rnd.setWidth 32)

/-- Whether q + r/d rounds up, where s is the sign, for 0 ≤ r < d. -/
def roundsUp (mode : RM) (s : Bool) (q r d : Nat) : Bool :=
  match mode with
  | .rne => decide (2 * r > d) || (2 * r == d && q % 2 == 1)
  | .rtz => false
  | .rup => !s && r != 0
  | .rdn => s && r != 0
/-- n/d rounded to an integer. -/
def roundDiv (mode : RM) (s : Bool) (n d : Nat) : Nat := n / d + (if roundsUp mode s (n / d) (n % d) d then 1 else 0)
/-- m × 2^e in units of 2^q: rounded, and whether exact. -/
def quant (mode : RM) (s : Bool) (m : Nat) (e q : Int) : Nat × Bool :=
  if q ≤ e then (m * 2 ^ (e - q).toNat, true)
  else (roundDiv mode s m (2 ^ (q - e).toNat), m % 2 ^ (q - e).toNat == 0)

/-- The last place of a value with m × 2^e, m ≠ 0 (R34: no finer than the smallest subnormal). -/
def Fmt.place (f : Fmt) (m : Nat) (e : Int) : Int := max ((Nat.log2 m : Int) + e - f.fb) f.qmin
/-- The bits of y × 2^q, which f holds. -/
def Fmt.encode (f : Fmt) (s : Bool) (y : Nat) (q : Int) : Nat :=
  if y = 0 then f.sg s
  else if y < 2 ^ f.fb then f.sg s + y
  else
    let k := Nat.log2 y
    f.sg s + ((k : Int) + q - f.fb - f.qmin + 1).toNat * 2 ^ f.fb + (y * 2 ^ f.fb / 2 ^ k - 2 ^ f.fb)

/-- RoundF of R34 for ± m × 2^e with m ≠ 0 (a zero keeps its sign). -/
def roundF (f : Fmt) (mode : RM) (fo : Bool) (s : Bool) (m : Nat) (e : Int) : Nat × Flags :=
  if m = 0 then (f.sg s, 0)
  else
    let q := f.place m e
    let y := (quant mode s m e q).1
    let exact := (quant mode s m e q).2
    if y ≠ 0 ∧ (f.bias : Int) < (Nat.log2 y : Int) + q then
      (f.sg s + (if mode = .rne || (mode = .rup && !s) || (mode = .rdn && s) then f.infBits else f.maxBits), ofFlag ||| nxFlag)
    else if y < 2 ^ f.fb ∧ q = f.qmin then
      if fo && y != 0 then (f.sg s, ufFlag ||| nxFlag ||| flagIf (!exact) nxFlag)
      else (f.encode s y q, flagIf (!exact) (ufFlag ||| nxFlag))
    else (f.encode s y q, flagIf (!exact) nxFlag)

/-! ### Exact sums (R33, R51) -/

/-- Product of two values; the flag says ∞ × 0 (R79). -/
def FVal.mul (a b : FVal) : FVal × Bool :=
  match a, b with
  | .nan s, .inf _ => (.nan s, false)
  | .nan s, .nan t => (.nan (s || t), false)
  | .nan s, .fin _ _ _ => (.nan s, false)
  | .inf _, .nan t => (.nan t, false)
  | .fin _ _ _, .nan t => (.nan t, false)
  | .inf s, .inf t => (.inf (s != t), false)
  | .inf s, .fin t n _ => if n = 0 then (.nan false, true) else (.inf (s != t), false)
  | .fin s m _, .inf t => if m = 0 then (.nan false, true) else (.inf (s != t), false)
  | .fin s m e, .fin t n g => (.fin (s != t) (m * n) (e + g), false)

/-- A signed number n × 2^e. -/
structure Dy where
  n : Int
  e : Int
deriving DecidableEq, Repr

def Dy.add (a b : Dy) : Dy :=
  let e := min a.e b.e
  ⟨a.n * 2 ^ (a.e - e).toNat + b.n * 2 ^ (b.e - e).toNat, e⟩
def Dy.zero : Dy := ⟨0, 0⟩
/-- The number of a finite value. -/
def FVal.dy : FVal → Dy
  | .fin s m e => ⟨if s then -(m : Int) else m, e⟩
  | _ => Dy.zero
def FVal.sign : FVal → Bool
  | .nan _ => false
  | .inf s => s
  | .fin s _ _ => s
def FVal.isInf : FVal → Bool
  | .inf _ => true
  | _ => false

/-- The sum of exact terms, rounded once; `bad` says that some product was ∞ × 0 (R33, R79). Opposite infinities
raise NV beside a quiet NaN too (DESIGN CHOICE, log 106). -/
def sumRound (f : Fmt) (mode : RM) (fo : Bool) (ts : List FVal) (bad : Bool) : Nat × Flags :=
  let invalid := bad || ts.any (·.isSnan) || (ts.any (fun t => t.isInf && t.sign) && ts.any (fun t => t.isInf && !t.sign))
  if invalid then (f.nanBits, nvFlag)
  else if ts.any (·.isNan) then (f.nanBits, 0)
  else if ts.any (·.isInf) then (f.sg (ts.any (fun t => t.isInf && t.sign)) + f.infBits, 0)
  else
    let d := ts.foldl (fun a t => Dy.add a t.dy) Dy.zero
    if d.n = 0 then
      (f.sg (if ts.all (·.sign) then true else if ts.all (fun t => !t.sign) then false else mode = .rdn), 0)
    else roundF f mode fo (decide (d.n < 0)) d.n.natAbs d.e

/-- a × b, negated when n holds, plus c, rounded once (R79). -/
def fmaRound (f : Fmt) (mode : RM) (fo n : Bool) (a b c : FVal) : Nat × Flags :=
  sumRound f mode fo [if n then (a.mul b).1.neg else (a.mul b).1, c] (a.mul b).2

/-! ### FMIN, FMAX and comparisons (R32, R82) -/

/-- a < b for values that are no NaN, with -0 below +0 when `z` holds. -/
def FVal.lt (z : Bool) (a b : FVal) : Bool :=
  match a, b with
  | .nan _, _ => false
  | .inf _, .nan _ => false
  | .fin _ _ _, .nan _ => false
  | .inf s, .inf t => s && !t
  | .inf s, .fin _ _ _ => s
  | .fin _ _ _, .inf t => !t
  | .fin s m e, .fin t n g =>
    let d := Dy.add (FVal.dy (.fin s m e)) ⟨-(FVal.dy (.fin t n g)).n, g⟩
    decide (d.n < 0) || (z && d.n == 0 && m == 0 && n == 0 && s && !t)
def FVal.eqv (a b : FVal) : Bool := !a.isNan && !b.isNan && !FVal.lt false a b && !FVal.lt false b a

/-- minimumNumber or maximumNumber of two operands given as bits (R32). -/
def Fmt.minmax (f : Fmt) (mx : Bool) (x y : Nat) : Nat × Flags :=
  let a := f.decode x
  let b := f.decode y
  let fl := flagIf (a.isSnan || b.isSnan) nvFlag
  if a.isNan && b.isNan then (f.nanBits, fl)
  else if a.isNan then (y, fl)
  else if b.isNan then (x, fl)
  else if (if mx then FVal.lt true a b else FVal.lt true b a) then (y, fl)
  else (x, fl)

/-- The floating-point conditions of FCMP, with their NV (R82). -/
def fcond (c : Nat) (a b : FVal) : Bool × Flags :=
  let un := a.isNan || b.isNan
  let sn := flagIf (a.isSnan || b.isSnan) nvFlag
  let qn := flagIf un nvFlag
  match c with
  | 0 => (FVal.eqv a b, sn)
  | 1 => (!FVal.eqv a b, sn)
  | 2 => (FVal.lt false a b, qn)
  | 3 => (!un && !FVal.lt false b a, qn)
  | 4 => (un, sn)
  | _ => (!un, sn)

/-! ### Conversions (R39, R81) -/

/-- From one format to another. -/
def cvtFF (src dst : Fmt) (mode : RM) (fo : Bool) (x : Nat) : Nat × Flags :=
  match src.decode x with
  | .nan s => (dst.nanBits, flagIf s nvFlag)
  | .inf s => (dst.sg s + dst.infBits, 0)
  | .fin s m e => roundF dst mode fo s m e
/-- From an integer. -/
def cvtFI (mode : RM) (fo : Bool) (x : Int) : Nat × Flags := roundF fp32 mode fo (decide (x < 0)) x.natAbs 0
/-- To an integer between lo and hi, as its two's complement value. -/
def cvtIF (lo hi : Int) (mode : RM) (x : Nat) : Int × Flags :=
  match fp32.decode x with
  | .nan _ => (0, nvFlag)
  | .inf s => (if s then lo else hi, nvFlag)
  | .fin s m e =>
    let q := quant mode s m e 0
    let v : Int := if s then -(q.1 : Int) else q.1
    if v < lo then (lo, nvFlag) else if hi < v then (hi, nvFlag) else (v, flagIf (!q.2) nxFlag)
/-- To an integral value. -/
def rint (mode : RM) (x : Nat) : Nat × Flags :=
  match fp32.decode x with
  | .nan s => (fp32.nanBits, flagIf s nvFlag)
  | .inf s => (fp32.sg s + fp32.infBits, 0)
  | .fin s m e =>
    let q := quant mode s m e 0
    if q.2 then (if m = 0 then fp32.sg s else x, 0) else ((roundF fp32 .rne false s q.1 0).1, nxFlag)

/-- The class mask of FCLASS (R83). -/
def fclassOf (x : Nat) : Nat :=
  let s := x.testBit 31
  if fp32.isNan x then (if fp32.isSnan x then 2 ^ 8 else 2 ^ 9)
  else if bitsOf x 23 8 = 255 then (if s then 2 ^ 0 else 2 ^ 7)
  else if bitsOf x 0 31 = 0 then (if s then 2 ^ 3 else 2 ^ 4)
  else if fp32.isSub x then (if s then 2 ^ 2 else 2 ^ 5)
  else (if s then 2 ^ 1 else 2 ^ 6)

/-! ### Square root by digits, for SQRT and the bounds of RCP and RSQ -/

/-- The largest r with r² ≤ n among those below 2^k above r. -/
def isqrtGo (n : Nat) : Nat → Nat → Nat
  | 0, r => r
  | k + 1, r => if (r + 2 ^ k) * (r + 2 ^ k) ≤ n then isqrtGo n k (r + 2 ^ k) else isqrtGo n k r
/-- The integer square root of n < 2^(2k). -/
def isqrt (k n : Nat) : Nat := isqrtGo n k 0

/-! ### Block formats (R41 to R49) -/

/-- T of R41. -/
def l6T (j : Nat) : Nat :=
  match j % 4 with
  | 0 => 32768
  | 1 => 38968
  | 2 => 46341
  | _ => 55109
/-- L6Decode: ± m × 2^e (R41). -/
def l6Decode (code : Nat) (sc : Int) : FVal :=
  if code % 64 = 0x20 then .fin false 0 0
  else .fin (code.testBit 5) (l6T (code % 4)) (((code % 32 / 4 : Nat) : Int) - 19 + sc)
/-- L6Prod (R42). -/
def l6Prod (a : Nat) (ea : Int) (b : Nat) (eb : Int) : FVal :=
  if a % 64 = 0x20 ∨ b % 64 = 0x20 then .fin false 0 0
  else
    let s := a % 32 + b % 32
    .fin (a.testBit 5 != b.testBit 5) (l6T (s % 4)) (((s / 4 : Nat) : Int) - 23 + ea + eb)
/-- A two's complement code of w bits times 2^e (R44). -/
def kDecode (w code : Nat) (sc : Int) : FVal :=
  let k := signedOf code w
  .fin (decide (k < 0)) k.natAbs sc
/-- Width in bits of an element of format fmt (R40). -/
def fmtWidth (fmt : Nat) : Nat :=
  match fmt with
  | 1 => 32
  | 2 => 16
  | 3 => 16
  | 4 => 6
  | 5 => 8
  | 6 => 4
  | _ => 8
/-- The block formats. -/
def isBlock (fmt : Nat) : Bool := fmt == 4 || fmt == 5 || fmt == 6
/-- The block length of a BLK code (R45). -/
def blkLen (blk : Nat) : Nat :=
  match blk with
  | 0 => 24
  | 1 => 48
  | _ => 96
/-- A block element's value. -/
def elemVal (fmt code : Nat) (sc : Int) : FVal :=
  if fmt = 4 then l6Decode code sc else kDecode (fmtWidth fmt) code sc
/-- The float format of a format code. -/
def fltOf (fmt : Nat) : Fmt := if fmt = 2 then fp16 else if fmt = 3 then bf16 else fp32
/-- A decoded block value delivered as FP32: rounded by RNE, saturating, subnormals kept (R46). -/
def deliver32 (v : FVal) : Nat :=
  match v with
  | .fin s m e =>
    let r := (roundF fp32 .rne false s m e).1
    if bitsOf r 0 31 = fp32.infBits then fp32.sg s + fp32.maxBits else r
  | .inf s => fp32.sg s + fp32.infBits
  | .nan _ => fp32.nanBits

/-- N of a SPARSE code (R190). -/
def sparseN (sp : Nat) : Nat :=
  match sp with
  | 1 => 2
  | 2 => 3
  | 3 => 4
  | 4 => 6
  | _ => 0
/-- Bytes of an N:12 group (R47). -/
def groupBytes (fmt n : Nat) : Nat := (n * (fmtWidth fmt + 4) + 7) / 8
/-- The codes and positions of a group held as a number (R47). -/
def groupEntries (fmt n x : Nat) : List (Nat × Nat) :=
  (List.range n).map (fun i => (bitsOf x (i * fmtWidth fmt) (fmtWidth fmt), bitsOf x (n * fmtWidth fmt + 4 * i) 4))
/-- Strictly increasing. -/
def rising : List Nat → Bool
  | [] => true
  | [_] => true
  | a :: b :: r => decide (a < b) && rising (b :: r)
/-- A group whose positions do not rise or pass 11 (R49). -/
def badGroup (es : List (Nat × Nat)) : Bool := !rising (es.map (·.2)) || es.any (fun e => decide (11 < e.2))

/-! ### Encoding into block formats (R50, R99) -/

/-- ± m × 2^e divided by 2^sc, to the nearest even integer between -lim and lim. -/
def kEncode (lim : Nat) (v : FVal) (sc : Int) : Int :=
  match v with
  | .nan _ => 0
  | .inf s => if s then -(lim : Int) else lim
  | .fin s m e =>
    let y := min (quant .rne s m e sc).1 lim
    if s then -(y : Int) else y

/-- |a - b|. -/
def natDist (a b : Nat) : Nat := (a - b) + (b - a)
/-- L6Encode of ± m × 2^e: the candidate nearest in magnitude; ties to even L, zero first (R50). -/
def l6Encode (v : FVal) (sc : Int) : Nat :=
  match v with
  | .nan _ => 0x20
  | .inf s => (if s then 0x20 else 0) + 31
  | .fin s m e0 =>
    if m = 0 then 0x20
    else
      let e := e0 - sc
      let base : Int := min e (-19)
      let x := m * 2 ^ (e - base).toNat
      let mag : Nat → Nat := fun l => l6T (l % 4) * 2 ^ (l / 4) * 2 ^ (-19 - base).toNat
      let cands := (List.range 32).filter (fun l => !(s && l == 0))
      -- start with zero; a code replaces the best only when nearer, or equally near and even while the best is odd
      let best := cands.foldl (fun (b : Option Nat × Nat) l =>
        let d := natDist x (mag l)
        let tieWins := match b.1 with
          | none => false
          | some k => k % 2 == 1 && l % 2 == 0
        if d < b.2 || (d == b.2 && tieWins) then (some l, d) else b) (none, x)
      match best.1 with
      | none => 0x20
      | some l => (if s then 0x20 else 0) + l
/-- ⌊log2 M⌋ of M = m × 2^e, M ≠ 0. -/
def log2Of (m : Nat) (e : Int) : Int := (Nat.log2 m : Int) + e
/-- Sat. -/
def satI (x lo hi : Int) : Int := if x < lo then lo else if hi < x then hi else x

/-! ### Flags of a lane (R38) -/

/-- %fstat with flags raised. -/
def Thread.raise (t : Thread) (f : Flags) : Thread := { t with fstat := t.fstat ||| f.setWidth 32 }
/-- Flags that a word raised for a lane, gathered in the group. -/
def Group.raise (g : Group) (u : Nat) (f : Flags) : Group := if f = 0 then g else { g with flags := (u, f) :: g.flags }
/-- Flags raised for a lane by the words of the group. -/
def Group.raised (g : Group) (u : Nat) : Flags := g.flags.foldl (fun a x => if x.1 = u then a ||| x.2 else a) 0
/-- %fmode controls. -/
def fidOf (fmode : Word) : Bool := fmode.getLsbD 2
def fodOf (fmode : Word) : Bool := fmode.getLsbD 3

end Sys2Proof.Machine
end

