-- ==== Sys2Proof/Machine/Tree.lean ====
section
/-! DEFINITION. Range descriptors as bits (R190), and the range tree of a context as its node pool holds it (R194). Where each node lies
and how full it is are not architected (DESIGN CHOICE, log 8): a node that is not the last of its level has 16 to 31 entries, which keeps
any tree within 8 levels. -/

namespace Sys2Proof.Machine

/-- A field of a descriptor. -/
def fieldAt (v lo : Nat) : Nat := v * 2 ^ lo
/-- The 512 bits of a valid descriptor. -/
def Range.pack (r : Range) : Nat :=
  fieldAt 1 511 + fieldAt r.gen.toNat 432 + fieldAt (r.cstate % 4) 428 + fieldAt (r.key % 2 ^ 12) 416 + fieldAt (r.cache % 4) 414 +
    fieldAt (r.hdev % 2 ^ 10) 404 + fieldAt (r.home % 8) 401 + fieldAt (r.sparse % 8) 398 + fieldAt (r.blk % 4) 396 +
    fieldAt (r.fmt % 8) 393 + fieldAt r.a.toNat 392 + fieldAt r.x.toNat 391 + fieldAt r.w.toNat 390 + fieldAt r.r.toNat 389 +
    fieldAt (r.soff % 2 ^ 40) 349 + fieldAt r.sscope.toNat 346 + fieldAt r.sync.toNat 290 + fieldAt (r.rhi % 2 ^ 32) 258 +
    fieldAt (r.rlo % 2 ^ 32) 226 + fieldAt (r.cwm % 2 ^ 50) 176 + fieldAt r.noffg.toNat 132 + fieldAt r.offg.toNat 88 +
    fieldAt (r.limg % 2 ^ 44) 44 + r.baseg % 2 ^ 44

/-- The entries of each node of a level, for a number of children; the fuel is that number. -/
def treeCut (c lvl : Nat) : Nat → Nat → Nat → List Nat
  | 0, _, _ => []
  | f + 1, n, j =>
    if n = 0 then []
    else
      let w := min n (16 + Config.treeFill c (16 * j + lvl) % 16)
      w :: treeCut c lvl f (n - w) (j + 1)
/-- The levels of a tree of n ranges, the leaves first. -/
def treeLevels (c : Nat) : Nat → Nat → Nat → List (List Nat)
  | 0, _, _ => []
  | f + 1, lvl, n =>
    let r := treeCut c lvl n n 0
    if r.length ≤ 1 then [r] else r :: treeLevels c f (lvl + 1) r.length
/-- Nodes of a tree of n ranges, and the 512-byte places that it takes with its descriptors, eight to a place. -/
def treeNodeCount (c n : Nat) : Nat := ((treeLevels c 8 0 n).map List.length).sum
def treeUse (c n : Nat) : Nat := treeNodeCount c n + (n + 7) / 8
/-- A place of the pool for each of k things, all different: the first free one from a place that is not architected. -/
def treePlaces (c gen size : Nat) : Nat → List Nat
  | 0 => []
  | k + 1 =>
    let used := treePlaces c gen size k
    let s := Config.treePlace c gen k
    (((List.range size).map (fun i => (s + i) % size)).find? (fun p => !used.contains p)).getD 0 :: used
/-- A list cut into pieces of given lengths. -/
def cutBy : List Nat → List α → List (List α)
  | [], _ => []
  | n :: r, l => l.take n :: cutBy r (l.drop n)
/-- The 512 bytes of a node: its keys and the addresses that they lead to. -/
def nodeBytes (leaf : Bool) (es : List (Nat × Nat)) : List Byte :=
  leBytes 16 (es.length + fieldAt leaf.toNat 8) ++ es.flatMap (fun e => leBytes 16 (e.1 % 2 ^ 44 + fieldAt (e.2 % 2 ^ 52) 64)) ++
    List.replicate (496 - 16 * es.length) 0
/-- The nodes over some children, level by level: each with its address. -/
def treeNodes (c gen : Nat) (addr : Nat → Nat) : Nat → Nat → Nat → List (Nat × Nat) → List (Nat × List Byte)
  | 0, _, _, _ => []
  | f + 1, lvl, num, kids =>
    let parts := (cutBy (treeCut c lvl kids.length kids.length 0) kids).zipIdx
    let nodes := parts.map (fun p => (addr (num + p.2), nodeBytes (lvl == 0) p.1))
    if parts.length ≤ 1 then nodes
    else nodes ++ treeNodes c gen addr f (lvl + 1) (num + parts.length) (parts.map (fun p => ((p.1.headD (0, 0)).1, addr (num + p.2))))
/-- What the node pool of context c holds: nodes and descriptors, each with its address. -/
def Ctx.treeImage (c : Nat) (x : Ctx) : List (Nat × List Byte) :=
  let rs := sortBy (fun a b => decide (a.baseg ≤ b.baseg)) x.ranges
  let n := treeNodeCount c rs.length
  let places := (treePlaces c x.treeGen (64 * x.treen) (treeUse c rs.length)).reverse
  let addr (i : Nat) : Nat := x.tree + 512 * places.getD i 0
  let descAt (i : Nat) : Nat := addr (n + i / 8) + 64 * (i % 8)
  treeNodes c x.treeGen addr 8 0 0 (rs.zipIdx.map (fun r => (r.1.baseg, descAt r.2))) ++
    rs.zipIdx.map (fun r => (descAt r.2, leBytes 64 r.1.pack))
/-- A byte of a context's node pool, which the tree words keep: what stands outside nodes and descriptors is not architected. -/
def Mach.treeAt (m : Mach) (pa : Nat) : Option Byte :=
  (m.ctxs.find? (fun x => decide (x.2.tree ≤ pa) && decide (pa < x.2.tree + 32768 * x.2.treen))).map (fun x =>
    match (Ctx.treeImage x.1 x.2).find? (fun e => decide (e.1 ≤ pa) && decide (pa < e.1 + e.2.length)) with
    | some e => e.2.getD (pa - e.1) 0
    | none => Config.treeByte x.1 x.2.treeGen pa)

end Sys2Proof.Machine
end

