-- ==== Sys2Proof/Machine/Xts.lean ====
section
/-! DEFINITION. AES-256 in XTS mode, by which memory is encrypted (R7, R368). The spec names the cipher; its steps are those of its
published standards (PRESUMED, log 5). -/

namespace Sys2Proof.Machine.Xts

/-- Product by x, and of two elements, in the field of AES. -/
def xtime (b : Nat) : Nat := if b < 128 then 2 * b else (2 * b) ^^^ 0x11B
def gmul (a b : Nat) : Nat :=
  ((List.range 8).foldl (fun (s : Nat × Nat) i => (if b.testBit i then s.1 ^^^ s.2 else s.1, xtime s.2)) (0, a)).1
/-- The inverse of an element, 0 for 0: its power 254. -/
def ginv (a : Nat) : Nat :=
  ((List.range 7).foldl (fun (s : Nat × Nat) _ => (gmul s.1 (gmul s.2 s.2), gmul s.2 s.2)) (1, a)).1
def rotl (b n : Nat) : Nat := (b * 2 ^ n + b / 2 ^ (8 - n)) % 256
/-- The substitution of a byte, and its inverse. -/
def sbox (a : Nat) : Nat :=
  let y := ginv a
  y ^^^ rotl y 1 ^^^ rotl y 2 ^^^ rotl y 3 ^^^ rotl y 4 ^^^ 0x63
def isbox (a : Nat) : Nat := ginv (rotl a 1 ^^^ rotl a 3 ^^^ rotl a 6 ^^^ 0x05)
def xors (a b : List Nat) : List Nat := List.zipWith (· ^^^ ·) a b
/-- Rows of the state shift by their number, and back; the state is held column by column. -/
def shiftRows (s : List Nat) : List Nat := (List.range 16).map (fun i => s.getD ((i + 4 * (i % 4)) % 16) 0)
def unshiftRows (s : List Nat) : List Nat := (List.range 16).map (fun i => s.getD ((i + 16 - 4 * (i % 4)) % 16) 0)
/-- Each column is multiplied by a circulant matrix of first row `k`. -/
def mixColumns (k : List Nat) (s : List Nat) : List Nat :=
  (List.range 16).map (fun i =>
    (List.range 4).foldl (fun x j => x ^^^ gmul (s.getD (i / 4 * 4 + (i + j) % 4) 0) (k.getD j 0)) 0)
/-- The 60 words of the key schedule of a 32-byte key. -/
def schedule (key : List Nat) : List (List Nat) :=
  (List.range 52).foldl (fun ws i =>
    let t := ws.getLastD []
    let u := if i % 8 = 0 then xors ((t.drop 1 ++ t.take 1).map sbox) [2 ^ (i / 8), 0, 0, 0] else if i % 8 = 4 then t.map sbox else t
    ws ++ [xors (ws.getD i []) u]) ((List.range 8).map (fun i => (key.drop (4 * i)).take 4))
/-- The key of round r. -/
def roundKey (ws : List (List Nat)) (r : Nat) : List Nat := ((ws.drop (4 * r)).take 4).flatten
/-- Encrypt and decrypt one 16-byte block. -/
def encrypt (key blk : List Nat) : List Nat :=
  let ws := schedule key
  let s := (List.range 13).foldl (fun s r => xors (mixColumns [2, 3, 1, 1] (shiftRows (s.map sbox))) (roundKey ws (r + 1)))
    (xors blk (roundKey ws 0))
  xors (shiftRows (s.map sbox)) (roundKey ws 14)
def decrypt (key blk : List Nat) : List Nat :=
  let ws := schedule key
  let s := (List.range 13).foldl (fun s r => mixColumns [14, 11, 13, 9] (xors ((unshiftRows s).map isbox) (roundKey ws (13 - r))))
    (xors blk (roundKey ws 14))
  xors ((unshiftRows s).map isbox) (roundKey ws 0)

/-- A number as n bytes, lowest first, and back. -/
def bytesOf (n x : Nat) : List Nat := (List.range n).map (fun i => x / 256 ^ i % 256)
def natOf (bs : List Nat) : Nat := bs.foldr (fun b x => b + 256 * x) 0
/-- The two 256-bit keys of a slot, the data key first (R369). -/
def dataKey (k : Nat) : List Nat := bytesOf 32 k
def tweakKey (k : Nat) : List Nat := bytesOf 32 (k / 2 ^ 256)
/-- The tweak of block j of a data unit: the encrypted tweak times x to the power j. -/
def tweak (key tw j : Nat) : Nat :=
  (List.range j).foldl (fun t _ => if t < 2 ^ 127 then 2 * t else (2 * t) % 2 ^ 128 ^^^ 0x87) (natOf (encrypt (tweakKey key) (bytesOf 16 tw)))
/-- Encrypt and decrypt block j of a data unit. -/
def enc (key tw j x : Nat) : Nat :=
  let t := tweak key tw j
  natOf (encrypt (dataKey key) (bytesOf 16 (x ^^^ t))) ^^^ t
def dec (key tw j x : Nat) : Nat :=
  let t := tweak key tw j
  natOf (decrypt (dataKey key) (bytesOf 16 (x ^^^ t))) ^^^ t

end Sys2Proof.Machine.Xts
end

