-- ==== Sys2Proof/Machine/Memory.lean ====
section
/-! DEFINITION. Storage as an access reaches it: translation and its checks (R95, R191, R207, R366), watermarks (R232), the caches
and the homes (R210, R211), keys (R368), and the requests and results on their way (R16, R213, R220, R223). -/

namespace Sys2Proof.Machine

/-- What an access is for (R191). -/
inductive AKind where
  | read | write | atomic | fetch
deriving DecidableEq, Repr

/-- Who makes an access. -/
structure Who where
  ctx : Nat
  crew : Option Nat
  sp : Nat
  thread : Bool      -- a word of a thread, not an engine
deriving DecidableEq, Repr

/-- The thread u as the party of an access. -/
def Mach.who (m : Mach) (u : Nat) : Who := ⟨m.ctxOf u, (m.gangOf u).crew, (m.gangOf u).sp, true⟩

/-- n consecutive addresses. -/
def span (a n : Nat) : List Nat := (List.range n).map (a + ·)

/-! ### Ranges and windows -/

def Range.base (r : Range) : Nat := r.baseg * 4096
def Range.limit (r : Range) : Nat := r.limg * 4096
/-- The valid range of a context that covers an address (R189). -/
def Mach.rangeAt (m : Mach) (c va : Nat) : Option Range :=
  (m.ctx c).ranges.find? (fun r => decide (r.base ≤ va) && decide (va < r.limit))
/-- The offset that applies to the 64-byte block of an address; none while that block is moving (R191). -/
def Range.offAt (r : Range) (va : Nat) : Option (BitVec 44) :=
  if r.cstate = 0 then some r.offg
  else if va / 64 < r.cwm then some r.noffg
  else if va / 64 = r.cwm then none
  else some r.offg
/-- VA + offset (R189). -/
def paOf (va : Nat) (off : BitVec 44) : Nat := ((va : Int) + off.toInt * 4096).toNat

/-- The region of R356 that holds a physical address: 0 to 3 HBM of that C-die, 4 the LPDDR tier. -/
def homeOf (pa : Nat) : Option Nat :=
  if 2 ^ 44 ≤ pa ∧ pa < 2 ^ 44 + 3 * 2 ^ 40 then some 4
  else if pa / 2 ^ 40 < 4 ∧ pa % 2 ^ 40 < 96 * 2 ^ 30 then some (pa / 2 ^ 40)
  else none
/-- Whether a device's access tables, by target, admit a context to a byte (R366). -/
def admitsIn (tabs : Store (List Acc)) (ctx home pa : Nat) (k : AKind) : Bool :=
  let es := (tabs.at home).filter (fun a => a.ctx == ctx && decide (a.baseg * 4096 ≤ pa) && decide (pa < a.limg * 4096))
  let r := es.any (·.r)
  let w := es.any (·.w)
  homeOf pa == some home &&
    match k with
    | .read => r
    | .fetch => r
    | .write => w
    | .atomic => r && w
def Mach.admits (m : Mach) (ctx home pa : Nat) (k : AKind) : Bool := admitsIn m.access ctx home pa k
/-- Whether the target of a byte admits the access as it arrives there (R366, R367); windows hold no table. -/
def Mach.admitsLoc (m : Mach) (ctx : Nat) (k : AKind) (l : Loc) : Bool :=
  match l.sto with
  | .dram => admitsIn m.access ctx l.home l.addr k
  | .remote r => admitsIn (m.remoteAcc.at r) ctx l.home l.addr k
  | _ => true

/-- Live frame-stack areas of a context, which only the BZ40 writes (R115). -/
def Mach.inFrameArea (m : Mach) (ctx va : Nat) : Bool :=
  m.threads.any (fun x => x.2.stat.live && m.ctxOfRegion x.2.region == ctx && decide (x.2.fstk.toNat ≤ va) &&
    decide (va < x.2.fstk.toNat + 160 * (m.region x.2.region).frameSlots))

/-- How one byte translates: where it lies and whether its target admits the access, or the check that fails with its place in the
order of R95, or a wait for the planer (R191). -/
inductive TrByte where
  | ok (l : Loc) (adm : Bool)
  | bad (stage : Nat) (c : Cause)
  | wait
deriving DecidableEq, Repr

/-- A thread's load, store or atomic of a byte of a live frame area, in whichever kind of storage it lies (R115). -/
def Mach.frameBarred (m : Mach) (w : Who) (k : AKind) (va : Nat) : Bool := w.thread && k != .fetch && m.inFrameArea w.ctx va

/-- Window addresses (R207). A spawn's access to crew-local memory meets FRAME (R130) after ALIGN, where another meets RANGE_MISS, before
the other checks of R95, which gives it no place (DESIGN CHOICE, log 39). -/
def Mach.window (m : Mach) (w : Who) (k : AKind) (va : Nat) : TrByte :=
  let off := va % 2 ^ 48
  if k = .fetch then .bad 3 .rangePerm
  else match va / 2 ^ 48 with
  | 0xFF =>
    match w.crew with
    | none => .bad 2 .frame
    | some c => if off < (m.crew c).locSize then .ok { sto := .crew c, addr := off, va := va } true else .bad 2 .rangeMiss
  | 0xFE =>
    let o := off % 2 ^ 26
    let x := m.ctx w.ctx
    if off / 2 ^ 34 = 0 ∧ off / 2 ^ 26 % 2 ^ 6 = 0 ∧ x.csmb * 65536 ≤ o ∧ o < (x.csmb + x.csml) * 65536 then
      if m.frameBarred w k va then .bad 3 .rangePerm else .ok { sto := .csm, addr := off, va := va } true
    else .bad 2 .rangeMiss
  | _ =>
    let x := m.ctx w.ctx
    if off < 2 ^ 21 ∧ x.hwb * 4096 ≤ off ∧ off < (x.hwb + x.hwl) * 4096 then
      if m.frameBarred w k va then .bad 3 .rangePerm else .ok { sto := .host, addr := off, va := va } true
    else .bad 2 .rangeMiss

/-- Where a global byte lies under a range and an offset, and whether its target admits the access (R191, R366, R368). -/
def Mach.globalAt (m : Mach) (w : Who) (k : AKind) (r : Range) (off : BitVec 44) (va : Nat) : TrByte :=
  let pa := paOf va off
  let x := m.ctx w.ctx
  let key := x.keys.find r.key
  let remote := r.home = 5 ∧ r.hdev ≠ x.rank
  let home := if r.home = 5 then (homeOf pa).getD 5 else r.home
  let l : Loc := { sto := if remote then .remote r.hdev else .dram, addr := pa, va := va, tag := ⟨key.getD 0, w.ctx, va / 64⟩,
                   home := home, cache := if r.cache = 0 then .l1l2 else if r.cache = 1 then .l2 else .none }
  .ok l (key.isSome && (!decide remote || decide (r.hdev < x.ranks)) && m.admitsLoc w.ctx k l)

/-- A byte of a stream section of a loaded object, which no gang may execute (R67). -/
def Ctx.inStream (c : Ctx) (va : Nat) : Bool :=
  c.objs.any (fun o => o.2.streams.any (fun s => decide (s.1 ≤ va) && decide (va < s.2)))
/-- Translate of R191 for one byte. A fetch by a gang of a byte of a stream section meets RANGE_PERM also where X is set (R67). An element that a removal completes has gone to its bytes before the planer comes to their block, so
that they lie where the block still is (R205, R333) (DEDUCED, log 53). -/
def Mach.translate (m : Mach) (w : Who) (k : AKind) (va : Nat) : TrByte :=
  if 2 ^ 56 ≤ va then .bad 2 .rangeMiss
  else if 0xFD * 2 ^ 48 ≤ va then m.window w k va
  else match m.rangeAt w.ctx va with
  | none => .bad 2 .rangeMiss
  | some r =>
    let perm := match k with
      | .read => r.r
      | .write => r.w
      | .atomic => r.r && r.w && r.a
      | .fetch => r.x && !(m.ctx w.ctx).inStream va
    let g := va / 4096 - r.baseg
    if !perm || m.frameBarred w k va then .bad 3 .rangePerm
    else if g < r.rlo ∨ r.rhi ≤ g then .bad 4 .residency
    else match r.offAt va with
    | some off => m.globalAt w k r off va
    | none => if r.cstate = 2 then .bad 5 .dataError else if m.whole then m.globalAt w k r r.offg va else .wait

/-! ### Attributes of typed storage (R97, R190, R209) -/

/-- The range or segment that holds a byte: origin, end, format, block code, sparse code and scale base. -/
structure Attr where
  origin : Nat
  lim : Nat
  fmt : Nat
  blk : Nat
  sparse : Nat
  soff : Nat
deriving DecidableEq, Repr

/-- The attributes of an address: a range's, or the lowest-numbered valid segment's; none where bytes are untyped. -/
def Mach.attrAt (m : Mach) (w : Who) (va : Nat) : Option Attr :=
  if va / 2 ^ 48 = 0xFF then
    match w.crew with
    | none => none
    | some c =>
      let off := va % 2 ^ 48
      ((m.crew c).segs.toList.find? (fun s => s.len != 0 && decide (s.start ≤ off) && decide (off < s.start + s.len))).map
        (fun s => ⟨0xFF * 2 ^ 48 + s.start, 0xFF * 2 ^ 48 + s.start + s.len, s.fmt, s.blk, s.sparse, s.soff⟩)
  else if 0xFD * 2 ^ 48 ≤ va then none
  else (m.rangeAt w.ctx va).map (fun r => ⟨r.base, r.limit, r.fmt, r.blk, r.sparse, r.soff⟩)
/-- A byte that admits no access: format code 7 or block code 0b11 (R40, R45, R190). -/
def Mach.fmtDead (m : Mach) (w : Who) (va : Nat) : Bool :=
  match m.attrAt w va with
  | none => false
  | some a => a.fmt == 7 || a.blk == 3

/-! ### The watch (R316, R323) -/

def Ctx.watched (c : Ctx) (va : Nat) : Bool :=
  c.trapE.getLsbD 56 && decide ((c.trapE.extractLsb' 64 56).toNat ≤ va) &&
    decide (va < (c.trapE.extractLsb' 64 56).toNat + 2 ^ ((c.trapE.extractLsb' 120 4).toNat + 2))

/-! ### Watermarks (R232, R251, R290) -/

/-- A destination behind a watermark: bytes from wm up to hi have not landed; frozen gives the landing slot. -/
structure Mark where
  lo : Nat
  wm : Nat
  hi : Nat
  frozen : Option Nat
deriving DecidableEq, Repr

/-- A gather job's row length, its rows of DATA, and the end of its destination (R287, R288, R290). -/
def Desc.row (d : Desc) : Nat := if d.rowb = 0 then 65536 else d.rowb
def Desc.isGather (d : Desc) : Bool := d.kind == 0 || d.kind == 1 || d.kind == 4
def Desc.rows (d : Desc) : Nat := if d.kind = 1 then d.count / max d.bag 1 else d.count
def Desc.hi (d : Desc) : Nat := d.data + d.rows * d.row
/-- The watermarks of a crew's active copies and gather jobs, in order of acceptance. A copy that still waits for its stage has no
destination yet. -/
def Mach.marks (m : Mach) (k : Nat) : List Mark :=
  (m.copies.filter (fun c => c.2.crew == k && !(c.2.cw.getLsbD 21 && c.2.stage.isNone))).map
      (fun c => ⟨c.2.base, c.2.wm, c.2.hi, c.2.frozen.map (fun _ => c.2.slot.getD 0)⟩) ++
    (m.jobs.filter (fun j => j.2.crew == k && j.2.d.isGather)).map
      (fun j => ⟨j.2.d.data, j.2.wm, j.2.d.hi, j.2.susp.map (fun _ => j.2.slot.getD 0)⟩)
/-- A byte at or above a watermark, inside its destination. -/
def Mark.holds (k : Mark) (va : Nat) : Bool := decide (k.wm ≤ va) && decide (k.lo ≤ va) && decide (va < k.hi)
/-- The landing slot of a frozen watermark that stops an access of these bytes. -/
def Mach.frozenAt (m : Mach) (crew : Option Nat) (vas : List Nat) : Option Nat :=
  match crew with
  | none => none
  | some k => ((m.marks k).find? (fun x => x.frozen.isSome && vas.any x.holds)).map (fun x => x.frozen.getD 0)
/-- Whether a watermark that is not frozen holds an access of these bytes back. -/
def Mach.heldAt (m : Mach) (crew : Option Nat) (vas : List Nat) : Bool :=
  match crew with
  | none => false
  | some k => (m.marks k).any (fun x => x.frozen.isNone && vas.any x.holds)

/-! ### An access and its checks (R95) -/

/-- An access that may go on with the bytes it reaches, one that meets a cause, and one that waits for the planer. -/
inductive Reach where
  | ok (ls : List Loc)
  | trap (c : Cause) (info : Nat) (va : Nat)
  | wait
deriving DecidableEq, Repr

/-- The failing check that comes first in the order of R95; among bytes, the lowest listed. -/
def firstBad (upto : Nat) : List (Nat × TrByte) → Option (Nat × Cause × Nat)
  | [] => none
  | (va, .bad st c) :: r =>
    match firstBad upto r with
    | none => if st ≤ upto then some (st, c, va) else none
    | some (st', c', va') => if st ≤ upto ∧ st ≤ st' then some (st, c, va) else some (st', c', va')
  | _ :: r => firstBad upto r
/-- Where the bytes lie, once each has translated. -/
def trLocs : List (Nat × TrByte) → List Loc
  | [] => []
  | (_, .ok l _) :: r => l :: trLocs r
  | _ :: r => trLocs r
/-- What %trapi of a cause holds for a failing address: 0 for FRAME (DESIGN CHOICE, log 39). -/
def infoOf (c : Cause) (va : Nat) : Nat := if c = .frame then 0 else va % 2 ^ 32

/-- The checks of R95 after ALIGN, for the bytes of one access as they translate; `fmt` is the address at which a FORMAT rule of the
word fails; a fetch is neither watched nor held. R95 gives no place among its checks to the DATA_ERROR of a frozen block (R191), to the
wait for a moving one, and to WM_FROZEN (R232): here the first comes before FORMAT and WATCH, the second after them and before
ACCESS_TABLE, and the third last (DESIGN CHOICE, log 77). -/
def Mach.reachOf (m : Mach) (w : Who) (fetch : Bool) (ts : List (Nat × TrByte)) (fmt : Option Nat) : Reach :=
  let vas := ts.map (·.1)
  match firstBad 5 ts with
  | some (_, c, va) => .trap c (infoOf c va) va
  | none =>
    match fmt.orElse (fun _ => vas.find? (m.fmtDead w)) with
    | some va => .trap .format (va % 2 ^ 32) va
    | none =>
      match if w.thread && !fetch then vas.find? (m.ctx w.ctx).watched else none with
      | some va => .trap .watch (va % 2 ^ 32) va
      | none =>
        if ts.any (fun x => x.2 == .wait) then .wait
        else match ts.find? (fun x => match x.2 with | .ok _ adm => !adm | _ => false) with
        | some x => .trap .accessTable (x.1 % 2 ^ 32) x.1
        | none =>
          match if w.thread && !fetch then m.frozenAt w.crew vas else none with
          | some slot => .trap .wmFrozen slot (vas.headD 0)
          | none => .ok (trLocs ts)
/-- The same for bytes that are accessed in one way. -/
def Mach.reach (m : Mach) (w : Who) (k : AKind) (vas : List Nat) (fmt : Option Nat) : Reach :=
  m.reachOf w (k == .fetch) (vas.map (fun va => (va, m.translate w k va))) fmt

/-! ### Bytes at their homes (R210, R213, R220, R368) -/

/-- A byte of another device of the process group. -/
def Loc.far (l : Loc) : Bool :=
  match l.sto with
  | .remote _ => true
  | _ => false
/-- A sector that holds an uncorrectable error (R324), or to which a link does not deliver (R362). -/
def Mach.badAt (m : Mach) (l : Loc) : Bool := m.bad.contains (l.sto, l.addr / 32) || (m.lost && l.far)
/-- The XTS tweak of a data unit (R368). -/
def Tag.tweak (t : Tag) : Nat := t.ctx * 2 ^ 112 + t.blk
/-- Byte i of AES block j of a data unit that holds the 16 bytes x under one key and tweak, as an access under another finds it. -/
def reread (t new : Tag) (x j i : Nat) : Byte :=
  BitVec.ofNat 8 (Xts.dec new.key new.tweak j (Xts.enc t.key t.tweak j x) / 256 ^ i)
/-- What a byte of memory was last written as: an L2 sector, or memory. -/
def Mach.rawGet (m : Mach) (a : Nat) : Byte := (m.l2.find a).getD (m.dram.get a)
/-- A byte of a DRAM block as the key and tweak of an access see it; get gives what the block was written as (R368; PRESUMED, log 5). -/
def Mach.decrypt (m : Mach) (get : Nat → Byte) (l : Loc) : Byte :=
  match m.owner.find (l.addr / 64) with
  | none => get l.addr
  | some t =>
    if t = l.tag then get l.addr
    else reread t l.tag (leNat ((span (l.addr / 16 * 16) 16).map get)) (l.addr / 16 % 4) (l.addr % 16)
/-- A byte of local DRAM as the key and tweak of an access see it. -/
def Mach.dramGet (m : Mach) (l : Loc) : Byte :=
  match m.treeAt l.addr with
  | some b => b
  | none => m.decrypt m.rawGet l
/-- The byte at its home: an L2 sector, or memory; CSM, the host window, crew-local memory; another device. -/
def Mach.homeGet (m : Mach) (l : Loc) : Byte :=
  match l.sto with
  | .dram => m.dramGet l
  | .csm => m.csm.get l.addr
  | .host => m.host.get l.addr
  | .crew k => (m.crew k).loc.get l.addr
  | .remote r => (m.remote.at r).get l.addr
/-- Whether the tag of an LPDDR block does not match the key and tweak of an access (R370) (DEDUCED, log 75). -/
def Mach.tagErr (m : Mach) (l : Loc) : Bool :=
  l.sto == .dram && homeOf l.addr == some 4 &&
    match m.owner.find (l.addr / 64) with
    | none => false
    | some t => t != l.tag
/-- Whether a read of a byte at its home meets an uncorrectable error: a bad sector, or an LPDDR tag that does not match (R370). -/
def Mach.homeErr (m : Mach) (l : Loc) : Bool := m.badAt l || m.tagErr l
/-- The C-die whose L2 is the home of a physical address (R210). -/
def l2Die (pa : Nat) : Nat :=
  match homeOf pa with
  | some 4 => pa / 256 % 4
  | some d => d
  | none => 0
/-- Whether L2 holds the sector of a physical address, which it does while the sector is dirty. -/
def Mach.inL2 (m : Mach) (pa : Nat) : Bool := m.l2.any (fun x => x.1 / 32 == pa / 32)
/-- Whether the L2 of a byte's home, 1,024 MiB (R2), is full of dirty sectors and does not hold the byte's
(DESIGN CHOICE, log 87). -/
def Mach.l2Full (m : Mach) (pa : Nat) : Bool :=
  if m.l2.length < 2 ^ 25 then false
  else !m.inL2 pa &&
    decide (2 ^ 25 ≤ (((m.l2.nums.filter (fun a => l2Die a == l2Die pa)).map (· / 32)).eraseDups).length)
/-- Put a byte of memory where its home holds it: an L2 sector when it may be cached, and has room, or is held there already, else
memory. -/
def Mach.dramPut (m : Mach) (l : Loc) (b : Byte) : Mach :=
  if (l.cache = .none ∨ m.l2Full l.addr) ∧ !m.l2.has l.addr then { m with dram := m.dram.set l.addr b }
  else { m with l2 := m.l2.put l.addr b }
/-- Write an L2 byte to memory (R211, R218). -/
def Mach.l2Clean (m : Mach) (pa : Nat) : Mach :=
  match m.l2.find pa with
  | none => m
  | some b => { m with dram := m.dram.set pa b, l2 := m.l2.drop pa }
/-- Give a data unit the key and tweak of an access. Where it had others, what L2 holds of it leaves for memory under these, and memory
takes the unit as the access reads it, so that L2 and memory hold it under one key and tweak (R368, R370) (DESIGN CHOICE, log 102). -/
def Mach.retag (m : Mach) (l : Loc) : Mach :=
  match m.owner.find (l.addr / 64) with
  | none => { m with owner := m.owner.put (l.addr / 64) l.tag }
  | some t =>
    if t = l.tag then m
    else
      let unit := span (l.addr / 64 * 64) 64
      let m1 := unit.foldl Mach.l2Clean m
      { m1 with dram := m1.dram.setBytes (l.addr / 64 * 64) (unit.map (fun i => m1.decrypt m1.dram.get { l with addr := i })),
                owner := m1.owner.put (l.addr / 64) l.tag }
/-- A byte of the host window that only the physical function and the scheduler write: the part of a work-queue head above PROD
(R304, R366). -/
def headByte (a : Nat) : Bool := decide (a < 4096 * 32) && decide (4 ≤ a % 32)
/-- Write a byte at its home; the host window drops writes to the protected part of a queue head. -/
def Mach.homeSet (m : Mach) (l : Loc) (b : Byte) : Mach :=
  match l.sto with
  | .dram => (m.retag l).dramPut l b
  | .csm => { m with csm := m.csm.set l.addr b }
  | .host => if headByte l.addr then m else { m with host := m.host.set l.addr b }
  | .crew k => m.modCrew k (fun c => { c with loc := c.loc.set l.addr b })
  | .remote r => { m with remote := m.remote.put r ((m.remote.at r).set l.addr b) }
/-- Read and write several bytes at their homes. -/
def Mach.homeGets (m : Mach) (ls : List Loc) : List Byte := ls.map m.homeGet
def Mach.homeSets (m : Mach) : List Loc → List Byte → Mach
  | l :: ls, b :: bs => (m.homeSet l b).homeSets ls bs
  | _, _ => m

/-- The bits of a mask take a new value. -/
def mixBits (old new mask : Byte) : Byte := (old &&& ~~~mask) ||| (new &&& mask)
/-- Write some bits of a byte at its home. -/
def Mach.homeMix (m : Mach) (l : Loc) (b mask : Byte) : Mach := m.homeSet l (mixBits (m.homeGet l) b mask)

/-! ### L1 (R210, R211): it holds whole sectors of 32 bytes -/

/-- Two bytes of one sector. -/
def sameSector (a b : Loc) : Bool := a.sto == b.sto && a.addr / 32 == b.addr / 32
/-- Whether the sector of a line has a byte of a span of virtual addresses. -/
def Line.meets (x : Line) (lo hi : Nat) : Bool := decide (x.loc.va / 32 * 32 < hi) && decide (lo < x.loc.va / 32 * 32 + 32)

/-- The L1 line of a spindle that an access hits. -/
def Mach.l1Find (m : Mach) (sp : Nat) (l : Loc) : Option Line :=
  (m.spindle sp).l1.find? (fun x => x.loc.sto == l.sto && x.loc.addr == l.addr && x.loc.tag == l.tag)
/-- A byte as a load of a spindle reads it: from its L1 where that holds it, else from its home. A load that was translated before its
range came to be cached, or after it ceased to be, goes to the home, and still sees what its spindle's stores have left dirty (R192, R220). -/
def Mach.load (m : Mach) (sp : Nat) (l : Loc) : Byte :=
  match m.l1Find sp l with
  | none => m.homeGet l
  | some x => if l.cache = .l1l2 then x.val else mixBits (m.homeGet l) x.val x.dirty
/-- Whether the L1 of a spindle holds the sector of a byte dirty, with an uncorrectable error (R325). -/
def Mach.l1Bad (m : Mach) (sp : Nat) (l : Loc) : Bool :=
  (m.spindle sp).bad.contains (l.sto, l.addr / 32) && (m.spindle sp).l1.any (fun x => x.dirty != 0 && sameSector x.loc l)
/-- Whether an access of a spindle goes no further than its L1. -/
def Mach.l1Hit (m : Mach) (sp : Nat) (l : Loc) : Bool := l.cache == .l1l2 && (m.l1Find sp l).isSome
/-- Whether a load of a spindle meets an uncorrectable error, in its own L1 or at the home that it goes to (R324, R325). -/
def Mach.readErr (m : Mach) (sp : Nat) (l : Loc) : Bool := m.l1Bad sp l || (!m.l1Hit sp l && m.homeErr l)
/-- The same for a store. -/
def Mach.storeErr (m : Mach) (sp : Nat) (l : Loc) : Bool := m.l1Bad sp l || (!m.l1Hit sp l && m.badAt l)
/-- A load that goes to the home past a copy in the L1 leaves that copy as new as what it has read, so that no later load reads an older
write (R192, R220) (DEDUCED, log 115). -/
def Mach.l1Renew (m : Mach) (sp : Nat) (ls : List Loc) : Mach :=
  let past (l : Loc) : Bool := l.cache != .l1l2 && (m.l1Find sp l).isSome
  if ls.any past then
    m.modSp sp (fun s => { s with l1 := s.l1.map (fun x =>
      if ls.any (fun l => past l && x.loc.sto == l.sto && x.loc.addr == l.addr && x.loc.tag == l.tag) then
        { x with val := mixBits (m.homeGet x.loc) x.val x.dirty } else x) })
  else m
/-- Write what is dirty in the lines that satisfy p back to its home; with `drop`, keep none of them, else keep them clean (R218, R222,
R223, R224). The uncorrectable error of a sector that is written back goes with it to its home (DESIGN CHOICE, log 104). -/
def Mach.l1Clean (m : Mach) (sp : Nat) (drop : Bool) (p : Line → Bool) : Mach :=
  let ls := (m.spindle sp).l1
  let out := ls.filter (fun x => x.dirty != 0 && p x)
  let m1 := out.foldl (fun (x : Mach) y => x.homeMix y.loc y.val y.dirty) m
  let kept := if drop then ls.filter (fun x => !p x) else ls.map (fun x => if p x then { x with dirty := 0 } else x)
  let went (b : Sto × Nat) : Bool := out.any (fun x => x.loc.sto == b.1 && x.loc.addr / 32 == b.2)
  let bs := (m.spindle sp).bad
  { m1 with bad := bs.filter went ++ m1.bad }.modSp sp (fun s => { s with l1 := kept, bad := bs.filter (fun b => !went b) })
/-- A store of a spindle into some bits of a byte: into its L1 where that holds the byte, else at its home. One that was translated while
its range was not cached in L1 goes to the home also where the L1 has come to hold the byte since, and into that copy too, so that none
older than it stays there (R192, R220, R227). -/
def Mach.storeBits (m : Mach) (sp : Nat) (l : Loc) (b mask : Byte) : Mach :=
  let put (through : Bool) : Mach :=
    m.modSp sp (fun s => { s with l1 := s.l1.map (fun x =>
      if x.loc.sto == l.sto && x.loc.addr == l.addr && x.loc.tag == l.tag then
        { x with val := mixBits x.val b mask, dirty := if through then x.dirty &&& ~~~mask else x.dirty ||| mask } else x) })
  if (m.l1Find sp l).isNone then m.homeMix l b mask
  else if l.cache = .l1l2 then put false
  else (put true).homeMix l b mask
/-- A store of a byte. -/
def Mach.store (m : Mach) (sp : Nat) (l : Loc) (b : Byte) : Mach := m.storeBits sp l b 0xFF
/-- Whether stores of the spindle have changed a bit of a line's sector. -/
def sectorDirty (ls : List Line) (x : Line) : Bool := ls.any (fun y => y.dirty != 0 && sameSector y.loc x.loc && y.loc.tag == x.loc.tag)
/-- Drop the clean sectors whose lines satisfy p (R218). -/
def Mach.l1Drop (m : Mach) (sp : Nat) (p : Line → Bool) : Mach :=
  m.modSp sp (fun s => { s with l1 := s.l1.filter (fun x => sectorDirty s.l1 x || !p x) })
/-- A line of the sector of one of some bytes. -/
def lineIn (ls : List Loc) (x : Line) : Bool := ls.any (fun l => sameSector l x.loc)
/-- A line of a context. -/
def lineOf (ctx : Nat) (x : Line) : Bool := x.loc.tag.ctx == ctx
/-- Scope die or wider (R219). -/
def wideScope (sc : Nat) : Bool := decide (2 ≤ sc)
/-- The virtual spans that an acquire or a release of an object covers as it issues: at scope die or wider, the ranges of the context
bound to it at such a scope (R199, R222, R223, R227, R228). -/
def Mach.covers (m : Mach) (ctx obj sc : Nat) : List (Nat × Nat) :=
  if wideScope sc then
    ((m.ctx ctx).ranges.filter (fun r => r.sync.toNat == obj && wideScope r.sscope.toNat)).map (fun r => (r.base, r.limit))
  else []
/-- A line of a context in one of some spans. -/
def lineBound (ctx : Nat) (cov : List (Nat × Nat)) (x : Line) : Bool :=
  lineOf ctx x && cov.any (fun s => decide (s.1 ≤ x.loc.va) && decide (x.loc.va < s.2))
/-- The L1 part of an acquire, of a release and of a fence (R222 to R224); an acquire writes back what is dirty in the sectors that it
drops (DEDUCED, log 68). -/
def Mach.acqL1 (m : Mach) (sp ctx : Nat) (cov : List (Nat × Nat)) : Mach := m.l1Clean sp true (lineBound ctx cov)
def Mach.relL1 (m : Mach) (sp ctx : Nat) (cov : List (Nat × Nat)) : Mach := m.l1Clean sp false (lineBound ctx cov)
def Mach.fenceL1 (m : Mach) (sp ctx sc : Nat) : Mach := if wideScope sc then m.l1Clean sp true (lineOf ctx) else m
/-- What the records of suspended jobs release: the spans of a context whose record has one of some bytes (R231, R295). -/
def Mach.recCov (m : Mach) (ctx : Nat) (ls : List Loc) : List (Nat × Nat) :=
  (m.recs.filter (fun r => r.1 == ctx && ls.any (fun l => decide (r.2.1 ≤ l.va) && decide (l.va < r.2.1 + 128)))).flatMap (·.2.2)

/-! ### Instruction bytes (R17, R109, R355) -/

/-- The packet of a context at an address that the instruction cache of a spindle holds. -/
def Mach.icacheAt (m : Mach) (sp ctx a : Nat) : Option (List Byte) :=
  ((m.spindle sp).icache.find? (fun x => x.1 == ctx && x.2.1 == a)).map (·.2.2)
/-- A byte of code or of stream words as an agent or a sequencer reads it at its home: not architected where the physical function has written behind the
loader's back (R17, DESIGN CHOICE, log 9). -/
def Mach.asCode (m : Mach) (l : Loc) (b : Byte) : Byte := if l.sto == .dram && m.tainted.contains l.addr then Config.fetchByte l.addr else b
def Mach.codeByte (m : Mach) (l : Loc) : Byte := m.asCode l (m.homeGet l)
/-- A fetch: its bytes, the cause it meets with the address, or a wait for the planer. -/
inductive Fetch where
  | ok (bs : List Byte)
  | bad (c : Cause) (va : Nat)
  | wait
deriving DecidableEq, Repr
/-- n instruction bytes of a context, with the checks of a fetch. -/
def Mach.fetchBytes (m : Mach) (w : Who) (a n : Nat) : Fetch :=
  match m.reach w .fetch (span a n) none with
  | .ok ls =>
    match ls.find? m.homeErr with
    | some l => .bad .dataError l.va
    | none => .ok (ls.map m.codeByte)
  | .trap c _ va => .bad c va
  | .wait => .wait

/-! ### Reads of devices and engines, and of the scheduler -/

/-- n bytes as an engine reads them at their homes; none where a byte does not translate, is refused, waits, or meets an uncorrectable
error (R370). -/
def Mach.engRead (m : Mach) (w : Who) (a n : Nat) : Option (List Byte) :=
  match m.reach { w with thread := false } .read (span a n) none with
  | .ok ls => if ls.any m.homeErr then none else some (m.homeGets ls)
  | _ => none
/-- Whether some of n bytes lie in a block that the planer moves now, for which an access waits (R191). -/
def Mach.moves (m : Mach) (ctx a n : Nat) : Bool := 
  let w : Who := ⟨ctx, none, 0, false⟩
  (span a n).any (fun va => m.translate w .read va == .wait || m.translate w .write va == .wait)
/-- The physical function's own reads and writes of memory: admitted everywhere, at the home, in the clear (R358, R366). -/
def Mach.physLoc (m : Mach) (pa : Nat) : Loc :=
  { sto := .dram, addr := pa, tag := (m.owner.find (pa / 64)).getD ⟨0, 0, 0⟩, home := (homeOf pa).getD 0, cache := .l2 }
def Mach.physRead (m : Mach) (pa n : Nat) : List Byte := (span pa n).map (fun a => m.homeGet (m.physLoc a))
def Mach.physNat (m : Mach) (pa n : Nat) : Nat := leNat (m.physRead pa n)
def Mach.physWrite (m : Mach) (pa : Nat) : List Byte → Mach
  | [] => m
  | b :: r =>
    let m1 := match m.owner.find (pa / 64) with
      | none => m.dramPut (m.physLoc pa) b
      | some _ => m.homeSet (m.physLoc pa) b
    (if m.codePas.contains pa then { m1 with tainted := pa :: m1.tainted } else m1).physWrite (pa + 1) r

/-! ### Requests and results on their way -/

/-- Whether a link has not delivered an access in 1,000,000 cycles (R362). -/
def undelivered (n : Nat) : Bool := decide (1000000 ≤ n)
/-- The machine as a step finds it whose accesses to other devices a link has not delivered for so many cycles: past the limit they are
answered as uncorrectable errors. -/
def Mach.after (m : Mach) (n : Nat) : Mach := if undelivered n then { m with lost := true } else m
/-- How long a link has not delivered each of some accesses, which two numbers name (R362): one more cycle for those that are on their way,
and nothing for those that are no more. -/
def outOf (old : List (Nat × Nat × Nat)) (k : Nat × Nat) : Nat := ((old.find? (fun x => x.1 == k.1 && x.2.1 == k.2)).map (·.2.2)).getD 0
def countOut (old : List (Nat × Nat × Nat)) (keys : List (Nat × Nat)) (goes : Nat × Nat → Bool) : List (Nat × Nat × Nat) :=
  keys.eraseDups.map (fun k => (k.1, k.2, outOf old k + if goes k then 1 else 0))
/-- Whether two accesses share a byte. -/
def overlap (xs ys : List Loc) : Bool := xs.any (fun a => ys.any (fun b => a.sto == b.sto && a.addr == b.addr))
/-- The bytes that an outstanding result still has to read. -/
def Src.locs : Src → List Loc
  | .load ls _ => ls
  | .acq ls _ => ls
  | .waitc ls _ => ls
  | _ => []
/-- Whether a result is a load of its thread (R23, R223). -/
def Src.isLoad : Src → Bool
  | .load _ _ => true
  | .acq _ _ => true
  | .waitc _ _ => true
  | .req _ => true
  | _ => false
/-- A pushed copy whose record loads a freeze has abandoned or a forced save cancelled, and which its lane has still to issue again (R327,
R375): what comes after it goes on. -/
def Mach.abandoned (m : Mach) (p : Push) : Bool :=
  match p.k with
  | .cpytR _ w u va none => (m.gangOf u).replay.any (fun e => e.u == u && e.va == va && e.word == w)
  | _ => false
/-- A thread with a load, a request, or an engine command made before a given number that has not performed or been accepted (R223,
R224). -/
def Mach.busyBefore (m : Mach) (u n : Nat) : Bool :=
  m.results.any (fun r => decide (r.seq < n) && r.us.contains u && r.src.isLoad) || m.reqs.any (fun r => decide (r.seq < n) && r.u == u) ||
    m.pushes.any (fun p => !m.abandoned p && p.by'.any (fun x => x.2.1.contains u && decide (x.2.2 < n))) ||
    m.crews.any (fun c => c.2.forming.any (fun f => f.any (fun sl => sl.us.contains u && decide (sl.after < n))))
/-- Whether a pushed command of a gang, or of a run that some of these threads were in, made before a given number, is not accepted yet:
their later accesses wait for it (R230, R243). -/
def Mach.pushing (m : Mach) (gang : Nat) (us : List Nat) (n : Nat) : Bool :=
  m.pushes.any (fun p => !m.abandoned p && p.by'.any (fun x => (x.1 == gang || x.2.1.any us.contains) && decide (x.2.2 ≤ n)))
/-- Whether a load, store or atomic made before a given number has not performed, of a gang, of a thread that is in it now, or of one of
these threads: a command of the gang waits for it (R230). -/
def Mach.accessing (m : Mach) (gang : Nat) (us : List Nat) (n : Nat) : Bool :=
  let mine (g u : Nat) : Bool := g == gang || (m.thr u).gang == gang || us.contains u
  m.results.any (fun r => decide (r.seq < n) && r.src.isLoad && r.us.any (mine r.gang)) ||
    m.reqs.any (fun r => decide (r.seq < n) && mine r.gang r.u)
/-- A thread with an access outstanding. -/
def Mach.busy (m : Mach) (u : Nat) : Bool := m.busyBefore u m.seq
/-- A thread with an ACQ outstanding, whose later MEM and ENG words wait (R222). -/
def Mach.acquiring (m : Mach) (u : Nat) : Bool :=
  m.results.any (fun r => r.us.contains u && match r.src with | .acq _ _ => true | _ => false)
/-- Add an outstanding result. -/
def Mach.addRes (m : Mach) (r : Res) : Mach :=
  { m with results := m.results ++ [{ r with seq := m.seq, at' := m.clock }], seq := m.seq + 1 }
/-- Add a request. -/
def Mach.addReq (m : Mach) (r : Req) : Mach :=
  { m with reqs := m.reqs ++ [{ r with seq := m.seq, wordNo := m.wordNo }], seq := m.seq + 1 }
/-- A request to store. -/
def ReqK.stores : ReqK → Bool
  | .store _ _ => true
  | .typed _ _ _ => true
  | _ => false
/-- A store of the word that issues. -/
def Mach.storesNow (m : Mach) (q : Req) : Bool := q.wordNo == m.wordNo && q.kind.stores
/-- The requests made so far are those of one word or of earlier ones (R214). The stores of a word that stores at more than one address
are those of a scatter store (R94, R334) (DEDUCED, log 62). -/
def Mach.nextWord (m : Mach) : Mach :=
  let q0 := m.reqs.find? m.storesNow
  let many := m.reqs.any (fun q => m.storesNow q && q0.any (fun p => p.va != q.va))
  { m with wordNo := m.wordNo + 1, reqs := if many then m.reqs.map (fun q => if m.storesNow q then { q with scat := true } else q) else m.reqs }
/-- The bytes that a request writes, or reads and writes: of a typed store not its scale byte, which it only reads (R16, R94, R99). -/
def Req.body (q : Req) : List Loc :=
  match q.kind with
  | .typed _ _ _ => q.ls.dropLast
  | _ => q.ls
/-- An operation with another operand. -/
def ReqK.withOperand (a : ReqK) (x : Nat) : ReqK :=
  match a with
  | .atom op w _ => .atom op w x
  | .fred op f _ => .fred op f x
  | k => k
/-- The request that performs with a request: the one that a router has merged it into, or itself (R216). -/
def Req.top (q : Req) : Nat := q.into.getD q.seq
/-- A request without what a router has merged. -/
def Req.alone (q : Req) : Req :=
  { q with kind := match q.own with
      | some x => q.kind.withOperand x
      | none => q.kind, into := none, pre := 0, own := none }
/-- The virtual addresses of some bytes. -/
def vasOf (ls : List Loc) : List Nat := ls.map (·.va)
/-- The accesses of a gang that a watermark holds (R327). -/
def Mach.heldCount (m : Mach) (g : Nat) : Nat :=
  let k := (m.gang g).crew
  ((m.results.filter (fun r => r.gang == g && m.heldAt k (vasOf r.src.locs))).map (fun r => r.us.length)).sum +
    (m.reqs.filter (fun r => r.gang == g && m.heldAt k (vasOf r.ls))).length +
    (m.pushes.filter (fun p => p.gang == g && match p.k with
      | .cpyt _ _ _ _ ls => m.heldAt k (vasOf ls)
      | .cpytR _ _ _ _ (some ls) => m.heldAt k (vasOf ls)
      | _ => false)).length
/-- Whether a span of virtual addresses, or all where its length is 0xFFFF_FFFF, meets the sector of an address (R218). -/
def spanMeets (a len va : Nat) : Bool :=
  len == 0xFFFFFFFF || (decide (a < va / 32 * 32 + 32) && decide (va / 32 * 32 < a + len) && len != 0)
/-- A CINV over some bytes, which its thread's later reads follow (R218, R233). -/
def Req.invalidates (q : Req) (ls : List Loc) : Bool :=
  match q.kind with
  | .flush true _ _ len => ls.any (fun l => spanMeets q.va.toNat len l.va)
  | _ => false
/-- A result that observes what a later read of some bytes is to see: a QPOP that waits for a status word, an RGWAIT that waits for a
stage of its ring (R231, R241, R259, R273) (DEDUCED, log 76). -/
def Mach.observes (m : Mach) (r : Res) (ls : List Loc) : Bool :=
  match r.src with
  | .pop _ => true
  | .ring k => ls.any (fun l => match l.sto with
    | .crew c =>
      let g := (m.crew c).rings.toList.getD k {}
      decide (g.base ≤ l.addr) && decide (l.addr < g.base + g.s * g.z)
    | _ => false)
  | _ => false
/-- Whether an access of a thread to one of some bytes has been abandoned at a freeze and comes before what the thread does now, which its
handler is not (R16, R375). -/
def Mach.owesRead (m : Mach) (u : Nat) (ls : List Loc) : Bool :=
  !(m.thr u).h && (m.gangOf u).replay.any (fun e => e.f && e.u == u && overlap e.ls ls)
/-- Whether a read of some bytes by a thread waits for what the thread has outstanding before number n: its own reads and writes of those
bytes (R16, R220), a CINV over them, a completion that it observes. -/
def Mach.readBehind (m : Mach) (us : List Nat) (n : Nat) (ls : List Loc) : Bool :=
  m.reqs.any (fun r => decide (r.seq < n) && us.contains r.u && (overlap r.body ls || r.invalidates ls)) ||
    m.results.any (fun r => decide (r.seq < n) && r.us.any us.contains && (overlap r.src.locs ls || m.observes r ls))
/-- Whether a read of some thread may perform now: nothing of its thread stands before it, no watermark holds it (R232), and no earlier
engine command of its gang waits for acceptance. -/
def Mach.readReady (m : Mach) (us : List Nat) (gang n : Nat) (ls : List Loc) : Bool :=
  !m.readBehind us n ls && !m.heldAt (m.gang gang).crew (vasOf ls) && !m.pushing gang us n

end Sys2Proof.Machine
end

