-- ==== Sys2Proof/Machine/Operands.lean ====
section
/-! DEFINITION. Operand forms: which registers a word reads and names as its destination (R11, R25), its pipe (R20), the values of
immediates, conditions, bit fields and special registers (R14, R54 to R57), and effective addresses (R56, R89). -/

namespace Sys2Proof.Machine

/-! ### Registers of a word -/

/-- The vector registers that a word reads: first register and count (R25, R68). -/
def Instr.reads : Instr → List (Reg × Nat)
  | .nop _ => []
  | .exit _ => []
  | .trap _ a => [(a, 1)]
  | .yield _ => []
  | .waitc _ _ a b => [(a, 2), (b, 1)]
  | .entry _ _ => []
  | .eret _ => []
  | .bra _ _ _ _ => []
  | .ychk _ _ _ => []
  | .call _ _ => []
  | .ret _ => []
  | .brx _ a => [(a, 2)]
  | .calli _ _ a => [(a, 2)]
  | .movs _ _ _ => []
  | .smov _ sp a => [(a, if spWide sp then 2 else 1)]
  | .mjoin _ _ => []
  | .mleave _ _ => []
  | .mwait _ _ => []
  | .mset _ _ a => [(a, 1)]
  | .mget _ _ _ => []
  | .mact _ _ => []
  | .fork _ vs _ => [(vs, 2)]
  | .add _ _ a b => [(a, 1), (b, 1)]
  | .sub _ _ a b => [(a, 1), (b, 1)]
  | .and _ _ a b => [(a, 1), (b, 1)]
  | .or _ _ a b => [(a, 1), (b, 1)]
  | .xor _ _ a b => [(a, 1), (b, 1)]
  | .andn _ _ a b => [(a, 1), (b, 1)]
  | .shl _ _ a b => [(a, 1), (b, 1)]
  | .shr _ _ a b => [(a, 1), (b, 1)]
  | .sar _ _ a b => [(a, 1), (b, 1)]
  | .rotl _ _ a b => [(a, 1), (b, 1)]
  | .min _ _ a b => [(a, 1), (b, 1)]
  | .max _ _ a b => [(a, 1), (b, 1)]
  | .minu _ _ a b => [(a, 1), (b, 1)]
  | .maxu _ _ a b => [(a, 1), (b, 1)]
  | .addmin _ d a b => [(d, 1), (a, 1), (b, 1)]
  | .addsat _ _ a b => [(a, 1), (b, 1)]
  | .subsat _ _ a b => [(a, 1), (b, 1)]
  | .absdiff _ _ a b => [(a, 1), (b, 1)]
  | .mul _ _ a b => [(a, 1), (b, 1)]
  | .mulh _ _ a b => [(a, 1), (b, 1)]
  | .mulhu _ _ a b => [(a, 1), (b, 1)]
  | .mula _ d a b => [(d, 1), (a, 1), (b, 1)]
  | .clz _ _ a => [(a, 1)]
  | .ctz _ _ a => [(a, 1)]
  | .popc _ _ a => [(a, 1)]
  | .brev _ _ a => [(a, 1)]
  | .bfx _ _ a b => [(a, 1), (b, 1)]
  | .bfxu _ _ a b => [(a, 1), (b, 1)]
  | .bfi _ d a b => [(d, 1), (a, 1), (b, 1)]
  | .sel _ d a b => [(d, 1), (a, 1), (b, 1)]
  | .extb _ _ a => [(a, 1)]
  | .exth _ _ a => [(a, 1)]
  | .add64 _ _ a b => [(a, 2), (b, 2)]
  | .sub64 _ _ a b => [(a, 2), (b, 2)]
  | .shl64 _ _ a b => [(a, 2), (b, 1)]
  | .shr64 _ _ a b => [(a, 2), (b, 1)]
  | .lea _ _ a b => [(a, 2), (b, 1)]
  | .cmp _ _ _ a b => [(a, 1), (b, 1)]
  | .plog _ _ _ _ _ => []
  | .addi _ _ a _ => [(a, 1)]
  | .andi _ _ a _ => [(a, 1)]
  | .ori _ _ a _ => [(a, 1)]
  | .xori _ _ a _ => [(a, 1)]
  | .shli _ _ a _ => [(a, 1)]
  | .shri _ _ a _ => [(a, 1)]
  | .sari _ _ a _ => [(a, 1)]
  | .rotli _ _ a _ => [(a, 1)]
  | .cmpi _ _ _ a _ => [(a, 1)]
  | .muli _ _ a _ => [(a, 1)]
  | .addi64 _ _ a _ => [(a, 2)]
  | .movi _ _ _ => []
  | .movhi _ d _ => [(d, 1)]
  | .fadd _ _ a b _ => [(a, 1), (b, 1)]
  | .fsub _ _ a b _ => [(a, 1), (b, 1)]
  | .fmul _ _ a b _ => [(a, 1), (b, 1)]
  | .fmin _ _ a b _ => [(a, 1), (b, 1)]
  | .ffma _ d a b _ => [(d, 1), (a, 1), (b, 1)]
  | .ffms _ d a b _ => [(d, 1), (a, 1), (b, 1)]
  | .fnfma _ d a b _ => [(d, 1), (a, 1), (b, 1)]
  | .fmax _ _ a b _ => [(a, 1), (b, 1)]
  | .fcvtHF _ _ a _ => [(a, 1)]
  | .fcvtBfF _ _ a _ => [(a, 1)]
  | .fcvtFH _ _ a _ => [(a, 1)]
  | .fcvtFBf _ _ a _ => [(a, 1)]
  | .fcvtIF _ _ a _ => [(a, 1)]
  | .fcvtUF _ _ a _ => [(a, 1)]
  | .fcvtFI _ _ a _ => [(a, 1)]
  | .fcvtFU _ _ a _ => [(a, 1)]
  | .fcvtFL _ _ a _ => [(a, 2)]
  | .frint _ _ a _ => [(a, 1)]
  | .fcmp _ _ _ a b _ => [(a, 1), (b, 1)]
  | .fclass _ _ a _ => [(a, 1)]
  | .fabs _ _ a _ _ => [(a, 1)]
  | .fneg _ _ a _ _ => [(a, 1)]
  | .fcopysign _ _ a b _ _ => [(a, 1), (b, 1)]
  | .hadd2 _ _ a b _ => [(a, 1), (b, 1)]
  | .hmul2 _ _ a b _ => [(a, 1), (b, 1)]
  | .hfma2 _ d a b _ => [(d, 1), (a, 1), (b, 1)]
  | .fdot2 _ d a b _ => [(d, 1), (a, 1), (b, 1)]
  | .rcp _ _ a _ _ => [(a, 1)]
  | .rsq _ _ a _ _ => [(a, 1)]
  | .sqrt _ _ a _ _ => [(a, 1)]
  | .lg2 _ _ a _ _ => [(a, 1)]
  | .ex2 _ _ a _ _ => [(a, 1)]
  | .sin _ _ a _ _ => [(a, 1)]
  | .cos _ _ a _ _ => [(a, 1)]
  | .tanh _ _ a _ _ => [(a, 1)]
  | .xshuf _ _ a b _ => [(a, 1), (b, 1)]
  | .xshufi _ _ a _ _ => [(a, 1)]
  | .xvote _ _ a _ => [(a, 1)]
  | .xballot _ _ a => [(a, 1)]
  | .xmatch _ _ a f => [(a, if f then 2 else 1)]
  | .xcompact _ _ a b _ => [(a, 1), (b, 1)]
  | .xred _ _ a _ => [(a, 1)]
  | .xscan _ _ a _ _ => [(a, 1)]
  | .xgath _ _ a b _ => [(a, 1), (b, 1)]
  | .permb _ _ a b _ => [(a, 4), (b, 1)]
  | .xrank _ _ a _ => [(a, 1)]
  | .regroup _ a => [(a, 1)]
  | .rstep _ _ => []
  | .join _ => []
  | .rjoin _ _ => []
  | .endp _ a => [(a, 2)]
  | .forkr _ vs _ => [(vs, 5)]
  | .dbnz _ vs _ => [(vs, 1)]
  | .ldB _ _ base _ => [(base, 2)]
  | .ldBu _ _ base _ => [(base, 2)]
  | .ldH _ _ base _ => [(base, 2)]
  | .ldHu _ _ base _ => [(base, 2)]
  | .ldW _ _ base _ => [(base, 2)]
  | .ldD _ _ base _ => [(base, 2)]
  | .ldQ _ _ base _ => [(base, 2)]
  | .ldT _ _ base _ => [(base, 2)]
  | .stB _ vs base _ => [(vs, 1), (base, 2)]
  | .stH _ vs base _ => [(vs, 1), (base, 2)]
  | .stW _ vs base _ => [(vs, 1), (base, 2)]
  | .stD _ vs base _ => [(vs, 2), (base, 2)]
  | .stQ _ vs base _ => [(vs, 4), (base, 2)]
  | .stT _ vs base _ => [(vs, 1), (base, 2)]
  | .atom _ d a w _ _ => [(d, if w then 2 else 1), (a, 2)]
  | .acas _ d a w _ => [(d, if w then 4 else 2), (a, 2)]
  | .fred _ vs a _ _ _ => [(vs, 1), (a, 2)]
  | .acq _ _ a _ => [(a, 2)]
  | .rel _ vs a _ => [(vs, 1), (a, 2)]
  | .fence _ _ => []
  | .cflush _ _ a b => [(a, 2), (b, 1)]
  | .cinv _ _ a b => [(a, 2), (b, 1)]
  | .pref _ _ a => [(a, 2)]
  | .qpush _ _ a => [(a, 2)]
  | .qpop _ _ _ => []
  | .qstat _ _ _ => []
  | .cpy _ a => [(a, 6)]
  | .cpyt _ vc a mode => [(vc, 1), (a, if mode == 0#6 then 2 else 1)]
  | .cpyq _ a => [(a, 6)]
  | .cpres _ a => [(a, 1)]
  | .wmrd _ _ a => [(a, 2)]
  | .tlreg _ _ a => [(a, 2)]
  | .tlrfl _ _ a => [(a, 1)]
  | .tlunreg _ a => [(a, 1)]
  | .lseg _ _ a => [(a, 4)]
  | .ixjob _ vc a => [(vc, 1), (a, 2)]
  | .ixres _ vc a => [(vc, 1), (a, 2)]
  | .nbinit _ a _ => [(a, 1)]
  | .nbarr _ _ => []
  | .nbwait _ _ => []
  | .nbsync _ _ => []
  | .gbar _ => []
  | .rginit _ a _ => [(a, 3)]
  | .rgres _ _ _ => []
  | .rgpub _ a _ => [(a, 1)]
  | .rgwait _ _ _ => []
  | .rgrel _ a _ => [(a, 1)]
  | .chunk _ _ a => [(a, 2)]
  | .mstream _ _ a => [(a, 8)]
  | .launch _ _ a b => [(a, 2), (b, 1)]
  | .rsplit _ _ a => [(a, 2)]
  | .rmerge _ _ a => [(a, 2)]
  | .rbind _ _ a b => [(a, 2), (b, 2)]
  | .rquery _ _ a _ => [(a, 2)]
  | .rset _ _ a b => [(a, 2), (b, 1)]
  | .rinv _ _ a b => [(a, 2), (b, 1)]
  | .rwait _ _ a => [(a, 1)]
  | .rcompact _ d a b => [(d, 1), (a, 2), (b, 2)]
  | .mldb _ _ => []
  | .mma _ _ _ _ _ _ => []
  | .mmas _ _ _ _ _ _ _ => []
  | .mmap _ _ _ _ _ _ => []
  | .mclr _ _ => []
  | .mout _ _ _ => []
  | .marrive _ => []
  | .streamMwait _ => []
  | .mloop _ _ => []
  | .mjmp _ => []
  | .serviceRestart _ => []
  | .longResultReturn _ => []
  | .fetchAgentDelivery _ _ _ => []
  | .heartbeatTick _ => []
  | .logicalTick _ => []
  | .promotion _ => []
  | .gangAssemblerTake _ => []
  | .spawnGangTimeout _ _ => []
  | .spawnGangPlace _ _ _ => []
  | .regroupTimeout _ _ => []
  | .crewWideFlush _ => []
  | .timerTrap _ => []
  | .waitcTimeout _ => []
  | .memoryAccessPerform _ => []
  | .routerMerge _ _ => []
  | .planerBlockMove _ => []
  | .copyStart _ => []
  | .copyLand _ _ => []
  | .indexJobStart _ => []
  | .indexElement _ => []
  | .contextSave _ => []
  | .forcedSave _ => []
  | .contextRestore _ _ => []
  | .recordAdmission _ => []
  | .crewPlace _ _ => []
  | .regionComplete _ => []
  | .tokenAccrual _ => []
  | .functionLevelReset _ => []
  | .powerOn _ _ => []
  | .attestationRequest _ _ => []
  | .linkCrcError _ => []
  | .linkRequestTimeout _ => []
  | .hostWindowAccess _ => []
  | .hostBar2Access _ => []
  | .sramError _ _ => []
  | .powerThrottle _ => []
  | .thermalThrottle _ _ => []
  | .thermalRecovery _ _ => []
  | .thermalShutdown _ _ => []
  | .registerWrite _ _ _ => []
  | .illegalEncoding _ => []
  | .illegalStreamWord _ => []
  | .mnop => []
  | .mend => []
  | .load => []
  | .loadWithOverride => []
  | .unload => []
  | .forcedUnload => []
  | .create => []
  | .destroy => []
  | .setacc => []
  | .installKey => []
  | .resume => []
  | .kill => []
  | .setgale => []

/-- The vector registers that a word names as its destination: first register and count (R11, R25). The v2:v3 that JOIN, an overflow
FORK, FORKR and ENDP may write (R119) is named by no field of theirs: it counts for HAZARD (`Mach.hiddenWrites`, R27), but not as a
destination of R11, and in one group the later slot's value stands (DESIGN CHOICE, log 83). -/
def Instr.writes : Instr → List (Reg × Nat)
  | .nop _ => []
  | .exit _ => []
  | .trap _ _ => []
  | .yield _ => []
  | .waitc _ d _ _ => [(d, 1)]
  | .entry _ _ => []
  | .eret _ => []
  | .bra _ _ _ _ => []
  | .ychk _ _ _ => []
  | .call _ _ => []
  | .ret _ => []
  | .brx _ _ => []
  | .calli _ _ _ => []
  | .movs _ d sp => [(d, if spWide sp then 2 else 1)]
  | .smov _ _ _ => []
  | .mjoin _ _ => []
  | .mleave _ _ => []
  | .mwait _ _ => []
  | .mset _ _ _ => []
  | .mget _ d _ => [(d, 1)]
  | .mact _ d => [(d, 1)]
  | .fork _ _ _ => []
  | .add _ d _ _ => [(d, 1)]
  | .sub _ d _ _ => [(d, 1)]
  | .and _ d _ _ => [(d, 1)]
  | .or _ d _ _ => [(d, 1)]
  | .xor _ d _ _ => [(d, 1)]
  | .andn _ d _ _ => [(d, 1)]
  | .shl _ d _ _ => [(d, 1)]
  | .shr _ d _ _ => [(d, 1)]
  | .sar _ d _ _ => [(d, 1)]
  | .rotl _ d _ _ => [(d, 1)]
  | .min _ d _ _ => [(d, 1)]
  | .max _ d _ _ => [(d, 1)]
  | .minu _ d _ _ => [(d, 1)]
  | .maxu _ d _ _ => [(d, 1)]
  | .addmin _ d _ _ => [(d, 1)]
  | .addsat _ d _ _ => [(d, 1)]
  | .subsat _ d _ _ => [(d, 1)]
  | .absdiff _ d _ _ => [(d, 1)]
  | .mul _ d _ _ => [(d, 1)]
  | .mulh _ d _ _ => [(d, 1)]
  | .mulhu _ d _ _ => [(d, 1)]
  | .mula _ d _ _ => [(d, 1)]
  | .clz _ d _ => [(d, 1)]
  | .ctz _ d _ => [(d, 1)]
  | .popc _ d _ => [(d, 1)]
  | .brev _ d _ => [(d, 1)]
  | .bfx _ d _ _ => [(d, 1)]
  | .bfxu _ d _ _ => [(d, 1)]
  | .bfi _ d _ _ => [(d, 1)]
  | .sel _ d _ _ => [(d, 1)]
  | .extb _ d _ => [(d, 1)]
  | .exth _ d _ => [(d, 1)]
  | .add64 _ d _ _ => [(d, 2)]
  | .sub64 _ d _ _ => [(d, 2)]
  | .shl64 _ d _ _ => [(d, 2)]
  | .shr64 _ d _ _ => [(d, 2)]
  | .lea _ d _ _ => [(d, 2)]
  | .cmp _ _ _ _ _ => []
  | .plog _ _ _ _ _ => []
  | .addi _ d _ _ => [(d, 1)]
  | .andi _ d _ _ => [(d, 1)]
  | .ori _ d _ _ => [(d, 1)]
  | .xori _ d _ _ => [(d, 1)]
  | .shli _ d _ _ => [(d, 1)]
  | .shri _ d _ _ => [(d, 1)]
  | .sari _ d _ _ => [(d, 1)]
  | .rotli _ d _ _ => [(d, 1)]
  | .cmpi _ _ _ _ _ => []
  | .muli _ d _ _ => [(d, 1)]
  | .addi64 _ d _ _ => [(d, 2)]
  | .movi _ d _ => [(d, 1)]
  | .movhi _ d _ => [(d, 1)]
  | .fadd _ d _ _ _ => [(d, 1)]
  | .fsub _ d _ _ _ => [(d, 1)]
  | .fmul _ d _ _ _ => [(d, 1)]
  | .fmin _ d _ _ _ => [(d, 1)]
  | .ffma _ d _ _ _ => [(d, 1)]
  | .ffms _ d _ _ _ => [(d, 1)]
  | .fnfma _ d _ _ _ => [(d, 1)]
  | .fmax _ d _ _ _ => [(d, 1)]
  | .fcvtHF _ d _ _ => [(d, 1)]
  | .fcvtBfF _ d _ _ => [(d, 1)]
  | .fcvtFH _ d _ _ => [(d, 1)]
  | .fcvtFBf _ d _ _ => [(d, 1)]
  | .fcvtIF _ d _ _ => [(d, 1)]
  | .fcvtUF _ d _ _ => [(d, 1)]
  | .fcvtFI _ d _ _ => [(d, 1)]
  | .fcvtFU _ d _ _ => [(d, 1)]
  | .fcvtFL _ d _ _ => [(d, 1)]
  | .frint _ d _ _ => [(d, 1)]
  | .fcmp _ _ _ _ _ _ => []
  | .fclass _ d _ _ => [(d, 1)]
  | .fabs _ d _ _ _ => [(d, 1)]
  | .fneg _ d _ _ _ => [(d, 1)]
  | .fcopysign _ d _ _ _ _ => [(d, 1)]
  | .hadd2 _ d _ _ _ => [(d, 1)]
  | .hmul2 _ d _ _ _ => [(d, 1)]
  | .hfma2 _ d _ _ _ => [(d, 1)]
  | .fdot2 _ d _ _ _ => [(d, 1)]
  | .rcp _ d _ _ _ => [(d, 1)]
  | .rsq _ d _ _ _ => [(d, 1)]
  | .sqrt _ d _ _ _ => [(d, 1)]
  | .lg2 _ d _ _ _ => [(d, 1)]
  | .ex2 _ d _ _ _ => [(d, 1)]
  | .sin _ d _ _ _ => [(d, 1)]
  | .cos _ d _ _ _ => [(d, 1)]
  | .tanh _ d _ _ _ => [(d, 1)]
  | .xshuf _ d _ _ _ => [(d, 1)]
  | .xshufi _ d _ _ _ => [(d, 1)]
  | .xvote _ d _ _ => [(d, 1)]
  | .xballot _ d _ => [(d, 1)]
  | .xmatch _ d _ _ => [(d, 1)]
  | .xcompact _ d _ _ _ => [(d, 1)]
  | .xred _ d _ _ => [(d, 1)]
  | .xscan _ d _ _ _ => [(d, 1)]
  | .xgath _ d _ _ _ => [(d, 1)]
  | .permb _ d _ _ _ => [(d, 1)]
  | .xrank _ d _ _ => [(d, 1)]
  | .regroup _ _ => []
  | .rstep _ d => [(d, 2)]
  | .join _ => []
  | .rjoin _ d => [(d, 4)]
  | .endp _ _ => []
  | .forkr _ _ _ => []
  | .dbnz _ vs _ => [(vs, 1)]
  | .ldB _ d _ _ => [(d, 1)]
  | .ldBu _ d _ _ => [(d, 1)]
  | .ldH _ d _ _ => [(d, 1)]
  | .ldHu _ d _ _ => [(d, 1)]
  | .ldW _ d _ _ => [(d, 1)]
  | .ldD _ d _ _ => [(d, 2)]
  | .ldQ _ d _ _ => [(d, 4)]
  | .ldT _ d _ _ => [(d, 1)]
  | .stB _ _ _ _ => []
  | .stH _ _ _ _ => []
  | .stW _ _ _ _ => []
  | .stD _ _ _ _ => []
  | .stQ _ _ _ _ => []
  | .stT _ _ _ _ => []
  | .atom _ d _ w _ _ => [(d, if w then 2 else 1)]
  | .acas _ d _ w _ => [(d, if w then 2 else 1)]
  | .fred _ _ _ _ _ _ => []
  | .acq _ d _ _ => [(d, 1)]
  | .rel _ _ _ _ => []
  | .fence _ _ => []
  | .cflush _ _ _ _ => []
  | .cinv _ _ _ _ => []
  | .pref _ _ _ => []
  | .qpush _ _ _ => []
  | .qpop _ d _ => [(d, 2)]
  | .qstat _ d _ => [(d, 1)]
  | .cpy _ _ => []
  | .cpyt _ _ _ _ => []
  | .cpyq _ _ => []
  | .cpres _ _ => []
  | .wmrd _ d _ => [(d, 2)]
  | .tlreg _ d _ => [(d, 1)]
  | .tlrfl _ d _ => [(d, 1)]
  | .tlunreg _ _ => []
  | .lseg _ _ _ => []
  | .ixjob _ _ _ => []
  | .ixres _ _ _ => []
  | .nbinit _ _ _ => []
  | .nbarr _ _ => []
  | .nbwait _ _ => []
  | .nbsync _ _ => []
  | .gbar _ => []
  | .rginit _ _ _ => []
  | .rgres _ d _ => [(d, 2)]
  | .rgpub _ _ _ => []
  | .rgwait _ d _ => [(d, 2)]
  | .rgrel _ _ _ => []
  | .chunk _ d _ => [(d, 2)]
  | .mstream _ d _ => [(d, 1)]
  | .launch _ d _ _ => [(d, 2)]
  | .rsplit _ d _ => [(d, 1)]
  | .rmerge _ d _ => [(d, 1)]
  | .rbind _ d _ _ => [(d, 1)]
  | .rquery _ d _ _ => [(d, 2)]
  | .rset _ d _ _ => [(d, 1)]
  | .rinv _ d _ _ => [(d, 2)]
  | .rwait _ d _ => [(d, 1)]
  | .rcompact _ d _ _ => [(d, 2)]
  | .mldb _ _ => []
  | .mma _ _ _ _ _ _ => []
  | .mmas _ _ _ _ _ _ _ => []
  | .mmap _ _ _ _ _ _ => []
  | .mclr _ _ => []
  | .mout _ _ _ => []
  | .marrive _ => []
  | .streamMwait _ => []
  | .mloop _ _ => []
  | .mjmp _ => []
  | .serviceRestart _ => []
  | .longResultReturn _ => []
  | .fetchAgentDelivery _ _ _ => []
  | .heartbeatTick _ => []
  | .logicalTick _ => []
  | .promotion _ => []
  | .gangAssemblerTake _ => []
  | .spawnGangTimeout _ _ => []
  | .spawnGangPlace _ _ _ => []
  | .regroupTimeout _ _ => []
  | .crewWideFlush _ => []
  | .timerTrap _ => []
  | .waitcTimeout _ => []
  | .memoryAccessPerform _ => []
  | .routerMerge _ _ => []
  | .planerBlockMove _ => []
  | .copyStart _ => []
  | .copyLand _ _ => []
  | .indexJobStart _ => []
  | .indexElement _ => []
  | .contextSave _ => []
  | .forcedSave _ => []
  | .contextRestore _ _ => []
  | .recordAdmission _ => []
  | .crewPlace _ _ => []
  | .regionComplete _ => []
  | .tokenAccrual _ => []
  | .functionLevelReset _ => []
  | .powerOn _ _ => []
  | .attestationRequest _ _ => []
  | .linkCrcError _ => []
  | .linkRequestTimeout _ => []
  | .hostWindowAccess _ => []
  | .hostBar2Access _ => []
  | .sramError _ _ => []
  | .powerThrottle _ => []
  | .thermalThrottle _ _ => []
  | .thermalRecovery _ _ => []
  | .thermalShutdown _ _ => []
  | .registerWrite _ _ _ => []
  | .illegalEncoding _ => []
  | .illegalStreamWord _ => []
  | .mnop => []
  | .mend => []
  | .load => []
  | .loadWithOverride => []
  | .unload => []
  | .forcedUnload => []
  | .create => []
  | .destroy => []
  | .setacc => []
  | .installKey => []
  | .resume => []
  | .kill => []
  | .setgale => []

/-- The header of a gang word (R19); none for the steps that are no gang words. -/
def Instr.hdr : Instr → Option Hdr
  | .nop h => some h
  | .exit h => some h
  | .trap h _ => some h
  | .yield h => some h
  | .waitc h _ _ _ => some h
  | .entry h _ => some h
  | .eret h => some h
  | .bra h _ _ _ => some h
  | .ychk h _ _ => some h
  | .call h _ => some h
  | .ret h => some h
  | .brx h _ => some h
  | .calli h _ _ => some h
  | .movs h _ _ => some h
  | .smov h _ _ => some h
  | .mjoin h _ => some h
  | .mleave h _ => some h
  | .mwait h _ => some h
  | .mset h _ _ => some h
  | .mget h _ _ => some h
  | .mact h _ => some h
  | .fork h _ _ => some h
  | .add h _ _ _ => some h
  | .sub h _ _ _ => some h
  | .and h _ _ _ => some h
  | .or h _ _ _ => some h
  | .xor h _ _ _ => some h
  | .andn h _ _ _ => some h
  | .shl h _ _ _ => some h
  | .shr h _ _ _ => some h
  | .sar h _ _ _ => some h
  | .rotl h _ _ _ => some h
  | .min h _ _ _ => some h
  | .max h _ _ _ => some h
  | .minu h _ _ _ => some h
  | .maxu h _ _ _ => some h
  | .addmin h _ _ _ => some h
  | .addsat h _ _ _ => some h
  | .subsat h _ _ _ => some h
  | .absdiff h _ _ _ => some h
  | .mul h _ _ _ => some h
  | .mulh h _ _ _ => some h
  | .mulhu h _ _ _ => some h
  | .mula h _ _ _ => some h
  | .clz h _ _ => some h
  | .ctz h _ _ => some h
  | .popc h _ _ => some h
  | .brev h _ _ => some h
  | .bfx h _ _ _ => some h
  | .bfxu h _ _ _ => some h
  | .bfi h _ _ _ => some h
  | .sel h _ _ _ => some h
  | .extb h _ _ => some h
  | .exth h _ _ => some h
  | .add64 h _ _ _ => some h
  | .sub64 h _ _ _ => some h
  | .shl64 h _ _ _ => some h
  | .shr64 h _ _ _ => some h
  | .lea h _ _ _ => some h
  | .cmp h _ _ _ _ => some h
  | .plog h _ _ _ _ => some h
  | .addi h _ _ _ => some h
  | .andi h _ _ _ => some h
  | .ori h _ _ _ => some h
  | .xori h _ _ _ => some h
  | .shli h _ _ _ => some h
  | .shri h _ _ _ => some h
  | .sari h _ _ _ => some h
  | .rotli h _ _ _ => some h
  | .cmpi h _ _ _ _ => some h
  | .muli h _ _ _ => some h
  | .addi64 h _ _ _ => some h
  | .movi h _ _ => some h
  | .movhi h _ _ => some h
  | .fadd h _ _ _ _ => some h
  | .fsub h _ _ _ _ => some h
  | .fmul h _ _ _ _ => some h
  | .fmin h _ _ _ _ => some h
  | .ffma h _ _ _ _ => some h
  | .ffms h _ _ _ _ => some h
  | .fnfma h _ _ _ _ => some h
  | .fmax h _ _ _ _ => some h
  | .fcvtHF h _ _ _ => some h
  | .fcvtBfF h _ _ _ => some h
  | .fcvtFH h _ _ _ => some h
  | .fcvtFBf h _ _ _ => some h
  | .fcvtIF h _ _ _ => some h
  | .fcvtUF h _ _ _ => some h
  | .fcvtFI h _ _ _ => some h
  | .fcvtFU h _ _ _ => some h
  | .fcvtFL h _ _ _ => some h
  | .frint h _ _ _ => some h
  | .fcmp h _ _ _ _ _ => some h
  | .fclass h _ _ _ => some h
  | .fabs h _ _ _ _ => some h
  | .fneg h _ _ _ _ => some h
  | .fcopysign h _ _ _ _ _ => some h
  | .hadd2 h _ _ _ _ => some h
  | .hmul2 h _ _ _ _ => some h
  | .hfma2 h _ _ _ _ => some h
  | .fdot2 h _ _ _ _ => some h
  | .rcp h _ _ _ _ => some h
  | .rsq h _ _ _ _ => some h
  | .sqrt h _ _ _ _ => some h
  | .lg2 h _ _ _ _ => some h
  | .ex2 h _ _ _ _ => some h
  | .sin h _ _ _ _ => some h
  | .cos h _ _ _ _ => some h
  | .tanh h _ _ _ _ => some h
  | .xshuf h _ _ _ _ => some h
  | .xshufi h _ _ _ _ => some h
  | .xvote h _ _ _ => some h
  | .xballot h _ _ => some h
  | .xmatch h _ _ _ => some h
  | .xcompact h _ _ _ _ => some h
  | .xred h _ _ _ => some h
  | .xscan h _ _ _ _ => some h
  | .xgath h _ _ _ _ => some h
  | .permb h _ _ _ _ => some h
  | .xrank h _ _ _ => some h
  | .regroup h _ => some h
  | .rstep h _ => some h
  | .join h => some h
  | .rjoin h _ => some h
  | .endp h _ => some h
  | .forkr h _ _ => some h
  | .dbnz h _ _ => some h
  | .ldB h _ _ _ => some h
  | .ldBu h _ _ _ => some h
  | .ldH h _ _ _ => some h
  | .ldHu h _ _ _ => some h
  | .ldW h _ _ _ => some h
  | .ldD h _ _ _ => some h
  | .ldQ h _ _ _ => some h
  | .ldT h _ _ _ => some h
  | .stB h _ _ _ => some h
  | .stH h _ _ _ => some h
  | .stW h _ _ _ => some h
  | .stD h _ _ _ => some h
  | .stQ h _ _ _ => some h
  | .stT h _ _ _ => some h
  | .atom h _ _ _ _ _ => some h
  | .acas h _ _ _ _ => some h
  | .fred h _ _ _ _ _ => some h
  | .acq h _ _ _ => some h
  | .rel h _ _ _ => some h
  | .fence h _ => some h
  | .cflush h _ _ _ => some h
  | .cinv h _ _ _ => some h
  | .pref h _ _ => some h
  | .qpush h _ _ => some h
  | .qpop h _ _ => some h
  | .qstat h _ _ => some h
  | .cpy h _ => some h
  | .cpyt h _ _ _ => some h
  | .cpyq h _ => some h
  | .cpres h _ => some h
  | .wmrd h _ _ => some h
  | .tlreg h _ _ => some h
  | .tlrfl h _ _ => some h
  | .tlunreg h _ => some h
  | .lseg h _ _ => some h
  | .ixjob h _ _ => some h
  | .ixres h _ _ => some h
  | .nbinit h _ _ => some h
  | .nbarr h _ => some h
  | .nbwait h _ => some h
  | .nbsync h _ => some h
  | .gbar h => some h
  | .rginit h _ _ => some h
  | .rgres h _ _ => some h
  | .rgpub h _ _ => some h
  | .rgwait h _ _ => some h
  | .rgrel h _ _ => some h
  | .chunk h _ _ => some h
  | .mstream h _ _ => some h
  | .launch h _ _ _ => some h
  | .rsplit h _ _ => some h
  | .rmerge h _ _ => some h
  | .rbind h _ _ _ => some h
  | .rquery h _ _ _ => some h
  | .rset h _ _ _ => some h
  | .rinv h _ _ _ => some h
  | .rwait h _ _ => some h
  | .rcompact h _ _ _ => some h
  | .mldb _ _ => none
  | .mma _ _ _ _ _ _ => none
  | .mmas _ _ _ _ _ _ _ => none
  | .mmap _ _ _ _ _ _ => none
  | .mclr _ _ => none
  | .mout _ _ _ => none
  | .marrive _ => none
  | .streamMwait _ => none
  | .mloop _ _ => none
  | .mjmp _ => none
  | .serviceRestart _ => none
  | .longResultReturn _ => none
  | .fetchAgentDelivery _ _ _ => none
  | .heartbeatTick _ => none
  | .logicalTick _ => none
  | .promotion _ => none
  | .gangAssemblerTake _ => none
  | .spawnGangTimeout _ _ => none
  | .spawnGangPlace _ _ _ => none
  | .regroupTimeout _ _ => none
  | .crewWideFlush _ => none
  | .timerTrap _ => none
  | .waitcTimeout _ => none
  | .memoryAccessPerform _ => none
  | .routerMerge _ _ => none
  | .planerBlockMove _ => none
  | .copyStart _ => none
  | .copyLand _ _ => none
  | .indexJobStart _ => none
  | .indexElement _ => none
  | .contextSave _ => none
  | .forcedSave _ => none
  | .contextRestore _ _ => none
  | .recordAdmission _ => none
  | .crewPlace _ _ => none
  | .regionComplete _ => none
  | .tokenAccrual _ => none
  | .functionLevelReset _ => none
  | .powerOn _ _ => none
  | .attestationRequest _ _ => none
  | .linkCrcError _ => none
  | .linkRequestTimeout _ => none
  | .hostWindowAccess _ => none
  | .hostBar2Access _ => none
  | .sramError _ _ => none
  | .powerThrottle _ => none
  | .thermalThrottle _ _ => none
  | .thermalRecovery _ _ => none
  | .thermalShutdown _ _ => none
  | .registerWrite _ _ _ => none
  | .illegalEncoding _ => none
  | .illegalStreamWord _ => none
  | .mnop => none
  | .mend => none
  | .load => none
  | .loadWithOverride => none
  | .unload => none
  | .forcedUnload => none
  | .create => none
  | .destroy => none
  | .setacc => none
  | .installKey => none
  | .resume => none
  | .kill => none
  | .setgale => none

/-- Every register that a word reads or names as its destination. -/
def Instr.regs (i : Instr) : List Reg := ((Instr.reads i) ++ (Instr.writes i)).flatMap (fun x => regsFrom x.1 x.2)
/-- The registers that a word names as its destination (DEDUCED, log 64). -/
def Instr.dests (i : Instr) : List Reg := (Instr.writes i).flatMap (fun x => regsFrom x.1 x.2)

/-- The pipes of R20. -/
inductive Pipe where
  | ctl | alu | fpu | xln | mem | eng
deriving DecidableEq, Repr

/-- The pipe of a word, fixed by its major; reserved majors belong to none (R20). -/
def pipeOf (w : Word) : Option Pipe :=
  let j := (majorOf w).toNat
  if j ≤ 0x04 ∨ (0x1C ≤ j ∧ j ≤ 0x1F) then some .ctl
  else if j ≤ 0x11 then some .alu
  else if j ≤ 0x16 then some .fpu
  else if j ≤ 0x19 then some .xln
  else if 0x20 ≤ j ∧ j ≤ 0x30 then some .mem
  else if 0x31 ≤ j ∧ j ≤ 0x38 then some .eng
  else none
/-- A word of the MEM or ENG pipe, which waits for an ACQ outstanding (R222). -/
def pipeWaits (w : Word) : Bool := pipeOf w == some .mem || pipeOf w == some .eng

/-! ### Immediates, shifts and bit fields -/

/-- Sign-extended immediates (R56). -/
def sx12 (i : BitVec 12) : Word := i.signExtend 32
def zx12 (i : BitVec 12) : Word := i.setWidth 32
def sx18 (i : BitVec 18) : Word := i.signExtend 32
/-- A shift amount of v[b][7:0] (R70). -/
def shamt (x : Word) : Nat := (x.extractLsb' 0 8).toNat
def shlW (x : Word) (n : Nat) : Word := if n < 32 then x <<< n else 0
def shrW (x : Word) (n : Nat) : Word := if n < 32 then x >>> n else 0
def sarW (x : Word) (n : Nat) : Word := if n < 32 then x.sshiftRight n else if x.getLsbD 31 then 0xFFFFFFFF else 0
def rotlW (x : Word) (n : Nat) : Word := x.rotateLeft (n % 32)
/-- Sat to a signed 32-bit value (R28). -/
def satW (x : Int) : Word := BitVec.ofInt 32 (satI x (-2 ^ 31) (2 ^ 31 - 1))
/-- The signed minimum (R70). -/
def minS (x y : Word) : Word := if x.slt y then x else y
def maxS (x y : Word) : Word := if y.slt x then x else y
def minU (x y : Word) : Word := if x.ult y then x else y
def maxU (x y : Word) : Word := if y.ult x then x else y
/-- Set bits among the n lowest. -/
def popN (x : Word) : Nat → Nat
  | 0 => 0
  | n + 1 => popN x n + (if x.getLsbD n then 1 else 0)
/-- Zero bits from bit n - 1 down to the first set bit. -/
def clzN (x : Word) : Nat → Nat
  | 0 => 0
  | n + 1 => if x.getLsbD n then 0 else 1 + clzN x n
/-- Zero bits from bit 32 - n up to the first set bit. -/
def ctzN (x : Word) : Nat → Nat
  | 0 => 0
  | n + 1 => if x.getLsbD (31 - n) then 0 else 1 + ctzN x n
/-- Bit i of the result is bit 31 - i (R71). -/
def brevW (x : Word) : Word := BitVec.ofNat 32 ((List.range 32).foldl (fun a i => 2 * a + (if x.getLsbD i then 1 else 0)) 0)
/-- pos and the effective length k of a field descriptor (R72). -/
def fieldPos (b : Word) : Nat := (b.extractLsb' 0 5).toNat
def fieldLen (b : Word) : Nat := min (b.extractLsb' 8 6).toNat (32 - fieldPos b)
/-- The field that a descriptor takes from a word (R72). -/
def fieldOf (a b : Word) : Nat := a.toNat / 2 ^ fieldPos b % 2 ^ fieldLen b
/-- The mask of a descriptor's field in place (R72). -/
def fieldMask (b : Word) : Word := BitVec.ofNat 32 ((2 ^ fieldLen b - 1) * 2 ^ fieldPos b)

/-- The integer conditions (R55). -/
def condOf (c : BitVec 3) (x y : Word) : Bool :=
  match c.toNat with
  | 0 => x == y
  | 1 => x != y
  | 2 => x.slt y
  | 3 => !x.slt y
  | 4 => x.ult y
  | 5 => !x.ult y
  | 6 => !y.slt x
  | _ => !y.ult x

/-- The branch condition of BRA (R57). -/
def braTaken (t : Thread) (cc : BitVec 4) : Bool := t.rdP (cc.extractLsb' 0 3).toFin != cc.getLsbD 3
/-- A packet-relative target (R56); one that leaves the 56-bit space wraps (DESIGN CHOICE, log 96). -/
def relTarget (q : Pos) (off : Int) : BitVec 56 := BitVec.ofInt 56 ((q.pkt.toNat : Int) + 12 * off)
/-- The packet after a position's (R106). -/
def nextPacket (q : Pos) : BitVec 56 := q.pkt + 12
/-- The address of the packet after, as %lnk holds it. -/
def linkOf (q : Pos) : BitVec 64 := (nextPacket q).setWidth 64

/-- The effective address of format M (R89). -/
def effAddr (t : Thread) (base : Reg) (off : BitVec 12) : BitVec 64 := t.rdPair base + off.signExtend 64

/-! ### Special registers (R14) -/

/-- %frng (R118). -/
def Thread.frng (t : Thread) : Word := (t.depth ++ 0#7 ++ BitVec.ofNat 9 t.frames.length : BitVec 32)
/-- %detm (R14). -/
def detmOf (r : Region) : Word := if r.rcb.det then BitVec.ofNat 32 (16 * r.rcb.lpexp + 1) else 0
/-- A special register of thread u (R14, R159). -/
def Mach.spRead (m : Mach) (u : Nat) (sp : BitVec 6) : BitVec 64 :=
  let t := m.thr u
  let g := m.gangOf u
  let r := m.regionOf u
  let w (x : Word) : BitVec 64 := x.setWidth 64
  match sp.toNat with
  | 0x00 => BitVec.ofNat 64 t.lane
  | 0x01 => w g.gangid
  | 0x02 => match g.crew with
    | some k => w (m.crew k).crewid
    | none => 0xFFFFFFFF
  | 0x03 => match g.crew with
    | some k => BitVec.ofNat 64 (m.crewGangs k).length
    | none => 0
  | 0x04 => BitVec.ofNat 64 (g.sp % 96)
  | 0x05 => BitVec.ofNat 64 (dieOf g.sp)
  | 0x06 => BitVec.ofNat 64 (m.ctx r.ctx).rank
  | 0x07 => w t.tid
  | 0x08 => m.clock
  | 0x09 => g.wtime
  | 0x0A => g.wtrap
  | 0x0B => BitVec.ofNat 64 r.period
  | 0x0C => t.fstk
  | 0x0D => w t.frng
  | 0x0E => t.lnk
  | 0x0F => w t.fmode
  | 0x10 => w t.fstat
  | 0x11 => if t.preq then 1 else 0
  | 0x12 => w (detmOf r)
  | 0x13 => w t.trapc
  | 0x14 => t.trapa
  | 0x15 => w t.trapi
  | _ => 0
/-- Write a special register of a thread; %wtrap is the gang's and is written apart (R15, R36, R37, R322). -/
def Thread.spWrite (t : Thread) (sp : BitVec 6) (x : BitVec 64) : Thread :=
  match sp.toNat with
  | 0x0E => { t with lnk := x }
  | 0x0F => { t with fmode := x.setWidth 32 &&& 0xF }
  | 0x10 => { t with fstat := x.setWidth 32 &&& 0x1F }
  | _ => t

end Sys2Proof.Machine
end

