-- ==== Sys2Proof/Machine/Frames.lean ====
section
/-! DEFINITION. A thread's frames and cells (R115 to R118), what a frame word does with them (R120 to R125), and the registers that a
word writes without naming them (R27, R119). -/

namespace Sys2Proof.Machine

/-! ### Frames and cells -/

/-- Slots in use (R118). -/
def Thread.used (t : Thread) : Nat := t.frames.length
/-- The frame in the top slot. -/
def Thread.top (t : Thread) : Option Frame := t.frames.getLast?
/-- The cell of a slot. -/
def Thread.cell (t : Thread) (k : Nat) : Cell := t.cells.getD k default
/-- Put a cell beside a slot; the cells of slots below keep what they hold. -/
def Thread.setCell (t : Thread) (k : Nat) (c : Cell) : Thread :=
  { t with cells := if k < t.cells.length then t.cells.set k c else t.cells ++ List.replicate (k - t.cells.length) default ++ [c] }
/-- The top slot's number. -/
def Thread.topK (t : Thread) : Nat := t.used - 1
def Thread.setFrame (t : Thread) (k : Nat) (f : Frame) : Thread := { t with frames := t.frames.set k f }
def Thread.push (t : Thread) (f : Frame) : Thread := { t with frames := t.frames ++ [f] }
def Thread.pop (t : Thread) : Thread := { t with frames := t.frames.dropLast }
/-- The highest active slot at or below k. -/
def activeBelow (fs : List Frame) : Nat → Option Nat
  | 0 => none
  | k + 1 => if (fs.getD k default).state = .active then some k else activeBelow fs k
/-- The depth mark a0: ACTDEPTH of the innermost active frame, 0 where none is (R118). -/
def Thread.mark (t : Thread) : BitVec 16 :=
  match activeBelow t.frames t.used with
  | none => 0
  | some k => (t.cell k).actdepth
/-- An overflow call is owed (R123, R125). -/
def Thread.owes (t : Thread) : Bool := decide (t.mark.toNat < t.depth.toNat)

/-! ### What the frame words find -/

/-- The frame slots F of a lane (R115). -/
def Mach.slotsOf (m : Mach) (u : Nat) : Nat := (m.regionOf u).frameSlots
/-- FORK pushes a latent frame while fewer than F - 4 slots are in use (R120). -/
def forkFits (m : Mach) (u : Nat) : Bool := decide ((m.thr u).used < m.slotsOf u - 4)
/-- The top frame as an active range. -/
def Thread.activeRange (t : Thread) : Option Frame :=
  match t.top with
  | some f => if f.kind = .range ∧ f.state = .active then some f else none
  | none => none
/-- The pieces of a cell, with their numbers. -/
def Cell.live (c : Cell) : List (Nat × Piece) := (List.range c.npiece.toNat).map (fun j => (j, c.pieces.toList.getD j default))
/-- The piece that has not been returned and has the lowest LO (R124). -/
def Cell.nextPiece (c : Cell) : Option (Nat × Piece) :=
  (sortBy (fun a b => decide (a.2.lo.toNat ≤ b.2.lo.toNat)) (c.live.filter (fun x => !c.taken.getLsbD x.1))).head?
/-- What JOIN does for a lane (R123). -/
inductive JoinWay where
  | pay
  | bad
  | inline (f : Frame)
  | wait
  | pop
deriving DecidableEq, Repr
def Thread.joinWay (t : Thread) : JoinWay :=
  if t.owes then .pay
  else match t.top with
  | none => .bad
  | some f =>
    if f.kind = .range ∨ f.state = .active then .bad
    else if f.state = .latent then .inline f
    else if (t.cell t.topK).done.getLsbD 0 then .pop
    else .wait
/-- What ENDP does for a lane (R125). -/
inductive EndWay where
  | call
  | bad
  | root (f : Frame)
  | pop (f : Frame)
deriving DecidableEq, Repr
def Thread.endWay (t : Thread) : EndWay :=
  if t.owes then .call
  else match t.top with
  | none => .bad
  | some f =>
    if f.state ≠ .active then .bad
    else if f.kind = .range ∧ (f.lo ≠ f.hi ∨ (t.cell t.topK).nextPiece.isSome) then .bad
    else if f.root then .root f
    else .pop f

/-! ### Registers that a word touches (R25, R27) -/

/-- The registers that a word writes without naming them: the argument that a body is entered with, or that ENDP returns, in v2:v3
(R119). -/
def Mach.hiddenWrites (m : Mach) (u : Nat) (i : Instr) : List Reg :=
  match i with
  | .fork _ _ _ => if forkFits m u then [] else [2, 3]
  | .forkr _ _ _ => [2, 3]
  | .join _ => match (m.thr u).joinWay with
    | .inline _ => [2, 3]
    | _ => []
  | .endp _ _ => match (m.thr u).endWay with
    | .pop f => if f.kind = .range then [2, 3] else []
    | _ => []
  | _ => []
/-- The registers that a word reads, names or writes for a thread (R25, R27). -/
def Mach.touches (m : Mach) (u : Nat) (i : Instr) : List Reg := Instr.regs i ++ m.hiddenWrites u i

end Sys2Proof.Machine
end

