-- ==== Sys2Proof/Machine/Issue.lean ====
section
/-! DEFINITION. How a word of a chain group executes and how the group ends (R20, R22, R24, R26, R38, R63, R164, R317, R321): the one
shape that every meaning of a gang word has. Operands and checks read the machine before the group; effects go to the machine. -/

namespace Sys2Proof.Machine

/-- A privileged word: major 0x38 (R64). -/
def Instr.isPriv : Instr → Bool
  | .rset _ _ _ _ => true
  | .rinv _ _ _ _ => true
  | .rwait _ _ _ => true
  | .rcompact _ _ _ _ => true
  | _ => false
/-- The lowest pending register that a word reads, names or writes (R25, R27, R314). -/
def hazardOf (m : Mach) (u : Nat) (i : Instr) : Option Trap :=
  match sortBy (fun a b => decide (a.val ≤ b.val)) ((m.touches u i).filter (m.thr u).isPend) with
  | [] => none
  | r :: _ => some { cause := .hazard, info := BitVec.ofNat 32 r.val }
/-- The word of an instruction. -/
def wordOf (i : Instr) : Word := (encodeWord i).getD 0
/-- The causes that come before a word's own: HAZARD, PRIV (R63, R64). -/
def baseCause (i : Instr) (g : Group) (u : Nat) : Option Trap :=
  match hazardOf g.pre u i with
  | some t => some t
  | none => if Instr.isPriv i && !g.pre.privOf u then some { cause := .priv, info := wordOf i } else none

/-- The lanes that meet a cause leave the run, each with its trap (R317). -/
def Group.judge (g : Group) (f : Nat → Option Trap) : Group :=
  { g with run := g.run.filter (fun u => (f u).isNone),
           traps := g.traps ++ g.run.filterMap (fun u => (f u).map (fun t => (u, t))) }

/-- Judge a word for each lane of the run: HAZARD and PRIV, then its own causes (R26, R63). -/
def Group.judgeWord (g : Group) (i : Instr) (own : Group → Nat → Option Trap) : Group :=
  let g0 := g.judge (baseCause i g)
  g0.judge (own g0)

/-- Every thread that stands at the group. -/
def Group.all (g : Group) : List Nat := g.run ++ g.traps.map (·.1)
/-- The barrier attempt of a thread, or of its handler while it runs one: its own stands meanwhile (R262, R265, R317). -/
def Thread.attempt (t : Thread) : Option Attempt := if t.h then t.hatt else t.att
def Thread.setAttempt (t : Thread) (a : Option Attempt) : Thread := if t.h then { t with hatt := a } else { t with att := a }
/-- A group that stalls has taken no effect: its lanes wait at it (R123, R146, R241, R262). -/
def stallGroup (st : Stat) (g : Group) : State :=
  { m := g.pre.onRun g.all (fun _ t => { t with stat := st }), act := .idle }

/-! ### The end of a group -/

/-- The trap that a lane met. -/
def Group.trapOf (g : Group) (u : Nat) : Option Trap := (g.traps.find? (fun x => x.1 == u)).map (·.2)
def Group.xferOf (g : Group) (u : Nat) : Option Pos := (g.xfer.find? (fun x => x.1 == u)).map (·.2)
def Group.statOf (g : Group) (u : Nat) : Option Stat := (g.stats.find? (fun x => x.1 == u)).map (·.2)
/-- A lane that leaves its run once its pending set is empty, for the regrouping table. -/
def Stat.regrouping : Stat → Bool
  | .leaving (.regroup _ _) => true
  | _ => false
/-- Whether the packet is retired for a lane with this group: its last group, a taken transfer, REGROUP (R164). The packet of a JOIN or
RJOIN that has stalled in an earlier group is retired with its last group too (DESIGN CHOICE, log 78). -/
def Group.retires (g : Group) (u : Nat) : Bool :=
  g.slot == 2 || (g.xferOf u).isSome || g.held.contains u || ((g.statOf u).getD .run).regrouping
/-- Count a retired packet, unless a handler ran it; a count that reaches a multiple of H owes a tick (R164). -/
def Mach.retire (m : Mach) (t : Thread) : Thread :=
  let r := m.region t.region
  let n := t.retired + 1
  { t with retired := n, tried := false, tick := t.tick || (r.rcb.det && n.toNat % r.logical == 0) }
/-- The position at which a lane goes on: after REGROUP the next packet (R180); at an ERET that waits, the ERET. -/
def Group.next (g : Group) (u : Nat) : Pos :=
  match g.statOf u with
  | some (.leaving (.regroup _ _)) => Pos.start (g.pos.pkt + 12)
  | some (.leaving (.eret _)) => g.pos
  | _ => (g.xferOf u).getD (g.pos.after g.slot)
/-- Where a lane stands once its group has ended. -/
def Group.place (g : Group) (u : Nat) (t : Thread) : Thread :=
  { t with pos := g.next u,
           stat := (g.statOf u).getD (if g.sw then .parked else .run) }
/-- How a group ends for one thread. A lane that traps with USER in its packet's last group has executed the packet, which is retired
then (R112, R164) (DESIGN CHOICE, log 78). The flags of the group's floating-point words, those of XRED and XSCAN among them, reach %fstat here (R38, R185) (DESIGN CHOICE, log 79). -/
def Group.endThread (g : Group) (m : Mach) (u : Nat) (t : Thread) : Thread :=
  match g.trapOf u with
  | some tr =>
    if tr.cause.route = .system then { t with stat := .subgang m.subs tr.cause tr.va }
    else
      let t1 := if tr.cause = .user then t.raise (g.raised u) else t
      { (if tr.cause = .user ∧ g.slot = 2 ∧ !(g.pre.thr u).h then m.retire t1 else t1) with
        stat := .trapping tr (resumeWord g.pos g.slot tr), deferred := if tr.d then none else t.deferred }
  | none =>
    if g.run.contains u then
      let h := (g.pre.thr u).h
      let t1 := { t.raise (g.raised u) with att := if h then t.att else none, hatt := if h then none else t.hatt }
      let t2 := if g.retires u && !(g.pre.thr u).h then m.retire t1 else { t1 with tried := false }
      if g.held.contains u then t2 else g.place u t2
    else t
/-- The group ends: flags are ORed in, the lanes move, a switch marker parks them, and the lanes that trap leave their path
(R22, R24, R38, R164, R317, R321). -/
def closeGroup (g : Group) (m : Mach) : Mach :=
  ({ m with threads := m.threads.mapV (g.endThread m),
            subs := if g.traps.any (fun x => x.2.cause.route == .system) then m.subs + 1 else m.subs } : Mach).settle

/-- After a word: the next word of the chain is due, or the group ends. -/
def finishWord (h : Hdr) (g : Group) (m : Mach) : State :=
  let g1 := { g with sw := g.sw || h.s }
  if h.c then ⟨m, .group { g1 with slot := g.slot + 1, rest := g.rest.tail }⟩ else ⟨closeGroup g1 m, .idle⟩

/-- A word of the group that issues: each lane is judged (R26, R63); a group that stalls takes no effect; else the word acts for the
lanes that complete. Without a group that issues there is no such step (DESIGN CHOICE, log 69). -/
def gangWord (h : Hdr) (i : Instr) (s : State) (own : Group → Nat → Option Trap) (stall : Group → Bool) (st : Stat)
    (eff : Group → Mach → Mach × Group) : Host.Outcome State Fault Refusal :=
  match s.act with
  | .group g =>
    let g1 := g.judgeWord i own
    if stall g1 then .next (stallGroup st g1)
    else .next (finishWord h (eff g1 s.m).2 (eff g1 s.m).1)
  | _ => .refused .notEnabled

/-! ### The shapes of words -/

/-- No cause of the word's own, and no stall. -/
def noCause : Group → Nat → Option Trap := fun _ _ => none
def noStall : Group → Bool := fun _ => false
/-- A word that writes its own threads, from the machine before the group (DESIGN CHOICE, log 70). -/
def threadWord (h : Hdr) (i : Instr) (s : State) (f : Mach → Nat → Thread → Thread) : Host.Outcome State Fault Refusal :=
  gangWord h i s noCause noStall .stalled (fun g m => (m.onRun g.run (f g.pre), g))
/-- A short result in one register, in a pair, in a predicate. -/
def regWord (h : Hdr) (i : Instr) (s : State) (d : Reg) (f : Thread → Word) : Host.Outcome State Fault Refusal :=
  threadWord h i s (fun p u t => t.wr d (f (p.thr u)))
def pairWord (h : Hdr) (i : Instr) (s : State) (d : Reg) (f : Thread → BitVec 64) : Host.Outcome State Fault Refusal :=
  threadWord h i s (fun p u t => t.wrPair d (f (p.thr u)))
def predWord (h : Hdr) (i : Instr) (s : State) (d : PReg) (f : Thread → Bool) : Host.Outcome State Fault Refusal :=
  threadWord h i s (fun p u t => t.wrP d (f (p.thr u)))
/-- A word that acts for each lane in ascending lane order on the machine. -/
def eachLane (g : Group) (m : Mach) (f : Mach → Nat → Mach) : Mach := g.run.foldl f m
/-- The lowest lane of the run, whose operands many words take. -/
def Group.low (g : Group) : Nat := g.run.headD 0
/-- The lanes of the run as a mask. -/
def Group.mask (g : Group) : Word := g.pre.laneMask g.run
/-- Whether the group's gang is a spawn gang. -/
def Group.spawn (g : Group) : Bool := (g.pre.gang g.gang).crew.isNone
/-- The crew of the group's gang, for words that only crew gangs complete. -/
def Group.crew (g : Group) : Nat := ((g.pre.gang g.gang).crew).getD 0
def Group.sp (g : Group) : Nat := (g.pre.gang g.gang).sp
def Group.ctx (g : Group) : Nat := g.pre.ctxOfGang g.gang
def Group.det (g : Group) : Bool := (g.pre.region (g.pre.gang g.gang).region).rcb.det
/-- A later MEM or ENG word waits for an ACQ outstanding (R222). -/
def acqStall (g : Group) : Bool := g.run.any g.pre.acquiring
/-- Long results of a word: one entry for each lane of the run, in ascending lane order; the destination joins the pending set. -/
def longRes (g : Group) (m : Mach) (d : Reg) (n : Nat) (w : Word) (f : Nat → Src × BitVec 64) : Mach :=
  eachLane g (m.onRun g.run (fun _ t => t.pendSet (regsFrom d n)))
    (fun x u => x.addRes { seq := 0, us := [u], gang := g.gang, dst := d, n := n, src := (f u).1, va := (f u).2, word := w })
/-- A long result whose value is fixed at issue (XLN words, the timers). -/
def longVal (g : Group) (m : Mach) (d : Reg) (n : Nat) (w : Word) (f : Nat → List Word) : Mach :=
  longRes g m d n w (fun u => (.val (f u), 0))
/-- Transfer the lanes that p selects to a target. -/
def Group.jump (g : Group) (us : List Nat) (f : Nat → Pos) : Group := { g with xfer := us.map (fun u => (u, f u)) ++ g.xfer }

end Sys2Proof.Machine
end

