-- ==== Sys2Proof/Machine/Ctl.lean ====
section
/-! DEFINITION. Control words of one thread (R104 to R114), special registers (R15), DBNZ (R105) and gang masks (R176 to R179). ERET
stands in Resume.lean, the frame words in Fork.lean. -/

namespace Sys2Proof.Machine

/-! ### Points that empty the pending set (R24, R324) -/

/-- A word that waits for the pending set to empty stalls while some lane of the run has a value of an earlier group outstanding. -/
def pendStall (g : Group) : Bool := g.run.any g.pre.waiting
/-- Nothing is left to wait for: no word of the group follows, the words chained before it have left nothing outstanding, and no report
is due. Else the lane waits once the group has ended (Stat.leaving), and a report that is due is made there (DEDUCED, log 41). -/
def Group.settled (g : Group) (m : Mach) (u : Nat) : Bool := g.rest.tail.isEmpty && !m.waiting u && (m.thr u).deferred.isNone
/-- Some lanes leave their run as their words say. -/
def Group.leave (g : Group) (us : List Nat) (f : Nat → Leave) : Group := { g with stats := us.map (fun u => (u, .leaving (f u))) ++ g.stats }
/-- The lanes drop what they had to reissue at ERET (R375). -/
def dropReplays (m : Mach) (gang : Nat) (us : List Nat) : Mach :=
  m.modGang gang (fun x => { x with replay := x.replay.filter (fun e => !(e.f && us.contains e.u)) })
/-- Threads of a gang end; a promotion still due is dropped (R111, R154). -/
def endLanes (m : Mach) (gang : Nat) (us : List Nat) : Mach :=
  dropReplays (m.onRun us (fun _ t => { t with stat := .exited, pend := 0, due := false })) gang us
/-- Threads of the group end: they leave with it. -/
def endThreads (g : Group) (m : Mach) (us : List Nat) : Mach × Group := (endLanes m g.gang us, { g with held := us ++ g.held })

/-! ### System words -/

def execNop (h : Hdr) (s : State) : Host.Outcome State Fault Refusal :=
  gangWord h (.nop h) s noCause noStall .stalled (fun g m => (m, g))
def execEntry (h : Hdr) (cls : BitVec 12) (s : State) : Host.Outcome State Fault Refusal :=
  gangWord h (.entry h cls) s noCause noStall .stalled (fun g m => (m, g))
/-- EXIT traps with FRAME while %frng is not zero (R111). -/
def chkExit (g : Group) (u : Nat) : Option Trap :=
  if (g.pre.thr u).frng != 0 then some { cause := .frame, info := 0 } else none
def execExit (h : Hdr) (s : State) : Host.Outcome State Fault Refusal :=
  gangWord h (.exit h) s chkExit pendStall .stalled (fun g m =>
    let now := g.run.filter (g.settled m)
    let later := g.run.filter (fun u => !g.settled m u)
    endThreads (g.leave later (fun _ => .exit)) m now)
/-- TRAP: the words before it in the chain have taken effect; the lanes trap with USER and resume after the group (R112, R315). -/
def execTrap (h : Hdr) (a : Reg) (s : State) : Host.Outcome State Fault Refusal :=
  gangWord h (.trap h a) s noCause noStall .stalled (fun g m =>
    (m, { g with run := [], traps := g.traps ++ g.run.map (fun u => (u, { cause := .user, info := (g.pre.thr u).rd a, res := .after })) }))
/-- YIELD: a save point while pre-emption is requested, else the run goes behind the others (R113, R149). -/
def execYield (h : Hdr) (s : State) : Host.Outcome State Fault Refusal :=
  gangWord h (.yield h) s noCause pendStall .stalled (fun g m =>
    let now := g.run.filter (g.settled m)
    let later := g.run.filter (fun u => !g.settled m u)
    let g1 := g.leave later (fun u => .yield (g.pre.thr u).preq)
    (m.onRun now (fun u t => { t with pend := 0, yield := !(g.pre.thr u).preq }),
     { g1 with stats := (now.filter (fun u => (g.pre.thr u).preq)).map (fun u => (u, .yieldWait)) ++ g1.stats }))

/-- The checks of R95 on an access by thread u of n aligned bytes at a 64-bit address. -/
def accessAt (m : Mach) (u : Nat) (k : AKind) (va : BitVec 64) (n al : Nat) : Reach :=
  if va.toNat % al ≠ 0 then .trap .align (va.toNat % 2 ^ 32) va.toNat
  else m.reach (m.who u) k (span va.toNat n) none
/-- The trap of an access, where it meets a cause. -/
def Reach.trapOf : Reach → Option Trap
  | .trap c i va => some { cause := c, info := BitVec.ofNat 32 i, va := BitVec.ofNat 64 va }
  | _ => none
/-- An access that waits for the planer (R191). -/
def Reach.waits : Reach → Bool
  | .wait => true
  | _ => false
/-- The bytes of an access that goes on. -/
def Reach.locs : Reach → List Loc
  | .ok ls => ls
  | _ => []

/-- The lanes whose accesses a watermark would hold (R232). -/
def heldLanes (g : Group) (f : Nat → Reach) : Nat :=
  (g.run.filter (fun u => g.pre.heldAt (g.pre.gang g.gang).crew (vasOf (f u).locs))).length
/-- n more accesses that a watermark holds stall while the gang would then have more than 64 of them (R327). -/
def heldStall (g : Group) (n : Nat) : Bool := n != 0 && decide (64 < g.pre.heldCount g.gang + n)

def waitcAcc (g : Group) (a : Reg) (u : Nat) : Reach := accessAt g.pre u .read ((g.pre.thr u).rdPair a) 4 4
def chkWaitc (a : Reg) (g : Group) (u : Nat) : Option Trap := (waitcAcc g a u).trapOf
/-- Its read is a later access of its threads: it waits as a load does (R222, R327). -/
def stallWaitc (a : Reg) (g : Group) : Bool :=
  acqStall g || g.run.any (fun u => (waitcAcc g a u).waits) || heldStall g (heldLanes g (waitcAcc g a))
/-- WAITC: the first read is checked at issue; the value returns when it differs, on pre-emption, or in time (R114). -/
def execWaitc (h : Hdr) (d a b : Reg) (s : State) : Host.Outcome State Fault Refusal :=
  gangWord h (.waitc h d a b) s (chkWaitc a) (stallWaitc a) .stalled (fun g m =>
    (longRes g m d 1 (wordOf (.waitc h d a b)) (fun u =>
      (.waitc (waitcAcc g a u).locs ((g.pre.thr u).rd b), (g.pre.thr u).rdPair a)), g))

/-! ### Branches, calls and returns (R104 to R109) -/

def execBra (h : Hdr) (cc : BitVec 4) (hint : BitVec 2) (off : BitVec 18) (s : State) : Host.Outcome State Fault Refusal :=
  gangWord h (.bra h cc hint off) s noCause noStall .stalled (fun g m =>
    (m, g.jump (g.run.filter (fun u => braTaken (g.pre.thr u) cc)) (fun _ => Pos.start (relTarget g.pos off.toInt))))
def execYchk (h : Hdr) (hint : BitVec 2) (off : BitVec 18) (s : State) : Host.Outcome State Fault Refusal :=
  gangWord h (.ychk h hint off) s noCause noStall .stalled (fun g m =>
    (m, g.jump (g.run.filter (fun u => (g.pre.thr u).preq)) (fun _ => Pos.start (relTarget g.pos off.toInt))))
def execCall (h : Hdr) (off : BitVec 24) (s : State) : Host.Outcome State Fault Refusal :=
  gangWord h (.call h off) s noCause noStall .stalled (fun g m =>
    (m.onRun g.run (fun _ t => { t with lnk := linkOf g.pos }), g.jump g.run (fun _ => Pos.start (relTarget g.pos off.toInt))))
/-- A target that is no packet start traps with PACKET (R21, R107): a cause of its word's own, in its slot (DESIGN CHOICE, log 97). -/
def targetTrap (t : BitVec 64) : Option Trap := if isPacket t then none else some { cause := .packet, info := 2 }
/-- The low 56 bits of a target. -/
def targetPos (t : BitVec 64) : Pos := Pos.start (t.extractLsb' 0 56)
def chkRet (g : Group) (u : Nat) : Option Trap := targetTrap (g.pre.thr u).lnk
def execRet (h : Hdr) (s : State) : Host.Outcome State Fault Refusal :=
  gangWord h (.ret h) s chkRet noStall .stalled (fun g m => (m, g.jump g.run (fun u => targetPos (g.pre.thr u).lnk)))
def chkBrx (a : Reg) (g : Group) (u : Nat) : Option Trap := targetTrap ((g.pre.thr u).rdPair a)
def execBrx (h : Hdr) (a : Reg) (s : State) : Host.Outcome State Fault Refusal :=
  gangWord h (.brx h a) s (chkBrx a) noStall .stalled (fun g m => (m, g.jump g.run (fun u => targetPos ((g.pre.thr u).rdPair a))))
/-- CALLI checks that slot 0 of its target is an ENTRY word of the class (R107). -/
def chkCalli (cls : BitVec 12) (a : Reg) (g : Group) (u : Nat) : Option Trap :=
  let t := (g.pre.thr u).rdPair a
  match targetTrap t with
  | some x => some x
  | none =>
    match g.pre.fetchBytes (g.pre.who u) t.toNat 4 with
    | .wait => none
    | .bad c va => some { cause := c, info := BitVec.ofNat 32 va, va := BitVec.ofNat 64 va }
    | .ok bs =>
      let w : Word := BitVec.ofNat 32 (leNat bs)
      if majorOf w != 0#6 || w.extractLsb' 0 6 != 5#6 then
        some { cause := .sigclass, info := 0x80000000#32 ||| cls.setWidth 32 }
      else if w.extractLsb' 6 12 != cls then
        some { cause := .sigclass, info := ((w.extractLsb' 6 12).setWidth 32 <<< 16) ||| cls.setWidth 32 }
      else none
def stallCalli (a : Reg) (g : Group) : Bool :=
  g.run.any (fun u => g.pre.fetchBytes (g.pre.who u) ((g.pre.thr u).rdPair a).toNat 4 == .wait)
def execCalli (h : Hdr) (cls : BitVec 12) (a : Reg) (s : State) : Host.Outcome State Fault Refusal :=
  gangWord h (.calli h cls a) s (chkCalli cls a) (stallCalli a) .stalled (fun g m =>
    (m.onRun g.run (fun _ t => { t with lnk := linkOf g.pos }), g.jump g.run (fun u => targetPos ((g.pre.thr u).rdPair a))))
/-- DBNZ (R105). -/
def execDbnz (h : Hdr) (vs : Reg) (off : BitVec 18) (s : State) : Host.Outcome State Fault Refusal :=
  gangWord h (.dbnz h vs off) s noCause noStall .stalled (fun g m =>
    (m.onRun g.run (fun u t => t.wr vs ((g.pre.thr u).rd vs - 1)),
     g.jump (g.run.filter (fun u => (g.pre.thr u).rd vs - 1 != 0)) (fun _ => Pos.start (relTarget g.pos off.toInt))))

/-! ### Special registers (R15) -/

/-- The timers, which MOVS delivers as long results (R15, R23). -/
def isTimer (sp : BitVec 6) : Bool := sp == 0x08#6 || sp == 0x09#6 || sp == 0x0A#6
def execMovs (h : Hdr) (d : Reg) (sp : BitVec 6) (s : State) : Host.Outcome State Fault Refusal :=
  gangWord h (.movs h d sp) s noCause noStall .stalled (fun g m =>
    if isTimer sp then
      (longVal g m d 2 (wordOf (.movs h d sp)) (fun u =>
        [(g.pre.spRead u sp).extractLsb' 0 32, (g.pre.spRead u sp).extractLsb' 32 32]), g)
    else if spWide sp then (m.onRun g.run (fun u t => t.wrPair d (g.pre.spRead u sp)), g)
    else (m.onRun g.run (fun u t => t.wr d ((g.pre.spRead u sp).setWidth 32)), g))
/-- The value that SMOV writes. -/
def smovVal (t : Thread) (sp : BitVec 6) (a : Reg) : BitVec 64 := if spWide sp then t.rdPair a else (t.rd a).setWidth 64
def execSmov (h : Hdr) (sp : BitVec 6) (a : Reg) (s : State) : Host.Outcome State Fault Refusal :=
  gangWord h (.smov h sp a) s noCause noStall .stalled (fun g m =>
    if sp = 0x0A#6 then
      (if g.run.isEmpty then m else m.modGang g.gang (fun x => { x with wtrap := smovVal (g.pre.thr g.low) sp a }), g)
    else (m.onRun g.run (fun u t => t.spWrite sp (smovVal (g.pre.thr u) sp a)), g))

/-! ### Gang masks (R176 to R179) -/

/-- The mask k of a gang. -/
def Gang.mask (g : Gang) (k : BitVec 6) : Word := g.masks.toList.getD k.toNat 0
def Gang.setMask (g : Gang) (k : BitVec 6) (w : Word) : Gang := { g with masks := g.masks.setIfInBounds k.toNat w }
/-- FRAME in a spawn gang (R130, R179, R245, R258, R261). -/
def chkSpawn (g : Group) (_ : Nat) : Option Trap := if g.spawn then some { cause := .frame, info := 0 } else none
def execMjoin (h : Hdr) (k : BitVec 6) (s : State) : Host.Outcome State Fault Refusal :=
  gangWord h (.mjoin h k) s chkSpawn noStall .stalled (fun g m =>
    (m.modGang g.gang (fun x => x.setMask k ((g.pre.gang g.gang).mask k ||| g.mask)), g))
def execMleave (h : Hdr) (k : BitVec 6) (s : State) : Host.Outcome State Fault Refusal :=
  gangWord h (.mleave h k) s chkSpawn noStall .stalled (fun g m =>
    (m.modGang g.gang (fun x => x.setMask k ((g.pre.gang g.gang).mask k &&& ~~~g.mask)), g))
/-- MWAIT traps with BARRIER when its run holds a lane outside the mask (R178). -/
def chkMwait (k : BitVec 6) (g : Group) (_ : Nat) : Option Trap :=
  if g.spawn then some { cause := .frame, info := 0 }
  else if g.mask &&& ~~~((g.pre.gang g.gang).mask k) != 0 then some { cause := .barrier, info := k.setWidth 32 }
  else none
/-- A run whose lanes are not all released cannot issue (R178). -/
def stallMwait (g : Group) : Bool := g.mask &&& ~~~((g.pre.gang g.gang).released) != 0
/-- The lanes that complete are no longer released. A lane of the run that meets a cause at another word of the group stays released, and
passes the MWAIT when it comes to it again (DESIGN CHOICE, log 88). -/
def execMwait (h : Hdr) (k : BitVec 6) (s : State) : Host.Outcome State Fault Refusal :=
  gangWord h (.mwait h k) s (chkMwait k) stallMwait .stalled (fun g m =>
    (m.modGang g.gang (fun x => { x with released := x.released &&& ~~~g.mask }), g))
def execMset (h : Hdr) (k : BitVec 6) (a : Reg) (s : State) : Host.Outcome State Fault Refusal :=
  gangWord h (.mset h k a) s chkSpawn noStall .stalled (fun g m =>
    (if g.run.isEmpty then m else m.modGang g.gang (fun x => x.setMask k ((g.pre.thr g.low).rd a)), g))
def execMget (h : Hdr) (d : Reg) (k : BitVec 6) (s : State) : Host.Outcome State Fault Refusal :=
  gangWord h (.mget h d k) s noCause noStall .stalled (fun g m =>
    (m.onRun g.run (fun _ t => t.wr d (if g.spawn then 0 else (g.pre.gang g.gang).mask k)), g))
def execMact (h : Hdr) (d : Reg) (s : State) : Host.Outcome State Fault Refusal :=
  gangWord h (.mact h d) s noCause noStall .stalled (fun g m =>
    (m.onRun g.run (fun u t => t.wr d (if g.spawn && g.det then g.pre.laneMask [u] else g.mask)), g))

/-- A word that is no instruction traps with ILLEGAL, and %trapi holds the word (R62). -/
def chkIllegal (w : Word) (_ : Group) (_ : Nat) : Option Trap := some { cause := .illegal, info := w }
def execIllegalEncoding (w : Word) (s : State) : Host.Outcome State Fault Refusal :=
  gangWord (hdrOf w) (.illegalEncoding w) s (chkIllegal w) noStall .stalled (fun g m => (m, g))

end Sys2Proof.Machine
end

