-- ==== Sys2Proof/Machine/Barrier.lean ====
section
/-! DEFINITION. Named barriers (R261 to R264), GBAR (R265) and rings (R258 to R260). -/

namespace Sys2Proof.Machine

/-! ### Arrivals (R261) -/

/-- The barriers and rings of a crew. -/
def Crew.bar (c : Crew) (k : Nat) : Bar := c.bars.toList.getD k {}
def Crew.setBar (c : Crew) (k : Nat) (b : Bar) : Crew := { c with bars := c.bars.setIfInBounds k b }
def Crew.ring (c : Crew) (k : Nat) : Ring := c.rings.toList.getD k {}
def Crew.setRing (c : Crew) (k : Nat) (r : Ring) : Crew := { c with rings := c.rings.setIfInBounds k r }
/-- One arrival: A = E completes the phase. -/
def Bar.arrive (b : Bar) : Bar := if b.a + 1 = b.e then { b with a := 0, p := b.p + 1 } else { b with a := b.a + 1 }
/-- An arrival at barrier k of a crew. -/
def arriveAt (m : Mach) (crew k : Nat) : Mach := m.modCrew crew (fun c => c.setBar k (c.bar k).arrive)
/-- What a gang holds for barrier k. -/
def Gang.arrAt (g : Gang) (k : Nat) : Arrival := g.arr.toList.getD k .none
def Gang.setArr (g : Gang) (k : Nat) (a : Arrival) : Gang := { g with arr := g.arr.setIfInBounds k a }
/-- The barrier of the group's crew. -/
def Group.bar (g : Group) (k : BitVec 6) : Bar := (g.pre.crew g.crew).bar k.toNat
def barTrap (k : BitVec 6) : Trap := { cause := .barrier, info := k.setWidth 32 }

/-- FRAME in a spawn gang; BARRIER at or above the window (R261). -/
def chkBar (k : BitVec 6) (g : Group) : Option Trap :=
  if g.spawn then some { cause := .frame, info := 0 }
  else if (g.pre.crew g.crew).nbWin ≤ k.toNat then some (barTrap k)
  else none
/-- Where a command of a crew names barrier k and has not arrived, or a running stream is a member of it (R262, R271). -/
def barrierNamed (m : Mach) (crew k : Nat) : Bool :=
  let names (cw : Word) : Bool := cw.getLsbD 16 && (cw.extractLsb' 17 4).toNat == k
  m.copies.any (fun c => c.2.crew == crew && !c.2.acted && names c.2.cw) ||
  m.jobs.any (fun j => j.2.crew == crew && !j.2.acted && names j.2.cw) ||
  m.pushes.any (fun p => p.crew == crew && match p.k with
    | .cpy sl => names ((sl.headD default).cw)
    | .cpyt cw _ _ _ _ => names cw
    | .cpytR cw _ _ _ _ => names cw
    | .cpyh cw _ => names cw
    | .cpyq _ _ _ cw => names cw
    | .job _ cw => names cw
    | _ => false) ||
  m.streams.any (fun x => x.2.crew == crew && x.2.memb.getLsbD k)

/-! ### NBINIT, NBARR, NBWAIT, NBSYNC (R262) -/

def nbExpect (g : Group) (a : Reg) : Nat := ((g.pre.thr g.low).rd a).toNat % 2 ^ 12
/-- DEDUCED, log 18. -/
def chkNbinit (a : Reg) (k : BitVec 6) (g : Group) (_ : Nat) : Option Trap :=
  match chkBar k g with
  | some t => some t
  | none =>
    if nbExpect g a = 0 ∨ (g.bar k).a ≠ 0 ∨ barrierNamed g.pre g.crew k.toNat then some (barTrap k) else none
def execNbinit (h : Hdr) (a : Reg) (k : BitVec 6) (s : State) : Host.Outcome State Fault Refusal :=
  gangWord h (.nbinit h a k) s (chkNbinit a k) acqStall .stalled (fun g m =>
    (if g.run.isEmpty then m else m.modCrew g.crew (fun c => c.setBar k.toNat { c.bar k.toNat with e := nbExpect g a }), g))
/-- An arrival traps with BARRIER while E = 0. -/
def chkArrive (k : BitVec 6) (g : Group) (_ : Nat) : Option Trap :=
  match chkBar k g with
  | some t => some t
  | none => if (g.bar k).e = 0 then some (barTrap k) else none
def chkNbwait (k : BitVec 6) (g : Group) (_ : Nat) : Option Trap := chkBar k g
/-- An arrival waits for the run's earlier accesses, as the fence that it has the effect of does (R264) (DEDUCED, log 17). -/
def stallArrive (g : Group) : Bool := g.run.any g.pre.busy
/-- The gang's arrival at barrier k, opened at the current phase. -/
def makeArrival (m : Mach) (gang crew : Nat) (k : BitVec 6) : Mach :=
  arriveAt (m.modGang gang (fun x => x.setArr k.toNat (.opened ((m.crew crew).bar k.toNat).p))) crew k.toNat
def execNbarr (h : Hdr) (k : BitVec 6) (s : State) : Host.Outcome State Fault Refusal :=
  gangWord h (.nbarr h k) s (chkArrive k) stallArrive .stalled (fun g m =>
    (if g.run.isEmpty then m else makeArrival m g.gang g.crew k, g))

/-- Whether the group has been first attempted for its run (R262). -/
def Group.tried (g : Group) : Bool := g.run.any (fun u => (g.pre.thr u).attempt.any (fun a => a.pos == g.pos))
/-- The phase that a gang waits for at barrier k. -/
def waitsFor (x : Gang) (k : BitVec 6) : Option Word :=
  match x.arrAt k.toNat with
  | .none => none
  | .opened p => some p
  | .waiting p => some p
/-- NBWAIT's first attempt fixes the phase: that of an open arrival, else the current one, at which the gang records a pending wait. -/
def tryNbwait (k : BitVec 6) (g : Group) (m : Mach) : Mach :=
  m.modGang g.gang (fun x => match x.arrAt k.toNat with
    | .opened _ => x
    | _ => x.setArr k.toNat (.waiting ((m.crew g.crew).bar k.toNat).p))
/-- NBSYNC's makes its arrival. -/
def tryNbsync (k : BitVec 6) (g : Group) (m : Mach) : Mach := makeArrival m g.gang g.crew k
/-- The phases that the first attempts of a run fixed. -/
def Group.phases (g : Group) : List Word := g.run.filterMap (fun u => (g.pre.thr u).attempt.bind (·.phase))
/-- The wait stalls until the phase differs; its release waits for the run's earlier accesses (R264). -/
def stallPhase (k : BitVec 6) (g : Group) : Bool := g.phases.contains (g.bar k).p || g.run.any g.pre.busy
/-- Record the first attempt of a group for its run, with the phase that the gang then waits for. -/
def recordTry (g : Group) (ph : Gang → Option Word) (m : Mach) : Mach :=
  m.onRun g.run (fun _ t => if t.attempt.any (fun a => a.pos == g.pos) then t else t.setAttempt (some ⟨g.pos, ph (m.gang g.gang)⟩))
/-- A barrier wait: its first attempt is recorded, whether or not the group then stalls. -/
def waitWord (h : Hdr) (i : Instr) (s : State) (own : Group → Nat → Option Trap) (ready : Group → Bool) (try' : Group → Mach → Mach)
    (ph : Gang → Option Word) (stall : Group → Bool) (eff : Group → Mach → Mach) : Host.Outcome State Fault Refusal :=
  match s.act with
  | .group g =>
    let g1 := g.judgeWord i own
    if g1.attempted || g1.run.isEmpty || !ready g1 then
      gangWord h i s own (fun x => !x.run.isEmpty && (!ready x || stall x)) .stalled
        (fun x m => (if x.run.isEmpty then m else eff x m, x))
    else
      let f := fun m : Mach => recordTry g1 ph (if g1.tried then m else try' g1 m)
      gangWord h i ⟨f s.m, .group { g with pre := f g.pre, attempted := true }⟩ own (fun x => stall x) .stalled
        (fun x m => (if x.run.isEmpty then m else eff x m, x))
  | _ => .refused .notEnabled
/-- What an issued wait leaves: neither an open arrival nor a pending wait. -/
def waited (k : BitVec 6) (g : Group) (m : Mach) : Mach := m.modGang g.gang (fun x => x.setArr k.toNat .none)
def readyNow (_ : Group) : Bool := true
/-- NBSYNC arrives once its run's accesses have performed; an attempt already made stands. -/
def readySync (g : Group) : Bool := g.tried || !stallArrive g
def execNbwait (h : Hdr) (k : BitVec 6) (s : State) : Host.Outcome State Fault Refusal :=
  waitWord h (.nbwait h k) s (chkNbwait k) readyNow (tryNbwait k) (fun x => waitsFor x k) (stallPhase k) (waited k)
def execNbsync (h : Hdr) (k : BitVec 6) (s : State) : Host.Outcome State Fault Refusal :=
  waitWord h (.nbsync h k) s (chkArrive k) readySync (tryNbsync k) (fun x => waitsFor x k) (stallPhase k) (waited k)

/-! ### GBAR (R265) -/

def chkGbar (g : Group) (_ : Nat) : Option Trap :=
  if g.spawn then some { cause := .frame, info := 0 }
  else if !(g.pre.region (g.pre.gang g.gang).region).rcb.cores then some { cause := .grid, info := 0 }
  else none
/-- Every live crew gang of a region. -/
def Mach.gridGangs (m : Mach) (r : Nat) : List Nat := (m.regionGangs r).filter (fun g => (m.gang g).crew.isSome)
/-- The phase completes when every live gang of every crew has arrived in it. -/
def gbarDone (m : Mach) (r : Nat) : Mach :=
  if !(m.gridGangs r).isEmpty && (m.gridGangs r).all (fun g => (m.gang g).gbar == some (m.region r).gbarP) then
    m.modRegion r (fun x => { x with gbarP := x.gbarP + 1 })
  else m
/-- GBAR's arrival: a fence at dev scope, then the arrival of the gang. -/
def tryGbar (g : Group) (m : Mach) : Mach :=
  let r := (m.gang g.gang).region
  gbarDone ((m.fenceL1 g.sp g.ctx 3).modGang g.gang (fun x => { x with gbar := some (m.region r).gbarP })) r
/-- A run waits for the phase in which it has arrived itself, whatever other runs of its gang have arrived in since. -/
def stallGbar (g : Group) : Bool :=
  g.phases.contains (g.pre.region (g.pre.gang g.gang).region).gbarP || g.run.any g.pre.busy
/-- What an issued GBAR leaves: an arrival that another run of its gang has made in a later phase stands. -/
def gbarLeft (g : Group) (m : Mach) : Mach :=
  (m.fenceL1 g.sp g.ctx 3).modGang g.gang (fun x => if g.phases.any (fun p => x.gbar == some p) then { x with gbar := none } else x)
def execGbar (h : Hdr) (s : State) : Host.Outcome State Fault Refusal :=
  waitWord h (.gbar h) s chkGbar readySync tryGbar (·.gbar) stallGbar gbarLeft

/-! ### Rings (R258, R259) -/

def Group.ring (g : Group) (k : BitVec 6) : Ring := (g.pre.crew g.crew).ring k.toNat
def queueTrap (k : BitVec 6) : Trap := { cause := .queue, info := BitVec.ofNat 32 (0x10 + k.toNat) }
/-- A command of the crew that names ring k, from its push to its end. -/
def ringNamed (m : Mach) (crew k : Nat) : Bool :=
  let names (cw : Word) : Bool := cw.getLsbD 21 && (cw.extractLsb' 22 3).toNat == k
  m.copies.any (fun c => c.2.crew == crew && names c.2.cw) ||
  m.pushes.any (fun p => p.crew == crew && match p.k with
    | .cpy sl => names ((sl.headD default).cw)
    | .cpyt cw _ _ _ _ => names cw
    | .cpytR cw _ _ _ _ => names cw
    | .cpyh cw _ => names cw
    | _ => false)
/-- The stage offset of a sequence in the crew's block. -/
def Ring.stage (r : Ring) (n : Word) : Nat := r.base + n.toNat % (max r.s 1) * r.z
/-- x - y modulo 2^32, the distance of two counters. -/
def gap (x y : Word) : Nat := (x - y).toNat
/-- Advance a counter over the leading marked sequences. -/
def advance (marks : List Word) (c : Word) : Nat → Word × List Word
  | 0 => (c, marks)
  | n + 1 => if marks.contains c then advance (marks.filter (· != c)) (c + 1) n else (c, marks)
/-- Publish and release a sequence. -/
def Ring.publish (r : Ring) (n : Word) : Ring :=
  let x := advance (n :: r.pubm) r.pub (r.pubm.length + 1)
  { r with pub := x.1, pubm := x.2 }
def Ring.release (r : Ring) (n : Word) : Ring :=
  let x := advance (n :: r.relm) r.fre (r.relm.length + 1)
  { r with fre := x.1, relm := x.2 }

def rgSize (g : Group) (a : Reg) (i : Nat) : Nat := ((g.pre.thr g.low).rd (a + Fin.ofNat 64 i)).toNat
def chkRginit (a : Reg) (k : BitVec 6) (g : Group) (_ : Nat) : Option Trap :=
  let base := rgSize g a 0
  let z := rgSize g a 1
  let n := rgSize g a 2
  let c := g.pre.crew g.crew
  if g.spawn then some { cause := .frame, info := 0 }
  else if base % 256 ≠ 0 ∨ z % 256 ≠ 0 ∨ z = 0 then some { cause := .align, info := BitVec.ofNat 32 base }
  else if c.locSize < base + n * z then some { cause := .rangeMiss, info := BitVec.ofNat 32 (max base c.locSize) }
  else if n = 0 ∨ 256 < n ∨ ringNamed g.pre g.crew k.toNat then some (queueTrap k)
  else none
def execRginit (h : Hdr) (a : Reg) (k : BitVec 6) (s : State) : Host.Outcome State Fault Refusal :=
  gangWord h (.rginit h a k) s (chkRginit a k) acqStall .stalled (fun g m =>
    (if g.run.isEmpty then m else m.modCrew g.crew (fun c =>
      c.setRing k.toNat { init := true, base := rgSize g a 0, z := rgSize g a 1, s := rgSize g a 2 }), g))
/-- A full ring: RES = FRE + S. -/
def Ring.full (r : Ring) : Bool := r.res == r.fre + BitVec.ofNat 32 r.s
/-- RGRES stalls while its ring is full. -/
def stallRgres (k : BitVec 6) (g : Group) : Bool := acqStall g || (!g.run.isEmpty && (g.ring k).full)
def execRgres (h : Hdr) (d : Reg) (k : BitVec 6) (s : State) : Host.Outcome State Fault Refusal :=
  gangWord h (.rgres h d k) s chkSpawn (stallRgres k) .stalled (fun g m =>
    let r := g.ring k
    let m1 := m.onRun g.run (fun _ t => t.wrs d [r.res, BitVec.ofNat 32 (r.stage r.res)])
    (if g.run.isEmpty then m else m1.modCrew g.crew (fun c => c.setRing k.toNat { c.ring k.toNat with res := r.res + 1 }), g))
/-- A sequence outside [PUB, RES), or already published, traps with QUEUE. -/
def chkRgpub (a : Reg) (k : BitVec 6) (g : Group) (_ : Nat) : Option Trap :=
  let r := g.ring k
  let n := (g.pre.thr g.low).rd a
  if g.spawn then some { cause := .frame, info := 0 }
  else if gap r.res r.pub ≤ gap n r.pub || r.pubm.contains n then some (queueTrap k) else none
/-- RGPUB, a release of crew scope, waits for the run's earlier accesses. -/
def execRgpub (h : Hdr) (a : Reg) (k : BitVec 6) (s : State) : Host.Outcome State Fault Refusal :=
  gangWord h (.rgpub h a k) s (chkRgpub a k) stallArrive .stalled (fun g m =>
    (if g.run.isEmpty then m else m.modCrew g.crew (fun c => c.setRing k.toNat ((c.ring k.toNat).publish ((g.pre.thr g.low).rd a))), g))
def execRgwait (h : Hdr) (d : Reg) (k : BitVec 6) (s : State) : Host.Outcome State Fault Refusal :=
  gangWord h (.rgwait h d k) s chkSpawn acqStall .stalled (fun g m =>
    (if g.run.isEmpty then m else
      (m.onRun g.run (fun _ t => t.pendSet (regsFrom d 2))).addRes
        { seq := 0, us := g.run, gang := g.gang, dst := d, n := 2, src := .ring k.toNat, word := wordOf (.rgwait h d k) }, g))
/-- A sequence outside [FRE, TAK), or already released, traps with QUEUE. -/
def chkRgrel (a : Reg) (k : BitVec 6) (g : Group) (_ : Nat) : Option Trap :=
  let r := g.ring k
  let n := (g.pre.thr g.low).rd a
  if g.spawn then some { cause := .frame, info := 0 }
  else if gap r.tak r.fre ≤ gap n r.fre || r.relm.contains n then some (queueTrap k) else none
def execRgrel (h : Hdr) (a : Reg) (k : BitVec 6) (s : State) : Host.Outcome State Fault Refusal :=
  gangWord h (.rgrel h a k) s (chkRgrel a k) acqStall .stalled (fun g m =>
    (if g.run.isEmpty then m else m.modCrew g.crew (fun c => c.setRing k.toNat ((c.ring k.toNat).release ((g.pre.thr g.low).rd a))), g))

end Sys2Proof.Machine
end

