-- ==== Sys2Proof/Machine/Copy.lean ====
section
/-! DEFINITION. Queue ports (R240, R241), copy words (R242 to R250, R256, R257), their acceptance (R230), and crew-local segments
(R209). The engine's own steps stand in Engine.lean. -/

namespace Sys2Proof.Machine

/-! ### Ports (R240, R241, R244) -/

/-- The entries of port k of a gang. -/
def Gang.port (g : Gang) (k : Nat) : List (BitVec 64) :=
  match k with
  | 1 => g.q1
  | 3 => g.q3
  | 4 => g.q4
  | 5 => g.q5
  | _ => []
def Gang.setPort (g : Gang) (k : Nat) (xs : List (BitVec 64)) : Gang :=
  match k with
  | 1 => { g with q1 := xs }
  | 3 => { g with q3 := xs }
  | 4 => { g with q4 := xs }
  | 5 => { g with q5 := xs }
  | _ => g
/-- The credit that a removed status word returns (R243, R292). -/
def Gang.credit (g : Gang) (k : Nat) : Gang :=
  match k with
  | 1 => { g with qc := g.qc - 1 }
  | 3 => { g with ic := g.ic - 1 }
  | _ => g
/-- QPOPs of a port that wait. -/
def Mach.popping (m : Mach) (gang k : Nat) : List Res :=
  m.results.filter (fun r => r.gang == gang && r.src == .pop k)
/-- An entry as the two words that QPOP delivers. -/
def pairOf (x : BitVec 64) : List Word := [x.extractLsb' 0 32, x.extractLsb' 32 32]
/-- Post an entry to a port: to the QPOP that has waited longest, else behind the others; a gang that has ceased receives none (R241,
R243). -/
def Mach.post (m : Mach) (gang k : Nat) (x : BitVec 64) : Mach :=
  if (m.gang gang).life = .ended then m
  else match m.popping gang k with
  | [] => m.modGang gang (fun g => g.setPort k (g.port k ++ [x]))
  | r :: _ =>
    let fill (y : Res) : Res := if y.seq = r.seq then { y with src := .val (pairOf x) } else y
    ({ m with results := m.results.map fill } : Mach).modGang gang (fun g => g.credit k)
/-- FRAME for q0 and q1 in a spawn gang. -/
def chkPort (k : BitVec 6) (g : Group) (_ : Nat) : Option Trap :=
  if g.spawn && decide (k.toNat ≤ 1) then some { cause := .frame, info := 0 } else none
/-- The stream of a gang (R270). -/
def Mach.hasStream (m : Mach) (gang : Nat) : Bool := m.streams.any (fun x => x.2.gang == gang)

/-- QPUSH stalls while q4 holds 16 entries. -/
def stallQpush (g : Group) : Bool := acqStall g || (!g.run.isEmpty && decide (16 ≤ (g.pre.gang g.gang).q4.length))
def execQpush (h : Hdr) (k : BitVec 6) (a : Reg) (s : State) : Host.Outcome State Fault Refusal :=
  gangWord h (.qpush h k a) s noCause stallQpush .stalled (fun g m =>
    (if g.run.isEmpty then m else m.modGang g.gang (fun x => { x with q4 := x.q4 ++ [(g.pre.thr g.low).rdPair a], q4at := x.q4at ++ [m.seq] }), g))
/-- QPOP of an empty port that nothing can fill traps with QUEUE. -/
def chkQpop (k : BitVec 6) (g : Group) (u : Nat) : Option Trap :=
  let x := g.pre.gang g.gang
  let w := (g.pre.popping g.gang k.toNat).length
  let dry := match k.toNat with
    | 1 => decide (x.qc ≤ w)
    | 3 => decide (x.ic ≤ w)
    | _ => !g.pre.hasStream g.gang
  match chkPort k g u with
  | some t => some t
  | none => if (x.port k.toNat).isEmpty && dry then some { cause := .queue, info := k.setWidth 32 } else none
/-- QPOP takes the oldest entry, or waits for the next; entries go to QPOPs in order of issue. -/
def execQpop (h : Hdr) (d : Reg) (k : BitVec 6) (s : State) : Host.Outcome State Fault Refusal :=
  gangWord h (.qpop h d k) s (chkQpop k) acqStall .stalled (fun g m =>
    if g.run.isEmpty then (m, g) else
    let m1 := m.onRun g.run (fun _ t => t.pendSet (regsFrom d 2))
    let res (src : Src) : Res := { seq := 0, us := g.run, gang := g.gang, dst := d, n := 2, src := src, word := wordOf (.qpop h d k) }
    match (g.pre.gang g.gang).port k.toNat with
    | x :: r => ((m1.modGang g.gang (fun y => (y.setPort k.toNat r).credit k.toNat)).addRes (res (.val (pairOf x))), g)
    | [] => (m1.addRes (res (.pop k.toNat)), g))
/-- QSTAT: the credits or entries of a port. -/
def qstatOf (x : Gang) (k : Nat) : Nat :=
  match k with
  | 0 => x.qc
  | 2 => x.ic
  | k => (x.port k).length
def execQstat (h : Hdr) (d : Reg) (k : BitVec 6) (s : State) : Host.Outcome State Fault Refusal :=
  gangWord h (.qstat h d k) s (chkPort k) acqStall .stalled (fun g m =>
    (m.onRun g.run (fun _ t => t.wr d (BitVec.ofNat 32 (qstatOf (g.pre.gang g.gang) k.toNat))), g))

/-! ### Completion words (R242) and statuses (R244) -/

def cwTag (c : Word) : Nat := c.toNat % 2 ^ 16
def cwB (c : Word) : Bool := c.getLsbD 16
def cwNb (c : Word) : Nat := bitsOf c.toNat 17 4
def cwG (c : Word) : Bool := c.getLsbD 21
def cwRing (c : Word) : Nat := bitsOf c.toNat 22 3
/-- A reserved bit, or SCOPE 6 or 7. -/
def cwBad (c : Word) : Bool := bitsOf c.toNat 28 4 != 0 || decide (6 ≤ bitsOf c.toNat 25 3)
/-- A status word. -/
def statusWord (off tag : Nat) (x : Bool) (slot code : Nat) : BitVec 64 :=
  BitVec.ofNat 64 (off % 2 ^ 32 * 2 ^ 32 + tag % 2 ^ 16 * 2 ^ 16 + (if x then 2 ^ 15 else 0) + slot % 32 * 2 ^ 8 + code)
/-- BARRIER, then QUEUE, as a pushing word meets them for its completion word (R242). -/
def chkCw (g : Group) (c : Word) (ring : Bool) : Option Trap :=
  let k := g.pre.crew g.crew
  if cwB c && (decide (k.nbWin ≤ cwNb c) || (k.bar (cwNb c)).e == 0) then some { cause := .barrier, info := BitVec.ofNat 32 (cwNb c) }
  else if ring && cwG c && !(k.ring (cwRing c)).init then some { cause := .queue, info := BitVec.ofNat 32 (0x10 + cwRing c) }
  else none
/-- FRAME in a spawn gang, and QUEUE when all 64 credits are in use (R243). -/
def chkCredit (g : Group) : Option Trap :=
  if g.spawn then some { cause := .frame, info := 0 }
  else if 64 ≤ (g.pre.gang g.gang).qc then some { cause := .queue, info := 0 }
  else none
/-- A command of the group's run on its way to acceptance, in its place in program order. -/
def Mach.addPush (m : Mach) (g : Group) (k : PushK) : Mach :=
  { m with pushes := m.pushes ++ [{ crew := g.crew, gang := g.gang, sp := g.sp, by' := [(g.gang, g.run, m.seq)], k := k }], seq := m.seq + 1 }
/-- A push onto q0: a credit, and the command on its way to acceptance. -/
def pushCmd (g : Group) (m : Mach) (k : PushK) : Mach :=
  if g.run.isEmpty then m else (m.modGang g.gang (fun x => { x with qc := x.qc + 1 })).addPush g k
/-- An operand of the lowest lane (R245). -/
def lowRd (g : Group) (r : Reg) (i : Nat) : Word := (g.pre.thr g.low).rd (r + Fin.ofNat 64 i)
def lowPair (g : Group) (r : Reg) (i : Nat) : BitVec 64 := (g.pre.thr g.low).rdPair (r + Fin.ofNat 64 i)

/-! ### Records that a word's lowest lane loads (R248, R249, R291) -/

/-- The record's bytes, checked as one access (DESIGN CHOICE, log 82). -/
def recReach (g : Group) (va : BitVec 64) (n al : Nat) : Reach := accessAt g.pre g.low .read va n al
/-- The loads of a record as accesses that a watermark holds: one, made by the lowest lane (R327) (DEDUCED, log 19). -/
def recHeld (g : Group) (r : Reach) : Nat := if g.pre.heldAt (g.pre.gang g.gang).crew (vasOf r.locs) then 1 else 0
/-- A lane's read that its word makes as it issues. An access of the lane to these bytes that a freeze has abandoned comes before it (R16),
and issues again only from the lane's handler (R375): the lane traps with WM_FROZEN and makes the read afterwards (DESIGN CHOICE, log 89). -/
def Reach.owing (r : Reach) (m : Mach) (u : Nat) : Reach :=
  match r with
  | .ok ls => if m.owesRead u ls then .trap .wmFrozen (((m.thr u).deferred.map (·.info.toNat)).getD 0) ((vasOf ls).headD 0) else r
  | _ => r
/-- A record that a word's lowest lane reads as the word issues. -/
def nowReach (g : Group) (va : BitVec 64) (n al : Nat) : Reach := (recReach g va n al).owing g.pre g.low
/-- The word waits while the load of its record could not perform: behind what the lane has accessed in earlier groups
(DESIGN CHOICE, log 99), a watermark or the planer. -/
def recStall (g : Group) (r : Reach) : Bool :=
  acqStall g || (!g.run.isEmpty && (r.waits || !g.pre.readReady [g.low] g.gang g.pre.seq r.locs))
/-- Loads of 64 bytes by a lane of the spindle, at most three: one that meets an uncorrectable error gives zeros, and a deferred report
(R324). -/
def recBytes (m : Mach) (sp : Nat) (ls : List Loc) : List Byte :=
  let one (xs : List Loc) : List Byte := if xs.any (m.readErr sp) then xs.map (fun _ => 0) else xs.map (m.load sp)
  one (ls.take 64) ++ one ((ls.drop 64).take 64) ++ one (ls.drop 128)
/-- Record a deferred report; the oldest word in program order is kept (R324). -/
def Thread.defer (t : Thread) (d : Deferred) : Thread :=
  match t.deferred with
  | none => { t with deferred := some d }
  | some o => if d.seq < o.seq then { t with deferred := some d } else t
/-- What such a load leaves: a copy in the L1 no older than it, or its deferred report; p is the machine that the record is read from, sp its
spindle, n the place of its word in program order (R220, R324). -/
def recDefer (p : Mach) (sp n : Nat) (m : Mach) (u : Nat) (ls : List Loc) : Mach :=
  match ls.find? (p.readErr sp) with
  | none => m.l1Renew sp ls
  | some l => m.modThr u (fun t => t.defer ⟨.dataError, BitVec.ofNat 32 l.va, n⟩)

/-! ### Tensor layout records (R247) -/

def sgn64 (x : Nat) : Int := if x < 2 ^ 63 then (x : Int) else (x : Int) - 2 ^ 64
/-- DSTRIDE(0) ≥ the element size, and each stride covers the dimension inside it. -/
def stridesOk : Int → List (Nat × Int × Int) → Bool
  | _, [] => true
  | need, (c, _, d) :: r => decide (need ≤ d) && c != 0 && stridesOk (d * c) r
/-- A record's contents; none where R247 makes it malformed. -/
def parseTlr (x : Nat) : Option Tlr :=
  let nd := bitsOf x 132 3
  let es := bitsOf x 128 4
  let dim (k : Nat) : Nat × Int × Int :=
    (bitsOf x (256 * k + 256) 32, sgn64 (bitsOf x (256 * k + 320) 64), sgn64 (bitsOf x (256 * k + 384) 64))
  let resv := bitsOf x 56 8 != 0 || bitsOf x 120 8 != 0 || bitsOf x 135 121 != 0 ||
    (List.range 5).any (fun k => bitsOf x (256 * k + 448) 64 != 0 || bitsOf x (256 * k + 288) 32 != 0 ||
      (decide (nd ≤ k) && bitsOf x (256 * k + 256) 256 != 0))
  let dims := (List.range nd).map dim
  if resv || nd == 0 || decide (5 < nd) || decide (4 < es) || !stridesOk (2 ^ es) dims then none
  else some { src := bitsOf x 0 56, dst := bitsOf x 64 56, esize := 2 ^ es, dims := dims }
/-- Elements of a record. -/
def Tlr.count (t : Tlr) : Nat := t.dims.foldl (fun n d => n * d.1) 1
/-- Source and destination offsets of element e in row-major order. -/
def dimOffsets : List (Nat × Int × Int) → Nat → Int × Int
  | [], _ => (0, 0)
  | (c, ss, ds) :: r, e =>
    let o := dimOffsets r (e / max c 1)
    ((e % max c 1 : Nat) * ss + o.1, (e % max c 1 : Nat) * ds + o.2)
/-- The lowest and the highest source address, and the lengths of both spans. -/
def Tlr.srcSpan (t : Tlr) : Int × Int :=
  t.dims.foldl (fun x d => let w := ((d.1 : Int) - 1) * d.2.1; (x.1 + min 0 w, x.2 + max 0 w)) (t.src, t.src + t.esize - 1)
def Tlr.srcLen (t : Tlr) : Nat := (t.srcSpan.2 - t.srcSpan.1 + 1).toNat
def Tlr.dstLen (t : Tlr) : Nat :=
  (t.dims.foldl (fun (x : Int) d => x + ((d.1 : Int) - 1) * d.2.2) (t.esize : Int)).toNat

/-! ### Where the bytes of a copy lie -/

/-- Source and destination of byte i, in landing order. -/
def sliceAt : List Slice → Nat → Nat × Nat
  | [], _ => (2 ^ 60, 2 ^ 60)
  | s :: r, i => if i < s.len then (s.src + i, s.dst + i) else sliceAt r (i - s.len)
def CKind.at' (k : CKind) (i : Nat) : Nat × Nat :=
  match k with
  | .bytes sl => sliceAt sl i
  | .tensor t =>
    let o := dimOffsets t.dims (i / t.esize)
    let neg (x : Int) : Nat := if x < 0 then 2 ^ 60 else x.toNat
    (neg ((t.src : Int) + o.1 + (i % t.esize : Nat)), neg ((t.dst : Int) + o.2 + (i % t.esize : Nat)))
  | .quant src _ dst _ _ _ _ _ => (src, dst + i)
/-- Bytes that a copy writes, its first destination byte and the length of its span. -/
def CKind.total (k : CKind) : Nat :=
  match k with
  | .bytes sl => (sl.map (·.len)).sum
  | .tensor t => t.count * t.esize
  | .quant _ _ _ _ _ fmt _ n => n * fmtWidth fmt / 8
def CKind.base (k : CKind) : Nat :=
  match k with
  | .bytes sl => (sl.headD default).dst
  | .tensor t => t.dst
  | .quant _ _ dst _ _ _ _ _ => dst
def CKind.len (k : CKind) : Nat :=
  match k with
  | .tensor t => t.dstLen
  | k => k.total
/-- The source spans, each as first address and one past the last. -/
def CKind.sources (k : CKind) : List (Int × Int) :=
  match k with
  | .bytes sl => (sl.filter (fun s => s.len != 0)).map (fun s => ((s.src : Int), (s.src + s.len : Int)))
  | .tensor t => [(t.srcSpan.1, t.srcSpan.2 + 1)]
  | .quant src sfmt _ _ _ _ _ n => if n = 0 then [] else [((src : Int), (src + n * (fmtWidth sfmt / 8) : Int))]
/-- The destination's bytes: the span from base, and for a CPYQ its scale bytes too. -/
def CKind.spans (k : CKind) : List (Nat × Nat) :=
  (k.base, k.base + k.len) :: match k with
    | .quant _ _ _ sc _ _ blk n => [(sc, sc + n / max blk 1)]
    | _ => []
/-- Move the destination of a copy into its ring stage (R260). -/
def CKind.shift (k : CKind) (n : Nat) : CKind :=
  match k with
  | .bytes sl => .bytes (sl.map (fun s => { s with dst := s.dst + n }))
  | .tensor t => .tensor { t with dst := t.dst + n }
  | k => k
/-- Whether a source span meets the destination span (R252). -/
def CKind.overlaps (k : CKind) : Bool :=
  k.total != 0 && k.sources.any (fun s => decide (s.1 < (k.base + k.len : Nat)) && decide ((k.base : Int) < s.2))
/-- The engine of a crew as the party of an access. -/
def Mach.engine (m : Mach) (crew sp : Nat) : Who := ⟨m.ctxOfRegion (m.crew crew).region, some crew, sp, false⟩
/-- Whether some byte that a copy reads, or writes, lies where format code 7 holds (R253). -/
def srcDead (m : Mach) (w : Who) (k : CKind) : Bool :=
  match k with
  | .quant src sfmt _ _ _ _ _ n => (span src (n * (fmtWidth sfmt / 8))).any (m.fmtDead w)
  | _ => (List.range k.total).any (fun i => m.fmtDead w (k.at' i).1)
def dstDead (m : Mach) (w : Who) (k : CKind) : Bool :=
  (List.range k.total).any (fun i => m.fmtDead w (k.at' i).2) || (k.spans.drop 1).any (fun s => (span s.1 (s.2 - s.1)).any (m.fmtDead w))

/-! ### Acceptance (R230, R243, R255) -/

/-- The bytes of a pushed record that are still to be read. -/
def PushK.recLocs (k : PushK) : List Loc :=
  match k with
  | .cpyt _ _ _ _ ls => ls
  | .cpytR _ _ _ _ ls => ls.getD []
  | _ => []
/-- The loads of a CPYT's record wait for a watermark over it (R232); the push itself never does (R243) (DEDUCED, log 19). -/
def PushK.waits (m : Mach) (crew : Nat) (k : PushK) : Bool := (m.marks crew).any (fun x => (vasOf k.recLocs).any x.holds)
/-- Earlier accesses of the gangs and runs that pushed a command have performed, and the command's own loads can. -/
def Push.ready (m : Mach) (p : Push) : Bool :=
  !m.abandoned p && !p.k.waits m p.crew && p.by'.all (fun x => !m.accessing x.1 x.2.1 x.2.2)
/-- Two commands that one gang, or one thread, has pushed. -/
def Push.shares (p q : Push) : Bool := p.by'.any (fun x => q.by'.any (fun y => x.1 == y.1 || x.2.1.any y.2.1.contains))
/-- Whether the command at a place of the list may be accepted now: it is ready, and no earlier command of its gangs and threads is still to
be accepted, but for one whose record loads a freeze has abandoned (R230, R243, R375). -/
def Mach.acceptable (m : Mach) (i : Nat) : Bool :=
  match m.pushes[i]? with
  | none => false
  | some p => p.ready m && !(m.pushes.take i).any (fun q => !m.abandoned q && q.shares p)
/-- The L1 part of acceptance: what the crew's spindle holds dirty reaches its home, and the clean sectors of the destination go. -/
def acceptL1 (m : Mach) (crew sp : Nat) (spans : List (Nat × Nat)) : Mach :=
  let c := m.ctxOfRegion (m.crew crew).region
  (m.l1Clean sp false (lineOf c)).l1Drop sp (fun x => lineOf c x && spans.any (fun s => x.meets s.1 s.2))
/-- The L1 part of a completion: no sector that the engine wrote stays in the L1 of its crew's spindle, where its observers are (R231). -/
def doneL1 (m : Mach) (crew sp : Nat) (spans : List (Nat × Nat)) : Mach :=
  let c := m.ctxOfRegion (m.crew crew).region
  m.l1Clean sp true (fun x => lineOf c x && spans.any (fun s => x.meets s.1 s.2))
/-- The completion actions that are a command's own: its stage is published and its barrier arrival made (R255). -/
def Mach.engineActs (m : Mach) (crew : Nat) (cw : Word) (stage : Option Word) : Mach :=
  let m1 := match stage with
    | none => m
    | some n => m.modCrew crew (fun c => c.setRing (cwRing cw) ((c.ring (cwRing cw)).publish n))
  if cwB cw then arriveAt m1 crew (cwNb cw) else m1
/-- A refused command: its barrier arrival, then its status word to every gang that pushed it. -/
def refuse (m : Mach) (crew : Nat) (gangs : List Nat) (cw : Word) (code : Nat) : Mach :=
  gangs.foldl (fun x g => x.post g 1 (statusWord 0 (cwTag cw) false 0 code)) (m.engineActs crew cw none)
/-- Accept a copy of known shape, or refuse it (DEDUCED, log 11). -/
def acceptCopy (m : Mach) (p : Push) (gangs : List Nat) (cw : Word) (k : Option CKind) (regd : Bool) : Mach :=
  match k with
  | none => refuse m p.crew gangs cw 4
  | some k =>
    if cwBad cw then refuse m p.crew gangs cw 4
    else if !cwG cw && k.overlaps then refuse m p.crew gangs cw 3
    else if srcDead m (m.engine p.crew p.sp) k || (!cwG cw && dstDead m (m.engine p.crew p.sp) k) then refuse m p.crew gangs cw 6
    else if k.total = 0 then refuse m p.crew gangs cw 0
    else
      let m1 := acceptL1 m p.crew p.sp (if cwG cw then [] else k.spans)
      { m1 with
        copies := m1.copies.put m1.nextId
          { crew := p.crew, gangs := gangs, sp := p.sp, kind := k, cw := cw, base := k.base, hi := k.base + k.len,
            total := k.total, wm := k.base, regd := regd },
        nextId := m1.nextId + 1 }
/-- Each slice begins where the one before it ends. -/
def contiguous : List Slice → Bool
  | a :: b :: r => a.dst + a.len == b.dst && contiguous (b :: r)
  | _ => true
/-- The shape of a crew copy (R246); none: BAD_SHAPE. -/
def cpyShape (m : Mach) (crew : Nat) (sl : List Slice) : Option CKind :=
  let cw := (sl.headD default).cw
  if sl.all (fun s => s.cw == cw) && contiguous sl &&
      (!cwG cw || decide ((sl.map (·.len)).sum ≤ ((m.crew crew).ring (cwRing cw)).z)) then some (.bytes sl) else none
/-- The shape of a CPYQ (R250): refused with FORMAT (6) or BAD_SHAPE (4). -/
def cpyqShape (m : Mach) (w : Who) (src dst n : Nat) (cw : Word) : CKind ⊕ Nat :=
  match m.attrAt w src, m.attrAt w dst with
  | some s, some d =>
    if s.fmt = 0 ∨ 4 ≤ s.fmt ∨ s.blk = 3 ∨ !isBlock d.fmt ∨ d.blk = 3 ∨ d.sparse ≠ 0 then .inr 6
    else
      let i := dst - d.origin
      let b := blkLen d.blk
      if cwG cw ∨ i % b ≠ 0 ∨ n % b ≠ 0 then .inr 4
      else .inl (.quant src s.fmt (d.origin + i * fmtWidth d.fmt / 8) (d.origin + d.soff + i / b) d.lim d.fmt b n)
  | _, _ => .inr 6
/-- CPRES (R257): resume or cancel the frozen copy of the crew in a landing slot. A block in the staging buffer stays there. -/
def acceptCpres (m : Mach) (p : Push) (v : Word) : Mach :=
  match m.copies.find? (fun c => c.2.crew == p.crew && c.2.frozen.isSome && c.2.slot == some (v.toNat % 32)) with
  | none => m.post p.gang 1 (statusWord 0 0 false 0 7)
  | some (k, c) =>
    if v.getLsbD 8 then
      ({ m with copies := m.copies.drop k } : Mach).post p.gang 1
        (statusWord (c.wm - c.base) (cwTag c.cw) true (c.slot.getD 0) (c.frozen.getD 0))
    else
      let m1 := acceptL1 m p.crew c.sp c.kind.spans
      { m1 with copies := m1.copies.put k { c with frozen := none, gangs := [p.gang], ssrc := [], sdst := [], out := 0 } }

/-! ### CPY, CPYT, CPYQ, CPRES -/

def chkCpy (a : Reg) (g : Group) (_ : Nat) : Option Trap :=
  match chkCredit g with
  | some t => some t
  | none => chkCw g (lowRd g a 5) true
/-- Join the oldest forming copy that the gang has not joined, or open one (R246). -/
def joinForming (gang : Nat) (s : Slice) : List (List Slice) → List (List Slice)
  | [] => [[s]]
  | f :: r => if f.any (fun x => x.gang == gang) then f :: joinForming gang s r else (f ++ [s]) :: r
/-- Crew copies that every live gang has joined leave for acceptance. -/
def sendForming (m : Mach) (crew sp : Nat) : Mach :=
  let live := (m.crewGangs crew)
  let full (f : List Slice) : Bool := live.all (fun g => f.any (fun x => x.gang == g))
  let key (x : Slice) : Nat := (m.gang x.gang).gangid.toNat
  let out := (m.crew crew).forming.filter full
  { m.modCrew crew (fun c => { c with forming := c.forming.filter (fun f => !full f) }) with
    pushes := m.pushes ++ out.map (fun f =>
      { crew := crew, gang := (f.getLastD default).gang, sp := sp, by' := f.map (fun x => (x.gang, x.us, x.after)),
        k := .cpy (sortBy (fun a b => decide (key a ≤ key b)) f) }) }
def execCpy (h : Hdr) (a : Reg) (s : State) : Host.Outcome State Fault Refusal :=
  gangWord h (.cpy h a) s (chkCpy a) acqStall .stalled (fun g m =>
    if g.run.isEmpty then (m, g) else
    let sl : Slice := { gang := g.gang, src := (lowPair g a 0).toNat, dst := (lowPair g a 2).toNat, len := (lowRd g a 4).toNat,
                        cw := lowRd g a 5, us := g.run, after := m.seq }
    let m1 := { m with seq := m.seq + 1 }.modGang g.gang (fun x => { x with qc := x.qc + 1 })
    (sendForming (m1.modCrew g.crew (fun c => { c with forming := joinForming g.gang sl c.forming })) g.crew g.sp, g))
/-- The record of a CPYT in mode 0. -/
def cpytReach (a : Reg) (mode : BitVec 6) (g : Group) : Reach :=
  if mode = 0 then recReach g (lowPair g a 0) 192 64 else .ok []
/-- The spec orders the credit, the record and the completion word of a copy word nowhere; they come in that order, as R291 has it for
index words (DESIGN CHOICE, log 82). -/
def chkCpyt (vc a : Reg) (mode : BitVec 6) (g : Group) (_ : Nat) : Option Trap :=
  match chkCredit g with
  | some t => some t
  | none =>
    match (cpytReach a mode g).trapOf with
    | some t => some t
    | none => chkCw g (lowRd g vc 0) true
/-- The loads of its record wait for the planer as any access does (R191), and behind 64 held accesses of the gang (R327); what they wait
for at a watermark holds up the command alone (DEDUCED, log 19). -/
def stallCpyt (a : Reg) (mode : BitVec 6) (g : Group) : Bool :=
  acqStall g || (!g.run.isEmpty && ((cpytReach a mode g).waits || heldStall g (recHeld g (cpytReach a mode g))))
def execCpyt (h : Hdr) (vc a : Reg) (mode : BitVec 6) (s : State) : Host.Outcome State Fault Refusal :=
  gangWord h (.cpyt h vc a mode) s (chkCpyt vc a mode) (stallCpyt a mode) .stalled (fun g m =>
    (pushCmd g m (if mode = 0 then .cpyt (lowRd g vc 0) (wordOf (.cpyt h vc a mode)) g.low (lowPair g a 0) (cpytReach a mode g).locs
      else .cpyh (lowRd g vc 0) ((lowRd g a 0).toNat % 64)), g))
def execCpyq (h : Hdr) (a : Reg) (s : State) : Host.Outcome State Fault Refusal :=
  gangWord h (.cpyq h a) s (chkCpy a) acqStall .stalled (fun g m =>
    (pushCmd g m (.cpyq (lowPair g a 0).toNat (lowPair g a 2).toNat (lowRd g a 4).toNat (lowRd g a 5)), g))
def chkCpres (g : Group) (_ : Nat) : Option Trap := chkCredit g
def execCpres (h : Hdr) (a : Reg) (s : State) : Host.Outcome State Fault Refusal :=
  gangWord h (.cpres h a) s chkCpres acqStall .stalled (fun g m => (pushCmd g m (.cpres (lowRd g a 0)), g))

/-! ### WMRD (R256) -/

/-- Destination spans of a crew's active copies and gather jobs, oldest first: number, first byte, one past the last, W, frozen. -/
def spansOf (m : Mach) (crew : Nat) : List (Nat × Nat × Nat × Nat × Bool) :=
  sortBy (fun a b => decide (a.1 ≤ b.1))
    ((m.copies.filter (fun c => c.2.crew == crew && !(cwG c.2.cw && c.2.stage.isNone))).map
        (fun c => (c.1, c.2.base, c.2.hi, c.2.wm, c.2.frozen.isSome)) ++
      (m.jobs.filter (fun j => j.2.crew == crew && j.2.d.isGather)).map (fun j => (j.1, j.2.d.data, j.2.d.hi, j.2.wm, j.2.susp.isSome)))
/-- The watermark over an address. -/
def wmrdOf (m : Mach) (crew va : Nat) : BitVec 64 :=
  match (spansOf m crew).find? (fun x => decide (x.2.1 ≤ va) && decide (va < x.2.2.1)) with
  | none => BitVec.allOnes 64
  | some x => BitVec.ofNat 64 (x.2.2.2.1 + if x.2.2.2.2 then 2 ^ 63 else 0)
def execWmrd (h : Hdr) (d a : Reg) (s : State) : Host.Outcome State Fault Refusal :=
  gangWord h (.wmrd h d a) s chkSpawn acqStall .stalled (fun g m =>
    (longVal g m d 2 (wordOf (.wmrd h d a)) (fun _ => pairOf (wmrdOf g.pre g.crew (lowPair g a 0).toNat)), g))

/-! ### TLREG, TLRFL, TLUNREG (R249) -/

/-- How the bytes of a span translate. -/
def spanTr (m : Mach) (w : Who) (k : AKind) (lo : Int) (n : Nat) : List (Nat × TrByte) :=
  (span lo.toNat n).map (fun a => (a, m.translate w k a))
/-- The first cause that a byte of a span meets: 1 translation, 5 access table. Whatever its format, a byte is checked. -/
def spanCode (m : Mach) (w : Who) (k : AKind) (lo : Int) (n : Nat) : Option Nat :=
  let ts := spanTr m w k lo n
  if lo < 0 ∨ (firstBad 5 ts).isSome then some 1
  else if ts.any (fun x => match x.2 with | .ok _ adm => !adm | _ => false) then some 5
  else none
/-- Whether a span waits for the planer: no byte of it fails to translate, and a block is moving (R191). -/
def spanWaits (m : Mach) (w : Who) (k : AKind) (lo : Int) (n : Nat) : Bool :=
  let ts := spanTr m w k lo n
  decide (0 ≤ lo) && (firstBad 5 ts).isNone && ts.any (fun x => x.2 == .wait)
/-- The check of a record: BAD_SHAPE, OVERLAP, then its spans. -/
def tlrCheck (m : Mach) (w : Who) (x : Nat) : Tlr ⊕ Nat :=
  match parseTlr x with
  | none => .inr 4
  | some t =>
    if (CKind.tensor t).overlaps then .inr 3
    else match spanCode m w .read t.srcSpan.1 t.srcLen with
    | some c => .inr c
    | none => match spanCode m w .write t.dst t.dstLen with
      | some c => .inr c
      | none => .inl t
/-- TLREG and TLRFL stall while the record's load, or a span that they are to check, waits. -/
def tlrStall (g : Group) (r : Reach) : Bool :=
  let w := g.pre.engine g.crew g.sp
  recStall g r || (!g.run.isEmpty && match parseTlr (leNat (recBytes g.pre g.sp r.locs)) with
    | none => false
    | some t => !(CKind.tensor t).overlaps && (spanWaits g.pre w .read t.srcSpan.1 t.srcLen ||
        ((spanCode g.pre w .read t.srcSpan.1 t.srcLen).isNone && spanWaits g.pre w .write t.dst t.dstLen)))
def tlrFail (c : Nat) : Word := BitVec.ofNat 32 (0x80000000 + c)
/-- A free entry of the 64. -/
def freeHandles (s : Spindle) : List Nat := (List.range 64).filter (fun k => !s.handles.has k)
def tlregReach (a : Reg) (g : Group) : Reach := nowReach g (lowPair g a 0) 192 64
def chkTlreg (a : Reg) (g : Group) (_ : Nat) : Option Trap :=
  if g.spawn then some { cause := .frame, info := 0 } else (tlregReach a g).trapOf
/-- What TLREG answers and keeps. -/
def tlregDo (g : Group) (m : Mach) (va : Nat) (ls : List Loc) : Word × Mach :=
  match tlrCheck g.pre (g.pre.engine g.crew g.sp) (leNat (recBytes g.pre g.sp ls)) with
  | .inr c => (tlrFail c, m)
  | .inl t =>
    let free := freeHandles (g.pre.spindle g.sp)
    let (x, m1) := m.choose free.length
    match free[x]? with
    | none => (tlrFail 8, m)
    | some k => (BitVec.ofNat 32 k, m1.modSp g.sp (fun s => { s with handles := s.handles.put k { crew := g.crew, addr := va, rec' := t } }))
def execTlreg (h : Hdr) (d a : Reg) (s : State) : Host.Outcome State Fault Refusal :=
  gangWord h (.tlreg h d a) s (chkTlreg a) (fun g => tlrStall g (tlregReach a g)) .stalled (fun g m =>
    if g.run.isEmpty then (m, g) else
    let x := tlregDo g m (lowPair g a 0).toNat (tlregReach a g).locs
    ((recDefer g.pre g.sp m.seq x.2 g.low (tlregReach a g).locs).onRun g.run (fun _ t => t.wr d x.1), g))
/-- The entry that a handle names, if the crew holds it. -/
def Mach.handleOf (m : Mach) (crew sp k : Nat) : Option Handle :=
  match (m.spindle sp).handles.find k with
  | some e => if e.crew = crew then some e else none
  | none => none
def tlrflEntry (a : Reg) (g : Group) : Option Handle := g.pre.handleOf g.crew g.sp ((lowRd g a 0).toNat % 64)
def tlrflReach (a : Reg) (g : Group) : Reach :=
  match tlrflEntry a g with
  | none => .ok []
  | some e => nowReach g (BitVec.ofNat 64 e.addr) 192 64
def chkTlrfl (a : Reg) (g : Group) (_ : Nat) : Option Trap :=
  if g.spawn then some { cause := .frame, info := 0 } else (tlrflReach a g).trapOf
def execTlrfl (h : Hdr) (d a : Reg) (s : State) : Host.Outcome State Fault Refusal :=
  gangWord h (.tlrfl h d a) s (chkTlrfl a) (fun g => tlrStall g (tlrflReach a g)) .stalled (fun g m =>
    if g.run.isEmpty then (m, g) else
    let k := (lowRd g a 0).toNat % 64
    let x : Word × Mach := match tlrflEntry a g with
      | none => (tlrFail 4, m)
      | some e =>
        match tlrCheck g.pre (g.pre.engine g.crew g.sp) (leNat (recBytes g.pre g.sp (tlrflReach a g).locs)) with
        | .inr c => (tlrFail c, m.modSp g.sp (fun s => { s with handles := s.handles.drop k }))
        | .inl t => (BitVec.ofNat 32 k, m.modSp g.sp (fun s => { s with handles := s.handles.put k { e with rec' := t } }))
    ((recDefer g.pre g.sp m.seq x.2 g.low (tlrflReach a g).locs).onRun g.run (fun _ t => t.wr d x.1), g))
def execTlunreg (h : Hdr) (a : Reg) (s : State) : Host.Outcome State Fault Refusal :=
  gangWord h (.tlunreg h a) s chkSpawn acqStall .stalled (fun g m =>
    let k := (lowRd g a 0).toNat % 64
    (if g.run.isEmpty || (g.pre.handleOf g.crew g.sp k).isNone then m
     else m.modSp g.sp (fun s => { s with handles := s.handles.drop k }), g))
/-- The copy that a handle describes; none where the crew does not hold it or G = 1 (R248). -/
def handleCopy (m : Mach) (p : Push) (cw : Word) (k : Nat) : Option CKind :=
  if cwG cw then none else (m.handleOf p.crew p.sp k).map (fun e => .tensor e.rec')

/-! ### LSEG (R209) -/

/-- SPARSE 6 or 7, or a SPARSE code with a format outside L6, K8 and K4, as RSET refuses them (R190). -/
def badCodes (fmt sparse : Nat) : Bool := decide (6 ≤ sparse) || (sparse != 0 && !isBlock fmt)
def chkLseg (a : Reg) (g : Group) (_ : Nat) : Option Trap :=
  let start := (lowRd g a 0).toNat
  let len := (lowRd g a 1).toNat
  let at' := (lowRd g a 2).toNat
  if g.spawn then some { cause := .frame, info := 0 }
  else if start % 256 ≠ 0 ∨ len % 256 ≠ 0 then some { cause := .align, info := BitVec.ofNat 32 start }
  else if (g.pre.crew g.crew).locSize < start + len then
    some { cause := .rangeMiss, info := BitVec.ofNat 32 (max start (g.pre.crew g.crew).locSize) }
  else if badCodes (at' % 8) (bitsOf at' 5 3) ∨ at' / 256 ≠ 0 then some { cause := .format, info := 0 }
  else none
def execLseg (h : Hdr) (k : BitVec 6) (a : Reg) (s : State) : Host.Outcome State Fault Refusal :=
  gangWord h (.lseg h k a) s (chkLseg a) acqStall .stalled (fun g m =>
    let at' := (lowRd g a 2).toNat
    let e : Seg := { start := (lowRd g a 0).toNat, len := (lowRd g a 1).toNat, fmt := at' % 8, blk := bitsOf at' 3 2,
                     sparse := bitsOf at' 5 3, soff := (lowRd g a 3).toNat }
    (if g.run.isEmpty then m
     else m.modCrew g.crew (fun c => { c with segs := c.segs.setIfInBounds k.toNat (if e.len = 0 then {} else e) }), g))

end Sys2Proof.Machine
end

