-- ==== Sys2Proof/Machine/Index.lean ====
section
/-! DEFINITION. The index engine (R287 to R297, R376): IXJOB and IXRES, acceptance, and the steps of a job. -/

namespace Sys2Proof.Machine

/-! ### Descriptors (R287, R293) -/

/-- A descriptor from its 64 bytes; `resv` gathers the reserved bits below [415:0], and those above where `top` asks. -/
def parseDesc (top : Bool) (x : Nat) : Desc :=
  { ef := x.testBit 404, kind := bitsOf x 400 4, bag := bitsOf x 384 16, tstride := bitsOf x 352 32, rowb := bitsOf x 320 32,
    nrows := bitsOf x 288 32, count := bitsOf x 256 32, cur := bitsOf x 192 56, data := bitsOf x 128 56, idx := bitsOf x 64 56,
    table := bitsOf x 0 56,
    resv := (top && bitsOf x 405 107 != 0) || bitsOf x 248 8 != 0 || bitsOf x 184 8 != 0 || bitsOf x 120 8 != 0 || bitsOf x 56 8 != 0 }
/-- BAD_JOB (R293). -/
def Desc.bad (d : Desc) (cw : Word) : Bool :=
  d.resv || decide (4 < d.kind) ||
  (if d.kind = 1 then d.bag == 0 || d.count % max d.bag 1 != 0 else d.bag != 0) ||
  d.table % 4 != 0 || d.idx % 4 != 0 || d.data % 4 != 0 || d.tstride % 4 != 0 || (d.kind == 4 && d.tstride != 0) ||
  d.rowb % 4 != 0 || decide (65536 < d.rowb) ||
  (d.isGather && decide (d.data < d.idx + 4 * d.count) && decide (d.idx < d.hi)) ||
  cwBad cw || cwG cw

/-! ### IXJOB and IXRES (R291, R292) -/

/-- FRAME, then QUEUE when all 32 index credits are in use. -/
def chkIndexCredit (g : Group) : Option Trap :=
  if g.spawn then some { cause := .frame, info := 0 }
  else if 32 ≤ (g.pre.gang g.gang).ic then some { cause := .queue, info := 2 }
  else none
def ixReach (a : Reg) (n : Nat) (g : Group) : Reach := nowReach g (lowPair g a 0) n 64
/-- The bytes of a descriptor or record of n bytes as the lane's own loads read them. -/
def ixRaw (a : Reg) (g : Group) (n : Nat) : List Byte := recBytes g.pre g.sp (ixReach a n g).locs
/-- DETERM and BARRIER wait for the load of the descriptor, which DETERM is judged from (R291). -/
def chkIxjob (w : Word) (vc a : Reg) (g : Group) (_ : Nat) : Option Trap :=
  match chkIndexCredit g with
  | some t => some t
  | none =>
    match (ixReach a 64 g).trapOf with
    | some t => some t
    | none =>
      let d := parseDesc true (leNat (ixRaw a g 64))
      if recStall g (ixReach a 64 g) then none
      else if g.det && d.kind == 3 && !d.ef then some { cause := .determ, info := w }
      else chkCw g (lowRd g vc 0) false
/-- A push onto q2. -/
def pushIndex (g : Group) (m : Mach) (k : PushK) : Mach :=
  if g.run.isEmpty then m else (m.modGang g.gang (fun x => { x with ic := x.ic + 1 })).addPush g k
def execIxjob (h : Hdr) (vc a : Reg) (s : State) : Host.Outcome State Fault Refusal :=
  gangWord h (.ixjob h vc a) s (chkIxjob (wordOf (.ixjob h vc a)) vc a) (fun g => recStall g (ixReach a 64 g)) .stalled (fun g m =>
    (if g.run.isEmpty then m
     else recDefer g.pre g.sp m.seq (pushIndex g m (.job (ixRaw a g 64) (lowRd g vc 0))) g.low (ixReach a 64 g).locs, g))
def chkIxres (a : Reg) (g : Group) (_ : Nat) : Option Trap :=
  match chkIndexCredit g with
  | some t => some t
  | none => (ixReach a 128 g).trapOf
/-- IXRES waits as its record's loads do, and for each earlier store and atomic of its gang into the record, which the resumed job reads
through them (R342). -/
def stallIxres (a : Reg) (g : Group) : Bool :=
  recStall g (ixReach a 128 g) || (!g.run.isEmpty && g.pre.reqs.any (fun q =>
    (q.gang == g.gang || (g.pre.thr q.u).gang == g.gang) && overlap q.body (ixReach a 128 g).locs))
/-- The cursor record is read by two loads as the group issues, which completes once they have returned (R291, R296). -/
def execIxres (h : Hdr) (vc a : Reg) (s : State) : Host.Outcome State Fault Refusal :=
  gangWord h (.ixres h vc a) s (chkIxres a) (stallIxres a) .stalled (fun g m =>
    (if g.run.isEmpty then m
     else recDefer g.pre g.sp m.seq (pushIndex g m (.ixres ((lowRd g vc 0).getLsbD 0) (lowPair g a 0).toNat (ixRaw a g 128))) g.low
       (ixReach a 128 g).locs, g))

/-! ### Acceptance (R293, R296) -/

/-- The spans that a job may write: its rows, and its cursor record. -/
def Desc.spans (d : Desc) (cur : Nat) : List (Nat × Nat) :=
  [if d.isGather then (d.data, d.hi) else (d.table, d.table + d.nrows * d.tstride + d.row), (cur, cur + 128)]
/-- A status word of a job (R294). -/
def Job.post (m : Mach) (j : Job) (x : Bool) (code : Nat) : Mach :=
  m.post j.gang 3 (statusWord j.elem (cwTag j.cw) x (j.slot.getD 0) code)
/-- The completion actions: what the engine wrote leaves the L1 of the crew's spindle with every status (R231, R255), and the barrier
arrival is made once (R294). -/
def Job.acts (m : Mach) (j : Job) : Mach :=
  let m1 := doneL1 m j.crew j.sp (j.d.spans j.cur0)
  if j.acted then m1 else m1.engineActs j.crew j.cw none
def acceptJob (m : Mach) (p : Push) (raw : List Byte) (cw : Word) : Mach :=
  let d := parseDesc true (leNat raw)
  let j : Job := { crew := p.crew, gang := p.gang, sp := p.sp, d := d, raw := raw, cw := cw, cur0 := d.cur, wm := d.data,
                   started := !d.isGather }
  if d.bad cw then (m.engineActs p.crew cw none).post p.gang 3 (statusWord 0 (cwTag cw) false 0 5)
  else if d.count = 0 then Job.post (Job.acts m j) j false 0
  else
    let m1 := acceptL1 m p.crew p.sp (d.spans d.cur)
    { m1 with jobs := m1.jobs.put m1.nextId j, nextId := m1.nextId + 1 }
/-- Rows of DATA that lie below element e. -/
def Desc.rowOf (d : Desc) (e : Nat) : Nat := if d.kind = 1 then e / max d.bag 1 else e
/-- IXRES: the suspended job of the crew with that cursor record, the last suspended first; `raw` is the record as its lane read it. A
bag starts over at ELEM, and a row only of a scatter-add goes on at ROWOFF (R295, R341). The watermark rises from where it froze (R342), but
for a record whose DATA has been changed: there it stands at row ELEM (DESIGN CHOICE, log 91). -/
def acceptIxres (m : Mach) (p : Push) (cancel : Bool) (va : Nat) (raw : List Byte) : Mach :=
  match sortBy (fun a b => decide (b.2.stamp ≤ a.2.stamp))
      (m.jobs.filter (fun j => j.2.crew == p.crew && j.2.susp.isSome && j.2.cur0 == va)) with
  | [] => m.post p.gang 3 (statusWord 0 0 false 0 7)
  | (k, j) :: _ =>
    if cancel then
      Job.post { m with jobs := m.jobs.drop k } { j with gang := p.gang } true (j.susp.getD 0)
    else
      let head := leNat (raw.take 64)
      let copy := leNat (raw.drop 64)
      let d := parseDesc false copy
      let e := bitsOf head 0 32
      let m1 := acceptL1 m p.crew p.sp (d.spans j.cur0)
      { m1 with jobs := m1.jobs.put k { j with
          gang := p.gang, d := d, cw := BitVec.ofNat 32 (bitsOf copy 480 32), elem := e, rowoff := if d.kind = 3 then bitsOf head 32 32 else 0,
          susp := none, bagPos := if d.kind = 1 then e % max d.bag 1 else 0, pool := none, ex := none, out := 0,
          wm := if d.data = j.d.data then j.wm else d.data + d.rowOf e * d.row } }

/-! ### One element (R288, R289, R294, R295, R376) -/

/-- What an engine's access of some bytes meets: where they lie, a code with the first faulting byte, or a wait for the planer. -/
inductive EngAcc where
  | ok (ls : List Loc)
  | bad (code va : Nat)
  | wait
deriving DecidableEq, Repr
/-- The code of a cause (R294). -/
def suspCode (c : Cause) : Nat :=
  match c with
  | .accessTable => 4
  | .format => 6
  | .dataError => 3
  | _ => 2
/-- Each byte in ascending order translates under its own range; an uncorrectable error is met by reading or writing its sector. -/
def engAcc (m : Mach) (w : Who) (k : AKind) : List Nat → EngAcc
  | [] => .ok []
  | va :: r =>
    match m.reach w k [va] none with
    | .trap c _ _ => .bad (suspCode c) va
    | .wait => .wait
    | .ok ls =>
      if ls.any (if k == .write then m.badAt else m.homeErr) then .bad 3 va
      else match engAcc m w k r with
      | .ok ls' => .ok (ls ++ ls')
      | x => x
/-- What an element step does: it acts, or the job meets a cause, with what it has read by then. -/
inductive ElemRes where
  | next (m : Mach) (j : Job)
  | susp (code faddr : Nat) (j : Job)
  | wait
/-- Element e of a suspension: the element itself, or the first of its bag (R295). -/
def Job.first (j : Job) : Nat := if j.d.kind = 1 then j.elem - j.bagPos else j.elem
/-- The 128-byte cursor record (R295). -/
def cursorRec (j : Job) (code faddr xval : Nat) : List Byte :=
  let head := j.first % 2 ^ 32 + j.rowoff * 2 ^ 32 + xval % 2 ^ 32 * 2 ^ 64 + code * 2 ^ 96 + cwTag j.cw * 2 ^ 112 +
    (j.slot.getD 0) * 2 ^ 128 + faddr % 2 ^ 56 * 2 ^ 136
  leBytes 64 head ++ j.raw.take 60 ++ leBytes 4 j.cw.toNat
/-- Read a little-endian number through the engine. -/
def withRead (m : Mach) (w : Who) (va n : Nat) (j : Job) (f : Nat → ElemRes) : ElemRes :=
  match engAcc m w .read (span va n) with
  | .ok ls => f (leNat (m.homeGets ls))
  | .bad c a => .susp c a j
  | .wait => .wait
/-- Words of a row, and a row from its words. -/
def rowWords (bs : List Byte) (n : Nat) : List Nat := (List.range n).map (fun i => leNat ((bs.drop (4 * i)).take 4))
/-- Op of a pool and of a scatter-add (R288). -/
def addWord (ef : Bool) (x y : Nat) : Nat := if ef then (x + y) % 2 ^ 32 else (sumRound fp32 .rne false [fp32.decode x, fp32.decode y] false).1
/-- The job that has read index x: of element e, or of the first element of its bag. -/
def Job.saw (j : Job) (x : Nat) : Job := if j.first = j.elem then { j with ex := some x } else j
/-- The index of the element in progress, read once: a scatter-add that has applied words of it keeps the one that it read (R288, R290). -/
def withIndex (m : Mach) (w : Who) (j : Job) (f : Nat → Job → ElemRes) : ElemRes :=
  match if j.d.kind = 3 ∧ j.rowoff ≠ 0 then j.ex else none with
  | some x => f x j
  | none => withRead m w (j.d.idx + 4 * j.elem) 4 j (fun x => f x (j.saw x))
/-- Where the row of the element in progress lies; none for a null index or pointer. -/
def withRow (m : Mach) (w : Who) (j : Job) (f : Job → Option Nat → ElemRes) : ElemRes :=
  let d := j.d
  let ia := d.idx + 4 * j.elem
  withIndex m w j (fun x j =>
    if x = 2 ^ 32 - 1 then f j none
    else if d.nrows ≤ x then .susp 1 ia j
    else if d.kind = 4 then
      withRead m w (d.table + 8 * x) 8 j (fun ptr =>
        if ptr = 0 then f j none else if ptr % 4 ≠ 0 then .susp 1 ia j else f j (some ptr))
    else f j (some (d.table + x * d.tstride)))
/-- The next element. -/
def Job.advance (j : Job) : Job := { j with elem := j.elem + 1, rowoff := 0, ex := none }
/-- Write a row of DATA, and let the watermark pass it. -/
def landRow (m : Mach) (w : Who) (j : Job) (bs : List Byte) (j' : Job) : ElemRes :=
  let a := j.d.data + j.d.rowOf j.elem * j.d.row
  match engAcc m w .write (span a j.d.row) with
  | .ok ls => .next (m.homeSets ls bs) { j' with wm := max j.wm (a + j.d.row) }
  | .bad c f => .susp c f j
  | .wait => .wait
/-- A scatter moves row e of DATA to a table row. -/
def scatterRow (m : Mach) (w : Who) (j : Job) (a : Nat) : ElemRes :=
  let r := j.d.row
  match engAcc m w .read (span (j.d.data + j.elem * r) r), engAcc m w .write (span a r) with
  | .ok src, .ok dst => .next (m.homeSets dst (m.homeGets src)) j.advance
  | .bad c f, _ => .susp c f j
  | _, .bad c f => .susp c f j
  | _, _ => .wait
/-- A scatter-add adds one word of row e of DATA into a table row. -/
def addRowWord (m : Mach) (w : Who) (j : Job) (a : Nat) : ElemRes :=
  let r := j.d.row
  match engAcc m w .read (span (j.d.data + j.elem * r + j.rowoff) 4), engAcc m w .atomic (span (a + j.rowoff) 4) with
  | .ok src, .ok dst =>
    let v := addWord j.d.ef (leNat (m.homeGets dst)) (leNat (m.homeGets src))
    .next (m.homeSets dst (leBytes 4 v)) (if j.rowoff + 4 < r then { j with rowoff := j.rowoff + 4 } else j.advance)
  | .bad c f, _ => .susp c f j
  | _, .bad c f => .susp c f j
  | _, _ => .wait
/-- A bag takes its next element, whose sum is then p; the last lands the bag's row. -/
def poolTake (m : Mach) (w : Who) (j : Job) (p : Option (List Nat)) : ElemRes :=
  let j1 := { j with elem := j.elem + 1, bagPos := j.bagPos + 1, pool := p }
  if j.bagPos + 1 < j.d.bag then .next m j1
  else landRow m w j (match p with
    | none => List.replicate j.d.row 0
    | some ws => ws.flatMap (leBytes 4)) { j1 with bagPos := 0, pool := none, ex := none }
/-- Read a row of the table. -/
def withTable (m : Mach) (w : Who) (j : Job) (a : Nat) (f : List Byte → ElemRes) : ElemRes :=
  match engAcc m w .read (span a j.d.row) with
  | .ok ls => f (m.homeGets ls)
  | .bad c v => .susp c v j
  | .wait => .wait
/-- One step of a job: an element, or for a scatter-add one word of it, which performs as an atomic at its
target (R288). -/
def elemStep (m : Mach) (j : Job) : ElemRes :=
  let w := m.engine j.crew j.sp
  if j.d.row ≤ j.rowoff then .next m j.advance
  else withRow m w j (fun j row =>
    match j.d.kind, row with
    | 2, none => .next m j.advance
    | 2, some a => scatterRow m w j a
    | 3, none => .next m j.advance
    | 3, some a => addRowWord m w j a
    | 1, none => poolTake m w j j.pool
    | 1, some a => withTable m w j a (fun bs =>
        let ws := rowWords bs (j.d.row / 4)
        poolTake m w j (some (match j.pool with
          | none => ws
          | some acc => List.zipWith (addWord j.d.ef) acc ws)))
    | _, none => landRow m w j (List.replicate j.d.row 0) j.advance
    | _, some a => withTable m w j a (fun bs => landRow m w j bs j.advance))

end Sys2Proof.Machine
end

