-- ==== Sys2Proof/Machine/Engine.lean ====
section
/-! DEFINITION. The steps of the copy and index engines (R251 to R255, R288 to R296, R375), acceptance of pushed commands (R230), and
fault records (R361). -/

namespace Sys2Proof.Machine

/-- A step that is no gang word: it takes place between groups, when its rule's condition holds. -/
def event (s : State) (f : Mach → Option Mach) : Host.Outcome State Fault Refusal :=
  match s.act with
  | .idle => match f s.m with
    | some m => .next ⟨m.settle, .idle⟩
    | none => .refused .notEnabled
  | _ => .refused .notEnabled

/-! ### Fault records (R358, R361) -/

/-- Post a fault record to the fault ring. -/
def postFault (m : Mach) (va ctx fdom cause sp slot : Nat) (mask : Word) (sub : Nat) : Mach :=
  let bytes := leBytes 8 (va % 2 ^ 56) ++ leBytes 2 ctx ++ leBytes 2 fdom ++ leBytes 1 cause ++ leBytes 1 (dieOf sp) ++
    leBytes 1 (sp % 96) ++ leBytes 1 slot ++ leBytes 4 mask.toNat ++ List.replicate 12 0
  let num := m.faultN % 2 ^ 16
  let m1 := if m.faultQ.en then
      let m0 := m.physWrite (m.faultQ.ring + 32 * (num % 2 ^ m.faultQ.logn)) bytes
      { m0 with faultQ := { m0.faultQ with prod := m0.faultQ.prod + 1 } }
    else m
  { m1 with faultN := m1.faultN + 1, faults := { num := BitVec.ofNat 16 num, sub := sub, bytes := bytes } :: m1.faults }

/-! ### Accesses held at a watermark that freezes (R375) -/

/-- The result that a request's old value fills. -/
def Res.ofReq (r : Res) (n : Nat) : Bool := r.src == .req n
/-- An access on its way, as taking accesses back sees it: its number, gang, thread and bytes, and whether it waits for all that its thread
has accessed before, as a REL does. -/
structure Going where
  seq : Nat
  gang : Nat
  u : Nat
  ls : List Loc
  rel : Bool
/-- The place of a pushed command in program order. -/
def Push.num (p : Push) : Nat := (p.by'.headD default).2.2
/-- The loads of a pushed record that has still to be read: their word, thread, address and bytes. -/
def Push.record (p : Push) : Option (Word × Nat × BitVec 64 × List Loc) :=
  match p.k with
  | .cpyt _ w u va ls => some (w, u, va, ls)
  | .cpytR _ w u va (some ls) => some (w, u, va, ls)
  | _ => none
/-- The command without them (R375). -/
def Push.unread (p : Push) : Push :=
  match p.k with
  | .cpyt cw w u va _ => { p with k := .cpytR cw w u va none }
  | .cpytR cw w u va _ => { p with k := .cpytR cw w u va none }
  | _ => p
/-- The accesses on their way, in program order; the loads of a pushed record are one. -/
def Mach.going (m : Mach) : List Going :=
  sortBy (fun a b => decide (a.seq ≤ b.seq))
    ((m.results.filter (fun r => !r.src.locs.isEmpty)).map (fun r => ⟨r.seq, r.gang, r.us.headD 0, r.src.locs, false⟩) ++
      m.reqs.map (fun q => ⟨q.seq, q.gang, q.u, q.ls, match q.kind with
        | .rel _ _ => true
        | _ => false⟩) ++
      m.pushes.filterMap (fun p => p.record.map (fun r => ⟨p.num, (m.thr r.2.1).gang, r.2.1, r.2.2.2, false⟩)))
/-- Those that some rule takes back, by their gang and bytes, and those that cannot perform before them, or before what `got` has taken
back already: the thread's later accesses to their bytes, and its later RELs, in turn (R16, R213, R223) (DESIGN CHOICE, log 89). -/
def taken (mine : Nat → List Loc → Bool) : List Going → List Going → List Going
  | got, [] => got
  | got, x :: r =>
    taken mine (if mine x.gang x.ls || got.any (fun y => y.u == x.u && decide (y.seq < x.seq) && (x.rel || overlap y.ls x.ls)) then x :: got
      else got) r
def takenSeqs (m : Mach) (mine : Nat → List Loc → Bool) : List Nat := (taken mine [] m.going).map (·.seq)
/-- As replay entries in program order with their gangs; ns are their numbers. The loads of a record have an entry while their lane
lives. -/
def takenItems (m : Mach) (ns : List Nat) (f : Bool) : List (Nat × Replay) :=
  let cmp (r : Res) : List Word := match r.src with
    | .waitc _ c => [c]
    | _ => []
  sortBy (fun a b => decide (a.2.seq ≤ b.2.seq))
    ((m.results.filter (fun r => ns.contains r.seq)).map (fun r =>
        (r.gang, { u := r.us.headD 0, va := r.va, data := cmp r, reg := r.dst, f := f, word := r.word, seq := r.seq, ls := r.src.locs })) ++
      (m.reqs.filter (fun r => ns.contains r.seq)).map (fun q =>
        (q.gang, { u := q.u, va := q.va, data := q.data, reg := q.regs, f := f, word := q.word, wordNo := q.wordNo, scat := q.scat,
                   seq := q.seq, ls := q.ls })) ++
      (m.pushes.filter (fun p => ns.contains p.num)).filterMap (fun p => p.record.bind (fun r =>
        if (m.thr r.2.1).stat.live then
          some ((m.thr r.2.1).gang, { u := r.2.1, va := r.2.2.1, data := [], reg := 0, f := f, word := r.1, seq := p.num, ls := r.2.2.2 })
        else none)))
/-- A result that goes with them: it is one, or its request is. -/
def takenRes (ns : List Nat) (r : Res) : Bool := ns.contains r.seq || ns.any r.ofReq
/-- Requests that a router has merged with one that is taken back are on their own again, each with its own operand (R216). -/
def unmerge (ns : List Nat) (reqs : List Req) : List Req :=
  let tops := (reqs.filter (fun q => ns.contains q.seq)).map Req.top
  reqs.map (fun q => if tops.contains q.top then q.alone else q)
/-- The machine without them. -/
def dropTaken (m : Mach) (ns : List Nat) : Mach :=
  { m with results := m.results.filter (fun r => !takenRes ns r), reqs := (unmerge ns m.reqs).filter (fun q => !ns.contains q.seq),
           pushes := m.pushes.map (fun p => if ns.contains p.num then p.unread else p) }
/-- Enter an access in its gang's replay list, in program order. -/
def addReplay (m : Mach) (i : Nat × Replay) : Mach :=
  m.modGang i.1 (fun g => { g with replay := insertBy (fun a b => decide (a.seq ≤ b.seq)) i.2 g.replay })
/-- Take accesses back with F = 1: each goes to its gang's replay list, and its destinations leave the pending set. -/
def takeBack (m : Mach) (ns : List Nat) : Mach :=
  let m1 := (m.results.filter (takenRes ns)).foldl (fun (x : Mach) r => x.onRun r.us (fun _ t =>
    { t with pend := (regsFrom r.dst r.n).foldl (fun p d => p &&& ~~~(1#64 <<< d.val)) t.pend })) (dropTaken m ns)
  (takenItems m ns true).foldl addReplay m1
/-- Abandon the accesses of a crew held at a mark, the loads of pushed records among them; their lanes owe a WM_FROZEN report. -/
def abandon (m : Mach) (crew slot : Nat) (k : Mark) : Mach :=
  let ns := takenSeqs m (fun gang ls => (m.gang gang).crew == some crew && (vasOf ls).any k.holds)
  (takenItems m ns true).foldl (fun x i => x.modThr i.2.u (fun t => t.defer ⟨.wmFrozen, BitVec.ofNat 32 slot, i.2.seq⟩)) (takeBack m ns)
/-- What a thread has issued after an abandoned access, and cannot perform before it, is taken back too, until it enters its handler
(R16, R375) (DESIGN CHOICE, log 89). -/
def abandonAfter (m : Mach) (u : Nat) : Option Mach :=
  let t := m.thr u
  let es := (m.gang t.gang).replay.filter (fun e => e.f && e.u == u)
  if t.h || es.isEmpty then none
  else
    let old : List Going := es.map (fun e => ⟨e.seq, t.gang, u, e.ls, false⟩)
    let ns := ((taken (fun _ _ => false) old (m.going.filter (fun x => x.u == u))).map (·.seq)).filter (fun n => !es.any (fun e => e.seq == n))
    if ns.isEmpty then none else some (takeBack m ns)

/-! ### Landing slots (R243, R290) -/

/-- Landing slots of a spindle in use. -/
def slotsUsed (m : Mach) (sp : Nat) : List Nat :=
  (m.copies.filter (fun c => c.2.sp == sp)).filterMap (·.2.slot) ++ (m.jobs.filter (fun j => j.2.sp == sp)).filterMap (·.2.slot)
/-- A free landing slot; which one is not architected (DESIGN CHOICE, log 14). -/
def takeSlot (m : Mach) (sp : Nat) : Option (Nat × Mach) :=
  let free := (List.range 32).filter (fun k => !(slotsUsed m sp).contains k)
  if free.isEmpty then none else some (free.getD (m.choose free.length).1 0, (m.choose free.length).2)
/-- Whether two destination spans share storage: in one context, and for crew-local memory in one crew. -/
def sameSpace (m : Mach) (c1 c2 va : Nat) : Bool :=
  if va / 2 ^ 48 = 0xFF then c1 == c2 else m.ctxOfRegion (m.crew c1).region == m.ctxOfRegion (m.crew c2).region
/-- An active copy or gather job of the spindle, accepted before number k, whose destination meets [lo, hi) (R251, R290). -/
def earlierOverlap (m : Mach) (k crew sp lo hi : Nat) : Bool :=
  m.copies.any (fun c => decide (c.1 < k) && c.2.sp == sp && sameSpace m crew c.2.crew lo && decide (c.2.base < hi) && decide (lo < c.2.hi) &&
      !(cwG c.2.cw && c.2.stage.isNone)) ||
  m.jobs.any (fun j => decide (j.1 < k) && j.2.sp == sp && j.2.d.isGather && sameSpace m crew j.2.crew lo &&
      decide (j.2.d.data < hi) && decide (lo < j.2.d.hi))

/-! ### COPY_START (R243, R251, R260) -/

/-- The virtual address of crew-local offset o. -/
def localVa (o : Nat) : Nat := 0xFF * 2 ^ 48 + o
/-- A copy of the ring that left the spill area earlier has not taken its stage yet (R260). -/
def stageBefore (m : Mach) (k : Nat) (c : Copy) : Bool :=
  m.copies.any (fun x => decide (x.1 < k) && x.2.crew == c.crew && cwG x.2.cw && cwRing x.2.cw == cwRing c.cw && !x.2.started)
/-- A copy with its landing slot, and its ring stage when G = 1; what its destination makes of it is known only then (DEDUCED, log 11). -/
def startCopy (m : Mach) (k : Nat) : Option Mach :=
  match m.copies.find k with
  | none => none
  | some c =>
    if c.started then none
    else
      let g := cwG c.cw
      let r := (m.crew c.crew).ring (cwRing c.cw)
      let kind := if g then c.kind.shift (localVa (r.stage r.res)) else c.kind
      if g && (r.res == r.fre + BitVec.ofNat 32 r.s || stageBefore m k c) then none
      else if earlierOverlap m k c.crew c.sp kind.base (kind.base + kind.len) then none
      else if g && kind.overlaps then some (refuse { m with copies := m.copies.drop k } c.crew c.gangs c.cw 3)
      else if g && dstDead m (m.engine c.crew c.sp) kind then some (refuse { m with copies := m.copies.drop k } c.crew c.gangs c.cw 6)
      else match takeSlot m c.sp with
      | none => none
      | some (sl, m1) =>
        let c1 := { c with started := true, slot := some sl, out := 0, kind := kind, base := kind.base, hi := kind.base + kind.len, wm := kind.base,
                           stage := if g then some r.res else none }
        let m2 := { m1 with copies := m1.copies.put k c1 }
        some (if g then m2.modCrew c.crew (fun x => x.setRing (cwRing c.cw) { x.ring (cwRing c.cw) with res := r.res + 1 }) else m2)
def execCopyStart (k : Nat) (s : State) : Host.Outcome State Fault Refusal := event s (fun m => startCopy m k)

/-! ### COPY_LAND (R251 to R255) -/

/-- The completion actions of a copy, and a status word to each gang that waits for one. -/
def copyActs (m : Mach) (k : Nat) (c : Copy) (code : Nat) : Mach :=
  let m0 := doneL1 m c.crew c.sp c.kind.spans
  let m1 := if c.acted then m0 else m0.engineActs c.crew c.cw c.stage
  let m2 := c.gangs.foldl (fun x g => x.post g 1 (statusWord (c.wm - c.base) (cwTag c.cw) false (c.slot.getD 0) code)) m1
  { m2 with copies := if code = 0 then m2.copies.drop k else m2.copies.put k { c with acted := true, frozen := some code, paused := none, gangs := [], ssrc := [], sdst := [] } }
/-- A freeze at W: what is held there is abandoned. -/
def freezeCopy (m : Mach) (k : Nat) (c : Copy) (code : Nat) : Mach :=
  abandon (copyActs m k c code) c.crew (c.slot.getD 0) ⟨c.base, c.wm, c.hi, some (c.slot.getD 0)⟩
/-- The segment that an address begins: its range or window. -/
def segOf (m : Mach) (w : Who) (va : Nat) : SegTr :=
  if 0xFD * 2 ^ 48 ≤ va then ⟨va / 2 ^ 48 * 2 ^ 48, (va / 2 ^ 48 + 1) * 2 ^ 48, none⟩
  else match m.rangeAt w.ctx va with
  | some r => ⟨r.base, r.limit, some r⟩
  | none => ⟨va, va + 1, none⟩
def SegTr.has (s : SegTr) (va : Nat) : Bool := decide (s.lo ≤ va) && decide (va < s.hi)
/-- Where a byte of a begun segment lies, by the range as it stood when the segment began (R192). -/
def SegTr.locOf (s : SegTr) (m : Mach) (w : Who) (k : AKind) (va : Nat) : Option Loc :=
  let t := match s.r with
    | none => m.translate w k va
    | some r => match r.offAt va with
      | some off => m.globalAt w k r off va
      | none => .wait
  match t with
  | .ok l _ => some l
  | _ => none
/-- The bytes of the segment pair that begins at byte i: as far as both addresses stay in their range or window. -/
def segIndexes (c : Copy) (s d : SegTr) (i : Nat) : List Nat :=
  ((List.range (c.total - i)).map (i + ·)).takeWhile (fun j => s.has (c.kind.at' j).1 && d.has (c.kind.at' j).2)
/-- What a segment's beginning meets: the checks of R191 and the access tables over all its bytes. A frozen block's error is met by the
first byte that depends on it (R254). -/
def segCheck (m : Mach) (w : Who) (src dst : List Nat) : Reach :=
  let frozen : TrByte → Bool
    | .bad 5 _ => true
    | _ => false
  m.reachOf w false ((src.map (fun a => (a, m.translate w .read a)) ++ dst.map (fun a => (a, m.translate w .write a))).filter
    (fun x => !frozen x.2)) none
/-- The frozen code of a segment's fault. -/
def frozenCode (c : Cause) : Nat :=
  match c with
  | .accessTable => 5
  | _ => 1
/-- What landing one byte does. -/
inductive Land where
  | done (m : Mach)          -- a byte landed, or the copy ended or froze
  | stop                     -- nothing can land now
/-- Put a copy back, one more byte landed. -/
def landed (m : Mach) (k : Nat) (c : Copy) : Mach :=
  let c1 := { c with done := c.done + 1, out := 0, wm := if c.done + 1 = c.total then c.hi else (c.kind.at' (c.done + 1)).2 }
  if c1.done = c1.total then copyActs m k c1 0 else { m with copies := m.copies.put k c1 }
/-- A segment's fault: a registered copy that meets RESIDENCY pauses, and system software is told once until it has resumed the record
(R254, R195) (DEDUCED, log 16). -/
def segFault (m : Mach) (k : Nat) (c : Copy) (cause : Cause) (va : Nat) : Land :=
  if c.regd && cause == .residency then
    if c.paused.isSome then .stop
    else
      let r := m.region (m.crew c.crew).region
      let m1 := postFault m va r.ctx r.rcb.fdom Cause.residency.code c.sp 0 0 m.subs
      .done { m1 with copies := m1.copies.put k { c with paused := some m.subs }, subs := m1.subs + 1, subsPosted := m1.subsPosted }
  else .done (freezeCopy m k c (frozenCode cause))
/-- The segments that some bytes lie in, each once. -/
def segsOf (m : Mach) (w : Who) (vas : List Nat) : List SegTr :=
  vas.foldl (fun ss a => if ss.any (·.has a) then ss else segOf m w a :: ss) []
/-- Begin the segments that the next byte of a copy needs. -/
def beginSeg (m : Mach) (w : Who) (k : Nat) (c : Copy) (srcs dsts : List Nat) (f : Copy → Land) : Land :=
  match segCheck m w srcs dsts with
  | .wait => .stop
  | .trap cause _ va => segFault m k c cause va
  | .ok _ => f { c with paused := none, segNo := c.segNo + 1, ssrc := segsOf m w srcs, sdst := segsOf m w dsts }
/-- Whether begun segments hold all of some bytes. -/
def segsHave (ss : List SegTr) (vas : List Nat) : Bool := vas.all (fun a => ss.any (·.has a))
/-- Whether a copy's begun segments hold all of some bytes. -/
def segsHold (c : Copy) (srcs dsts : List Nat) : Bool := segsHave c.ssrc srcs && segsHave c.sdst dsts
/-- Where begun segments put a byte; none while its block moves. -/
def segLoc (m : Mach) (w : Who) (k : AKind) (ss : List SegTr) (va : Nat) : Option Loc :=
  (ss.find? (·.has va)).bind (fun s => s.locOf m w k va)
/-- And several bytes; none while a block of one moves. -/
def segLocs (m : Mach) (w : Who) (k : AKind) (ss : List SegTr) (vas : List Nat) : Option (List Loc) :=
  if vas.all (fun a => (segLoc m w k ss a).isSome) then some (vas.filterMap (segLoc m w k ss)) else none
/-- Whether a byte of a begun segment lies in the block at which a range is frozen, whose error it meets (R206, R254). -/
def segFrozen (ss : List SegTr) (va : Nat) : Bool :=
  match (ss.find? (·.has va)).bind (·.r) with
  | some r => r.cstate == 2 && (r.offAt va).isNone
  | none => false
/-- A copy that finds no place for its next bytes: it freezes at an error, or stops while a block moves. -/
def noPlace (m : Mach) (k : Nat) (c : Copy) (srcs dsts : List Nat) : Land :=
  if srcs.any (segFrozen c.ssrc) || dsts.any (segFrozen c.sdst) then .done (freezeCopy m k c 2) else .stop
/-- Whether the target of a byte of a begun segment admits the access as it arrives there (R366, R367). -/
def segAdmits (m : Mach) (w : Who) (k : AKind) (l : Loc) : Bool := m.admitsLoc w.ctx k l
/-- Move a byte of a raw copy. -/
def moveByte (m : Mach) (w : Who) (k : Nat) (c : Copy) : Land :=
  let a := c.kind.at' c.done
  match segLocs m w .read c.ssrc [a.1], segLocs m w .write c.sdst [a.2] with
  | some [s], some [d] =>
    if !segAdmits m w .read s || !segAdmits m w .write d then .done (freezeCopy m k c 5)
    else if m.homeErr s || m.badAt d then .done (freezeCopy m k c 2)
    else .done (landed (m.homeSet d (m.homeGet s)) k c)
  | _, _ => noPlace m k c [a.1] [a.2]

/-! ### Quantisation (R50, R250) -/

/-- Elements of a source block; infinities count as the largest finite value (R50). -/
def blockVals (sfmt : Nat) (bs : List Byte) (n : Nat) : List FVal :=
  let w := fmtWidth sfmt / 8
  (List.range n).map (fun i =>
    match (fltOf sfmt).decode (leNat ((bs.drop (w * i)).take w)) with
    | .inf s => (fltOf sfmt).decode ((fltOf sfmt).sg s + (fltOf sfmt).maxBits)
    | v => v)
/-- ⌊log2 M⌋ of a block's largest magnitude; none where it is 0. -/
def blockLog (vs : List FVal) : Option Int :=
  vs.foldl (fun a v => match v with
    | .fin _ m e => if m = 0 then a else match a with
      | none => some (log2Of m e)
      | some x => some (max x (log2Of m e))
    | _ => a) none
/-- E of a block (R50). -/
def blockScale (fmt : Nat) (vs : List FVal) : Int :=
  match blockLog vs with
  | none => 0
  | some l => satI (l - (if fmt = 5 then 6 else if fmt = 6 then 2 else 3)) (-128) 127
/-- The codes of a block, and its packed bytes (R43, R44). -/
def blockCode (fmt : Nat) (e : Int) (v : FVal) : Nat :=
  if fmt = 4 then l6Encode v e
  else ((kEncode (if fmt = 5 then 127 else 7) v e) % 2 ^ fmtWidth fmt).toNat
def packCodes (w : Nat) (cs : List Nat) : Nat := cs.foldr (fun c x => c % 2 ^ w + 2 ^ w * x) 0
/-- A CPYQ: source and its format, first code byte, first scale byte, the end of their range or segment, format, block length, number of blocks (R250). -/
structure Quant where
  src : Nat
  sfmt : Nat
  dst : Nat
  sc : Nat
  lim : Nat
  fmt : Nat
  blk : Nat
  blocks : Nat
/-- Code bytes of a block. -/
def Quant.codeBytes (q : Quant) : Nat := q.blk * fmtWidth q.fmt / 8
/-- Source bytes of block b. -/
def Quant.srcs (q : Quant) (b : Nat) : List Nat :=
  let n := q.blk * (fmtWidth q.sfmt / 8)
  span (q.src + b * n) n
/-- Code bytes of block b. -/
def Quant.codes (q : Quant) (b : Nat) : List Nat := span (q.dst + b * q.codeBytes) q.codeBytes
/-- Whether the code bytes and the scale byte of block b lie in the range or segment of the first: R97 places no element outside it, and
a typed access there meets RANGE_MISS. -/
def Quant.inside (q : Quant) (b : Nat) : Bool := decide (q.dst + (b + 1) * q.codeBytes ≤ q.lim) && decide (q.sc + b < q.lim)
/-- The blocks of the segments that begin with block b: those that lie whole in the ranges and windows of b's bytes. A block over a
boundary, whose codes depend on both sides, begins the segment behind it too (R253; DEDUCED, log 85). -/
def Quant.segment (q : Quant) (m : Mach) (w : Who) (b : Nat) : List Nat :=
  let s := segsOf m w (q.srcs b)
  let d := segsOf m w (q.codes b ++ [q.sc + b])
  ((List.range (q.blocks - b)).map (b + ·)).takeWhile (fun x =>
    q.inside x && segsHave s (q.srcs x) && segsHave d (q.codes x ++ [q.sc + x]))
/-- Pass block b, its segments begun, through the staging buffer: its scale byte lands, and its codes wait there. -/
def stageBlock (m : Mach) (w : Who) (k : Nat) (c : Copy) (q : Quant) (b : Nat) : Land :=
  match segLocs m w .read c.ssrc (q.srcs b), segLoc m w .write c.sdst (q.sc + b) with
  | some ss, some l =>
    if ss.any (fun s => !segAdmits m w .read s) || !segAdmits m w .write l then .done (freezeCopy m k c 5)
    else if ss.any m.homeErr || m.badAt l then .done (freezeCopy m k c 2)
    else
      let vs := blockVals q.sfmt (m.homeGets ss) q.blk
      let e := blockScale q.fmt vs
      let m1 := m.homeSet l (BitVec.ofInt 8 e)
      let c1 := { c with buf := leBytes q.codeBytes (packCodes (fmtWidth q.fmt) (vs.map (blockCode q.fmt e))) }
      .done { m1 with copies := m1.copies.put k c1 }
  | _, _ => noPlace m k c (q.srcs b) [q.sc + b]
/-- Land the next code byte from the staging buffer. -/
def landCode (m : Mach) (w : Who) (k : Nat) (c : Copy) (q : Quant) : Land :=
  match c.buf, segLoc m w .write c.sdst (q.dst + c.done) with
  | b :: r, some d =>
    if !segAdmits m w .write d then .done (freezeCopy m k c 5)
    else if m.badAt d then .done (freezeCopy m k c 2)
    else .done (landed (m.homeSet d b) k { c with buf := r })
  | _, _ => noPlace m k c [] [q.dst + c.done]
/-- The next step of a CPYQ: its next segments begin, its next block is staged, or a code byte lands. A block that leaves the range or
segment of the first meets RANGE_MISS as its segments begin (R97, R250, R254) (DEDUCED, log 85). -/
def landQuant (m : Mach) (w : Who) (k : Nat) (c : Copy) (q : Quant) : Land :=
  let b := c.done / max q.codeBytes 1
  let go (c : Copy) : Land := if c.buf.isEmpty then stageBlock m w k c q b else landCode m w k c q
  if !q.inside b then segFault m k c .rangeMiss (max (q.dst + c.done) q.lim)
  else if segsHold c (q.srcs b) (q.codes b ++ [q.sc + b]) then go c
  else
    let bs := q.segment m w b
    beginSeg m w k c (bs.flatMap q.srcs) (bs.flatMap (fun x => q.codes x ++ [q.sc + x])) go
/-- The source and the destination bytes that a copy's begun segments still have to move. -/
def Copy.begun (c : Copy) : List Nat × List Nat :=
  match c.kind with
  | .quant src sfmt dst sc lim fmt blk n =>
    let q : Quant := ⟨src, sfmt, dst, sc, lim, fmt, blk, n / max blk 1⟩
    let b := c.done / max q.codeBytes 1
    let bs := ((List.range (q.blocks - b)).map (b + ·)).takeWhile (fun x =>
      q.inside x && segsHold c (q.srcs x) (q.codes x ++ [q.sc + x]))
    let new := if c.buf.isEmpty then bs else bs.drop 1
    (new.flatMap q.srcs, (bs.flatMap q.codes).drop (c.done - b * q.codeBytes) ++ new.map (q.sc + ·))
  | _ =>
    let is := ((List.range (c.total - c.done)).map (c.done + ·)).takeWhile (fun i => segsHold c [(c.kind.at' i).1] [(c.kind.at' i).2])
    (is.map (fun i => (c.kind.at' i).1), is.map (fun i => (c.kind.at' i).2))
/-- Land the next byte of a copy. -/
def landByte (m : Mach) (k : Nat) (c : Copy) : Land :=
  let w := m.engine c.crew c.sp
  match c.kind with
  | .quant src sfmt dst sc lim fmt blk n => landQuant m w k c ⟨src, sfmt, dst, sc, lim, fmt, blk, n / max blk 1⟩
  | _ =>
    let a := c.kind.at' c.done
    if segsHold c [a.1] [a.2] then moveByte m w k c
    else
      let s := segOf m w a.1
      let d := segOf m w a.2
      let is := segIndexes c s d c.done
      let is' := if is.isEmpty then [c.done] else is
      beginSeg m w k c (is'.map (fun j => (c.kind.at' j).1)) (is'.map (fun j => (c.kind.at' j).2)) (fun c1 => moveByte m w k c1)
/-- Land up to n bytes, as long as the copy goes on. -/
def landN (m : Mach) (k : Nat) : Nat → Mach
  | 0 => m
  | n + 1 =>
    match m.copies.find k with
    | none => m
    | some c =>
      if !c.started || c.frozen.isSome then m
      else match landByte m k c with
      | .done m1 => landN m1 k n
      | .stop => m
/-- A copy that can land a byte now. -/
def canLand (m : Mach) (k : Nat) : Bool :=
  match m.copies.find k with
  | none => false
  | some c => c.started && c.frozen.isNone && match landByte m k c with
    | .done _ => true
    | .stop => false
def execCopyLand (k n : Nat) (s : State) : Host.Outcome State Fault Refusal :=
  event s (fun m =>
    let x := m.after ((m.copies.find k).elim 0 (·.out))
    if n != 0 && canLand x k then some (landN x k n) else none)

/-! ### INDEX_JOB_START and INDEX_ELEMENT -/

def startJob (m : Mach) (k : Nat) : Option Mach :=
  match m.jobs.find k with
  | none => none
  | some j =>
    if j.started || earlierOverlap m k j.crew j.sp j.d.data j.d.hi then none
    else match takeSlot m j.sp with
    | none => none
    | some (sl, m1) => some { m1 with jobs := m1.jobs.put k { j with started := true, slot := some sl, out := 0 } }
def execIndexJobStart (k : Nat) (s : State) : Host.Outcome State Fault Refusal := event s (fun m => startJob m k)
/-- A job suspends: its cursor record is written when every byte of it can be, once no block of it moves, and an ACQ of it acquires what
the job has written (R231); else it posts with X = 1 and
ends (R295). Where the index of element e has not been read, XVAL is a free value (DESIGN CHOICE, log 15). -/
def suspendJob (m : Mach) (k : Nat) (j : Job) (code faddr : Nat) : Option Mach :=
  let w := m.engine j.crew j.sp
  let bytes := cursorRec j code faddr (j.ex.getD (Config.freeValue m.freeN))
  let j1 := { j with elem := j.first, bagPos := 0, pool := none, ex := none, eng := false }
  let m0 := { m with freeN := m.freeN + 1 }
  let stop (m1 : Mach) : Mach :=
    if j.d.isGather then abandon m1 j.crew (j.slot.getD 0) ⟨j.d.data, j.wm, j.d.hi, some (j.slot.getD 0)⟩ else m1
  match engAcc m w .write (span j.cur0 128) with
  | .wait => none
  | .ok ls =>
    let m1 := Job.post (Job.acts (m0.homeSets ls bytes) j1) j1 false code
    some (stop { m1 with jobs := m1.jobs.put k { j1 with susp := some code, acted := true, stamp := m1.nextId }, nextId := m1.nextId + 1,
                         recs := (w.ctx, j.cur0, j.d.spans j.cur0) :: m1.recs.filter (fun r => r.1 != w.ctx || r.2.1 != j.cur0) })
  | _ =>
    let m1 := Job.post (Job.acts m0 j1) j1 true code
    some { m1 with jobs := m1.jobs.drop k }
/-- A job whose elements are all done. -/
def finishJob (m : Mach) (k : Nat) (j : Job) : Mach := { Job.post (Job.acts m j) j false 0 with jobs := m.jobs.drop k }
/-- The index engines of a C-die, each of which processes one job at a time until the job ends or suspends (R2, R287, R295,
R297) (DEDUCED, log 95). -/
def indexEngines : Nat := 16
/-- Whether a job holds an engine of its C-die, or finds one free; which waiting job takes it is not architected (R297). -/
def engineFree (m : Mach) (j : Job) : Bool :=
  j.eng || decide ((m.jobs.filter (fun y => y.2.eng && dieOf y.2.sp == dieOf j.sp)).length < indexEngines)
/-- One step of a job, which holds an engine from its first step on; a repaired record may leave it no element (R296). -/
def elementStep (m : Mach) (k : Nat) : Option Mach :=
  match m.jobs.find k with
  | none => none
  | some j =>
    if !j.started || j.susp.isSome || !engineFree m j then none
    else if j.d.count ≤ j.elem then some (finishJob m k j)
    else match elemStep m j with
    | .wait => none
    | .susp code faddr j1 => suspendJob m k j1 code faddr
    | .next m1 j1 => if j1.elem < j1.d.count then some { m1 with jobs := m1.jobs.put k { j1 with out := 0, eng := true } } else some (finishJob m1 k j1)
/-- Apply the rest of the element that a scatter-add has applied in part: its target has accepted it, so that it waits no more for the
planer (R205, R333) (DEDUCED, log 53). -/
def wholeElem (m : Mach) (j : Job) : Nat → Mach × Job
  | 0 => (m, j)
  | n + 1 =>
    if j.rowoff = 0 then (m, j)
    else match elemStep { m with whole := true } j with
    | .next m1 j1 => wholeElem { m1 with whole := false } j1 n
    | _ => (m, j)
def execIndexElement (k : Nat) (s : State) : Host.Outcome State Fault Refusal :=
  event s (fun m => elementStep (m.after ((m.jobs.find k).elim 0 (·.out))) k)

/-! ### Acceptance -/

/-- Accept a CPYT whose record lies in some bytes. -/
def acceptRecord (m : Mach) (p : Push) (cw : Word) (u : Nat) (ls : List Loc) : Mach :=
  acceptCopy (recDefer m p.sp p.num m u ls) p [p.gang] cw ((parseTlr (leNat (recBytes m p.sp ls))).map .tensor) false
/-- Accept one pushed command (R230, R243). One whose record loads were abandoned and then discarded, its lane having left the handler by
EXIT or ENDP (R375), has no record: it is refused with BAD_SHAPE (DESIGN CHOICE, log 90). -/
def acceptPush (m : Mach) (p : Push) : Mach :=
  let w := m.engine p.crew p.sp
  match p.k with
  | .cpy sl => acceptCopy m p (p.by'.map (·.1)) ((sl.headD default).cw) (cpyShape m p.crew sl) false
  | .cpyt cw _ u _ ls => acceptRecord m p cw u ls
  | .cpytR cw _ u _ (some ls) => acceptRecord m p cw u ls
  | .cpytR cw _ _ _ none => refuse m p.crew [p.gang] cw 4
  | .cpyh cw h => acceptCopy m p [p.gang] cw (handleCopy m p cw h) true
  | .cpyq src dst n cw =>
    if cwBad cw then refuse m p.crew [p.gang] cw 4
    else match cpyqShape m w src dst n cw with
    | .inl k => acceptCopy m p [p.gang] cw (some k) false
    | .inr code => refuse m p.crew [p.gang] cw code
  | .cpres v => acceptCpres m p v
  | .job raw cw => acceptJob m p raw cw
  | .ixres cancel va raw => acceptIxres m p cancel va raw
/-- Whether a command's record lies on another device. -/
def Push.far (p : Push) : Bool := p.record.any (fun r => r.2.2.2.any (·.far))
/-- The first pushed command that may be accepted, of those whose record a link must deliver or of the others, is accepted (R362). -/
def acceptFirst (m : Mach) (far : Bool) : Option Mach :=
  match (List.range m.pushes.length).find? (fun i => m.acceptable i && (m.pushes[i]?).any (fun p => p.far == far)) with
  | none => none
  | some i => (m.pushes[i]?).map (fun p => acceptPush ({ m with pushes := m.pushes.eraseIdx i }.after p.out) p)

end Sys2Proof.Machine
end

