-- ==== Sys2Proof/Machine/Matrix.lean ====
section
/-! DEFINITION. The matrix array and its streams (R266 to R286): MSTREAM, the stream words, and the restart of a service stream. -/

namespace Sys2Proof.Machine

/-! ### MSTREAM (R270) -/

/-- The fields of v[a+5] and v[a+6]. -/
def msBbase (w : Word) : Nat := bitsOf w.toNat 0 8
def msBcnt (w : Word) : Nat := bitsOf w.toNat 8 8
def msPitch (w : Word) : Nat := bitsOf w.toNat 16 16
def msCbase (w : Word) : Nat := bitsOf w.toNat 0 10
def msCcnt (w : Word) : Nat := bitsOf w.toNat 16 10
def msServ (w : Word) : Bool := w.getLsbD 31
/-- A command accepted at once waits for every earlier load, store and atomic of the issuing gang (R230). -/
def gangBusyBefore (m : Mach) (gang n : Nat) : Bool := m.accessing gang [] n
def gangBusy (m : Mach) (gang : Nat) : Bool := gangBusyBefore m gang m.seq
/-- Barriers of a mask. -/
def membOf (b : BitVec 16) : List Nat := (List.range 16).filter b.getLsbD
/-- BAD_OPERAND. -/
def msBad (g : Group) (a : Reg) : Bool :=
  let w := lowRd g a 6
  let k := g.pre.crew g.crew
  (lowPair g a 0).toNat % 8 != 0 || (lowPair g a 2).toNat % 64 != 0 || (lowRd g a 4).toNat % 64 != 0 ||
    decide (k.locSize ≤ (lowRd g a 4).toNat) || bitsOf w.toNat 26 5 != 0 || bitsOf w.toNat 10 6 != 0 ||
    decide (255 < msBbase (lowRd g a 5) + msBcnt (lowRd g a 5)) || decide (1023 < msCbase w + msCcnt w) ||
    (membOf ((lowRd g a 7).extractLsb' 0 16)).any (fun n => decide (k.nbWin ≤ n) || (k.bar n).e == 0)
/-- Sequencers of an array that run no stream. -/
def freeSeqs (m : Mach) (sp : Nat) : List Nat := (List.range 4).filter (fun n => !m.streams.any (fun x => x.2.sp == sp && x.2.seqNo == n))
/-- Slots BBASE to BBASE + BCNT, and units CBASE to CBASE + CCNT. -/
def msSlots (g : Group) (a : Reg) : List Nat := span (msBbase (lowRd g a 5)) (msBcnt (lowRd g a 5) + 1)
def msUnits (g : Group) (a : Reg) : List Nat := span (msCbase (lowRd g a 6)) (msCcnt (lowRd g a 6) + 1)
/-- The refusal code of an MSTREAM; none where it is accepted. An A base at or above the crew's `.local` size breaks its limit (R270)
(DEDUCED, log 113). -/
def msRefusal (g : Group) (a : Reg) : Option Nat :=
  let s := g.pre.spindle g.sp
  if msBad g a then some 1
  else if g.pre.hasStream g.gang then some 2
  else if (g.pre.region (g.pre.gang g.gang).region).kcls = 0 ∧ g.pre.streams.any (fun x => x.2.crew == g.crew) then some 3
  else if (freeSeqs g.pre g.sp).isEmpty then some 4
  else if (msSlots g a).any (fun n => match s.bslots.find n with | some x => x.1 != g.crew | none => false) ||
      (msUnits g a).any (fun n => match s.units.find n with | some k => k != g.crew | none => false) then some 5
  else none
/-- Claim windows: a slot that was not held reads as empty, a unit as zero (R268). -/
def claim (s : Spindle) (crew : Nat) (slots units : List Nat) : Spindle :=
  let ns := slots.filter (fun n => !s.bslots.has n)
  let nu := units.filter (fun n => !s.units.has n)
  { s with bslots := ns.foldl (fun x n => x.put n (crew, {})) s.bslots, units := nu.foldl (fun x n => x.put n crew) s.units,
           acc := nu.foldl (fun x n => x.block (512 * n) (List.replicate 512 0)) s.acc }
/-- A stream begins; which free sequencer it takes is not architected. -/
def startStream (g : Group) (m : Mach) (a : Reg) : Nat × Mach :=
  let free := freeSeqs g.pre g.sp
  let c := m.choose free.length
  let n := free.getD c.1 0
  let m1 := c.2.modSp g.sp (fun s => claim s g.crew (msSlots g a) (msUnits g a))
  let x : Stream :=
    { crew := g.crew, gang := g.gang, sp := g.sp, seqNo := n, addr := (lowPair g a 0).toNat, data := (lowPair g a 2).toNat,
      abase := (lowRd g a 4).toNat, bbase := msBbase (lowRd g a 5), bcnt := msBcnt (lowRd g a 5), cpitch := msPitch (lowRd g a 5),
      cbase := msCbase (lowRd g a 6), ccnt := msCcnt (lowRd g a 6), serv := msServ (lowRd g a 6),
      tag := (lowRd g a 7).extractLsb' 16 16, memb := (lowRd g a 7).extractLsb' 0 16,
      p0 := Vector.ofFn (fun i : Fin 16 => ((g.pre.crew g.crew).bar i.val).p) }
  (n, { m1 with streams := m1.streams.put m1.nextId x, nextId := m1.nextId + 1 })
def stallMstream (g : Group) : Bool := acqStall g || (!g.run.isEmpty && gangBusy g.pre g.gang)
def execMstream (h : Hdr) (d a : Reg) (s : State) : Host.Outcome State Fault Refusal :=
  gangWord h (.mstream h d a) s chkSpawn stallMstream .stalled (fun g m =>
    if g.run.isEmpty then (m, g) else
    match msRefusal g a with
    | some c => (m.onRun g.run (fun _ t => t.wr d (BitVec.ofNat 32 (0x80000000 + c))), g)
    | none => ((startStream g m a).2.onRun g.run (fun _ t => t.wr d (BitVec.ofNat 32 (startStream g m a).1)), g))

/-! ### How a stream word executes (R272 to R274) -/

/-- What a stream word does: the stream goes on, perhaps elsewhere, it stops with a code, or it stalls with no effect. -/
inductive SRes where
  | go (m : Mach) (x : Stream) (jump : Option Int)
  | stop (m : Mach) (code : Nat)
  | stall

/-- A status word for q5 (R273). -/
def seqWord (x : Stream) (code : Nat) : BitVec 64 :=
  BitVec.ofNat 64 ((x.idx % 2 ^ 32).toNat * 2 ^ 32 + x.tag.toNat * 2 ^ 16 + x.seqNo * 2 ^ 8 + code)
/-- Post a stream's status word: a full q5 holds it back, and a gang that has exited discards it (R271, R273). -/
def postStream (m : Mach) (k : Nat) (x : Stream) (w : BitVec 64) (ending : Bool) : Mach :=
  if (m.gang x.gang).life != .ended && decide (16 ≤ (m.gang x.gang).q5.length) then
    { m with streams := m.streams.put k { x with post := some w, ending := ending } }
  else
    let m1 := m.post x.gang 5 w
    { m1 with streams := if ending then m1.streams.drop k else m1.streams.put k { x with post := none } }
/-- A stream stops: it arrives once at each barrier of MEMB where it has not arrived in the current phase, and posts its status
(R274). -/
def stopStream (m : Mach) (k : Nat) (x : Stream) (code : Nat) : Mach :=
  let due (n : Nat) : Bool := x.arrived.toList.getD n none != some ((m.crew x.crew).bar n).p
  postStream (((membOf x.memb).filter due).foldl (fun y n => arriveAt y x.crew n) m) k x (seqWord x code) true
/-- Where a stream goes after word e, and its loop stack (R283). -/
def loopEnd (e : Int) : List (Nat × Int × Int) → Int × List (Nat × Int × Int)
  | [] => (e + 1, [])
  | (c, s, n) :: r => if n = e then (if c = 1 then loopEnd e r else (s, (c - 1, s, n) :: r)) else (e + 1, (c, s, n) :: r)
/-- The stream after a word. -/
def Stream.advance (x : Stream) (jump : Option Int) : Stream :=
  match jump with
  | some i => { x with idx := i }
  | none => { x with idx := (loopEnd x.idx x.loops).1, loops := (loopEnd x.idx x.loops).2 }
/-- A stream word: the sequencer that has fetched it executes it. -/
def streamWord (s : State) (f : Mach → Nat → Stream → SRes) : Host.Outcome State Fault Refusal :=
  match s.act with
  | .stream k =>
    match s.m.streams.find k with
    | none => .refused .notEnabled
    | some x =>
      match f s.m k x with
      | .go m y j => .next ⟨{ m with streams := m.streams.put k { y.advance j with out := 0, got := false } }, .idle⟩
      | .stop m c => .next ⟨(stopStream m k x c).settle, .idle⟩
      | .stall => .next ⟨if x.got then s.m else { s.m with streams := s.m.streams.put k { x with out := 0, got := true } }, .idle⟩
  | _ => .refused .notEnabled

/-- The code of a cause (R273). -/
def streamCode (c : Cause) : Nat :=
  match c with
  | .accessTable => 7
  | .format => 4
  | .dataError => 8
  | _ => 6
/-- The sequencer as the party of an access. -/
def Stream.who (x : Stream) (m : Mach) : Who := m.engine x.crew x.sp
/-- Bytes that a sequencer reads through the L1 of its spindle (R284); a code where it cannot. -/
inductive SRead where
  | ok (bs : List Byte)
  | bad (code : Nat)
  | wait
/-- The checks in the order FORMAT, XLATE, ACCESS, DATA (R274), and the bytes as `get` has them. -/
def streamReadBy (get : Loc → Byte) (m : Mach) (x : Stream) (vas : List Nat) : SRead :=
  let w := x.who m
  let ts := vas.map (fun a => (a, m.translate w .read a))
  if vas.any (m.fmtDead w) then .bad 4
  else if (firstBad 4 ts).isSome then .bad 6
  else if ts.any (fun t => t.2 == .wait) then .wait
  else if ts.any (fun t => match t.2 with | .ok _ adm => !adm | _ => false) then .bad 7
  else if (firstBad 5 ts).isSome || (trLocs ts).any (m.readErr x.sp) then .bad 8
  else .ok ((trLocs ts).map get)
def streamRead (m : Mach) (x : Stream) (vas : List Nat) : SRead := streamReadBy (m.load x.sp) m x vas
/-- Word i of a stream (R272): not architected where the physical function has changed a loaded stream section (R17, DESIGN CHOICE,
log 9). -/
def streamFetch (m : Mach) (x : Stream) (i : Int) : SRead :=
  let a : Int := x.addr + 8 * i
  if a < 0 then .bad 6 else streamReadBy (fun l => m.asCode l (m.load x.sp l)) m x (span a.toNat 8)

/-! ### B-slots (R266, R276, R277) -/

def setSlot (m : Mach) (sp k : Nat) (b : BSlot) : Mach :=
  m.modSp sp (fun s => { s with bslots := s.bslots.mod k (fun y => (y.1, b)) })
def slotAt (m : Mach) (sp k : Nat) : BSlot := ((m.spindle sp).bslots.find k).elim {} (·.2)
/-- The code of zero. -/
def zeroCode (fmt : Nat) : Nat := if fmt = 4 then 0x20 else 0
/-- Bytes of a group (R47, R48). -/
def packBytes (fmt sparse : Nat) : Nat :=
  if sparse = 5 then (if fmt = 5 then 20 else if fmt = 6 then 14 else 17) else groupBytes fmt (sparseN sparse)
/-- The element index of the first of b bytes counted from the origin; none where it is no whole multiple of 96 (R276). -/
def elemIndex (fmt sparse b : Nat) : Option Nat :=
  let n := if sparse = 0 then (if fmt = 4 then 4 else if fmt = 5 then 1 else 2) else if sparse = 5 then 24 else 12
  let d := if sparse = 0 then (if fmt = 4 then 3 else 1) else packBytes fmt sparse
  if n * b % d = 0 ∧ n * b / d % 96 = 0 then some (n * b / d) else none
/-- Bytes of codes that a slot takes, and of scales. -/
def slotBytes (fmt sparse : Nat) : Nat := if sparse = 0 then 128 * 96 * fmtWidth fmt / 8 else 1024 * packBytes fmt sparse
def slotElems (sparse : Nat) : Nat := if sparse = 5 then 2 * 128 * 96 else 128 * 96
/-- The codes of a group over its 12 positions. -/
def spread (fmt : Nat) (es : List (Nat × Nat)) : List Nat :=
  (List.range 12).map (fun p => ((es.find? (fun e => e.2 == p)).map (·.1)).getD (zeroCode fmt))
/-- A paired group's two columns of entries; none where it is malformed (R48, R49). -/
def pairedGroup (fmt x : Nat) : Option (List (Nat × Nat) × List (Nat × Nat)) :=
  let w := fmtWidth fmt + 4
  let ent (i : Nat) : Nat × Nat := (bitsOf x (16 + w * i) (fmtWidth fmt), bitsOf x (16 + w * i + fmtWidth fmt) 4)
  let nd := bitsOf x 0 4
  let ns := bitsOf x 4 4
  let a := (List.range nd).map ent
  let b := (List.range ns).map (fun i => ent (nd + i))
  if bitsOf x 8 8 ≠ 0 ∨ 12 < nd + ns ∨ badGroup a ∨ badGroup b then none else some (a, b)
/-- The filter columns that code bytes hold, as codes; none where a group is malformed. -/
def slotCodes (fmt sparse : Nat) (bs : List Byte) : Option (List (List Nat)) :=
  let w := fmtWidth fmt
  if sparse = 0 then
    some ((List.range 128).map (fun j =>
      let x := leNat ((bs.drop (j * (96 * w / 8))).take (96 * w / 8))
      (List.range 96).map (fun k => bitsOf x (w * k) w)))
  else
    let gb := packBytes fmt sparse
    let grp (i : Nat) : Nat := leNat ((bs.drop (i * gb)).take gb)
    if sparse = 5 then
      let gs := (List.range 1024).map (fun i => pairedGroup fmt (grp i))
      if gs.any (·.isNone) then none
      else
        let col (second : Bool) (p : Nat) : List Nat :=
          ((gs.drop (8 * p)).take 8).flatMap (fun o => match o with
            | none => []
            | some e => spread fmt (if second then e.2 else e.1))
        some ((List.range 256).map (fun c => col (c % 2 == 1) (c / 2)))
    else
      let gs := (List.range 1024).map (fun i => groupEntries fmt (sparseN sparse) (grp i))
      if gs.any badGroup then none
      else some ((List.range 128).map (fun j => ((gs.drop (8 * j)).take 8).flatMap (spread fmt)))
/-- Codes beside their scales: element e of column j takes the scale of logical element 96j + e, counted from a block's start. -/
def withScales (blk : Nat) (sc : List Byte) (cols : List (List Nat)) : List (List (Nat × Int)) :=
  (List.range cols.length).map (fun j =>
    (List.range 96).map (fun k => ((cols.getD j []).getD k 0, signedOf (sc.getD ((96 * j + k) / blkLen blk) 0).toNat 8)))
/-- Where a slot's bytes lie, codes then scales, with the attributes that say how they read; a code where the storage admits no
MLDB. -/
def mldbPlace (m : Mach) (x : Stream) (va : Nat) : (Attr × List Nat) ⊕ Nat :=
  match m.attrAt (x.who m) va with
  | none => .inr (match m.translate (x.who m) .read va with
    | .bad _ c => streamCode c
    | _ => 4)
  | some a =>
    if !isBlock a.fmt || a.blk == 3 then .inr 4
    else match elemIndex a.fmt a.sparse (va - a.origin) with
    | none => .inr 4
    | some i =>
      .inl (a, span va (slotBytes a.fmt a.sparse) ++
        span (a.origin + a.soff + i / blkLen a.blk) (slotElems a.sparse / blkLen a.blk))
/-- A slot from its bytes. -/
def slotOf (a : Attr) (bs : List Byte) : Option BSlot :=
  (slotCodes a.fmt a.sparse bs).map (fun cs =>
    { mode := a.sparse + 1, fmt := a.fmt, cols := withScales a.blk (bs.drop (slotBytes a.fmt a.sparse)) cs })
/-- Whether a group of a sparse or paired slot is malformed (R48, R49). -/
def groupBad (a : Attr) (bs : List Byte) : Bool :=
  if a.sparse = 5 then (pairedGroup a.fmt (leNat bs)).isNone else badGroup (groupEntries a.fmt (sparseN a.sparse) (leNat bs))
/-- The bytes of an MLDB: those past the end of their range or segment cannot be read. -/
def mldbRead (m : Mach) (x : Stream) (a : Attr) (vas : List Nat) : SRead :=
  if vas.any (fun va => decide (va < a.origin) || decide (a.lim ≤ va)) then .bad 6 else streamRead m x vas
/-- The groups of a slot at an address. -/
def mldbGroups (a : Attr) (va : Nat) : List (List Nat) :=
  if a.sparse = 0 then [] else (List.range 1024).map (fun i => span (va + i * packBytes a.fmt a.sparse) (packBytes a.fmt a.sparse))
/-- What an MLDB meets whose bytes cannot all be read: a malformed group among those that can is FORMAT, which comes before the others
(R49, R274); a group that waits for the planer may be one. -/
def mldbFail (m : Mach) (x : Stream) (a : Attr) (va code : Nat) : SRes :=
  let rs := (mldbGroups a va).map (mldbRead m x a)
  if rs.any (fun r => match r with | .ok bs => groupBad a bs | _ => false) then .stop m 4
  else if code != 4 && rs.any (fun r => match r with | .wait => true | _ => false) then .stall
  else .stop m code
/-- What MLDB does (DEDUCED, log 23). -/
def mldbDo (m : Mach) (x : Stream) (bslot : BitVec 8) (off : BitVec 40) : SRes :=
  if x.bcnt < bslot.toNat then .stop m 3
  else match mldbPlace m x (x.data + off.toNat) with
  | .inr c => .stop m c
  | .inl (a, vas) =>
    match mldbRead m x a vas with
    | .wait => .stall
    | .bad c => mldbFail m x a (x.data + off.toNat) c
    | .ok bs =>
      match slotOf a bs with
      | none => .stop m 4
      | some b => .go (setSlot m x.sp (x.bbase + bslot.toNat) b) x none
def execMldb (bslot : BitVec 8) (off : BitVec 40) (s : State) : Host.Outcome State Fault Refusal :=
  streamWord s (fun m _ x => mldbDo m x bslot off)

/-! ### A fragments (R269, R279) -/

/-- The A fragment at aoff: its bytes and how they read; a code where there is none. -/
def fragPlace (m : Mach) (x : Stream) (aoff : BitVec 10) : (Attr × List Nat) ⊕ Nat :=
  let o := 64 * aoff.toNat
  let va := localVa (x.abase + o)
  match m.attrAt (x.who m) va with
  | none => .inr 4
  | some a =>
    let n := 64 * 96 * fmtWidth a.fmt / 8
    if !isBlock a.fmt then .inr 4
    else if 65536 < o + n then .inr 3
    else if a.blk = 3 ∨ a.sparse ≠ 0 ∨ a.lim < va + n then .inr 4
    else match elemIndex a.fmt 0 (va - a.origin) with
    | none => .inr 4
    | some i => .inl (a, span va n ++ span (a.origin + a.soff + i / blkLen a.blk) (64 * 96 / blkLen a.blk))
/-- A fragment from its bytes. -/
def fragOf (a : Attr) (bs : List Byte) : Frag :=
  let w := fmtWidth a.fmt
  let row (i : Nat) : List Nat :=
    let x := leNat ((bs.drop (i * (96 * w / 8))).take (96 * w / 8))
    (List.range 96).map (fun k => bitsOf x (w * k) w)
  { fmt := a.fmt, rows := withScales a.blk (bs.drop (64 * 96 * w / 8)) ((List.range 64).map row) }
/-- The fragment that a tile word uses: the latched one, else the one at its aoff, whose format `ok` admits or which gives FORMAT before
it is read (R274). -/
def withFrag (m : Mach) (x : Stream) (aoff : BitVec 10) (ok : Nat → Bool) (f : Frag → SRes) : SRes :=
  match x.latch with
  | some fr => if ok fr.fmt then f fr else .stop m 4
  | none =>
    match fragPlace m x aoff with
    | .inr c => .stop m c
    | .inl (a, vas) =>
      if !ok a.fmt then .stop m 4
      else match streamRead m x vas with
      | .wait => .stall
      | .bad c => .stop m c
      | .ok bs => f (fragOf a bs)

/-! ### Tiles (R267, R278, R280) -/

/-- The format of an acc field, its format code, the bytes of an element and the units of a tile. -/
def accFmt (acc : BitVec 2) : Fmt := if acc = 0 then fp32 else if acc = 1 then bf16 else fp16
def accCode (acc : BitVec 2) : Nat := if acc = 0 then 1 else if acc = 1 then 3 else 2
def accW (acc : BitVec 2) : Nat := if acc = 0 then 4 else 2
def tileUnits (acc : BitVec 2) : Nat := if acc = 0 then 64 else 32
/-- Product of two block elements (R42, R278). -/
def elemProd (fmt : Nat) (p q : Nat × Int) : FVal :=
  if fmt = 4 then l6Prod p.1 p.2 q.1 q.2
  else ((kDecode (fmtWidth fmt) p.1 p.2).mul (kDecode (fmtWidth fmt) q.1 q.2)).1
/-- The exact sum of products of a row and a column; a zero sum is +0 (R51). -/
def dotExact (fmt : Nat) (row col : List (Nat × Int)) : FVal :=
  let d := (List.zipWith (elemProd fmt) row col).foldl (fun s v => Dy.add s v.dy) Dy.zero
  .fin (decide (d.n < 0)) d.n.natAbs d.e
/-- An infinite C stays, a NaN gives the canonical NaN, and any other C takes the sum with one rounding (R51). -/
def accumulate (f : Fmt) (mode : RM) (c : Nat) (s : FVal) : Nat := (sumRound f mode false [f.decode c, s] false).1
/-- A tile of the accumulator store with the products of a fragment and 128 columns added. -/
def tileAdd (acc : Mem) (f : Fmt) (w : Nat) (mode : RM) (a : Nat) (fr : Frag) (cols : List (List (Nat × Int))) : Mem :=
  acc.block a ((List.range 64).flatMap (fun i => (List.range 128).flatMap (fun j =>
    leBytes w (accumulate f mode (acc.nat (a + (128 * i + j) * w) w) (dotExact fr.fmt (fr.rows.getD i []) (cols.getD j []))))))
/-- A tile word: `need` is the slot mode required, `tiles` how many tiles it writes. -/
def tileDo (m : Mach) (x : Stream) (need tiles : Nat) (r : Bool) (rnd acc : BitVec 2) (bslot : BitVec 8) (aoff coff : BitVec 10) : SRes :=
  let n := tileUnits acc
  if x.bcnt < bslot.toNat ∨ x.ccnt + 1 < coff.toNat + tiles * n then .stop m 3
  else
    let b := slotAt m x.sp (x.bbase + bslot.toNat)
    withFrag m x aoff (fun fmt => b.mode == need && b.fmt == fmt) (fun fr =>
      let base := 512 * (x.cbase + coff.toNat)
      let cols (t : Nat) : List (List (Nat × Int)) := (List.range 128).map (fun j => b.cols.getD (tiles * j + t) [])
      let m1 := m.modSp x.sp (fun s => { s with served := x.seqNo, acc := (List.range tiles).foldl (fun y t =>
        tileAdd y (accFmt acc) (accW acc) (RM.ofRnd rnd) (base + 512 * n * t) fr (cols t)) s.acc })
      .go m1 { x with latch := if r then some fr else none } none)
def execMma (r : Bool) (rnd acc : BitVec 2) (bslot : BitVec 8) (aoff coff : BitVec 10) (s : State) : Host.Outcome State Fault Refusal :=
  streamWord s (fun m _ x => tileDo m x 1 1 r rnd acc bslot aoff coff)
def execMmas (r : Bool) (rnd acc : BitVec 2) (bslot : BitVec 8) (aoff coff : BitVec 10) (sp : BitVec 4) (s : State) :
    Host.Outcome State Fault Refusal :=
  streamWord s (fun m _ x => tileDo m x (sp.toNat + 2) 1 r rnd acc bslot aoff coff)
def execMmap (r : Bool) (rnd acc : BitVec 2) (bslot : BitVec 8) (aoff coff : BitVec 10) (s : State) : Host.Outcome State Fault Refusal :=
  streamWord s (fun m _ x => tileDo m x 6 2 r rnd acc bslot aoff coff)
def mclrDo (m : Mach) (x : Stream) (acc : BitVec 2) (coff : BitVec 10) : SRes :=
  let n := tileUnits acc
  if x.ccnt + 1 < coff.toNat + n then .stop m 3
  else .go (m.modSp x.sp (fun s => { s with acc := s.acc.block (512 * (x.cbase + coff.toNat)) (List.replicate (512 * n) 0) })) x none
def execMclr (acc : BitVec 2) (coff : BitVec 10) (s : State) : Host.Outcome State Fault Refusal :=
  streamWord s (fun m _ x => mclrDo m x acc coff)

/-! ### MOUT (R281) -/

/-- Destination addresses of a tile in increasing order. -/
def moutVas (base pitch w : Nat) : List Nat := (List.range 64).flatMap (fun i => span (base + i * pitch) (128 * w))
/-- Write bytes in order: each translates by itself; the first that faults stops the rest. The code, and whether a block moves. -/
def putBytes (m : Mach) (x : Stream) : List Nat → List Byte → Mach × Option Nat
  | va :: vs, b :: bs =>
    match m.reach (x.who m) .write [va] none with
    | .ok [l] => if m.storeErr x.sp l then (m, some 8) else putBytes (m.store x.sp l b) x vs bs
    | .trap c _ _ => (m, some (streamCode c))
    | _ => (m, some 6)
  | _, _ => (m, none)
/-- Storage whose format is neither untyped nor the tile's. -/
def moutDead (m : Mach) (x : Stream) (code va : Nat) : Bool :=
  match m.attrAt (x.who m) va with
  | none => false
  | some a => (a.fmt != 0 && a.fmt != code) || a.blk == 3
def moutDo (m : Mach) (x : Stream) (coff : BitVec 10) (acc : BitVec 2) (off : BitVec 40) : SRes :=
  let w := accW acc
  let n := tileUnits acc
  let pitch := if x.cpitch = 0 then 128 * w else 64 * x.cpitch
  let vas := moutVas (x.data + off.toNat) pitch w
  if x.ccnt + 1 < coff.toNat + n then .stop m 3
  else if vas.any (moutDead m x (accCode acc)) then .stop m 4
  else if pitch < 128 * w then .stop m 5
  else if vas.any (fun va => m.translate (x.who m) .write va == .wait) then .stall
  else
    let r := putBytes m x vas ((m.spindle x.sp).acc.bytes (512 * (x.cbase + coff.toNat)) (512 * n))
    match r.2 with
    | some c => .stop r.1 c
    | none => .go r.1 x none
def execMout (coff : BitVec 10) (acc : BitVec 2) (off : BitVec 40) (s : State) : Host.Outcome State Fault Refusal :=
  streamWord s (fun m _ x => moutDo m x coff acc off)

/-! ### Barriers and control (R282, R283) -/

/-- MARRIVE: every earlier MOUT has performed, as each does in its own step. -/
def marriveDo (m : Mach) (x : Stream) (nb : BitVec 4) : SRes :=
  if !x.memb.getLsbD nb.toNat then .stop m 9
  else .go (arriveAt m x.crew nb.toNat)
    { x with arrived := x.arrived.setIfInBounds nb.toNat (some ((m.crew x.crew).bar nb.toNat).p) } none
def execMarrive (nb : BitVec 4) (s : State) : Host.Outcome State Fault Refusal := streamWord s (fun m _ x => marriveDo m x nb)
def streamMwaitDo (m : Mach) (x : Stream) (nb : BitVec 4) : SRes :=
  let k := nb.toNat
  let wc := x.wc.toList.getD k 0
  if (m.crew x.crew).nbWin ≤ k then .stop m 9
  else if gap ((m.crew x.crew).bar k).p (x.p0.toList.getD k 0) ≤ wc.toNat then .stall
  else .go m { x with wc := x.wc.setIfInBounds k (wc + 1) } none
def execStreamMwait (nb : BitVec 4) (s : State) : Host.Outcome State Fault Refusal := streamWord s (fun m _ x => streamMwaitDo m x nb)
/-- Whether a word can end a loop, MLOOP, MJMP and MEND being those that cannot; none while its fetch waits for the planer (R191). -/
def endsLoop (m : Mach) (x : Stream) (i : Int) : Option Bool :=
  match streamFetch m x i with
  | .ok bs => match streamIssueOf (BitVec.ofNat 64 (leNat bs)) with
    | .mloop _ _ => some false
    | .mjmp _ => some false
    | .mend => some false
    | _ => some true
  | .bad _ => some true
  | .wait => none
def mloopDo (m : Mach) (x : Stream) (count : BitVec 16) (off : BitVec 24) : SRes :=
  if off.toInt ≤ 0 then .stop m 2
  else if endsLoop m x (x.idx + off.toInt) = none then .stall
  else if endsLoop m x (x.idx + off.toInt) = some false then .stop m 2
  else if 4 ≤ x.loops.length then .stop m 10
  else .go m { x with loops := (count.toNat, x.idx + 1, x.idx + off.toInt) :: x.loops } none
def execMloop (count : BitVec 16) (off : BitVec 24) (s : State) : Host.Outcome State Fault Refusal :=
  streamWord s (fun m _ x => mloopDo m x count off)
def mjmpDo (m : Mach) (x : Stream) (off : BitVec 24) : SRes :=
  if off = 0 then .stop m 2 else .go m x (some (x.idx + off.toInt))
def execMjmp (off : BitVec 24) (s : State) : Host.Outcome State Fault Refusal := streamWord s (fun m _ x => mjmpDo m x off)
def execMnop (s : State) : Host.Outcome State Fault Refusal := streamWord s (fun m _ x => .go m x none)
/-- MEND: the stream ends, or posts NEXT and waits on q4 (R275, R283). -/
def execMend (s : State) : Host.Outcome State Fault Refusal :=
  match s.act with
  | .stream k =>
    match s.m.streams.find k with
    | none => .refused .notEnabled
    | some x =>
      .next ⟨(if x.serv && (s.m.gang x.gang).life != .ended then
          postStream s.m k { x with loops := [], waitQ := true } (seqWord x 1) false
        else postStream s.m k x (seqWord x 0) true).settle, .idle⟩
  | _ => .refused .notEnabled
/-- A word that the sequencer cannot execute (R67). -/
def execIllegalStreamWord (_ : BitVec 64) (s : State) : Host.Outcome State Fault Refusal := streamWord s (fun m _ _ => .stop m 2)

/-! ### A word as the sequencer is to execute it -/

/-- What a stream word does. -/
def streamDo (m : Mach) (x : Stream) (i : Instr) : SRes :=
  match i with
  | .mldb b off => mldbDo m x b off
  | .mma r rnd acc b a c => tileDo m x 1 1 r rnd acc b a c
  | .mmas r rnd acc b a c sp => tileDo m x (sp.toNat + 2) 1 r rnd acc b a c
  | .mmap r rnd acc b a c => tileDo m x 6 2 r rnd acc b a c
  | .mclr acc c => mclrDo m x acc c
  | .mout c acc off => moutDo m x c acc off
  | .marrive nb => marriveDo m x nb
  | .streamMwait nb => streamMwaitDo m x nb
  | .mloop n off => mloopDo m x n off
  | .mjmp off => mjmpDo m x off
  | .mnop => .go m x none
  | .mend => .go m x none
  | _ => .stop m 2

/-! ### Whose tile word the array takes (R286) -/

/-- Whether a stream has a tile word next, and could execute it. -/
def tileNext (m : Mach) (x : Stream) : Bool :=
  !x.waitQ && x.post.isNone && match streamFetch m x x.idx with
    | .ok bs => match streamIssueOf (BitVec.ofNat 64 (leNat bs)) with
      | .mma _ _ _ _ _ _ => true
      | .mmas _ _ _ _ _ _ _ => true
      | .mmap _ _ _ _ _ _ => true
      | _ => false
    | _ => false
/-- The place of a sequencer in the array's turn, which starts after the one that it served last. -/
def tilePlace (m : Mach) (x : Stream) : Nat := (x.seqNo + 7 - (m.spindle x.sp).served) % 4
/-- Whether a stream's next word waits for the tile word of another sequencer of its array. -/
def tileWaits (m : Mach) (x : Stream) : Bool :=
  tileNext m x && m.streams.any (fun y => y.2.sp == x.sp && tileNext m y.2 && decide (tilePlace m y.2 < tilePlace m x))

/-! ### SERVICE_RESTART (R275) -/

/-- A service stream that waits takes the next q4 entry of its gang, once the accesses before its push have performed (R230), or ends with a
gang that has exited (DEDUCED, log 38). -/
def serviceRestart (m : Mach) (k : Nat) : Option Mach :=
  match m.streams.find k with
  | none => none
  | some x =>
    if !x.waitQ || x.post.isSome then none
    else if (m.gang x.gang).life = .ended then some (postStream m k x (seqWord x 0) true)
    else match (m.gang x.gang).q4 with
    | [] => none
    | e :: r =>
      let m1 := m.modGang x.gang (fun g => { g with q4 := r, q4at := g.q4at.tail })
      if gangBusyBefore m x.gang ((m.gang x.gang).q4at.headD 0) then none
      else if e.getLsbD 63 then some (postStream m1 k x (seqWord x 0) true)
      else if e.toNat % 64 ≠ 0 then some (stopStream m1 k x 5)
      else some { m1 with streams := m1.streams.put k { x with data := e.toNat, idx := 0, waitQ := false, got := false, out := 0 } }
def execServiceRestart (k : Nat) (s : State) : Host.Outcome State Fault Refusal := event s (fun m => serviceRestart m k)
/-- A status word that waited for room in q5 is posted (R273). -/
def postPending (m : Mach) : Option Mach :=
  match m.streams.find? (fun y => y.2.post.isSome && ((m.gang y.2.gang).life == .ended || decide ((m.gang y.2.gang).q5.length < 16))) with
  | none => none
  | some (k, x) => x.post.map (fun w => postStream m k x w x.ending)

end Sys2Proof.Machine
end

