-- ==== Sys2Proof/Machine/Mem.lean ====
section
/-! DEFINITION. Loads and stores (R89 to R101), atomics and reductions at memory (R212 to R217), ACQ, REL and FENCE (R221 to R225),
and prefetch and cache maintenance (R218). -/

namespace Sys2Proof.Machine

/-! ### The access that a memory word makes for a lane -/

/-- How a word reaches memory for a thread at an address, and the result or request that it then sends; both read the machine in which
the access is checked. A reissued access (R330, R375) uses the same two. -/
structure MemOp where
  reach : Mach → Nat → BitVec 64 → Reach
  send : Mach → Nat → Nat → BitVec 64 → List Word → List Loc → Mach → Mach

/-- An untyped access of n aligned bytes (R92, R95). -/
def plainReach (k : AKind) (n al : Nat) (m : Mach) (u : Nat) (va : BitVec 64) : Reach := accessAt m u k va n al
/-- A load of register d, n registers. -/
def sendLoad (w : Word) (d : Reg) (n : Nat) (cv : Conv) (_ : Mach) (gang u : Nat) (va : BitVec 64) (_ : List Word) (ls : List Loc) (m : Mach) : Mach :=
  m.addRes { seq := 0, us := [u], gang := gang, dst := d, n := n, src := .load ls cv, va := va, word := w }
/-- A request of thread u. -/
def reqOf (m : Mach) (w : Word) (r : Reg) (gang u : Nat) (va : BitVec 64) (data : List Word) (ls : List Loc) (k : ReqK) (sc : Nat) : Req :=
  { seq := 0, u := u, gang := gang, sp := (m.gang gang).sp, kind := k, ls := ls, va := va, scope := sc, word := w, data := data, regs := r }
/-- Words as one number, the first lowest. -/
def wordsNat (ws : List Word) : Nat := ws.foldr (fun w x => w.toNat + 2 ^ 32 * x) 0
/-- A store of the lowest n bytes of its data. -/
def sendStore (w : Word) (vs : Reg) (n : Nat) (_ : Mach) (gang u : Nat) (va : BitVec 64) (data : List Word) (ls : List Loc) (m : Mach) : Mach :=
  m.addReq (reqOf m w vs gang u va data ls (.store (wordsNat data % 2 ^ (8 * n)) (2 ^ (8 * n) - 1)) 0)
/-- Before an atomic is sent, its sector leaves the L1 of the issuing spindle (R213). -/
def Mach.dropSector (m : Mach) (gang : Nat) (ls : List Loc) : Mach := m.l1Clean (m.gang gang).sp true (lineIn ls)
/-- A request whose old value returns in n registers from d. -/
def sendRmw (w : Word) (d : Reg) (n : Nat) (k : List Word → ReqK) (sc : Nat) (_ : Mach) (gang u : Nat) (va : BitVec 64)
    (data : List Word) (ls : List Loc) (m : Mach) : Mach :=
  ((m.dropSector gang ls).addReq (reqOf m w d gang u va data ls (k data) sc)).addRes
    { seq := 0, us := [u], gang := gang, dst := d, n := n, src := .req m.seq, va := va, word := w }

/-! ### Typed access (R97 to R101) -/

/-- The bytes of element A - origin, the scale byte last where there is one, and how they decode; none where the storage admits no
typed word. -/
def typedLay (a : Attr) (va : Nat) : Option (List Nat × Conv) :=
  let i := va - a.origin
  let sc := a.origin + a.soff + i / blkLen a.blk
  if a.fmt = 0 ∨ a.fmt = 7 ∨ a.blk = 3 ∨ a.sparse = 5 then none
  else if a.sparse ≠ 0 then
    let n := sparseN a.sparse
    some (span (a.origin + i / 12 * groupBytes a.fmt n) (groupBytes a.fmt n) ++ [sc], .sparse a.fmt n (i % 12))
  else match a.fmt with
  | 1 => some (span (a.origin + 4 * i) 4, .typed 1 0)
  | 2 => some (span (a.origin + 2 * i) 2, .typed 2 0)
  | 3 => some (span (a.origin + 2 * i) 2, .typed 3 0)
  | 4 => some (span (a.origin + 3 * (i / 4)) 3 ++ [sc], .typed 4 (6 * (i % 4)))
  | 5 => some ([a.origin + i, sc], .typed 5 0)
  | _ => some ([a.origin + i / 2, sc], .typed 6 (4 * (i % 2)))
/-- Whether a conversion's last byte is a scale. -/
def Conv.scaled : Conv → Bool
  | .typed fmt _ => isBlock fmt
  | .sparse _ _ _ => true
  | _ => false
/-- A typed access: FORMAT where the storage admits none (with %trapi at A), RANGE_MISS where a byte leaves the range or segment. A
store writes the element and reads the scale. Storage that R97 gives no row has no bytes to check: RANGE_MISS, RANGE_PERM and
RESIDENCY are then judged on byte A (DESIGN CHOICE, log 39). -/
def typedReach (st : Bool) (m : Mach) (u : Nat) (va : BitVec 64) : Reach :=
  let w := m.who u
  let k := if st then AKind.write else AKind.read
  match (m.attrAt w va.toNat).bind (fun a => (typedLay a va.toNat).map (fun l => (a, l))) with
  | none => m.reach w k [va.toNat] (some va.toNat)
  | some (a, bs, cv) =>
    match bs.find? (fun b => decide (b < a.origin) || decide (a.lim ≤ b)) with
    | some b => .trap .rangeMiss (b % 2 ^ 32) b
    | none =>
      let body := if cv.scaled then bs.dropLast else bs
      let tail := if cv.scaled then bs.drop (bs.length - 1) else []
      m.reachOf w false (body.map (fun b => (b, m.translate w k b)) ++ tail.map (fun b => (b, m.translate w .read b)))
        (if st && a.sparse != 0 then some va.toNat else none)
/-- How the element at an address decodes. -/
def typedConv (m : Mach) (u : Nat) (va : BitVec 64) : Conv :=
  (((m.attrAt (m.who u) va.toNat).bind (fun a => typedLay a va.toNat)).map (·.2)).getD (.typed 1 0)
def sendTyped (w : Word) (d : Reg) (p : Mach) (gang u : Nat) (va : BitVec 64) (data : List Word) (ls : List Loc) (m : Mach) : Mach :=
  sendLoad w d 1 (typedConv p u va) p gang u va data ls m
/-- ST.T into FP32, FP16 or BF16 is a plain store of the encoding; into a block format it reads the scale as it performs (R99). -/
def sendTypedStore (w : Word) (vs : Reg) (p : Mach) (gang u : Nat) (va : BitVec 64) (data : List Word) (ls : List Loc) (m : Mach) :
    Mach :=
  let x := wordsNat data
  match typedConv p u va with
  | .typed fmt sub =>
    if isBlock fmt then m.addReq (reqOf m w vs gang u va data ls (.typed fmt sub x) 0)
    else if fmt = 1 then m.addReq (reqOf m w vs gang u va data ls (.store x (2 ^ 32 - 1)) 0)
    else m.addReq (reqOf m w vs gang u va data ls (.store (cvtFF fp32 (fltOf fmt) .rne false x).1 (2 ^ 16 - 1)) 0)
  | _ => m

/-- The record loads of a CPYT, issued again at ERET: its command, which a freeze has left without them, has them again (R375). -/
def sendRecord (_ : Mach) (_ u : Nat) (va : BitVec 64) (_ : List Word) (ls : List Loc) (m : Mach) : Mach :=
  { m with pushes := m.pushes.map (fun p => match p.k with
      | .cpytR cw w v a none => if v = u ∧ a = va then { p with k := .cpytR cw w v a (some ls) } else p
      | _ => p) }

/-! ### The operation of each word -/

/-- The access of a memory word, for its first issue and for a reissue. -/
def memOpOf (i : Instr) : Option MemOp :=
  let w := wordOf i
  match i with
  | .ldB _ d _ _ => some ⟨plainReach .read 1 1, sendLoad w d 1 (.sext 8)⟩
  | .ldBu _ d _ _ => some ⟨plainReach .read 1 1, sendLoad w d 1 .zext⟩
  | .ldH _ d _ _ => some ⟨plainReach .read 2 2, sendLoad w d 1 (.sext 16)⟩
  | .ldHu _ d _ _ => some ⟨plainReach .read 2 2, sendLoad w d 1 .zext⟩
  | .ldW _ d _ _ => some ⟨plainReach .read 4 4, sendLoad w d 1 (.words 1)⟩
  | .ldD _ d _ _ => some ⟨plainReach .read 8 8, sendLoad w d 2 (.words 2)⟩
  | .ldQ _ d _ _ => some ⟨plainReach .read 16 16, sendLoad w d 4 (.words 4)⟩
  | .ldT _ d _ _ => some ⟨typedReach false, sendTyped w d⟩
  | .stB _ vs _ _ => some ⟨plainReach .write 1 1, sendStore w vs 1⟩
  | .stH _ vs _ _ => some ⟨plainReach .write 2 2, sendStore w vs 2⟩
  | .stW _ vs _ _ => some ⟨plainReach .write 4 4, sendStore w vs 4⟩
  | .stD _ vs _ _ => some ⟨plainReach .write 8 8, sendStore w vs 8⟩
  | .stQ _ vs _ _ => some ⟨plainReach .write 16 16, sendStore w vs 16⟩
  | .stT _ vs _ _ => some ⟨typedReach true, sendTypedStore w vs⟩
  | .atom _ d _ w8 op sc =>
    some ⟨plainReach .atomic (if w8 then 8 else 4) (if w8 then 8 else 4),
      sendRmw w d (if w8 then 2 else 1) (fun xs => .atom op.toNat w8 (wordsNat xs)) sc.toNat⟩
  | .acas _ d _ w8 sc =>
    let n := if w8 then 2 else 1
    some ⟨plainReach .atomic (4 * n) (4 * n),
      sendRmw w d n (fun xs => .acas w8 (wordsNat (xs.take n)) (wordsNat (xs.drop n))) sc.toNat⟩
  | .fred _ vs _ op fmt sc =>
    some ⟨plainReach .atomic 4 4, fun _ gang u va data ls m =>
      ((m.dropSector gang ls).addReq (reqOf m w vs gang u va data ls (.fred op.toNat fmt.toNat (wordsNat data)) sc.toNat)).addRes
        { seq := 0, us := [u], gang := gang, dst := vs, n := 0, src := .val [], va := va, word := w }⟩
  | .chunk _ d _ => some ⟨plainReach .atomic 16 16, sendRmw w d 2 (fun _ => .chunk) 0⟩
  | .acq _ d _ sc =>
    some ⟨plainReach .atomic 4 4, fun p gang u va _ ls m =>
      m.addRes { seq := 0, us := [u], gang := gang, dst := d, n := 1, src := .acq ls (p.covers (p.ctxOfGang gang) va.toNat sc.toNat),
                 va := va, word := w }⟩
  | .rel _ vs _ sc =>
    some ⟨plainReach .atomic 4 4, fun p gang u va data ls m =>
      m.addReq (reqOf m w vs gang u va data ls (.rel (wordsNat data) (p.covers (p.ctxOfGang gang) va.toNat sc.toNat)) sc.toNat)⟩
  | .waitc _ d _ _ =>
    some ⟨plainReach .read 4 4, fun _ gang u va data ls m =>
      m.addRes { seq := 0, us := [u], gang := gang, dst := d, n := 1, src := .waitc ls (data.headD 0), va := va, word := w }⟩
  | .cpyt _ _ _ _ => some ⟨plainReach .read 192 64, sendRecord⟩
  | _ => none
/-- The operands that the access takes with it: stored data, or the operands of an atomic (R330). -/
def memData (i : Instr) (t : Thread) : List Word :=
  match i with
  | .stB _ vs _ _ => [t.rd vs]
  | .stH _ vs _ _ => [t.rd vs]
  | .stW _ vs _ _ => [t.rd vs]
  | .stD _ vs _ _ => t.rdN vs 2
  | .stQ _ vs _ _ => t.rdN vs 4
  | .stT _ vs _ _ => [t.rd vs]
  | .atom _ d _ w8 _ _ => t.rdN d (if w8 then 2 else 1)
  | .acas _ d _ w8 _ => t.rdN d (if w8 then 4 else 2)
  | .fred _ vs _ _ _ _ => [t.rd vs]
  | .rel _ vs _ _ => [t.rd vs]
  | .waitc _ _ _ b => [t.rd b]
  | _ => []
/-- The address that it names (R89, R114, R212). -/
def memAddr (i : Instr) (t : Thread) : BitVec 64 :=
  match i with
  | .ldB _ _ base off => effAddr t base off
  | .ldBu _ _ base off => effAddr t base off
  | .ldH _ _ base off => effAddr t base off
  | .ldHu _ _ base off => effAddr t base off
  | .ldW _ _ base off => effAddr t base off
  | .ldD _ _ base off => effAddr t base off
  | .ldQ _ _ base off => effAddr t base off
  | .ldT _ _ base off => effAddr t base off
  | .stB _ _ base off => effAddr t base off
  | .stH _ _ base off => effAddr t base off
  | .stW _ _ base off => effAddr t base off
  | .stD _ _ base off => effAddr t base off
  | .stQ _ _ base off => effAddr t base off
  | .stT _ _ base off => effAddr t base off
  | .atom _ _ a _ _ _ => t.rdPair a
  | .acas _ _ a _ _ => t.rdPair a
  | .fred _ _ a _ _ _ => t.rdPair a
  | .chunk _ _ a => t.rdPair a
  | .acq _ _ a _ => t.rdPair a
  | .rel _ _ a _ => t.rdPair a
  | .waitc _ _ a _ => t.rdPair a
  | _ => 0
/-- The registers that join the pending set: the destinations, and the source of a FRED (R24, R215). -/
def memPend (i : Instr) : List Reg :=
  match i with
  | .fred _ vs _ _ _ _ => [vs]
  | _ => Instr.dests i

/-! ### DETERM (R335) -/

/-- The window bits of an address. -/
def windowOf (va : BitVec 64) : Nat := (va.extractLsb' 48 8).toNat
/-- Whether a word traps with DETERM in a deterministic region. -/
def determWord (i : Instr) (va : BitVec 64) : Bool :=
  let flt (sc : Nat) := decide (windowOf va ≤ 0xFC) || (decide (0xFE ≤ windowOf va) && decide (1 ≤ sc))
  match i with
  | .atom _ _ _ _ op sc => if 10 ≤ op.toNat then flt sc.toNat else decide (2 ≤ sc.toNat)
  | .acas _ _ _ _ sc => decide (2 ≤ sc.toNat)
  | .fred _ _ _ _ fmt sc => if fmt = 3 then decide (2 ≤ sc.toNat) else flt sc.toNat
  | .chunk _ _ _ => windowOf va != 0xFF
  | _ => false

/-! ### The shape of a memory word -/

/-- The access that a word makes for lane u. -/
def memReach (i : Instr) (g : Group) (u : Nat) : Reach :=
  match memOpOf i with
  | none => .ok []
  | some o => o.reach g.pre u (memAddr i (g.pre.thr u))
/-- DETERM, then the checks of R95. -/
def chkMem (i : Instr) (g : Group) (u : Nat) : Option Trap :=
  if g.pre.detOf u && determWord i (memAddr i (g.pre.thr u)) then some { cause := .determ, info := wordOf i }
  else (memReach i g u).trapOf
/-- Accesses wait for an outstanding ACQ (R222), for the planer (R191), and behind 64 held accesses (R327). -/
def stallMem (i : Instr) (g : Group) : Bool :=
  acqStall g || g.run.any (fun u => (memReach i g u).waits) || heldStall g (heldLanes g (memReach i g))
/-- Send the access of lane u, and number the word's requests alike (R214). -/
def sendMem (i : Instr) (g : Group) (m : Mach) : Mach :=
  let m1 := m.onRun g.run (fun _ t => t.pendSet (memPend i))
  (eachLane g m1 (fun x u =>
    match memOpOf i with
    | none => x
    | some o => o.send g.pre g.gang u (memAddr i (g.pre.thr u)) (memData i (g.pre.thr u)) (memReach i g u).locs x)).nextWord
/-- A memory word: each lane's access is checked, and it goes on its way in ascending lane order (R94, R214, R225). -/
def memWord (h : Hdr) (i : Instr) (s : State) : Host.Outcome State Fault Refusal :=
  gangWord h i s (chkMem i) (stallMem i) .stalled (fun g m => (sendMem i g m, g))

/-! ### Loads and stores -/

def execLdB (h : Hdr) (d base : Reg) (off : BitVec 12) (s : State) : Host.Outcome State Fault Refusal := memWord h (.ldB h d base off) s
def execLdBu (h : Hdr) (d base : Reg) (off : BitVec 12) (s : State) : Host.Outcome State Fault Refusal := memWord h (.ldBu h d base off) s
def execLdH (h : Hdr) (d base : Reg) (off : BitVec 12) (s : State) : Host.Outcome State Fault Refusal := memWord h (.ldH h d base off) s
def execLdHu (h : Hdr) (d base : Reg) (off : BitVec 12) (s : State) : Host.Outcome State Fault Refusal := memWord h (.ldHu h d base off) s
def execLdW (h : Hdr) (d base : Reg) (off : BitVec 12) (s : State) : Host.Outcome State Fault Refusal := memWord h (.ldW h d base off) s
def execLdD (h : Hdr) (d base : Reg) (off : BitVec 12) (s : State) : Host.Outcome State Fault Refusal := memWord h (.ldD h d base off) s
def execLdQ (h : Hdr) (d base : Reg) (off : BitVec 12) (s : State) : Host.Outcome State Fault Refusal := memWord h (.ldQ h d base off) s
def execLdT (h : Hdr) (d base : Reg) (off : BitVec 12) (s : State) : Host.Outcome State Fault Refusal := memWord h (.ldT h d base off) s
def execStB (h : Hdr) (vs base : Reg) (off : BitVec 12) (s : State) : Host.Outcome State Fault Refusal := memWord h (.stB h vs base off) s
def execStH (h : Hdr) (vs base : Reg) (off : BitVec 12) (s : State) : Host.Outcome State Fault Refusal := memWord h (.stH h vs base off) s
def execStW (h : Hdr) (vs base : Reg) (off : BitVec 12) (s : State) : Host.Outcome State Fault Refusal := memWord h (.stW h vs base off) s
def execStD (h : Hdr) (vs base : Reg) (off : BitVec 12) (s : State) : Host.Outcome State Fault Refusal := memWord h (.stD h vs base off) s
def execStQ (h : Hdr) (vs base : Reg) (off : BitVec 12) (s : State) : Host.Outcome State Fault Refusal := memWord h (.stQ h vs base off) s
def execStT (h : Hdr) (vs base : Reg) (off : BitVec 12) (s : State) : Host.Outcome State Fault Refusal := memWord h (.stT h vs base off) s

/-! ### Atomics, reductions and chunks (R212 to R217) -/

def execAtom (h : Hdr) (d a : Reg) (w : Bool) (op : BitVec 4) (sc : BitVec 3) (s : State) : Host.Outcome State Fault Refusal :=
  memWord h (.atom h d a w op sc) s
def execAcas (h : Hdr) (d a : Reg) (w : Bool) (sc : BitVec 3) (s : State) : Host.Outcome State Fault Refusal :=
  memWord h (.acas h d a w sc) s
def execFred (h : Hdr) (vs a : Reg) (op fmt : BitVec 2) (sc : BitVec 3) (s : State) : Host.Outcome State Fault Refusal :=
  memWord h (.fred h vs a op fmt sc) s
def execChunk (h : Hdr) (d a : Reg) (s : State) : Host.Outcome State Fault Refusal := memWord h (.chunk h d a) s

/-! ### ACQ, REL and FENCE (R221 to R225) -/

def execAcq (h : Hdr) (d a : Reg) (sc : BitVec 3) (s : State) : Host.Outcome State Fault Refusal := memWord h (.acq h d a sc) s
def execRel (h : Hdr) (vs a : Reg) (sc : BitVec 3) (s : State) : Host.Outcome State Fault Refusal := memWord h (.rel h vs a sc) s
/-- FENCE waits for every access that its threads have made in earlier groups (R224) (DESIGN CHOICE, log 99). -/
def stallFence (g : Group) : Bool := g.run.any g.pre.busy
def execFence (h : Hdr) (sc : BitVec 3) (s : State) : Host.Outcome State Fault Refusal :=
  gangWord h (.fence h sc) s noCause stallFence .stalled (fun g m =>
    (if g.run.isEmpty then m else m.fenceL1 g.sp g.ctx sc.toNat, g))

/-! ### PREF, CFLUSH and CINV (R218) -/

/-- Send a flush of each lane's span; it performs as any request does. -/
def flushWord (h : Hdr) (i : Instr) (inv : Bool) (sc : BitVec 3) (a b : Reg) (s : State) : Host.Outcome State Fault Refusal :=
  gangWord h i s noCause acqStall .stalled (fun g m =>
    let m1 := eachLane g m (fun x u => x.addReq (reqOf x (wordOf i) a g.gang u ((g.pre.thr u).rdPair a) [] []
      (.flush inv sc.toNat g.ctx ((g.pre.thr u).rd b).toNat) sc.toNat))
    (m1.nextWord, g))
def execCflush (h : Hdr) (sc : BitVec 3) (a b : Reg) (s : State) : Host.Outcome State Fault Refusal :=
  flushWord h (.cflush h sc a b) false sc a b s
def execCinv (h : Hdr) (sc : BitVec 3) (a b : Reg) (s : State) : Host.Outcome State Fault Refusal :=
  flushWord h (.cinv h sc a b) true sc a b s
/-- PREF only asks: which block a cache then holds is not architected (R211). -/
def execPref (h : Hdr) (lv : BitVec 6) (a : Reg) (s : State) : Host.Outcome State Fault Refusal :=
  gangWord h (.pref h lv a) s noCause acqStall .stalled (fun g m => (m, g))

end Sys2Proof.Machine
end

