-- ==== Sys2Proof/Machine/Resume.lean ====
section
/-! DEFINITION. ERET (R318), and accesses that issue again, at ERET (R375) and after a restore (R330). -/

namespace Sys2Proof.Machine

/-- Take an entry out of its gang's replay list. -/
def dropReplay (m : Mach) (gang : Nat) (e : Replay) : Mach := m.modGang gang (fun g => { g with replay := g.replay.erase e })
/-- Entries that stay in a list while others have issued again take new places in program order, in turn: they come after those (R16). -/
def renumber (m : Mach) (gang : Nat) (p : Replay → Bool) : Mach :=
  { m.modGang gang (fun g => { g with replay := sortBy (fun a b => decide (a.seq ≤ b.seq)) (g.replay.zipIdx.map (fun e =>
      if p e.1 then { e.1 with seq := m.seq + e.2 } else e.1)) }) with seq := m.seq + (m.gang gang).replay.length }
/-- Issue the access of an entry whose bytes are reached: it leaves the list, and its registers join the pending set as at a first
issue. Its request counts to the word that made it, whose other lanes it stays in order with (R214, R299). -/
def sendReplay (m : Mach) (gang : Nat) (e : Replay) (o : MemOp) (ls : List Loc) : Mach :=
  let m1 := (dropReplay m gang e).modThr e.u (fun t => t.pendSet (memPend (issueOf e.word)))
  let m2 := o.send m gang e.u e.va e.data ls { m1 with wordNo := e.wordNo }
  { m2 with wordNo := m.wordNo, reqs := if e.scat then m2.reqs.map (fun q => if m.seq ≤ q.seq then { q with scat := true } else q) else m2.reqs }
/-- What an entry's reissue reaches. -/
def replayReach (m : Mach) (e : Replay) : Reach :=
  match memOpOf (issueOf e.word) with
  | none => .ok []
  | some o => o.reach m e.u e.va
/-- Entries of a lane with F = 1, in record order. -/
def Mach.owedBy (m : Mach) (u : Nat) : List Replay := (m.gangOf u).replay.filter (fun e => e.f && e.u == u)
/-- Issue entries in order; the first whose reissue traps stays, with those after it. -/
def reissue (m : Mach) (gang : Nat) : List Replay → Mach × Option Trap
  | [] => (m, none)
  | e :: r =>
    match memOpOf (issueOf e.word) with
    | none => reissue (dropReplay m gang e) gang r
    | some o => match o.reach m e.u e.va with
      | .ok ls => reissue (sendReplay m gang e o ls) gang r
      | x => (m, x.trapOf)
/-- ERET outside handler mode traps with PRIV (R318), and where %trapa names no packet start with PACKET (R21, R56). -/
def chkEret (h : Hdr) (g : Group) (u : Nat) : Option Trap :=
  if (g.pre.thr u).h then targetTrap ((Pos.ofWord (g.pre.thr u).trapa).pkt.setWidth 64)
  else some { cause := .priv, info := wordOf (.eret h) }
/-- A lane's ERET waits for the planer where an access that it issues again meets a moving block. -/
def Mach.eretHeld (m : Mach) (u : Nat) : Bool := (m.owedBy u).any (fun e => (replayReach m e).waits)
/-- ERET waits for the pending sets to empty, and for the planer. -/
def stallEret (g : Group) : Bool := pendStall g || g.run.any g.pre.eretHeld
/-- A lane returns: H := 0, its entries with F = 1 issue again, and it resumes once their results have returned. An entry whose
reissue traps leaves %trapa unchanged; where the trap goes to system software, the lane parks at its ERET, in sub-gang n (R321, R375)
(DEDUCED, log 48). -/
def eretLane (gang n : Nat) (m : Mach) (u : Nat) : Mach :=
  let t0 := m.thr u
  let x := reissue (m.modThr u (fun t => { t with h := false, pend := 0, stat := .eretWait })) gang (m.owedBy u)
  let m1 := renumber x.1 gang (fun e => e.u == u && e.f)
  match x.2 with
  | none => x.1
  | some tr =>
    if tr.cause.route = .system then m1.modThr u (fun t => { t with h := true, stat := .subgang n tr.cause tr.va })
    else m1.modThr u (fun t => { t with stat := .trapping tr t0.trapa })
/-- Lanes of one ERET return; those of them that park form one sub-gang, the next (R321). -/
def eretLanes (m : Mach) (gang : Nat) (us : List Nat) : Mach :=
  let m1 := us.foldl (eretLane gang m.subs) m
  { m1 with subs := if us.any (fun u => (m1.thr u).stat.sub == some m.subs) then m.subs + 1 else m.subs }
/-- The lanes of a run return together: at once where the ERET ends its group and nothing is outstanding, else once the group has ended
(DEDUCED, log 41). -/
def execEret (h : Hdr) (s : State) : Host.Outcome State Fault Refusal :=
  gangWord h (.eret h) s (chkEret h) stallEret .stalled (fun g m =>
    if g.rest.tail.isEmpty && g.run.all (fun u => !m.waiting u) then (eretLanes m g.gang g.run, { g with held := g.run ++ g.held })
    else (m, g.leave g.run (fun _ => .eret g.run)))

/-! ### Accesses that a restore issues again (R330) -/

/-- A thread whose reissued access met a cause: it traps where it stands, and the access is issued again at its ERET. -/
def Thread.replayTrap (t : Thread) (tr : Trap) : Thread :=
  match t.stat with
  | .eretWait => { t with stat := .trapping tr t.trapa }
  | .trapping _ _ => t.defer ⟨tr.cause, tr.info, 0⟩
  | .subgang _ _ _ => t.defer ⟨tr.cause, tr.info, 0⟩
  | _ => { t with stat := .trapping tr (resumeWord t.pos 0 tr) }
/-- Tell system software, once, of an entry that meets RESIDENCY or WATCH. -/
def tellReplay (m : Mach) (gang : Nat) (e : Replay) (tr : Trap) : Mach :=
  if e.told then m
  else
    let g := m.gang gang
    let r := m.region g.region
    let m1 := postFault m tr.va.toNat r.ctx r.rcb.fdom tr.cause.code g.sp g.slot (1#32 <<< (m.thr e.u).lane) m.subs
    { m1 with subs := m1.subs + 1 }.modGang gang (fun x => { x with replay := x.replay.map (fun y => if y = e then { y with told := true } else y) })
/-- Issue a restored gang's entries with F = 0, in record order, as far as they go. Where one meets a cause, it and what its thread has
still to issue after it wait for the ERET, so that they stay in program order (R16, R375). -/
def reissue0 (m : Mach) (gang : Nat) : List Replay → Mach
  | [] => m
  | e :: r =>
    if e.f || !(m.gang gang).replay.contains e then reissue0 m gang r
    else match memOpOf (issueOf e.word) with
    | none => reissue0 (dropReplay m gang e) gang r
    | some o => match o.reach m e.u e.va with
      | .ok ls => reissue0 (sendReplay m gang e o ls) gang r
      | .wait => m
      | .trap c i va =>
        let tr : Trap := { cause := c, info := BitVec.ofNat 32 i, va := BitVec.ofNat 64 va }
        if c.route = .system then tellReplay m gang e tr
        else reissue0 ((m.modGang gang (fun x => { x with replay := x.replay.map (fun y => if y.u = e.u then { y with f := true } else y) })).modThr
          e.u (fun t => t.replayTrap tr)) gang r
/-- A gang that has accesses to issue again before its first group. -/
def Gang.reissuing (g : Gang) : Bool := g.life == .live && g.replay.any (fun e => !e.f)

end Sys2Proof.Machine
end

