-- ==== Sys2Proof/Machine/Cross.lean ====
section
/-! DEFINITION. The cross-lane words (R166 to R174), PERMB (R175) and REGROUP (R180, R181). -/

namespace Sys2Proof.Machine

/-! ### The run of a reading lane, and the fill value (R160, R166) -/

/-- The run that a cross-lane word of lane u sees: in a spawn gang of a deterministic region the lane alone (R160). -/
def Group.xrun (g : Group) (u : Nat) : List Nat := if g.spawn && g.det then [u] else g.run
/-- The lane of a thread. -/
def Group.lane (g : Group) (u : Nat) : Nat := (g.pre.thr u).lane
/-- The thread of that run in a lane. -/
def Group.src (g : Group) (u l : Nat) : Option Nat := (g.xrun u).find? (fun w => g.lane w == l)
/-- A register of a thread as the group reads it. -/
def Group.rd (g : Group) (u : Nat) (r : Reg) : Word := (g.pre.thr u).rd r
/-- Fill (R166). -/
def Group.fill (g : Group) (f : Bool) (a : Reg) (u : Nat) : Word := if f then g.rd u a else 0
/-- A cross-lane word: one long result for each lane, fixed at issue (R167). -/
def crossWord (h : Hdr) (i : Instr) (s : State) (d : Reg) (f : Group → Nat → Word) : Host.Outcome State Fault Refusal :=
  gangWord h i s noCause noStall .stalled (fun g m => (longVal g m d 1 (wordOf i) (fun u => [f g u]), g))
/-- The same mask of lanes for every reading lane of one run. -/
def Group.ballot (g : Group) (u : Nat) (p : Nat → Bool) : Word := g.pre.laneMask ((g.xrun u).filter p)

/-! ### Shuffles, gathers, votes, ballots, matches, compactions (R169 to R172) -/

/-- v[a] of the source lane, or the fill value. -/
def shuffled (g : Group) (f : Bool) (a : Reg) (u : Nat) (src : Option Nat) : Word :=
  match src.bind (g.src u) with
  | some w => g.rd w a
  | none => g.fill f a u
def execXshuf (h : Hdr) (d a b : Reg) (f : Bool) (s : State) : Host.Outcome State Fault Refusal :=
  crossWord h (.xshuf h d a b f) s d (fun g u =>
    let k := (g.rd u b).toNat
    shuffled g f a u (if k < 32 then some k else none))
/-- Source(i) of XSHUFI (R169). -/
def patSource (imm : BitVec 6) (i : Nat) : Option Nat :=
  let e := 2 ^ (imm.extractLsb' 0 3).toNat
  if imm.getLsbD 5 then some (imm.extractLsb' 0 5).toNat
  else match (imm.extractLsb' 3 2).toNat with
  | 0 => some (i ^^^ e)
  | 1 => if e ≤ i then some (i - e) else none
  | 2 => if i + e ≤ 31 then some (i + e) else none
  | _ => some ((i + e) % 32)
def execXshufi (h : Hdr) (d a : Reg) (imm : BitVec 6) (f : Bool) (s : State) : Host.Outcome State Fault Refusal :=
  crossWord h (.xshufi h d a imm f) s d (fun g u => shuffled g f a u (patSource imm (g.lane u)))
/-- Byte m of a word. -/
def byteOf (w : Word) (m : Nat) : Nat := bitsOf w.toNat (8 * m) 8
/-- A word from its four bytes. -/
def wordOfBytes (f : Nat → Nat) : Word := BitVec.ofNat 32 (f 0 + f 1 * 2 ^ 8 + f 2 * 2 ^ 16 + f 3 * 2 ^ 24)
def execXgath (h : Hdr) (d a b : Reg) (f : Bool) (s : State) : Host.Outcome State Fault Refusal :=
  crossWord h (.xgath h d a b f) s d (fun g u =>
    let k := (g.rd u b).toNat
    wordOfBytes (fun m =>
      match if k + m > 127 then none else g.src u ((k + m) / 4) with
      | none => byteOf (g.fill f a u) m
      | some w => byteOf (g.rd w a) ((k + m) % 4)))
def execXvote (h : Hdr) (d a : Reg) (imm : BitVec 6) (s : State) : Host.Outcome State Fault Refusal :=
  crossWord h (.xvote h d a imm) s d (fun g u =>
    let xs := (g.xrun u).map (fun w => g.rd w a)
    let r := match imm.toNat with
      | 0 => xs.all (· != 0)
      | 1 => xs.any (· != 0)
      | _ => xs.all (· == xs.headD 0)
    if r then 1 else 0)
def execXballot (h : Hdr) (d a : Reg) (s : State) : Host.Outcome State Fault Refusal :=
  crossWord h (.xballot h d a) s d (fun g u => g.ballot u (fun w => g.rd w a != 0))
def execXmatch (h : Hdr) (d a : Reg) (f : Bool) (s : State) : Host.Outcome State Fault Refusal :=
  crossWord h (.xmatch h d a f) s d (fun g u =>
    g.ballot u (fun w => if f then (g.pre.thr w).rdPair a == (g.pre.thr u).rdPair a else g.rd w a == g.rd u a))
/-- The place of a value in a list. -/
def indexIn (x : Nat) : List Nat → Nat
  | [] => 0
  | y :: r => if x = y then 0 else 1 + indexIn x r
def execXcompact (h : Hdr) (d a b : Reg) (f : Bool) (s : State) : Host.Outcome State Fault Refusal :=
  crossWord h (.xcompact h d a b f) s d (fun g u =>
    match ((g.xrun u).filter (fun w => g.rd w b != 0))[indexIn u (g.xrun u)]? with
    | some w => g.rd w a
    | none => g.fill f a u)

/-! ### Reductions and scans (R52, R173) -/

/-- A combination: its value and the flags it and its parts raised. -/
abbrev Part := Option (Nat × Flags)
/-- Two blocks combined; an absent one passes its sibling unchanged (R52). -/
def Part.join (op : Nat → Nat → Nat × Flags) (x y : Part) : Part :=
  match x, y with
  | none, _ => y
  | _, none => x
  | some (a, fa), some (b, fb) => some ((op a b).1, fa ||| fb ||| (op a b).2)
/-- Node(lo, 2^k) (R52). A run of one lane combines nothing: its value passes unchanged, neither flushed (R31) nor made quiet, and raises
no flag (R30, R173), and neither does a lone partial of any node change, a subnormal one under FI or FO among them (R184) (DESIGN CHOICE,
log 84). -/
def node (op : Nat → Nat → Nat × Flags) (leaf : Nat → Option Nat) : Nat → Nat → Part
  | 0, lo => (leaf lo).map (fun x => (x, 0))
  | k + 1, lo => Part.join op (node op leaf k lo) (node op leaf k (lo + 2 ^ k))
/-- The fold over the aligned blocks that cover c lanes from lane lo, largest first (R52). -/
def scanFrom (op : Nat → Nat → Nat × Flags) (leaf : Nat → Option Nat) (c : Nat) : Nat → Nat → Part → Part
  | 0, lo, acc => if c.testBit 0 then Part.join op acc (node op leaf 0 lo) else acc
  | k + 1, lo, acc =>
    if c.testBit (k + 1) then scanFrom op leaf c k (lo + 2 ^ (k + 1)) (Part.join op acc (node op leaf (k + 1) lo))
    else scanFrom op leaf c k lo acc
/-- The operations of XRED and XSCAN under a %fmode (R173). -/
def redOp (imm : BitVec 6) (fmode : Word) (x y : Nat) : Nat × Flags :=
  let a := BitVec.ofNat 32 x
  let b := BitVec.ofNat 32 y
  let mode := RM.ofField (imm.extractLsb' 4 2) fmode
  let i (n : Nat) := fp32.flushIn (fidOf fmode) n
  let o (r : Nat × Flags) : Nat × Flags := ((fp32.flushOut (fodOf fmode) r.1).1, r.2 ||| (fp32.flushOut (fodOf fmode) r.1).2)
  match (imm.extractLsb' 0 4).toNat with
  | 0 => ((a + b).toNat, 0)
  | 1 => ((minS a b).toNat, 0)
  | 2 => ((maxS a b).toNat, 0)
  | 3 => ((minU a b).toNat, 0)
  | 4 => ((maxU a b).toNat, 0)
  | 5 => ((a &&& b).toNat, 0)
  | 6 => ((a ||| b).toNat, 0)
  | 7 => ((a ^^^ b).toNat, 0)
  | 8 => sumRound fp32 mode (fodOf fmode) [fp32.decode (i x), fp32.decode (i y)] false
  | 9 => o (fp32.minmax false (i x) (i y))
  | _ => o (fp32.minmax true (i x) (i y))
/-- The identity of an exclusive scan (R173). -/
def redId (imm : BitVec 6) : Nat :=
  match (imm.extractLsb' 0 4).toNat with
  | 1 => 0x7FFFFFFF
  | 2 => 0x80000000
  | 3 => 0xFFFFFFFF
  | 5 => 0xFFFFFFFF
  | 9 => 0x7F800000
  | 10 => 0xFF800000
  | _ => 0
/-- The value of each lane of a run, and the %fmode of its lowest lane (R173). -/
def Group.leaf (g : Group) (u : Nat) (a : Reg) (l : Nat) : Option Nat := (g.src u l).map (fun w => (g.rd w a).toNat)
def Group.xmode (g : Group) (u : Nat) : Word := (g.pre.thr ((g.xrun u).headD 0)).fmode
/-- Node(0, 32) over the run that lane u sees. -/
def Group.whole (g : Group) (u : Nat) (a : Reg) (imm : BitVec 6) : Part := node (redOp imm (g.xmode u)) (g.leaf u a) 5 0
/-- The scan of lane u. -/
def Group.scan (g : Group) (u : Nat) (a : Reg) (imm : BitVec 6) (excl : Bool) (l : Nat) : Part :=
  scanFrom (redOp imm (g.xmode u)) (g.leaf u a) (if excl then l else l + 1) 5 0 none
def partVal (p : Part) (d : Nat) : Word := BitVec.ofNat 32 ((p.map (·.1)).getD d)
def partFlags (p : Part) : Flags := (p.map (·.2)).getD 0
def execXred (h : Hdr) (d a : Reg) (imm : BitVec 6) (s : State) : Host.Outcome State Fault Refusal :=
  gangWord h (.xred h d a imm) s noCause noStall .stalled (fun g m =>
    (longVal g m d 1 (wordOf (.xred h d a imm)) (fun u => [partVal (g.whole u a imm) 0]),
     g.run.foldl (fun x u => x.raise u (partFlags (g.whole u a imm))) g))
/-- Every combination of the tree, and of the fold of every lane of the run (R173). -/
def scanFlags (g : Group) (u : Nat) (a : Reg) (imm : BitVec 6) (excl : Bool) : Flags :=
  (g.xrun u).foldl (fun f w => f ||| partFlags (g.scan u a imm excl (g.lane w))) (partFlags (g.whole u a imm))
def execXscan (h : Hdr) (d a : Reg) (imm : BitVec 6) (f : Bool) (s : State) : Host.Outcome State Fault Refusal :=
  gangWord h (.xscan h d a imm f) s noCause noStall .stalled (fun g m =>
    (longVal g m d 1 (wordOf (.xscan h d a imm f)) (fun u => [partVal (g.scan u a imm f (g.lane u)) (redId imm)]),
     g.run.foldl (fun x u => x.raise u (scanFlags g u a imm f)) g))

/-! ### Ranks (R174) -/

/-- Whether key x is better than key y. -/
def better (imm : BitVec 6) (x y : Word) : Bool :=
  let asc := imm.getLsbD 2
  match (imm.extractLsb' 0 2).toNat with
  | 0 => if asc then x.slt y else y.slt x
  | 1 => if asc then x.ult y else y.ult x
  | _ =>
    let a := fp32.decode x.toNat
    let b := fp32.decode y.toNat
    if a.isNan then false
    else if b.isNan then true
    else if asc then FVal.lt false a b else FVal.lt false b a
def execXrank (h : Hdr) (d a : Reg) (imm : BitVec 6) (s : State) : Host.Outcome State Fault Refusal :=
  crossWord h (.xrank h d a imm) s d (fun g u =>
    BitVec.ofNat 32 ((g.xrun u).filter (fun j => better imm (g.rd j a) (g.rd u a) ||
      (!better imm (g.rd u a) (g.rd j a) && decide (g.lane j < g.lane u)))).length)

/-! ### PERMB (R175) -/

def execPermb (h : Hdr) (d a b : Reg) (f : Bool) (s : State) : Host.Outcome State Fault Refusal :=
  crossWord h (.permb h d a b f) s d (fun g u =>
    wordOfBytes (fun m =>
      let x := byteOf (g.rd u b) m
      let n := if f then x / 16 else x % 16
      byteOf (g.rd u (a + Fin.ofNat 64 (n / 4))) (n % 4)))

/-! ### REGROUP (R162, R180, R181) -/

/-- The table with thread u in an entry of its crew and key that has room and is not due for release, or in a new one (R181)
(DEDUCED, log 47). -/
def tableEnter (es : List RgEntry) (k : Nat) (key : Word) (u : Nat) (now : BitVec 64) : List RgEntry :=
  match es with
  | [] => [{ crew := k, key := key, us := [u], since := now }]
  | e :: r =>
    if e.crew = k ∧ e.key = key ∧ e.us.length < 32 ∧ e.due.isNone then { e with us := e.us ++ [u] } :: r
    else e :: tableEnter r k key u now
/-- The table after lanes have entered in order, as far as its 32 entries allow, and how many have. -/
def tableFill (es : List RgEntry) (k : Nat) (now : BitVec 64) : List (Nat × Word) → List RgEntry × Nat
  | [] => (es, 0)
  | x :: r =>
    let es1 := tableEnter es k x.2 x.1 now
    if es1.length ≤ 32 then ((tableFill es1 k now r).1, (tableFill es1 k now r).2 + 1) else (es, 0)
/-- The table once the run of a REGROUP has entered, and how many of its lanes, in ascending lane order, find an entry. -/
def rgFill (g : Group) (a : Reg) : List RgEntry × Nat :=
  tableFill (g.pre.spindle g.sp).regroup g.crew g.pre.clock (g.run.map (fun u => (u, g.rd u a)))
/-- The lanes of a REGROUP that find no entry leave its group and stall, with no effect (R162, R326). -/
def rgTrim (g : Group) (a : Reg) (m : Mach) : Mach × Group :=
  let n := (rgFill g a).2
  (m.onRun (g.run.drop n) (fun u _ => { g.pre.thr u with stat := .stalled }), { g with run := g.run.take n })
def chkRegroup (g : Group) (_ : Nat) : Option Trap := if g.spawn then some { cause := .frame, info := 0 } else none
/-- Lanes leave their gang for the regrouping table. Their replay entries go along when the table releases them (R375)
(DEDUCED, log 48). -/
def goToTable (m : Mach) (gang sp : Nat) (us : List Nat) (tab : List RgEntry) (p : Pos) : Mach :=
  ((m.onRun us (fun _ t => { t with pend := 0, pos := p, stat := .inTable, yield := false, skip := 0 })).modSp sp (fun x =>
    { x with regroup := tab })).modGang gang (fun x =>
    { x with lanes := x.lanes.map (fun o => if us.any (fun u => o == some u) then none else o) })
/-- REGROUP waits for the pending sets to empty, and for an entry for its first lane (R162, R180). -/
def stallRegroup (a : Reg) (g : Group) : Bool := pendStall g || (!g.run.isEmpty && (rgFill g a).2 == 0)
def execRegroup (h : Hdr) (a : Reg) (s : State) : Host.Outcome State Fault Refusal :=
  gangWord h (.regroup h a) s chkRegroup (stallRegroup a) .stalled (fun g m0 =>
    let (m, g1) := rgTrim g a m0
    if g1.run.all (g.settled m0) then
      (goToTable m g.gang g.sp g1.run (rgFill g a).1 (Pos.start (nextPacket g.pos)), { g1 with held := g1.run ++ g1.held })
    else (m, g1.leave g1.run (fun u => .regroup (g.rd u a) g1.run)))

end Sys2Proof.Machine
end

