-- ==== Sys2Proof/Machine/Fork.lean ====
section
/-! DEFINITION. The frame words: FORK, FORKR, RSTEP, JOIN, RJOIN and ENDP (R115 to R125). -/

namespace Sys2Proof.Machine

/-- The FRAME trap (R314). -/
def frameTrap : Trap := { cause := .frame, info := 0 }
/-! ### FORK and FORKR -/

def chkFork (g : Group) (u : Nat) : Option Trap :=
  if !forkFits g.pre u && (g.pre.thr u).depth == 0xFFFF then some frameTrap else none
def execFork (h : Hdr) (vs : Reg) (off : BitVec 18) (s : State) : Host.Outcome State Fault Refusal :=
  gangWord h (.fork h vs off) s chkFork noStall .stalled (fun g m =>
    let entry := relTarget g.pos off.toInt
    (m.onRun g.run (fun u t =>
      let arg := (g.pre.thr u).rdPair vs
      if forkFits g.pre u then
        t.push { entry := entry, kind := .point, state := .latent, root := false, arg := arg, link := 0, piece := 0, lo := 0, hi := 0 }
      else { t.wrPair 2 arg with depth := t.depth + 1, lnk := linkOf g.pos }),
     g.jump (g.run.filter (fun u => !forkFits g.pre u)) (fun _ => Pos.start entry)))
/-- The grain of FORKR: v[s+4][15:0] (R121). -/
def grainOf (t : Thread) (vs : Reg) : BitVec 16 := (t.rd (vs + 4)).extractLsb' 0 16
def chkForkr (vs : Reg) (g : Group) (u : Nat) : Option Trap :=
  if (g.pre.thr u).used = g.pre.slotsOf u || grainOf (g.pre.thr u) vs == 0 then some frameTrap else none
def execForkr (h : Hdr) (vs : Reg) (off : BitVec 18) (s : State) : Host.Outcome State Fault Refusal :=
  gangWord h (.forkr h vs off) s (chkForkr vs) noStall .stalled (fun g m =>
    let entry := relTarget g.pos off.toInt
    (m.onRun g.run (fun u t =>
      let o := g.pre.thr u
      let lo := o.rd (vs + 2)
      let hi := if (o.rd (vs + 3)).ult lo then lo else o.rd (vs + 3)
      ((t.setCell t.used { t.cell t.used with grain := grainOf o vs, npiece := 0, done := 0, taken := 0, actdepth := t.depth }).push
        { entry := entry, kind := .range, state := .active, root := false, arg := o.rdPair vs, link := nextPacket g.pos, piece := 0,
          lo := lo, hi := hi }).wrPair 2 (o.rdPair vs)),
     g.jump g.run (fun _ => Pos.start entry)))

/-! ### RSTEP -/

/-- The end of the next step: LO + min(GRAIN, HI - LO) (R122). -/
def stepEnd (f : Frame) (c : Cell) : Word := f.lo + BitVec.ofNat 32 (min c.grain.toNat (f.hi.toNat - f.lo.toNat))
def chkRstep (g : Group) (u : Nat) : Option Trap := if (g.pre.thr u).activeRange.isNone then some frameTrap else none
def execRstep (h : Hdr) (d : Reg) (s : State) : Host.Outcome State Fault Refusal :=
  gangWord h (.rstep h d) s chkRstep noStall .stalled (fun g m =>
    (m.onRun g.run (fun u t =>
      match (g.pre.thr u).activeRange with
      | none => t
      | some f =>
        let e := stepEnd f (t.cell t.topK)
        ((t.wr d f.lo).wr (d + 1) e).setFrame t.topK { f with lo := e }), g))

/-! ### JOIN -/

def chkJoin (g : Group) (u : Nat) : Option Trap := if (g.pre.thr u).joinWay = .bad then some frameTrap else none
/-- A lane whose piece is not done, or whose acquire and fence wait for its earlier accesses, holds its run (R123, R226). -/
def joinHolds (m : Mach) (u : Nat) : Bool :=
  match (m.thr u).joinWay with
  | .wait => true
  | .pop => m.busy u
  | _ => false
def stallJoin (g : Group) : Bool := g.run.any (joinHolds g.pre)
/-- The acquire at dev scope and the fence.dev of a JOIN or RJOIN that returns a piece (R226). -/
def joinFence (g : Group) (m : Mach) (p : Nat → Bool) : Mach := if g.run.any p then m.fenceL1 g.sp g.ctx 3 else m
def execJoin (h : Hdr) (s : State) : Host.Outcome State Fault Refusal :=
  gangWord h (.join h) s chkJoin stallJoin .joinWait (fun g m =>
    let m1 := m.onRun g.run (fun u t =>
      match (g.pre.thr u).joinWay with
      | .pay => { t with depth := t.depth - 1 }
      | .inline f => ((t.setFrame t.topK { f with state := .active, link := nextPacket g.pos }).setCell t.topK
          { t.cell t.topK with actdepth := t.depth }).wrPair 2 f.arg
      | .pop => t.pop
      | _ => t)
    let inl := g.run.filterMap (fun u => match (g.pre.thr u).joinWay with
      | .inline f => some (u, Pos.start f.entry)
      | _ => none)
    (joinFence g m1 (fun u => (g.pre.thr u).joinWay == .pop), { g with xfer := inl ++ g.xfer }))

/-! ### RJOIN -/

/-- The top frame as an exhausted active range (R124). -/
def Thread.exhausted (t : Thread) : Option Frame :=
  match t.activeRange with
  | some f => if f.lo = f.hi then some f else none
  | none => none
def chkRjoin (g : Group) (u : Nat) : Option Trap := if (g.pre.thr u).exhausted.isNone then some frameTrap else none
def rjoinHolds (m : Mach) (u : Nat) : Bool :=
  match ((m.thr u).cell (m.thr u).topK).nextPiece with
  | none => false
  | some (j, _) => !((m.thr u).cell (m.thr u).topK).done.getLsbD j || m.busy u
def stallRjoin (g : Group) : Bool := g.run.any (rjoinHolds g.pre)
def execRjoin (h : Hdr) (d : Reg) (s : State) : Host.Outcome State Fault Refusal :=
  gangWord h (.rjoin h d) s chkRjoin stallRjoin .joinWait (fun g m =>
    let m1 := m.onRun g.run (fun u t =>
      match (g.pre.thr u).exhausted with
      | none => t
      | some f =>
        let c := t.cell t.topK
        match c.nextPiece with
        | none => t.wrs d [0, 0, f.hi, 0]
        | some (j, p) =>
          (t.wrs d [p.part.extractLsb' 0 32, p.part.extractLsb' 32 32, p.lo, 1]).setCell t.topK
            { c with taken := c.taken ||| (1#7 <<< j) })
    (joinFence g m1 (fun u => (((g.pre.thr u).cell (g.pre.thr u).topK).nextPiece).isSome), g))

/-! ### ENDP -/

def chkEndp (g : Group) (u : Nat) : Option Trap :=
  match (g.pre.thr u).endWay with
  | .call => targetTrap (g.pre.thr u).lnk
  | .bad => some frameTrap
  | .root _ => none
  | .pop _ => none
/-- A root frame ends once its pending set is empty and its accesses have performed (R125, R224, R226): those of earlier groups here. -/
def endHolds (m : Mach) (u : Nat) : Bool :=
  match (m.thr u).endWay with
  | .root _ => m.waiting u || m.busy u
  | _ => false
def stallEndp (g : Group) : Bool := g.run.any (endHolds g.pre)
/-- Deliver a partial to piece j of the parent's cell, then set DONE (R125). -/
def deliver (m : Mach) (parent slot j : Nat) (x : BitVec 64) : Mach :=
  m.modThr parent (fun t =>
    let c := t.cell slot
    let p := c.pieces.toList.getD j default
    t.setCell slot { c with pieces := c.pieces.setIfInBounds j { p with part := x }, done := c.done ||| (1#7 <<< j) })
/-- Return a thread's entry of the spawn part to its pool (R125, R301). -/
def freeEntry (m : Mach) (pool e : Nat) : Mach := { m with pools := m.pools.put pool ((m.pools.at pool).filter (· != e)) }
/-- The pool that a region uses: its POOL in its context. -/
def Mach.poolOf (m : Mach) (r : Nat) : Nat := (m.region r).ctx * 2 ^ 56 + (m.region r).rcb.pool.toNat
def Thread.isRoot (t : Thread) : Bool :=
  match t.endWay with
  | .root _ => true
  | _ => false
/-- A thread whose root frame ends delivers its partial x and returns its stack. -/
def endRoot (m : Mach) (t : Thread) (x : BitVec 64) : Mach :=
  match t.endWay with
  | .root f => freeEntry (deliver m t.parent t.pslot f.piece.toNat x) (m.poolOf t.region) t.entry
  | _ => m
def execEndp (h : Hdr) (a : Reg) (s : State) : Host.Outcome State Fault Refusal :=
  gangWord h (.endp h a) s chkEndp stallEndp .stalled (fun g m =>
    let roots := g.run.filter (fun u => (g.pre.thr u).isRoot && g.settled m u && !m.busy u)
    let later := g.run.filter (fun u => (g.pre.thr u).isRoot && !(g.settled m u && !m.busy u))
    let m1 := m.onRun g.run (fun u t =>
      match (g.pre.thr u).endWay with
      | .pop f => if f.kind = .range then t.pop.wrPair 2 ((g.pre.thr u).rdPair a) else t.pop
      | _ => t)
    let tgt := g.run.filterMap (fun u => match (g.pre.thr u).endWay with
      | .call => some (u, targetPos (g.pre.thr u).lnk)
      | .pop f => some (u, Pos.start f.link)
      | _ => none)
    let m2 := if roots.isEmpty then m1 else m1.fenceL1 g.sp g.ctx 3
    let m3 := roots.foldl (fun x u => endRoot x (g.pre.thr u) ((g.pre.thr u).rdPair a)) m2
    endThreads ({ g with xfer := tgt ++ g.xfer }.leave later (fun u => .root ((g.pre.thr u).rdPair a))) m3 roots)

end Sys2Proof.Machine
end

