-- ==== Sys2Proof/Machine/Ranges.lean ====
section
/-! DEFINITION. The range words (R189, R190, R194 to R204, R238) and the planer's blocks (R205, R206). -/

namespace Sys2Proof.Machine

/-! ### Descriptors (R190) -/

/-- The RW fields of a descriptor; the RO fields as a new range has them. -/
def Range.unpack (x : Nat) : Range :=
  { baseg := bitsOf x 0 44, limg := bitsOf x 44 44, offg := BitVec.ofNat 44 (bitsOf x 88 44), rlo := bitsOf x 226 32,
    rhi := bitsOf x 258 32, sync := BitVec.ofNat 56 (bitsOf x 290 56), sscope := BitVec.ofNat 3 (bitsOf x 346 3),
    soff := bitsOf x 349 40, r := x.testBit 389, w := x.testBit 390, x := x.testBit 391, a := x.testBit 392,
    fmt := bitsOf x 393 3, blk := bitsOf x 396 2, sparse := bitsOf x 398 3, home := bitsOf x 401 3, hdev := bitsOf x 404 10,
    cache := bitsOf x 414 2, key := bitsOf x 416 12 }
/-- Whether every byte of a span of virtual addresses maps below 2^52 under an offset (R189). -/
def mapsOk (base limit : Nat) (off : BitVec 44) : Bool :=
  decide (0 ≤ (base : Int) + off.toInt * 4096) && decide ((limit : Int) + off.toInt * 4096 ≤ 2 ^ 52)
/-- BAD_DESC of a descriptor (R190, R207). -/
def badDesc (x : Nat) : Bool :=
  let r := Range.unpack x
  !x.testBit 511 || bitsOf x 448 63 != 0 || bitsOf x 430 2 != 0 || r.cache == 3 || decide (5 < r.home) ||
    (r.home != 5 && r.hdev != 0) || badCodes r.fmt r.sparse || (r.x && r.w) || decide (5 < r.sscope.toNat) ||
    decide (r.limg ≤ r.baseg) || decide (2 ^ 32 < r.limg - r.baseg) || decide (r.rhi < r.rlo) || decide (r.limg - r.baseg < r.rhi) ||
    !mapsOk r.base r.limit r.offg || decide (0xFD * 2 ^ 48 < r.limit)

/-! ### The set of ranges of a context -/

/-- Change the ranges of a context; its tree changes (R194). -/
def Mach.setRanges (m : Mach) (c : Nat) (f : List Range → List Range) : Mach :=
  m.modCtx c (fun x => { x with ranges := f x.ranges, treeGen := x.treeGen + 1 })
/-- Put r in the place of the range with its base. -/
def replaceRange (r : Range) (rs : List Range) : List Range := rs.map (fun x => if x.baseg = r.baseg then r else x)
/-- GEN + 1 (DEDUCED, log 28). -/
def Range.bump (r : Range) : Range := { r with gen := r.gen + 1 }
/-- FULL: one more range would exhaust the node pool. -/
def Mach.treeFull (m : Mach) (c : Nat) : Bool :=
  decide (64 * (m.ctx c).treen < treeUse c ((m.ctx c).ranges.length + 1))
/-- Physical spans that a range maps: device (0 this one), first byte, one past the last; a moving range has its old and its new area
(R201), and a frozen one too (DESIGN CHOICE, log 109). -/
def Range.areas (r : Range) (own : Nat) : List (Nat × Int × Int) :=
  let dev := if r.home = 5 ∧ r.hdev ≠ own then r.hdev + 1 else 0
  let span (off : BitVec 44) : Nat × Int × Int := (dev, (r.base : Int) + off.toInt * 4096, (r.limit : Int) + off.toInt * 4096)
  if r.cstate = 0 then [span r.offg] else [span r.offg, span r.noffg]
/-- Whether two lists of spans share a byte. -/
def meet (xs ys : List (Nat × Int × Int)) : Bool :=
  xs.any (fun a => ys.any (fun b => a.1 == b.1 && decide (a.2.1 < b.2.2) && decide (b.2.1 < a.2.2)))
/-- Whether spans that are writable, or executable, meet an executable, or writable, range of any context other than the range of
context c at one base (R201). -/
def Mach.wxClash (m : Mach) (c baseg : Nat) (w x : Bool) (as : List (Nat × Int × Int)) : Bool :=
  m.ctxs.any (fun y => y.2.ranges.any (fun r =>
    !(y.1 == c && r.baseg == baseg) && ((w && r.x) || (x && r.w)) && meet as (r.areas y.2.rank)))
/-- The context that a range word names: its own, or one of its MGR; FUNC 0 adds none (R196, R360) (DESIGN CHOICE, log 111). -/
def Mach.namedCtx (m : Mach) (issuer : Nat) (w : Word) : Option Nat :=
  let n := bitsOf w.toNat 0 16
  if n = 0xFFFF then some issuer
  else if m.ctxs.has n && (m.ctx n).mgr == issuer then some n
  else none

/-! ### The shape of the words (R196, R238) -/

/-- Once per lane in ascending order: each lane's word sees the effect of the lower ones and writes its own result (DEDUCED, log 25). -/
def rangeWord (h : Hdr) (i : Instr) (s : State) (d : Reg) (f : Group → Mach → Nat → List Word × Mach) :
    Host.Outcome State Fault Refusal :=
  gangWord h i s noCause acqStall .stalled (fun g m =>
    (eachLane g m (fun x u => (f g x u).2.modThr u (fun t => t.wrs d (f g x u).1)), g))
/-- A status alone. -/
def st (n : Nat) (m : Mach) : List Word × Mach := ([BitVec.ofNat 32 n], m)
def Group.pair (g : Group) (u : Nat) (r : Reg) : Nat := ((g.pre.thr u).rdPair r).toNat

/-! ### RSPLIT, RMERGE, RBIND, RQUERY (R198 to R200) -/

/-- The two parts of a range cut n granules above its base. Both keep the CWM that an earlier compaction has left, as a merged range keeps
the lower one's (DESIGN CHOICE, log 92). -/
def Range.lowPart (r : Range) (n : Nat) : Range :=
  { r.bump with limg := r.baseg + n, rlo := min r.rlo n, rhi := min r.rhi n }
def Range.highPart (r : Range) (n : Nat) : Range :=
  { r with baseg := r.baseg + n, rlo := max r.rlo n - n, rhi := max r.rhi n - n, gen := 0 }
/-- FORMAT comes before FULL (DESIGN CHOICE, log 93). -/
def splitAt (m : Mach) (c p : Nat) : Nat × Mach :=
  match m.rangeAt c p with
  | none => (1, m)
  | some r =>
    if p % 4096 ≠ 0 ∨ p = r.base then (2, m)
    else if r.cstate ≠ 0 then (4, m)
    else if isBlock r.fmt then (8, m)
    else if m.treeFull c then (5, m)
    else
      let n := p / 4096 - r.baseg
      (0, m.setRanges c (fun rs => replaceRange (r.lowPart n) rs ++ [r.highPart n]))
def execRsplit (h : Hdr) (d a : Reg) (s : State) : Host.Outcome State Fault Refusal :=
  rangeWord h (.rsplit h d a) s d (fun g m u => st (splitAt m g.ctx (g.pair u a)).1 (splitAt m g.ctx (g.pair u a)).2)
/-- The fields in which two ranges that merge must agree. -/
def Range.attrs (r : Range) : Range := { r with baseg := 0, limg := 0, rlo := 0, rhi := 0, cwm := 0, noffg := 0, cstate := 0, gen := 0 }
/-- The merged resident extent (R198); RLO and RHI are fields of 32 bits, which keep the low ones (R9, R190). -/
def mergedExtent (lo hi : Range) (n : Nat) : Nat × Nat :=
  let le := lo.rlo == lo.rhi
  let he := hi.rlo == hi.rhi
  if le && he then (0, 0)
  else if le then ((n + hi.rlo) % 2 ^ 32, (n + hi.rhi) % 2 ^ 32)
  else if he then (lo.rlo, lo.rhi)
  else (lo.rlo, (n + hi.rhi) % 2 ^ 32)
def mergeAt (m : Mach) (c p : Nat) : Nat × Mach :=
  let rs := (m.ctx c).ranges
  match rs.find? (fun r => r.limit == p), rs.find? (fun r => r.base == p) with
  | some lo, some hi =>
    let n := lo.limg - lo.baseg
    if lo.cstate ≠ 0 ∨ hi.cstate ≠ 0 then (4, m)
    else if isBlock lo.fmt ∨ isBlock hi.fmt then (8, m)
    else if lo.attrs ≠ hi.attrs ∨ 2 ^ 32 < hi.limg - lo.baseg ∨
        (lo.rlo ≠ lo.rhi ∧ hi.rlo ≠ hi.rhi ∧ (lo.rhi ≠ n ∨ hi.rlo ≠ 0)) then (3, m)
    else
      let e := mergedExtent lo hi n
      (0, m.setRanges c (fun rs => replaceRange { lo.bump with limg := hi.limg, rlo := e.1, rhi := e.2 }
        (rs.filter (fun x => x.baseg != hi.baseg))))
  | _, _ => (1, m)
def execRmerge (h : Hdr) (d a : Reg) (s : State) : Host.Outcome State Fault Refusal :=
  rangeWord h (.rmerge h d a) s d (fun g m u => st (mergeAt m g.ctx (g.pair u a)).1 (mergeAt m g.ctx (g.pair u a)).2)
/-- The binding of RBIND: address and scope; a moving or frozen range is bound as another is (R199) (DESIGN CHOICE, log 110). -/
def bindAt (m : Mach) (c p : Nat) (b : BitVec 64) : Nat × Mach :=
  let sync := b.extractLsb' 0 56
  let sc := b.extractLsb' 56 3
  match m.rangeAt c p with
  | none => (1, m)
  | some r =>
    let obj := match m.rangeAt c sync.toNat with
      | some q => q.r && q.w && q.a
      | none => false
    if !r.w then (1, m)
    else if 5 < sc.toNat ∨ (sync ≠ 0 ∧ (sync.toNat % 8 ≠ 0 ∨ !obj)) then (2, m)
    else (0, m.setRanges c (replaceRange { r.bump with sync := sync, sscope := sc }))
def execRbind (h : Hdr) (d a b : Reg) (s : State) : Host.Outcome State Fault Refusal :=
  rangeWord h (.rbind h d a b) s d (fun g m u =>
    st (bindAt m g.ctx (g.pair u a) ((g.pre.thr u).rdPair b)).1 (bindAt m g.ctx (g.pair u a) ((g.pre.thr u).rdPair b)).2)
/-- What RQUERY returns: OFFG and NOFFG only with system privilege. -/
def queryAt (m : Mach) (c p sel : Nat) (priv : Bool) : Nat :=
  match m.rangeAt c p with
  | none => 0
  | some r => bitsOf (if priv then r.pack else setBits r.pack 88 88 0) (64 * sel) 64
def execRquery (h : Hdr) (d a : Reg) (qw : BitVec 6) (s : State) : Host.Outcome State Fault Refusal :=
  rangeWord h (.rquery h d a qw) s d (fun g m u =>
    (pairOf (BitVec.ofNat 64 (queryAt m g.ctx (g.pair u a) qw.toNat (g.pre.privOf u))), m))

/-! ### RSET (R201) -/

/-- Whether two ranges are one for an update in place. -/
def samePlace (x r : Range) : Bool :=
  x.baseg == r.baseg && x.limg == r.limg && x.offg == r.offg && x.key == r.key && x.home == r.home && x.hdev == r.hdev &&
    x.fmt == r.fmt && x.blk == r.blk && x.sparse == r.sparse && x.soff == r.soff
/-- What L1s and L2 hold dirty of some virtual addresses of a context reaches memory, and no cache keeps a copy. -/
def Mach.flushRange (m : Mach) (c : Nat) (r : Range) : Mach :=
  let hit (x : Line) : Bool := lineOf c x && decide (r.base ≤ x.loc.va) && decide (x.loc.va < r.limit)
  let m1 := m.spindles.nums.foldl (fun (x : Mach) sp => x.l1Clean sp true hit) m
  let inR (pa : Nat) : Bool :=
    decide ((r.base : Int) ≤ (pa : Int) - r.offg.toInt * 4096) && decide ((pa : Int) - r.offg.toInt * 4096 < (r.limit : Int))
  (m1.l2.nums.filter inR).foldl (fun x pa => x.l2Clean pa) m1
/-- Of several refusals that hold, BAD_DESC comes first, then OVERLAP, then FULL; NO_CONTEXT comes before all of them
(DESIGN CHOICE, log 93). -/
def setRange (m : Mach) (c x : Nat) : Nat × Mach :=
  if badDesc x then (6, m)
  else
    let r := Range.unpack x
    let clash := m.wxClash c r.baseg r.w r.x (r.areas (m.ctx c).rank)
    match (m.ctx c).ranges.find? (fun q => decide (q.baseg < r.limg) && decide (r.baseg < q.limg)) with
    | some q =>
      if samePlace q r && q.cstate == 0 then
        if clash then (7, m)
        else
          let q' := { q.bump with r := r.r, w := r.w, x := r.x, a := r.a, cache := r.cache, rlo := r.rlo, rhi := r.rhi, sync := r.sync,
                                  sscope := r.sscope }
          let m1 := if q.cache = r.cache then m else m.flushRange c q
          (0, m1.setRanges c (replaceRange q'))
      else (7, m)
    | none => if clash then (7, m) else if m.treeFull c then (5, m) else (0, m.setRanges c (fun rs => rs ++ [r]))
/-- The load of a lane's descriptor on the machine as the lower lanes leave it. -/
def rsetReach (a : Reg) (g : Group) (x : Mach) (u : Nat) : Reach := (accessAt x u .read ((g.pre.thr u).rdPair a) 64 64).owing x u
/-- The status of a lane's word, and the machine after it; n is the word's place in program order. A lane whose load traps does nothing
(DEDUCED, log 26). -/
def rsetLane (a b : Reg) (g : Group) (n : Nat) (x : Mach) (u : Nat) : Nat × Mach :=
  match rsetReach a g x u with
  | .ok ls =>
    match x.namedCtx g.ctx ((g.pre.thr u).rd b) with
    | none => (9, x)
    | some c =>
      let y := setRange x c (leNat (recBytes x g.sp ls))
      (y.1, recDefer x g.sp n y.2 u ls)
  | _ => (0, x)
/-- The machine as the lanes below u leave it (R238). -/
def rsetBefore (a b : Reg) (g : Group) (u : Nat) : Mach := (g.run.takeWhile (· != u)).foldl (fun x v => (rsetLane a b g g.pre.seq x v).2) g.pre
def chkRset (a b : Reg) (g : Group) (u : Nat) : Option Trap := (rsetReach a g (rsetBefore a b g u) u).trapOf
/-- A lane's load waits for what its thread has accessed in earlier groups (DESIGN CHOICE, log 99). -/
def stallRset (a b : Reg) (g : Group) : Bool :=
  acqStall g || g.run.any (fun u => (rsetReach a g (rsetBefore a b g u) u).waits ||
    !g.pre.readReady [u] g.gang g.pre.seq (rsetReach a g (rsetBefore a b g u) u).locs)
def execRset (h : Hdr) (d a b : Reg) (s : State) : Host.Outcome State Fault Refusal :=
  gangWord h (.rset h d a b) s (chkRset a b) (stallRset a b) .stalled (fun g m =>
    (eachLane g m (fun x u => (rsetLane a b g m.seq x u).2.modThr u (fun t =>
      t.wr d (BitVec.ofNat 32 (rsetLane a b g m.seq x u).1))), g))

/-! ### Tickets: RINV, RWAIT (R202, R203) -/

/-- The next ticket number, never 0. -/
def nextTicket (n : Word) : Word := if n + 1 = 0 then 1 else n + 1
def issueTicket (m : Mach) (k : TicketK) (cs : List (Nat × Nat)) : Mach :=
  { m with ticketN := nextTicket m.ticketN, tickets := m.tickets ++ [{ num := nextTicket m.ticketN, kind := k, copies := cs }] }
/-- Whether a begun segment of a copy has still a byte to move between two addresses of a context. -/
def copyIn (m : Mach) (c lo hi : Nat) (y : Copy) : Bool :=
  let here (a : Nat) : Bool := decide (lo ≤ a) && decide (a < hi)
  m.ctxOfRegion (m.crew y.crew).region == c && (y.begun.1.any here || y.begun.2.any here)
/-- What is on its way to some virtual addresses of a context goes to its home, past an L1 that comes to hold a byte of it through another
range. -/
def Mach.pastL1 (m : Mach) (c lo hi : Nat) : Mach :=
  let home (l : Loc) : Loc := if l.tag.ctx == c && decide (lo ≤ l.va) && decide (l.va < hi) && l.cache == .l1l2 then { l with cache := .l2 } else l
  { m with reqs := m.reqs.map (fun q => { q with ls := q.ls.map home }) }
/-- RINV removes the range that holds an address; what L1s keep of it goes home, and no copy stays, so that a range set there later finds
none; what is on its way performs at its home, so that the ticket tells of it (R202, R203, R220). -/
def invAt (m : Mach) (c p : Nat) : List Word × Mach :=
  match m.rangeAt c p with
  | none => st 1 m
  | some r =>
    if r.cstate = 1 then st 4 m
    else
      let cs := (m.copies.filter (fun y => copyIn m c r.base r.limit y.2)).map (fun y => (y.1, y.2.segNo))
      let m1 := issueTicket (((m.flushRange c r).pastL1 c r.base r.limit).setRanges c (fun rs => rs.filter (fun q => q.baseg != r.baseg))) (.inv c r.base r.limit m.seq) cs
      ([0, m1.ticketN], m1)
def execRinv (h : Hdr) (d a b : Reg) (s : State) : Host.Outcome State Fault Refusal :=
  rangeWord h (.rinv h d a b) s d (fun g m u =>
    match m.namedCtx g.ctx ((g.pre.thr u).rd b) with
    | none => st 9 m
    | some c => invAt m c (g.pair u a))
/-- The bytes that outstanding work of a context made before a number still reaches. -/
def pendingLocs (m : Mach) (c bound : Nat) : List Loc :=
  (m.results.filter (fun r => decide (r.seq < bound) && m.ctxOfGang r.gang == c)).flatMap (fun r => r.src.locs) ++
    (m.reqs.filter (fun r => decide (r.seq < bound) && m.ctxOfGang r.gang == c)).flatMap (·.ls) ++
    (m.pushes.filter (fun p => m.ctxOfGang p.gang == c && p.by'.any (fun x => decide (x.2.2 < bound)))).flatMap (fun p => p.k.recLocs)
/-- Whether everything that a ticket covers has performed at its target (DEDUCED, log 43); a move whose context is gone never has (DESIGN
CHOICE, log 112). -/
def Ticket.done (m : Mach) (t : Ticket) : Bool :=
  match t.kind with
  | .inv c lo hi bound =>
    !(vasOf (pendingLocs m c bound)).any (fun va => decide (lo ≤ va) && decide (va < hi)) &&
      !m.copies.any (fun y => t.copies.contains (y.1, y.2.segNo) && copyIn m c lo hi y.2)
  | .move _ _ => false
/-- How many tickets have been issued since one of number x: no ticket has number 0. -/
def ticketAge (now x : Word) : Nat := (now - x).toNat - if now.ult x then 1 else 0
/-- What RWAIT writes for a ticket, the newest of its number; none while it waits. A ticket of 0 or one issued too long ago completes at
once (R203) (DEDUCED, log 43). -/
def waitFor (m : Mach) (u : Nat) (x : Word) : Option Nat :=
  if x = 0 ∨ 2 ^ 31 < ticketAge m.ticketN x then some 0
  else match m.tickets.reverse.find? (fun t => t.num == x) with
  | none => some 0
  | some t => if t.frozen then some 11 else if t.done m then some 0 else if (m.thr u).preq then some 10 else none
def stallRwait (a : Reg) (g : Group) : Bool := acqStall g || g.run.any (fun u => (waitFor g.pre u ((g.pre.thr u).rd a)).isNone)
def execRwait (h : Hdr) (d a : Reg) (s : State) : Host.Outcome State Fault Refusal :=
  gangWord h (.rwait h d a) s noCause (stallRwait a) .stalled (fun g m =>
    (m.onRun g.run (fun u t => t.wr d (BitVec.ofNat 32 ((waitFor g.pre u ((g.pre.thr u).rd a)).getD 0))), g))

/-! ### Compaction (R204 to R206) -/

/-- Compactions that the planer holds. -/
def Mach.moving (m : Mach) : Nat := (m.ctxs.map (fun y => (y.2.ranges.filter (fun r => r.cstate == 1)).length)).sum
/-- DEDUCED, log 27. -/
def compactAt (m : Mach) (c p : Nat) (pb : Nat) : List Word × Mach :=
  match m.rangeAt c p with
  | none => st 1 m
  | some r =>
    let noff := BitVec.ofInt 44 (((pb : Int) - r.base) / 4096)
    let r1 := { r.bump with noffg := noff, cwm := r.base / 64, cstate := 1 }
    let old := (r.base : Int) + r.offg.toInt * 4096
    let len : Int := (r.limit : Int) - r.base
    if pb % 4096 ≠ 0 ∨ (2 ^ 52 : Int) < pb + len ∨ !mapsOk r.base r.limit noff then st 2 m
    else if old < pb ∧ (pb : Int) < old + len then st 7 m
    else if r.cstate ≠ 0 ∨ 16 ≤ m.moving then st 4 m
    else if m.wxClash c r.baseg r.w r.x [((r.areas (m.ctx c).rank).headD (0, 0, 0)).1 |> fun dev => (dev, (pb : Int), (pb : Int) + len)]
    then st 7 m
    else
      let m1 := issueTicket (m.setRanges c (replaceRange r1)) (.move c r.base) []
      ([0, m1.ticketN], m1)
def execRcompact (h : Hdr) (d a b : Reg) (s : State) : Host.Outcome State Fault Refusal :=
  rangeWord h (.rcompact h d a b) s d (fun g m u =>
    match m.namedCtx g.ctx ((g.pre.thr u).rd d) with
    | none => st 9 m
    | some c => compactAt m c (g.pair u a) (g.pair u b))

/-- The k-th moving range, by context and base. -/
def movingRanges (m : Mach) : List (Nat × Range) := m.ctxs.flatMap (fun y => (y.2.ranges.filter (fun r => r.cstate == 1)).map (fun r => (y.1, r)))
/-- Whether an access translated to a block under the old offset is still on its way: an outstanding access, or a copy segment begun
before with bytes of the block still to move (R205). -/
def blockBusy (m : Mach) (c : Nat) (r : Range) : Bool :=
  (vasOf (pendingLocs m c m.seq)).any (fun va => va / 64 == r.cwm) ||
    m.copies.any (fun y => copyIn m c (r.cwm * 64) (r.cwm * 64 + 64) y.2)
/-- What L1s and L2 hold dirty of some physical bytes reaches memory; no cache keeps a copy. -/
def Mach.flushPas (m : Mach) (p : Nat → Bool) : Mach :=
  let hit (x : Line) : Bool := x.loc.sto == .dram && p x.loc.addr
  let m1 := m.spindles.nums.foldl (fun (x : Mach) sp => x.l1Clean sp true hit) m
  (m1.l2.nums.filter p).foldl (fun x pa => x.l2Clean pa) m1
/-- Move a block's ciphertext with its tag from one physical place to another; code moves as code. -/
def moveBlock (m : Mach) (src dst : Nat) : Mach :=
  let m0 := m.flushPas (fun pa => pa / 64 == src / 64 || pa / 64 == dst / 64)
  let moved (pas : List Nat) : List Nat :=
    (pas.filter (fun a => a / 64 != dst / 64)).map (fun a => if a / 64 = src / 64 then dst + a % 64 else a)
  { m0 with dram := m0.dram.setBytes dst (m0.dram.bytes src 64),
            owner := match m0.owner.find (src / 64) with
              | none => m0.owner.drop (dst / 64)
              | some t => m0.owner.put (dst / 64) t,
            codePas := moved m0.codePas, tainted := moved m0.tainted }
/-- Storage of another device, as its home keeps it. -/
def moveRemote (m : Mach) (rank src dst : Nat) : Mach :=
  let hit (x : Line) : Bool := x.loc.sto == .remote rank && (x.loc.addr / 64 == src / 64 || x.loc.addr / 64 == dst / 64)
  let m0 := m.spindles.nums.foldl (fun (x : Mach) sp => x.l1Clean sp true hit) m
  { m0 with remote := m0.remote.put rank ((m0.remote.at rank).setBytes dst ((m0.remote.at rank).bytes src 64)) }
/-- The bytes of the block that a moving range is at, at their old place. -/
def oldBlock (m : Mach) (c : Nat) (r : Range) : List Loc :=
  (span (r.cwm * 64) 64).filterMap (fun va => match m.globalAt ⟨c, none, 0, false⟩ .read r r.offg va with
    | .ok l _ => some l
    | _ => none)
/-- One block of the k-th moving range: an uncorrectable error, of its sectors or of its LPDDR tag (R370), freezes the range there. The
planer reads only the block's old place, so that an error at its new one does not stop it (DESIGN CHOICE, log 94). -/
def planerStep (m : Mach) (k : Nat) : Option Mach :=
  match (movingRanges m)[k]? with
  | none => none
  | some (c, r) =>
    let va := r.cwm * 64
    let src := paOf va r.offg
    let dst := paOf va r.noffg
    let far := r.home = 5 ∧ r.hdev ≠ (m.ctx c).rank
    let outs := m.planOut.filter (fun x => x.1 != c || x.2.1 != r.base)
    if blockBusy m c r then none
    else if (oldBlock m c r).any m.homeErr then
      let m1 := m.setRanges c (replaceRange { r.bump with cstate := 2 })
      some { m1 with planOut := outs, tickets := m1.tickets.map (fun t => if t.kind = .move c r.base ∧ !t.frozen then { t with frozen := true } else t) }
    else
      let m1 := { (if far then moveRemote m r.hdev src dst else moveBlock m src dst) with planOut := outs }
      if (r.cwm + 1) * 64 < r.limit then some (m1.setRanges c (replaceRange { r with cwm := r.cwm + 1 }))
      else
        let m2 := m1.setRanges c (replaceRange { r.bump with cwm := r.cwm + 1, offg := r.noffg, noffg := 0, cstate := 0 })
        some { m2 with tickets := m2.tickets.filter (fun t => !(t.kind = .move c r.base ∧ !t.frozen)) }
/-- For how many cycles a link has not delivered the next block of the k-th moving range. -/
def planLate (m : Mach) (k : Nat) : Nat := ((movingRanges m)[k]?).elim 0 (fun x => outOf m.planOut (x.1, x.2.base))
def execPlanerBlockMove (k : Nat) (s : State) : Host.Outcome State Fault Refusal := event s (fun m => planerStep (m.after (planLate m k)) k)

end Sys2Proof.Machine
end

