-- ==== Sys2Proof/Machine/Sched.lean ====
section
/-! DEFINITION. The launch scheduler (R301 to R313): launch records, admission, LAUNCH, placement, completion and token budgets. -/

namespace Sys2Proof.Machine

/-! ### Launch records (R301) -/

/-- The fields of a 1,024-bit record. -/
def Rcb.parse (x : Nat) : Rcb :=
  { args := Vector.ofFn (fun i : Fin 8 => BitVec.ofNat 32 (bitsOf x (768 + 32 * i.val) 32)), sig := BitVec.ofNat 64 (bitsOf x 704 64),
    entry := BitVec.ofNat 56 (bitsOf x 648 56), compl := BitVec.ofNat 56 (bitsOf x 592 56), pool := BitVec.ofNat 56 (bitsOf x 536 56),
    parent := BitVec.ofNat 56 (bitsOf x 480 56), pooln := bitsOf x 464 16, stksz := bitsOf x 456 8, crews := bitsOf x 440 16,
    gangs := bitsOf x 434 6, spbud := bitsOf x 425 9, gbud := bitsOf x 410 15, fdom := bitsOf x 398 12, cls := bitsOf x 395 3,
    det := x.testBit 394, hbexp := bitsOf x 390 4, lpexp := bitsOf x 386 4, pdead := bitsOf x 370 16, fslots := bitsOf x 365 5,
    cores := x.testBit 364, ovr := BitVec.ofNat 12 (bitsOf x 352 12), status := BitVec.ofNat 8 (bitsOf x 344 8),
    ctx := bitsOf x 328 16, resv := bitsOf x 0 328 != 0 || bitsOf x 361 3 != 0 }
/-- F of a record: 8 × (FSLOTS + 1). -/
def Rcb.slots (r : Rcb) : Nat := 8 * (r.fslots + 1)
/-- A pool as its owner supplies it: base, spawn entries, stack KiB, F of the owner, entries of the crew part. -/
structure Pool where
  base : BitVec 56
  n : Nat
  stk : Nat
  f : Nat
  crew : Nat
deriving DecidableEq, Repr
/-- Bytes of an entry, and where entry i begins. -/
def Pool.size (p : Pool) : Nat := 1024 * p.stk + 160 * p.f
def Pool.entry (p : Pool) (i : Nat) : Nat := p.base.toNat + i * p.size
/-- The record with what it inherits (R302). -/
def Rcb.inherit (x pr : Rcb) (pool : Option Pool) (addr ctx : Nat) : Rcb :=
  let o (i : Nat) : Bool := x.ovr.getLsbD i
  { x with
    parent := BitVec.ofNat 56 addr, ctx := ctx, status := 0,
    spbud := if o 0 then x.spbud else pr.spbud, gbud := if o 0 then x.gbud else pr.gbud, cls := if o 1 then x.cls else pr.cls,
    fdom := if o 2 then x.fdom else pr.fdom, det := pr.det || (if o 3 then x.det else pr.det),
    hbexp := if o 4 then x.hbexp else pr.hbexp, lpexp := if o 5 then x.lpexp else pr.lpexp,
    pdead := if o 6 then x.pdead else pr.pdead, fslots := if o 7 then x.fslots else pr.fslots,
    pool := if o 8 then x.pool else (pool.map (·.base)).getD 0, pooln := if o 8 then x.pooln else (pool.map (·.n)).getD 0,
    stksz := if o 8 then x.stksz else (pool.map (·.stk)).getD 0 }
/-- Crews that one spindle holds, and the region's capacity (R308). -/
def crewsPer (k : Kern) (gangs : Nat) : Nat :=
  min (min 64 (393216 / (max k.need 1 * 128)) / max gangs 1)
    (min (if k.loc = 0 then 64 else 786432 / k.loc) (if k.nbar = 0 then 64 else 128 / k.nbar))
def capacityOf (k : Kern) (r : Rcb) : Nat := min (crewsPer k r.gangs * r.spbud) (r.gbud / max r.gangs 1)
/-- The loaded kernel of a context at an entry (R307). -/
def Ctx.kernAt (c : Ctx) (e : BitVec 56) : Option Kern := c.kerns.find? (fun k => k.entry == e.toNat)

/-! ### Spans that a context may read and write (R307) -/

/-- Whether some spans together cover [lo, hi). -/
def covered (spans : List (Nat × Nat)) (hi : Nat) : Nat → Nat → Bool
  | 0, lo => decide (hi ≤ lo)
  | n + 1, lo =>
    if hi ≤ lo then true
    else match spans.find? (fun s => decide (s.1 ≤ lo) && decide (lo < s.2)) with
    | none => false
    | some s => covered spans hi n s.2
def coveredBy (spans : List (Nat × Nat)) (lo hi : Nat) : Bool := covered spans hi (spans.length + 1) lo
/-- The parts of a range that have one offset each (R191). -/
def Range.parts (r : Range) : List (Nat × Nat × BitVec 44) :=
  if r.cstate = 0 then [(r.base, r.limit, r.offg)] else [(r.base, r.cwm * 64, r.noffg), (r.cwm * 64, r.limit, r.offg)]
/-- Whether a device's access tables let a context read and write physical bytes. -/
def tableRW (tabs : Store (List Acc)) (c home lo hi : Nat) : Bool :=
  let es := (tabs.at home).filter (fun a => a.ctx == c)
  let sp (f : Acc → Bool) : List (Nat × Nat) := (es.filter f).map (fun a => (a.baseg * 4096, a.limg * 4096))
  homeOf lo == some home && homeOf (hi - 1) == some home && coveredBy (sp (·.r)) lo hi && coveredBy (sp (·.w)) lo hi
/-- Spans of virtual addresses that a context may read and write: under ranges that permit it, whose format admits it and whose key slot
is filled (R368). -/
def Mach.rwSpans (m : Mach) (c lo hi : Nat) : List (Nat × Nat) :=
  let x := m.ctx c
  (x.ranges.filter (fun r => r.r && r.w && r.fmt != 7 && r.blk != 3 && x.keys.has r.key)).flatMap (fun r =>
    let far : Bool := r.home == 5 && r.hdev != x.rank
    let tabs := if far then m.remoteAcc.at r.hdev else m.access
    r.parts.filterMap (fun p =>
      let a := max (max p.1 (r.base + 4096 * r.rlo)) lo
      let b := min (min p.2.1 (r.base + 4096 * r.rhi)) hi
      let pa := paOf a p.2.2
      let home := if r.home = 5 then (homeOf pa).getD 5 else r.home
      if a < b && (!far || decide (r.hdev < x.ranks)) && tableRW tabs c home pa (pa + (b - a)) then some (a, b) else none))
/-- Whether the addresses of a window span have its first and last byte's grant between them: one C-die's CSM (R207), and in the host window no
byte of a queue head that only the scheduler and the physical function write (R304, R366). -/
def windowWhole (lo n : Nat) : Bool :=
  let hi := lo + n - 1
  lo / 2 ^ 48 == hi / 2 ^ 48 &&
    (if lo / 2 ^ 48 = 0xFE then lo / 2 ^ 26 == hi / 2 ^ 26
     else lo / 2 ^ 48 != 0xFD || decide (4096 * 32 ≤ lo % 2 ^ 48) || decide (lo % 32 + n ≤ 4))
/-- Whether a context may read and write [lo, lo + n): ranges, or a window within its grant. -/
def Mach.spanRW (m : Mach) (c lo n : Nat) : Bool :=
  let w : Who := ⟨c, none, 0, false⟩
  let ok (va : Nat) : Bool := match m.translate w .write va with
    | .ok _ _ => true
    | _ => false
  if n = 0 then true
  else if 0xFD * 2 ^ 48 ≤ lo then windowWhole lo n && ok lo && ok (lo + n - 1)
  else coveredBy (m.rwSpans c lo (lo + n)) lo (lo + n)
/-- Bytes that the scheduler writes for a context at their homes; bytes that do not translate, or that the target refuses, are left
(DEDUCED, log 21). -/
def Mach.schedWrite (m : Mach) (c va : Nat) : List Byte → Mach
  | [] => m
  | b :: r =>
    (match m.translate ⟨c, none, 0, false⟩ .write va with
      | .ok l adm => if adm then m.homeSet l b else m
      | _ => m).schedWrite c (va + 1) r

/-! ### Admission (R307, R340) -/

/-- SIGNATURE (R339, R340). -/
def sigBad (r : Rcb) (k : Kern) : Bool :=
  let s := r.sig.toNat
  bitsOf s 49 7 != 0 || bitsOf s 40 2 != 0 || bitsOf s 0 8 != 0 || s.testBit 48 != r.det ||
    bitsOf s 44 4 != (if r.det then r.lpexp else 0) || bitsOf s 42 2 != k.level || bitsOf s 16 24 != k.trans || bitsOf s 8 8 != k.cls
/-- BUDGET (R301, R302, R308). -/
def budgetBad (r pr : Rcb) (own : Bool) (pool : Option Pool) (k : Kern) : Bool :=
  r.resv || decide (12 < r.hbexp) || decide (10 < r.lpexp) || decide (50000 < r.pdead) || r.gangs == 0 || decide (32 < r.gangs) ||
    r.crews == 0 || r.spbud == 0 || decide (384 < r.spbud) || r.gbud == 0 || decide (24576 < r.gbud) || decide (3 < r.cls) ||
    r.compl.toNat % 8 != 0 || decide (pr.spbud < r.spbud) || decide (pr.gbud < r.gbud) || decide (r.cls < pr.cls) ||
    (if own then r.stksz == 0 || r.pool.toNat % 4096 != 0
     else match pool with
       | none => true
       | some p => decide (p.f < r.slots)) ||
    crewsPer k r.gangs == 0
/-- The pool that a region uses: its own or the inherited one. -/
def Rcb.poolUsed (r : Rcb) (pool : Option Pool) (k : Option Kern) : Option Pool :=
  if r.ovr.getLsbD 8 then
    some { base := r.pool, n := r.pooln, stk := r.stksz, f := r.slots,
           crew := match k with | none => 0 | some k => capacityOf k r * r.gangs * 32 }
  else pool
/-- The status of an admission: `r` is the record with what it inherits. -/
def admitStatus (m : Mach) (c addr : Nat) (r pr : Rcb) (pool : Option Pool) : Nat :=
  let kern := (m.ctx c).kernAt r.entry
  let used := r.poolUsed pool kern
  let poolOk := match used with
    | none => true
    | some p => m.spanRW c p.base.toNat ((p.crew + p.n) * p.size)
  if !m.spanRW c addr 128 || (r.compl != 0 && !m.spanRW c r.compl.toNat 8) || !poolOk then 0x47
  else if bitsOf r.sig.toNat 56 8 ≠ 2 then 0x40
  else match kern with
  | none => 0x44
  | some k =>
    if ((m.ctx c).objs.at k.obj).unloading then 0x45
    else if sigBad r k then 0x46
    else if 1 < k.cls ∨ (k.cls = 0 ∧ 16 < r.gangs) then 0x41
    else if budgetBad r pr (r.ovr.getLsbD 8) pool k then 0x43
    else if r.cores ∧ capacityOf k r < r.crews then 0x42
    else 0
/-- Write a completion word (R309): visible with everything written before it (DEDUCED, log 35). -/
def complete (m : Mach) (c : Nat) (compl : BitVec 56) (status cause : Nat) : Mach :=
  if compl = 0 then m
  else (m.spindles.nums.foldl (fun (x : Mach) sp => x.l1Clean sp false (lineOf c)) m).schedWrite c compl.toNat
    (leBytes 8 (status + cause * 2 ^ 8))
/-- Admit a record or refuse it: the status, and the machine. -/
def admitRegion (m : Mach) (c addr : Nat) (x pr : Rcb) (pool : Option Pool) (paddr : Nat) (parent : Option Nat) : Nat × Mach :=
  let r := x.inherit pr pool paddr c
  let st := admitStatus m c addr r pr pool
  let m1 := m.schedWrite c (addr + 43) [BitVec.ofNat 8 st]
  if st ≠ 0 then (st, complete m1 c r.compl st 0)
  else
    let k := ((m.ctx c).kernAt r.entry).getD ⟨0, 8, 0, 0, 0, 0, 0, 0⟩
    let p := (r.poolUsed pool (some k)).getD ⟨0, 0, 0, 8, 0⟩
    let m2 := (m1.schedWrite c (addr + 41) (leBytes 2 c)).schedWrite c (addr + 60) (leBytes 7 paddr)
    let reg : Region :=
      { rcb := r, ctx := c, parent := parent, poolF := p.f, poolOwn := r.ovr.getLsbD 8, poolCrew := p.crew, need := k.need, loc := k.loc,
        nbar := k.nbar, kcls := k.cls, crewsLeft := r.crews, ticked := m.clock, addr := addr }
    (0, { m2 with regions := m2.regions.put m2.nextId reg, nextId := m2.nextId + 1 })
/-- The pool of a live region. -/
def Region.pool (r : Region) : Pool := ⟨r.rcb.pool, r.rcb.pooln, r.rcb.stksz, r.poolF, r.poolCrew⟩

/-! ### Work queues (R304, R305) -/

/-- A queue's head. -/
def QHead.parse (x : Nat) : QHead :=
  { ring := bitsOf x 192 56, root := bitsOf x 128 56, ctx := bitsOf x 112 16, logn := bitsOf x 108 4, edge := x.testBit 107,
    en := x.testBit 106, cons := BitVec.ofNat 32 (bitsOf x 32 32), prod := BitVec.ofNat 32 (bitsOf x 0 32) }
def Mach.queue (m : Mach) (q : Nat) : QHead := QHead.parse (m.host.nat (32 * q) 32)
/-- What the scheduler writes of a head: PROD at byte 0, CONS at byte 4, EN in bit 106. -/
def Mach.setQueue (m : Mach) (q at' : Nat) (bs : List Byte) : Mach := { m with host := m.host.setBytes (32 * q + at') bs }
def Mach.disable (m : Mach) (q : Nat) : Mach :=
  m.setQueue q 13 [m.host.get (32 * q + 13) &&& ~~~4#8]
/-- Where record n of a queue lies. -/
def QHead.slot (h : QHead) (n : Word) : Nat := h.ring + 128 * (n.toNat % 2 ^ h.logn)
/-- The pool that a queue's root RCB owns (DEDUCED, log 29). -/
def rootPool (m : Mach) (c : Nat) (r : Rcb) : Option Pool :=
  if r.ovr.getLsbD 8 then r.poolUsed none ((m.ctx c).kernAt r.entry) else none
/-- Whether a completion word lies in a block that the planer moves, for which its write waits. -/
def complMoves (m : Mach) (c : Nat) (compl : BitVec 56) : Bool := compl != 0 && m.moves c compl.toNat 8
/-- RECORD_ADMISSION: the next record of an enabled queue. Accesses wait for the planer (R191); a record, or a root RCB, that cannot be
read is refused with ACCESS (DEDUCED, log 21). -/
def admitNext (m : Mach) (q : Nat) : Option Mach :=
  let h := m.queue q
  if 4096 ≤ q ∨ !h.en ∨ h.cons = h.prod then none
  else if 2 ^ h.logn < gap h.prod h.cons then some (m.disable q)
  else
    let w : Who := ⟨h.ctx, none, 0, false⟩
    let at' := h.slot h.cons
    let next (m1 : Mach) : Option Mach := some (m1.setQueue q 4 (leBytes 4 (h.cons + 1).toNat))
    if m.moves h.ctx at' 128 || m.moves h.ctx h.root 128 then none
    else match m.engRead w at' 128 with
    | none => next (m.schedWrite h.ctx (at' + 43) [0x47])
    | some rec' =>
      let x := Rcb.parse (leNat rec')
      if complMoves m h.ctx x.compl then none
      else match m.engRead w h.root 128 with
      | none => next (complete (m.schedWrite h.ctx (at' + 43) [0x47]) h.ctx x.compl 0x47 0)
      | some root =>
        let pr := Rcb.parse (leNat root)
        next (admitRegion m h.ctx at' x pr (rootPool m h.ctx pr) h.root none).2
/-- The scheduler reads the record and its root unless a link has not delivered them for too long (R362). -/
def execRecordAdmission (q : Nat) (s : State) : Host.Outcome State Fault Refusal :=
  event s (fun m => admitNext (m.after (outOf m.queueOut (q, 0))) q)

/-! ### LAUNCH (R306) -/

def launchReach (a : Reg) (g : Group) : Reach := nowReach g (lowPair g a 0) 128 128
def chkLaunch (a : Reg) (g : Group) (_ : Nat) : Option Trap :=
  if g.spawn then some { cause := .frame, info := 0 } else (launchReach a g).trapOf
/-- The EDGE queue of the issuing context that LAUNCH names. -/
def edgeQueue (m : Mach) (c : Nat) (n : Word) : Option QHead :=
  if n.toNat < 4096 ∧ (m.queue n.toNat).edge ∧ (m.queue n.toNat).ctx = c then some (m.queue n.toNat) else none
/-- A full queue. -/
def QHead.full (h : QHead) : Bool := gap h.prod h.cons == 2 ^ h.logn
/-- The record as LAUNCH loads it. -/
def launchRaw (a : Reg) (g : Group) : List Byte := recBytes g.pre g.sp (launchReach a g).locs
/-- A crew copy that a gang, or a run, has pushed a slice of, and that is not accepted yet (R243, R246). -/
def Mach.formingBy (m : Mach) (gang : Nat) (us : List Nat) : Bool :=
  m.crews.any (fun c => c.2.forming.any (fun f => f.any (fun sl => sl.gang == gang || sl.us.any us.contains)))
/-- LAUNCH waits for the gang's earlier accesses and commands, as a REL does, while its loads or its writes wait, and while its queue is full and no
pre-emption is requested (DEDUCED, log 32). -/
def stallLaunch (a b : Reg) (g : Group) : Bool :=
  recStall g (launchReach a g) || (!g.run.isEmpty && (gangBusy g.pre g.gang || g.pre.formingBy g.gang g.run ||
    (if lowRd g b 0 = 0xFFFFFFFF then complMoves g.pre g.ctx (Rcb.parse (leNat (launchRaw a g))).compl
     else match edgeQueue g.pre g.ctx (lowRd g b 0) with
      | some h => if h.full then !(g.pre.thr g.low).preq else g.pre.moves g.ctx (h.slot h.prod) 128
      | none => false)))
/-- What LAUNCH writes, and its effect. -/
def launchDo (a b : Reg) (g : Group) (m : Mach) : List Word × Mach :=
  let n := lowRd g b 0
  let va := (lowPair g a 0).toNat
  let raw := launchRaw a g
  let m0 := m.l1Clean g.sp false (lineOf g.ctx)
  if n = 0xFFFFFFFF then
    let r := (m.gang g.gang).region
    let x := admitRegion m0 g.ctx va (Rcb.parse (leNat raw)) (m.region r).rcb (some (m.region r).pool) (m.region r).addr (some r)
    ([BitVec.ofNat 32 x.1, 0], x.2)
  else match edgeQueue g.pre g.ctx n with
  | none => ([0x47], m)
  | some h =>
    if h.full then ([0x80000000], m)
    else ([0, h.prod], (m0.schedWrite g.ctx (h.slot h.prod) raw).setQueue n.toNat 0 (leBytes 4 (h.prod + 1).toNat))
def execLaunch (h : Hdr) (d a b : Reg) (s : State) : Host.Outcome State Fault Refusal :=
  gangWord h (.launch h d a b) s (chkLaunch a) (stallLaunch a b) .stalled (fun g m =>
    if g.run.isEmpty then (m, g) else
    ((recDefer g.pre g.sp m.seq (launchDo a b g m).2 g.low (launchReach a g).locs).onRun g.run (fun _ t => t.wrs d (launchDo a b g m).1), g))

/-! ### Placement (R303, R308, R309, R311, R312) -/

/-- Gangs that occupy slots of a spindle. -/
def Mach.gangsOn (m : Mach) (sp : Nat) : List Gang := (m.gangs.filter (fun x => x.2.sp == sp && x.2.life == .live)).map (·.2)
/-- Gangs of a region that occupy slots, and the spindles that they occupy. -/
def Mach.placedGangs (m : Mach) (r : Nat) : List Gang := (m.gangs.filter (fun x => x.2.region == r && x.2.life == .live)).map (·.2)
def Mach.regionSps (m : Mach) (r : Nat) : List Nat := ((m.placedGangs r).map (·.sp)).eraseDups
/-- Crews whose crew-local memory and barriers lie on a spindle. -/
def Mach.crewsOn (m : Mach) (sp : Nat) : List Crew :=
  (m.crews.filter (fun x => x.2.sp == sp && (x.2.life == .live || (x.2.life == .saved && x.2.bound)))).map (·.2)
/-- Free gang slots of a spindle. -/
def Mach.freeSlots (m : Mach) (sp : Nat) : List Nat := (List.range 64).filter (fun n => !(m.gangsOn sp).any (fun g => g.slot == n))
/-- Free barriers of a spindle, in the order in which the next crew takes them: which is not architected (R261) (DESIGN CHOICE, log 52). -/
def Mach.barFree (m : Mach) (sp : Nat) : List Nat :=
  m.inAnyOrder ((List.range 128).filter (fun n => !(m.crewsOn sp).any (fun c => c.barNo.contains n)))
/-- Free gang slots of a spindle, in the order in which the next gangs take them: which is not architected. -/
def Mach.slotsFor (m : Mach) (sp : Nat) : List Nat := m.inAnyOrder (m.freeSlots sp)
/-- Whether n more gangs on a spindle stay within a region's budget (R309). -/
def inBudget (m : Mach) (r n sp : Nat) : Bool :=
  let g := m.region r
  decide ((sp :: m.regionSps r).eraseDups.length ≤ g.rcb.spbud) && decide ((m.placedGangs r).length + n ≤ g.rcb.gbud)
/-- A spindle of the gale reservation takes gangs of another class only while it is idle: no gale gang is on it (R313) (DESIGN CHOICE, log 20). -/
def galeFree (m : Mach) (r sp : Nat) : Bool :=
  (m.region r).rcb.cls == 0 || !(m.spindle sp).gale || !(m.gangsOn sp).any (fun g => (m.region g.region).rcb.cls == 0)
/-- Whether a spindle belongs to the gale reservation: the first G of its C-die in the scheduler's order (R313). -/
def Mach.reserved (m : Mach) (sp : Nat) : Bool :=
  ((sortBy (fun a b => decide (Config.galeRank a ≤ Config.galeRank b)) (span (dieOf sp * 96) 96)).take m.gale).contains sp
/-- A change of G takes effect for a spindle that holds no crew, a saved spindle-bound one counting (R313, R328). -/
def regale (m : Mach) (sp : Nat) : Mach :=
  if !(m.crewsOn sp).isEmpty then m else m.modSp sp (fun s => { s with gale := m.reserved sp })
/-- Whether n gangs of a region fit a spindle's slots and registers, its reservation, and the region's budget. -/
def gangsFit (m : Mach) (r n sp : Nat) : Bool :=
  let g := m.region r
  decide (sp < 384) && decide (n ≤ (m.freeSlots sp).length) &&
    decide ((((m.gangsOn sp).map (fun x => (m.region x.region).need)).sum + n * g.need) * 128 ≤ 393216) && galeFree m r sp &&
    inBudget m r n sp
/-- Free entries of the spawn part of the pool that a region uses. -/
def freeEntries (m : Mach) (r : Nat) : List Nat :=
  (List.range (m.region r).rcb.pooln).filter (fun n => !(m.pools.at (m.poolOf r)).contains n)
/-- Crew slots of an owning region that no live crew holds. -/
def freeCrewSlots (m : Mach) (r : Nat) : List Nat :=
  let g := m.region r
  (List.range (g.poolCrew / (32 * max g.rcb.gangs 1))).filter (fun n =>
    !m.crews.any (fun c => c.2.region == r && c.2.life != .ended && c.2.cslot == some n))
/-- Whether a crew of a region finds room on a spindle within its budget. -/
def crewRoom (m : Mach) (r sp : Nat) : Bool :=
  let g := m.region r
  gangsFit m r g.rcb.gangs sp && decide (((m.crewsOn sp).map (·.locSize)).sum + g.loc ≤ 786432) &&
    decide (((m.crewsOn sp).map (·.nbWin)).sum + g.nbar ≤ 128)
/-- Whether the pool has the entries of n more crews of a region (R303). -/
def poolRoom (m : Mach) (r n : Nat) : Bool :=
  let g := m.region r
  if g.poolOwn then decide (n ≤ (freeCrewSlots m r).length) else decide (n * (32 * g.rcb.gangs) ≤ (freeEntries m r).length)
/-- Whether the next crew of a region fits a spindle. -/
def crewFits (m : Mach) (r sp : Nat) : Bool :=
  let g := m.region r
  m.regions.has r && g.live && decide (g.placed < g.rcb.crews) && crewRoom m r sp && poolRoom m r 1
/-- How many crews of a region a spindle has room for. -/
def crewCount (m : Mach) (r sp : Nat) : Nat :=
  let g := m.region r
  let n := max g.rcb.gangs 1
  let per (free size : Nat) : Nat := if size = 0 then 64 else free / size
  if !galeFree m r sp then 0
  else min (min ((m.freeSlots sp).length / n) (per (393216 - ((m.gangsOn sp).map (fun x => (m.region x.region).need)).sum * 128) (n * g.need * 128)))
    (min (per (786432 - ((m.crewsOn sp).map (·.locSize)).sum) g.loc) (per (128 - ((m.crewsOn sp).map (·.nbWin)).sum) g.nbar))
/-- Spindles by the crews of a region that they have room for, the most first. -/
def roomiest (m : Mach) (r : Nat) : List Nat :=
  ((sortBy (fun (a b : Nat × Nat) => decide (b.2 ≤ a.2)) ((List.range 384).map (fun sp => (sp, crewCount m r sp)))).map (·.1))
/-- CAP, BORROW and RATE of a token entry (R310). -/
def Ctx.cap (c : Ctx) : Nat := bitsOf c.tok.toNat 44 20
def Ctx.borrow (c : Ctx) : Nat := bitsOf c.tok.toNat 24 20
def Ctx.rate (c : Ctx) : Nat := bitsOf c.tok.toNat 8 16
/-- Regions with a crew that waits. -/
def waitingRegions (m : Mach) : List Nat :=
  (m.regions.filter (fun x => x.2.live && decide (x.2.placed < x.2.rcb.crews))).map (·.1)
/-- Whether free slots within its budget would take the next crew of a region, or all crews of a co-resident one (R309, R312). -/
def hasRoom (m : Mach) (r : Nat) : Bool :=
  let g := (m.region r).rcb
  if g.cores then
    decide (g.crews ≤ (((roomiest m r).take g.spbud).map (crewCount m r)).sum) && decide (g.crews * g.gangs ≤ g.gbud)
  else (List.range 384).any (crewRoom m r)
/-- The crews of a region that are to be placed together. -/
def Region.batch (r : Region) : Nat := if r.rcb.cores then r.rcb.crews else 1
/-- Whether the next crew of a region waits for a spindle: the spindle lies within its budget, the pool has its entries, and it fits there
now or no spindle has room for it (R311). -/
def awaitsSpindle (m : Mach) (q sp : Nat) : Bool :=
  poolRoom m q (m.region q).batch && inBudget m q (m.region q).rcb.gangs sp && (crewFits m q sp || !hasRoom m q)
/-- Tokens allow a crew of a region on a spindle (R311). -/
def tokensAllow (m : Mach) (r sp : Nat) : Bool :=
  let c := (m.region r).ctx
  let x := m.ctx c
  (m.region r).rcb.cls == 0 || decide (0 < x.bal) ||
    (decide (-(65536 * (x.borrow : Int)) < x.bal) &&
      !(waitingRegions m).any (fun q => decide (0 < (m.ctx (m.region q).ctx).bal) && awaitsSpindle m q sp))
/-- The placement order: class, then admission. -/
def before (m : Mach) (q r : Nat) : Bool :=
  decide ((m.region q).rcb.cls < (m.region r).rcb.cls) || ((m.region q).rcb.cls == (m.region r).rcb.cls && decide (q < r))
/-- Whether the next crew of a region may take a place on a spindle: no crew that comes earlier takes it. -/
def mayPlace (m : Mach) (r sp : Nat) : Bool :=
  crewFits m r sp && tokensAllow m r sp &&
    !(waitingRegions m).any (fun q => before m q r && crewFits m q sp && tokensAllow m q sp)
/-- A thread that a crew starts (R303, R13). -/
def crewThread (R : Region) (r g lane tid e : Nat) : Thread :=
  let stk := R.pool.entry e + 1024 * R.rcb.stksz
  { region := r, gang := g, lane := lane, pos := Pos.start R.rcb.entry, tid := BitVec.ofNat 32 tid, fstk := BitVec.ofNat 64 stk,
    v := (([BitVec.ofNat 32 stk, BitVec.ofNat 32 (stk / 2 ^ 32)] ++ R.rcb.args.toList).zipIdx).foldl
      (fun (v : Vector Word 64) x => v.setIfInBounds x.2 x.1) (Vector.replicate 64 0),
    entry := e, stk := BitVec.ofNat 64 (R.pool.entry e) }
/-- Place the next crew of a region on a spindle: its gangs and threads start. -/
def placeCrew (m : Mach) (r sp : Nat) : Mach :=
  let R := m.region r
  let G := R.rcb.gangs
  let k := m.nextId
  let slots := m.slotsFor sp
  let cs := (freeCrewSlots m r).headD 0
  let own := if R.poolOwn then [] else (m.inAnyOrder (freeEntries m r)).take (32 * G)
  let ent (i : Nat) : Nat := if R.poolOwn then cs * G * 32 + i else R.poolCrew + own.getD i 0
  let gid (i : Nat) : Nat := k + 1 + i
  let tid (i : Nat) : Nat := k + 1 + G + i
  let gangs := (List.range G).map (fun i =>
    (gid i, ({ region := r, crew := some k, sp := sp, slot := slots.getD i 0, gangid := BitVec.ofNat 32 i,
               lanes := (List.range 32).map (fun l => some (tid (32 * i + l))) } : Gang)))
  let thr := (List.range (32 * G)).map (fun i => (tid i, crewThread R r (gid (i / 32)) (i % 32) (R.placed * G * 32 + i) (ent i)))
  let crew : Crew := { region := r, crewid := BitVec.ofNat 32 R.placed, life := .live, sp := sp,
                       cslot := if R.poolOwn then some cs else none, locSize := R.loc, nbWin := R.nbar, barNo := (m.barFree sp).take R.nbar, entries := own }
  let m1 := { m with gangs := m.gangs ++ gangs, threads := m.threads ++ thr, crews := m.crews.put k crew, nextId := k + 1 + G + 32 * G, pickN := m.pickN + 1,
                     pools := if own.isEmpty then m.pools else m.pools.put (m.poolOf r) (m.pools.at (m.poolOf r) ++ own) }
  m1.modRegion r (fun x => { x with placed := x.placed + 1 })
/-- Place all crews of a co-resident region where `ok` lets each go, trying spindles in the order that `sps` gives; none where some crew
finds no place (R309). -/
def placeAll (ok : Mach → Nat → Nat → Bool) (sps : Mach → List Nat) (m : Mach) (r : Nat) : Nat → Option Mach
  | 0 => if (m.region r).rcb.crews ≤ (m.region r).placed then some m else none
  | n + 1 =>
    if (m.region r).rcb.crews ≤ (m.region r).placed then some m
    else match (sps m).find? (fun sp => ok m r sp) with
    | none => none
    | some sp => placeAll ok sps (placeCrew m r sp) r n
/-- Spindles in an order that the scheduler chooses, and in order from one on. -/
def anySps (first : Nat) (m : Mach) : List Nat := first :: m.inAnyOrder (List.range 384)
def spsFrom (sp : Nat) (_ : Mach) : List Nat := (List.range 384).map (fun i => (sp + i) % 384)

/-! ### Pre-emption requests (R311, R312, R326) -/

/-- Set %preq in every live thread of the gangs that p names; a thread in the regrouping table keeps the gang that it came from. -/
def setPreq (m : Mach) (p : Nat → Bool) : Mach := m.mapThr (fun _ t => if p t.gang ∧ t.stat.live then { t with preq := true } else t)
/-- Request pre-emption of a crew, or of a spawn gang. -/
def requestCrew (m : Mach) (k : Nat) (cap : Bool) : Mach :=
  setPreq (m.modCrew k (fun c => { c with preqAt := some (c.preqAt.getD m.clock), capped := c.capped || cap })) (fun g => (m.gang g).crew == some k)
def requestGang (m : Mach) (g : Nat) (cap : Bool) : Mach :=
  setPreq (m.modGang g (fun x => { x with preqAt := some (x.preqAt.getD m.clock), capped := x.capped || cap })) (· == g)
/-- The crews that a request for crew k names: all of a co-resident region. -/
def crewVictims (m : Mach) (k : Nat) : List Nat :=
  if (m.region (m.crew k).region).rcb.cores then (m.regionCrews (m.crew k).region).filter (fun j => (m.crew j).life == .live) else [k]
/-- Victims on a spindle for a waiting crew of region r: a numerically higher class, or a borrowing context (R311, R312). -/
def isVictim (m : Mach) (r q : Nat) : Bool :=
  let R := m.region r
  let Q := m.region q
  decide (R.rcb.cls < Q.rcb.cls) || (decide (0 < (m.ctx R.ctx).bal) && decide ((m.ctx Q.ctx).bal ≤ 0) && R.ctx != Q.ctx && Q.rcb.cls != 0)
/-- Ask the victims on a spindle within its budget to give it up, where a waiting crew whose pool has its entries finds no free slot; a gale crew caps the deadline
of those that have been asked before. -/
def askVictims (m : Mach) (r sp : Nat) : Option Mach :=
  let cap := (m.region r).rcb.cls == 0
  let due (q : Nat) (asked : Option (BitVec 64)) (capped : Bool) : Bool := isVictim m r q && (asked.isNone || (cap && !capped))
  let cs := (m.crews.filter (fun c => c.2.sp == sp && c.2.life == .live && due c.2.region c.2.preqAt c.2.capped)).map (·.1)
  let gs := (m.gangs.filter (fun g => g.2.sp == sp && g.2.life == .live && g.2.crew.isNone && due g.2.region g.2.preqAt g.2.capped)).map (·.1)
  if !(m.region r).live || !decide ((m.region r).placed < (m.region r).rcb.crews) || hasRoom m r ||
      !poolRoom m r (m.region r).batch || !inBudget m r (m.region r).rcb.gangs sp ||
      (cs.isEmpty && gs.isEmpty) then none
  else some (gs.foldl (fun x g => requestGang x g cap) ((cs.flatMap (crewVictims m)).foldl (fun x k => requestCrew x k cap) m))
/-- CREW_PLACE: region k's next crew, or all crews of a co-resident region, take their places; where none is free, pre-emption is
requested (DEDUCED, log 33). -/
def crewPlace (m : Mach) (k sp : Nat) : Option Mach :=
  if (m.region k).rcb.cores then
    match ((placeAll mayPlace (anySps sp) m k (m.region k).rcb.crews).or (placeAll mayPlace (spsFrom sp) m k (m.region k).rcb.crews)).or
        (placeAll mayPlace (fun _ => roomiest m k) m k (m.region k).rcb.crews) with
    | some m1 => if (m.region k).placed < (m.region k).rcb.crews then some m1 else none
    | none => askVictims m k sp
  else if mayPlace m k sp then some (placeCrew m k sp)
  else askVictims m k sp
def execCrewPlace (k sp : Nat) (s : State) : Host.Outcome State Fault Refusal := event s (fun m => crewPlace m k sp)

/-! ### REGION_COMPLETE (R309) and TOKEN_ACCRUAL (R310) -/

/-- Whether a region has threads, spawn requests, held spawn gangs, child regions or accesses outstanding. -/
def regionBusy (m : Mach) (r : Nat) : Bool :=
  let R := m.region r
  R.crewsLeft != 0 || m.gangs.any (fun x => x.2.region == r && x.2.life != .ended) ||
    m.dies.any (fun d => d.2.queue.any (fun q => q.region == r) || d.2.held.any (fun h => h.region == r)) ||
    m.regions.any (fun x => x.2.parent == some r) || m.reqs.any (fun q => (m.gang q.gang).region == r)
def regionDone (m : Mach) (r : Nat) : Option Mach :=
  if !m.regions.has r || regionBusy m r || complMoves m (m.region r).ctx (m.region r).rcb.compl then none
  else
    let R := m.region r
    let m1 := complete m R.ctx R.rcb.compl 0 R.cause
    some { m1 with regions := m1.regions.drop r, crews := m1.crews.filter (fun c => c.2.region != r),
                   gangs := m1.gangs.filter (fun g => g.2.region != r), threads := m1.threads.filter (fun t => t.2.region != r),
                   pools := if R.poolOwn then m1.pools.drop (m.poolOf r) else m1.pools }
def execRegionComplete (r : Nat) (s : State) : Host.Outcome State Fault Refusal := event s (fun m => regionDone m r)
/-- Spindles on which a context holds a gang slot. -/
def spindlesHeld (m : Mach) (c : Nat) : Nat :=
  (((m.gangs.filter (fun x => x.2.life == .live && m.ctxOfRegion x.2.region == c)).map (·.2.sp)).eraseDups).length
/-- One cycle of a context's account, up to the cycle that %clock shows. -/
def accrue (m : Mach) (c : Nat) : Option Mach :=
  if !m.ctxs.has c || (m.ctx c).accrued == m.clock then none
  else some (m.modCtx c (fun x =>
    { x with accrued := x.accrued + 1, bal := min (x.bal - 64 * spindlesHeld m c + x.rate) (65536 * (x.cap : Int)) }))
def execTokenAccrual (ctx : Nat) (s : State) : Host.Outcome State Fault Refusal := event s (fun m => accrue m ctx)

end Sys2Proof.Machine
end

