-- ==== Sys2Proof/Machine/Perform.lean ====
section
/-! DEFINITION. Long results that return (R23, R24, R98, R114, R222), requests that perform at their targets (R99, R212 to R218, R220,
R223), merging in routers (R216), and the fetch agent (R355). Results and requests are named by their program-order number. -/

namespace Sys2Proof.Machine

/-! ### When a request may perform (R16, R213, R214, R223, R225) -/

/-- A request that reads what it finds at its target. -/
def ReqK.reads : ReqK → Bool
  | .atom _ _ _ => true
  | .acas _ _ _ => true
  | .fred _ _ _ => true
  | .chunk => true
  | _ => false
/-- Whether two requests share a byte that one of them writes: the scale byte of an ST.T is only read (R16, R94, R99). -/
def Req.meets (p q : Req) : Bool := overlap p.body q.ls || overlap p.ls q.body
/-- Whether an earlier request must perform before a request: the same thread's or the same word's on shared bytes; for a REL, all
of its word; for a flush, all of its thread. -/
def Req.blocks (p q : Req) : Bool :=
  decide (p.seq < q.seq) && match q.kind with
    | .rel _ _ => p.wordNo == q.wordNo || (p.u == q.u && p.meets q)
    | .flush _ _ _ _ => p.u == q.u
    | _ => (p.u == q.u || p.wordNo == q.wordNo) && p.meets q
/-- A request that may perform now (DEDUCED, log 24). -/
def reqReady (m : Mach) (q : Req) : Bool :=
  q.into.isNone && !m.reqs.any (fun p => p.blocks q) &&
    !m.results.any (fun r => decide (r.seq < q.seq) && r.us.contains q.u &&
      (overlap r.src.locs q.body || (q.kind.reads && m.observes r q.ls))) &&
    !m.heldAt (m.gang q.gang).crew (vasOf q.ls) && !m.pushing q.gang [q.u] q.seq &&
    (match q.kind with
      | .rel _ _ => !m.busyBefore q.u q.seq
      | _ => true)

/-! ### Values of loads -/

/-- A number as n words, the first lowest. -/
def wordsOf (n x : Nat) : List Word := (List.range n).map (fun i => BitVec.ofNat 32 (x / 2 ^ (32 * i)))
/-- A scale byte's value. -/
def scaleVal (b : Byte) : Int := signedOf b.toNat 8
/-- The words that bytes give; none where a sparse group is malformed (R90, R98, R101). -/
def Conv.value (cv : Conv) (bs : List Byte) : Option (List Word) :=
  let body := leNat bs.dropLast
  let sc := scaleVal (bs.getLastD 0)
  let f32 (v : FVal) : List Word := [BitVec.ofNat 32 (deliver32 v)]
  match cv with
  | .sext b => some [BitVec.ofInt 32 (signedOf (leNat bs) b)]
  | .zext => some [BitVec.ofNat 32 (leNat bs)]
  | .words n => some (wordsOf n (leNat bs))
  | .typed fmt sub =>
    if fmt = 1 then some [BitVec.ofNat 32 (leNat bs)]
    else if isBlock fmt then some (f32 (elemVal fmt (bitsOf body sub (fmtWidth fmt)) sc))
    else some [BitVec.ofNat 32 (cvtFF (fltOf fmt) fp32 .rne false (leNat bs)).1]
  | .sparse fmt n pos =>
    let es := groupEntries fmt n body
    if badGroup es then none
    else match es.find? (fun e => e.2 == pos) with
    | none => some [0]
    | some e => some (f32 (elemVal fmt e.1 sc))
/-- The bytes of a load: those a typed word has read already, and the others as the spindle reads them now (R100). -/
def gotBytes (m : Mach) (sp : Nat) (got : List (Nat × Byte)) (ls : List Loc) : List Byte :=
  ls.zipIdx.map (fun x => ((got.find? (fun y => y.1 == x.2)).map (·.2)).getD (m.load sp x.1))
/-- The bytes of an element or group, without its scale. -/
def Conv.body (cv : Conv) (ls : List Loc) : List Loc := if cv.scaled then ls.dropLast else ls
/-- Bytes in more than one sector. -/
def spansSectors : List Loc → Bool
  | [] => false
  | l :: r => r.any (fun x => !sameSector l x)
/-- An element that lies in two sectors is read and written at its home, past an L1 that may hold one of them, so that its bits stay
together (R100). -/
def Mach.together (m : Mach) (sp : Nat) (ls : List Loc) : Mach := if spansSectors ls then m.l1Clean sp true (lineIn ls) else m
/-- The first byte of a load of a spindle that meets an uncorrectable error. -/
def firstErr (m : Mach) (sp : Nat) (ls : List Loc) : Option Loc := ls.find? (m.readErr sp)

/-! ### LONG_RESULT_RETURN (R24) -/

/-- Write a result's registers in each of its threads; the result has returned. -/
def giveResult (m : Mach) (r : Res) (xs : List Word) : Mach :=
  ({ m with results := m.results.filter (fun x => x.seq != r.seq) } : Mach).onRun r.us (fun _ t => t.wrs r.dst xs)
/-- A failed access: its registers receive zero, and its lanes owe a report (R101, R324). -/
def failResult (m : Mach) (r : Res) (c : Cause) (va : Nat) : Mach :=
  (giveResult m r (List.replicate r.n 0)).onRun r.us (fun _ t => t.defer ⟨c, BitVec.ofNat 32 va, r.seq⟩)
/-- The oldest outstanding RGWAIT of a ring. -/
def firstRing (m : Mach) (crew : Option Nat) (k : Nat) : Option Res :=
  m.results.find? (fun r => r.src == .ring k && (m.gang r.gang).crew == crew)
/-- The word that a WAITC reads now. -/
def waitcNow (m : Mach) (r : Res) (ls : List Loc) : Word := BitVec.ofNat 32 (leNat (ls.map (m.load (m.gang r.gang).sp)))
/-- A result that can return is written to its destination. -/
def returnRes (m : Mach) (r : Res) : Option Mach :=
  let g := m.gang r.gang
  let ready (ls : List Loc) : Bool := m.readReady r.us r.gang r.seq ls
  match r.src with
  | .val xs => some (giveResult m r xs)
  | .load ls cv =>
    if !ready ls then none
    else match firstErr m g.sp ls with
    | some l => some (failResult m r .dataError l.va)
    | none =>
      let m1 := (m.together g.sp (cv.body ls)).l1Renew g.sp ls
      match cv.value (gotBytes m1 g.sp r.got ls) with
      | some xs => some (giveResult m1 r xs)
      | none => some (failResult m1 r .format r.va.toNat)
  | .acq ls cov =>
    if !ready ls then none
    else match ls.find? (fun l => m.homeErr l || m.l1Bad g.sp l) with
    | some l => some (failResult m r .dataError l.va)
    | none =>
      let c := m.ctxOfGang r.gang
      let m1 := (m.l1Clean g.sp true (lineIn ls)).acqL1 g.sp c (cov ++ m.recCov c ls)
      some (giveResult m1 r [BitVec.ofNat 32 (leNat (m1.homeGets ls))])
  | .req _ => none
  | .pop _ => none
  | .ring k =>
    match g.crew with
    | none => none
    | some c =>
      let rg := (m.crew c).ring k
      if rg.pub = rg.tak ∨ (firstRing m g.crew k).map (·.seq) ≠ some r.seq then none
      else some ((giveResult m r [rg.tak, BitVec.ofNat 32 (rg.stage rg.tak)]).modCrew c (fun x =>
        x.setRing k { x.ring k with tak := rg.tak + 1 }))
  | .waitc ls cmp =>
    if !ready ls then none
    else match firstErr m g.sp ls with
    | some l => some (failResult m r .dataError l.va)
    | none =>
      if waitcNow m r ls != cmp || r.us.any (fun u => (m.thr u).preq) then some (giveResult (m.l1Renew g.sp ls) r [waitcNow m r ls])
      else none
/-- A result returns; a link that has not delivered its load for too long no longer does (R362). -/
def returnK (m : Mach) (k : Nat) : Option Mach := (m.results.find? (fun r => r.seq == k)).bind (fun r => returnRes (m.after r.out) r)
def execLongResultReturn (k : Nat) (s : State) : Host.Outcome State Fault Refusal := event s (fun m => returnK m k)
/-- 65,536 cycles after issue a WAITC delivers the last value read (R114), once its read may perform (R16, R232). -/
def waitcDue (m : Mach) (r : Res) : Bool :=
  match r.src with
  | .waitc _ _ => decide (65536 ≤ (m.clock - r.at').toNat)
  | _ => false
def waitcEnd (m : Mach) (k : Nat) : Option Mach :=
  match m.results.find? (fun r => r.seq == k && waitcDue m r) with
  | none => none
  | some r => match r.src with
    | .waitc ls _ => if !m.readReady r.us r.gang r.seq ls then none else match firstErr m (m.gang r.gang).sp ls with
      | some l => some (failResult m r .dataError l.va)
      | none => some (giveResult (m.l1Renew (m.gang r.gang).sp ls) r [waitcNow m r ls])
    | _ => none
def execWaitcTimeout (k : Nat) (s : State) : Host.Outcome State Fault Refusal := event s (fun m => waitcEnd m k)
/-- A typed word reads its scale, or its element, apart from the rest (R100). -/
def readPart (m : Mach) (k : Nat) (scale : Bool) : Option Mach :=
  let part (n i : Nat) : Bool := if scale then i + 1 == n else decide (i + 1 < n)
  match m.results.find? (fun r => r.seq == k) with
  | some r => match r.src with
    | .load ls cv =>
      if cv.scaled && !undelivered r.out && m.readReady r.us r.gang r.seq ls && (firstErr m (m.gang r.gang).sp ls).isNone then
        let m1 := (if scale then m else m.together (m.gang r.gang).sp (cv.body ls)).l1Renew (m.gang r.gang).sp ls
        let new := (ls.zipIdx.filter (fun x => part ls.length x.2)).map (fun x => (x.2, m1.load (m.gang r.gang).sp x.1))
        some { m1 with results := m1.results.map (fun x => if x.seq = k then { x with got := x.got ++ new } else x) }
      else none
    | _ => none
  | none => match m.reqs.find? (fun q => q.seq == k) with
    | some q => match q.kind, q.ls.getLast? with
      | .typed _ _ _, some l =>
        if scale && q.got.isNone && !undelivered q.out && reqReady m q && !m.readErr q.sp l then
          some { m with reqs := m.reqs.map (fun x => if x.seq = k then { x with got := some (m.load x.sp l) } else x) }
        else none
      | _, _ => none
    | none => none

/-! ### Operations at memory (R212, R215, R217) -/

/-- Op of ATOM on n bits. -/
def atomOp (op : Nat) (w8 : Bool) (old x : Nat) : Nat :=
  let n := if w8 then 64 else 32
  let sg (y : Nat) : Int := signedOf y n
  match op with
  | 0 => (old + x) % 2 ^ n
  | 1 => old &&& x
  | 2 => old ||| x
  | 3 => old ^^^ x
  | 4 => if sg x < sg old then x else old
  | 5 => if sg old < sg x then x else old
  | 6 => min old x
  | 7 => max old x
  | 8 => x
  | 9 => if x ≤ old then 0 else old + 1
  | 10 => (sumRound fp32 .rne false [fp32.decode old, fp32.decode x] false).1
  | 11 => (fp32.minmax false old x).1
  | _ => (fp32.minmax true old x).1
/-- Op of FRED on one number of a format. -/
def fredOne (f : Fmt) (op a b : Nat) : Nat :=
  if op = 0 then (sumRound f .rne false [f.decode a, f.decode b] false).1 else (f.minmax (op == 2) a b).1
def fredOp (op fmt old x : Nat) : Nat :=
  let half (f : Fmt) : Nat := fredOne f op (old % 2 ^ 16) (x % 2 ^ 16) + 2 ^ 16 * fredOne f op (old / 2 ^ 16 % 2 ^ 16) (x / 2 ^ 16 % 2 ^ 16)
  match fmt with
  | 0 => fredOne fp32 op old x
  | 1 => half bf16
  | 2 => half fp16
  | _ => atomOp (if op = 0 then 0 else if op = 1 then 4 else 5) false old x
/-- CHUNK: what it returns and the cell's new first word. -/
def chunkOf (cell : Nat) : Nat × Nat :=
  let next := bitsOf cell 0 32
  let fin := bitsOf cell 32 32
  let mn := max (bitsOf cell 64 16) 1
  let dv := max (bitsOf cell 80 16) 1
  let rem := fin - next
  let len := if rem = 0 then 0 else min rem (max mn ((rem + dv - 1) / dv))
  (next + 2 ^ 32 * len, (next + len) % 2 ^ 32)
/-- What a request leaves at its target, for the value that it finds there. -/
def ReqK.apply (k : ReqK) (old : Nat) : Nat :=
  match k with
  | .store val mask => (old - (old &&& mask)) + (val &&& mask)
  | .atom op w8 x => atomOp op w8 old x
  | .acas _ e n => if old = e then n else old
  | .fred op fmt x => fredOp op fmt old x
  | .chunk => setBits old 0 32 (chunkOf old).2
  | .rel x _ => x
  | _ => old
/-- What it returns, for that value. -/
def ReqK.result (k : ReqK) (old : Nat) : List Word :=
  match k with
  | .atom _ w8 _ => wordsOf (if w8 then 2 else 1) old
  | .acas w8 _ _ => wordsOf (if w8 then 2 else 1) old
  | .chunk => wordsOf 2 (chunkOf old).1
  | _ => []

/-! ### MEMORY_ACCESS_PERFORM (R16, R213, R214, R220, R223, R225) -/

/-- The old value of request n reaches the result that waits for it. -/
def fillReq (m : Mach) (n : Nat) (xs : List Word) : Mach :=
  { m with results := m.results.map (fun r => if r.src = .req n then { r with src := .val xs } else r) }
/-- Requests that have performed are gone. -/
def dropReqs (m : Mach) (q : Req) : Mach := { m with reqs := m.reqs.filter (fun p => p.seq != q.seq && p.into != some q.seq) }
/-- The requests merged into a request. -/
def mergedInto (m : Mach) (q : Req) : List Req := m.reqs.filter (fun p => p.into == some q.seq)
/-- Zeros for what a failed request would return. -/
def failReq (m : Mach) (p : Req) (va : Nat) : Mach :=
  let n := ((m.results.find? (fun r => r.src == .req p.seq)).map (·.n)).getD 0
  (fillReq m p.seq (List.replicate n 0)).modThr p.u (fun t => t.defer ⟨.dataError, BitVec.ofNat 32 va, p.seq⟩)
/-- Store the bits of one element of a block format: the scale byte stands last in the request's bytes (R99). -/
def storeTyped (m : Mach) (q : Req) (fmt sub x : Nat) : Mach :=
  let body := q.ls.dropLast
  let sc := scaleVal (q.got.getD (match q.ls.getLast? with
    | some l => m.load q.sp l
    | none => 0))
  let v := fp32.decode x
  let code := if fmt = 4 then l6Encode v sc else ((kEncode (if fmt = 5 then 127 else 7) v sc) % 2 ^ fmtWidth fmt).toNat
  let n := body.length
  let bits := List.zip (leBytes n (setBits 0 sub (fmtWidth fmt) code)) (leBytes n (setBits 0 sub (fmtWidth fmt) (2 ^ fmtWidth fmt - 1)))
  ((body.zip bits).filter (fun z => z.2.2 != 0)).foldl (fun z w => z.storeBits q.sp w.1 w.2.1 w.2.2) (m.together q.sp body)
/-- Write the dirty sectors that hold a byte of a span as far as the scope asks, then with `inv` drop the clean copies (R218). -/
def flushSpan (m : Mach) (q : Req) (inv : Bool) (sc ctx len : Nat) : Mach :=
  let inS (va : Nat) : Bool := spanMeets q.va.toNat len va
  let hit (x : Line) : Bool := lineOf ctx x && inS x.loc.va
  if sc < 2 then (if inv then m.l1Drop q.sp hit else m)
  else
    let m1 := m.l1Clean q.sp inv hit
    if sc < 5 then m1
    else
      let pas := m1.l2.nums.filter (fun pa => (m1.ctx ctx).ranges.any (fun r => r.parts.any (fun p =>
        match homeOf pa with
        | none => false
        | some _ =>
          let va := ((pa : Int) - p.2.2.toInt * 4096).toNat
          decide (p.1 ≤ va) && decide (va < p.2.1) && inS va && paOf va p.2.2 == pa)))
      pas.foldl (fun x pa => x.l2Clean pa) m1
/-- A read-modify-write at the target, which the L1s of the spindles that sent it no longer hold (R213, R216). -/
def applyAt (m : Mach) (q : Req) : Mach :=
  let m1 := ((q :: mergedInto m q).map (·.sp)).foldl (fun (x : Mach) sp => x.l1Clean sp true (lineIn q.ls)) m
  let old := leNat (m1.homeGets q.ls)
  let m2 := m1.homeSets q.ls (leBytes q.ls.length (q.kind.apply old))
  (mergedInto m q).foldl (fun x p => fillReq x p.seq (p.kind.result (match q.kind with
    | .atom op w8 _ => atomOp op w8 old p.pre
    | _ => old))) (fillReq m2 q.seq (q.kind.result old))
/-- Perform a request (DESIGN CHOICE, log 22). -/
def performReq (m : Mach) (q : Req) : Mach :=
  let ctx := m.ctxOfGang q.gang
  match q.ls.find? (fun l => match q.kind with
      | .store _ _ => m.storeErr q.sp l
      | .typed _ _ _ => m.storeErr q.sp l
      | .rel _ _ => m.badAt l || m.l1Bad q.sp l
      | _ => m.homeErr l || (q :: mergedInto m q).any (fun p => m.l1Bad p.sp l)) with
  | some l => dropReqs ((q :: mergedInto m q).foldl (fun x p => failReq x p l.va) m) q
  | none =>
    match q.kind with
    | .store val _ => dropReqs ((q.ls.zip (leBytes q.ls.length val)).foldl (fun x y => x.store q.sp y.1 y.2) m) q
    | .typed fmt sub x => dropReqs (storeTyped m q fmt sub x) q
    | .flush inv sc c len => dropReqs (flushSpan m q inv sc c len) q
    | .rel x cov =>
      let m1 := (m.relL1 q.sp ctx cov).l1Clean q.sp true (lineIn q.ls)
      dropReqs (m1.homeSets q.ls (leBytes q.ls.length x)) q
    | _ => dropReqs (applyAt m q) q
def performK (m : Mach) (k : Nat) : Option Mach :=
  match m.reqs.find? (fun q => q.seq == k) with
  | none => none
  | some q => if reqReady m q then some (performReq (m.after q.out) q) else none
def execMemoryAccessPerform (k : Nat) (s : State) : Host.Outcome State Fault Refusal := event s (fun m => performK m k)

/-! ### ROUTER_MERGE (R216) -/

/-- The operand of a request that a router may merge. -/
def ReqK.operand : ReqK → Option Nat
  | .atom op _ x => if op ≤ 7 then some x else none
  | .fred _ _ x => some x
  | _ => none
/-- Two requests of one operation, width and format. -/
def ReqK.alike (a b : ReqK) : Bool :=
  match a, b with
  | .atom op w _, .atom op' w' _ => op == op' && w == w'
  | .fred op f _, .fred op' f' _ => op == op' && f == f'
  | _, _ => false
/-- Op of two operands; the request that carries it. -/
def ReqK.combine (a : ReqK) (x y : Nat) : Nat :=
  match a with
  | .atom op w _ => atomOp op w x y
  | .fred op f _ => fredOp op f x y
  | _ => x
def merges (m : Mach) (p q : Req) : Bool :=
  p.kind.alike q.kind && p.kind.operand.isSome && p.ls == q.ls && wideScope p.scope && wideScope q.scope && p.wordNo != q.wordNo &&
    p.ls.all (fun l => match l.sto with
      | .dram => true
      | .remote _ => true
      | .csm => true
      | _ => false) && p.seq != q.seq && reqReady m p && reqReady m q
/-- Request k, which the router received first, takes request l in. -/
def mergeReqs (m : Mach) (k l : Nat) : Option Mach :=
  match m.reqs.find? (fun q => q.seq == k), m.reqs.find? (fun q => q.seq == l) with
  | some p, some q =>
    if merges m p q then
      match p.kind.operand, q.kind.operand with
      | some x, some y => some { m with reqs := m.reqs.map (fun r =>
          if r.seq = k then { r with kind := r.kind.withOperand (p.kind.combine x y), own := r.own.or (some x) }
          else if r.seq = l then { r with into := some k, pre := x }
          else if r.into = some l then { r with into := some k, pre := p.kind.combine x r.pre }
          else r) }
      | _, _ => none
    else none
  | _, _ => none
def execRouterMerge (k l : Nat) (s : State) : Host.Outcome State Fault Refusal := event s (fun m => mergeReqs m k l)

/-! ### LINK_REQUEST_TIMEOUT (R362) -/

/-- A request, or a read, that a link could not deliver in 1,000,000 cycles is answered as an uncorrectable error. -/
def linkFail (m : Mach) (k : Nat) : Option Mach :=
  match m.reqs.find? (fun q => q.seq == k) with
  | some q =>
    match q.ls.find? (·.far) with
    | none => none
    | some l => if reqReady m q && undelivered q.out then
        some (dropReqs ((q :: mergedInto m q).foldl (fun x p => failReq x p l.va) m) q) else none
  | none =>
    match m.results.find? (fun r => r.seq == k) with
    | none => none
    | some r => match r.src.locs.find? (·.far) with
      | none => none
      | some l => if m.readReady r.us r.gang r.seq r.src.locs && undelivered r.out then some (failResult m r .dataError l.va) else none
/-- A cycle in which no link delivers what is on its way to another device: an access that something else on this device holds back is not
on its way. -/
def linkCycle (m : Mach) : Mach :=
  { m with reqs := m.reqs.map (fun q => if q.ls.any (·.far) && reqReady m q then { q with out := q.out + 1 } else q),
           results := m.results.map (fun r =>
             if r.src.locs.any (·.far) && m.readReady r.us r.gang r.seq r.src.locs then { r with out := r.out + 1 } else r) }
def execLinkRequestTimeout (k : Nat) (s : State) : Host.Outcome State Fault Refusal := event s (fun m => linkFail m k)

/-! ### FETCH_AGENT_DELIVERY (R109, R355) -/

/-- The block of 192 bytes that holds an address. -/
def blockOf (a : Nat) : Nat := a / 192 * 192
/-- What the agent reads for the packet at an address: its bytes, the fault that it meets, or a wait. -/
def agentRead (m : Mach) (die ctx a : Nat) : Fetch := m.fetchBytes ⟨ctx, none, die * 96, true⟩ a 12
/-- The last n of a list: the instruction cache holds 128 KiB (R2), and what came first leaves it (DESIGN CHOICE, log 87). -/
def keepLast (n : Nat) (l : List α) : List α := l.drop (l.length - n)
/-- Whether some thread of a context on a spindle stands in a packet. -/
def Mach.standsAt (m : Mach) (sp ctx a : Nat) : Bool :=
  m.threads.any (fun x => x.2.stat.live && m.ctxOfRegion x.2.region == ctx && (m.gang x.2.gang).sp == sp && x.2.pos.pkt.toNat == a)
/-- A spindle receives the packets of a block; a fault is reported on each packet that it requested for a thread that stands there: one
met by a prefetch alone (R136) is not reported (R109). -/
def deliverTo (m : Mach) (die ctx blk sp : Nat) (s : Spindle) : Spindle :=
  let asked := (s.imiss.filter (fun x => x.1 == ctx && blockOf x.2 == blk)).map (·.2)
  if asked.isEmpty then s
  else
    let pk := (List.range 16).map (fun i => (blk + 12 * i, agentRead m die ctx (blk + 12 * i)))
    let new := pk.filterMap (fun x => match x.2 with
      | .ok bs => if s.icache.any (fun y => y.1 == ctx && y.2.1 == x.1) then none else some (ctx, x.1, bs)
      | _ => none)
    let bad := pk.filterMap (fun x => match x.2 with
      | .bad c va => if asked.contains x.1 && m.standsAt sp ctx x.1 then some (ctx, x.1, ({ cause := c, info := BitVec.ofNat 32 va, va := BitVec.ofNat 64 va } : Trap)) else none
      | _ => none)
    { s with icache := keepLast 10912 (s.icache ++ new), ifault := s.ifault ++ bad,
             imiss := s.imiss.filter (fun x => !(x.1 == ctx && blockOf x.2 == blk)),
             missOut := s.missOut.filter (fun x => !(x.1 == ctx && x.2.1 == blk)) }
def deliverBlock (m : Mach) (die ctx blk : Nat) : Option Mach :=
  let here := m.spindles.any (fun s => dieOf s.1 == die && s.2.imiss.any (fun x => x.1 == ctx && blockOf x.2 == blk))
  if !here || blk % 192 != 0 || (List.range 16).any (fun i => agentRead m die ctx (blk + 12 * i) == .wait) then none
  else some { m with spindles := m.spindles.mapV (fun sp s => if dieOf sp = die then deliverTo m die ctx blk sp s else s) }
/-- The blocks that a spindle waits for. -/
def Spindle.awaits (s : Spindle) : List (Nat × Nat) := s.imiss.map (fun x => (x.1, blockOf x.2))
/-- For how many cycles a link has not delivered a block to a die. -/
def fetchLate (m : Mach) (die ctx blk : Nat) : Nat :=
  (m.spindles.filter (fun s => dieOf s.1 == die)).foldl (fun n s => max n (outOf s.2.missOut (ctx, blk))) 0
def execFetchAgentDelivery (die ctx blk : Nat) (s : State) : Host.Outcome State Fault Refusal :=
  event s (fun m => deliverBlock (m.after (fetchLate m die ctx blk)) die ctx blk)

end Sys2Proof.Machine
end

