-- ==== Sys2Proof/Machine/Spawn.lean ====
section
/-! DEFINITION. Heartbeats (R153, R164), promotion (R126, R127, R154 to R157, R161), the gang assembler (R158, R159), releases of the
regrouping table (R163, R181), and the timer (R322). -/

namespace Sys2Proof.Machine

/-! ### The next group of a thread (R18, R20) -/

/-- The three words of a packet. -/
def packetWords (bs : List Byte) : List Word := (List.range 3).map (fun i => BitVec.ofNat 32 (leNat ((bs.drop (4 * i)).take 4)))
/-- The chain group at the head of some words: up to the first word with C = 0. -/
def chainOf : List Word → List Word
  | [] => []
  | w :: r => if (hdrOf w).c then w :: chainOf r else [w]
/-- The words of a thread's next group, as its spindle's instruction cache holds the packet, or else as a fetch finds it. -/
def Mach.nextWords (m : Mach) (u : Nat) : List Word :=
  let t := m.thr u
  let bs := match m.icacheAt (m.gangOf u).sp (m.ctxOf u) t.pos.pkt.toNat with
    | some bs => bs
    | none => match m.fetchBytes (m.who u) t.pos.pkt.toNat 12 with
      | .ok bs => bs
      | _ => []
  if bs.isEmpty then [] else chainOf ((packetWords bs).drop t.pos.slot.toNat)
/-- The instructions of that group. -/
def Mach.nextInstrs (m : Mach) (u : Nat) : List Instr := (m.nextWords u).map issueOf

/-! ### Due promotions (R153, R154, R164) -/

/-- Whether a thread's context is held on a spindle. -/
def Mach.onSpindle (m : Mach) (u : Nat) : Bool :=
  let t := m.thr u
  let g := m.gang t.gang
  if t.stat = .inTable then
    match g.crew with
    | some k => (m.crew k).life == .live
    | none => false
  else g.life == .live
/-- A tick: each live thread of the region that is held is due. -/
def tickRegion (m : Mach) (r : Nat) : Mach :=
  (m.mapThr (fun u t => if t.region = r ∧ t.stat.live ∧ m.onSpindle u then { t with due := true } else t)).modRegion r
    (fun x => { x with ticked := m.clock })
/-- A tick of a cycle-mode region that falls in this cycle. -/
def tickDue (m : Mach) (r : Nat) : Bool :=
  m.regions.has r && !(m.region r).rcb.det && m.clock.toNat % (m.region r).period == 0 && (m.region r).ticked != m.clock
def execHeartbeatTick (r : Nat) (s : State) : Host.Outcome State Fault Refusal :=
  event s (fun m => if tickDue m r then some (tickRegion m r) else none)
/-- A retired-packet count that has reached a multiple of H makes its thread due. -/
def logicalDue (m : Mach) (u : Nat) : Option Mach :=
  if m.threads.has u && (m.thr u).tick && (m.thr u).stat.live then some (m.modThr u (fun t => { t with tick := false, due := true }))
  else none
def execLogicalTick (u : Nat) (s : State) : Host.Outcome State Fault Refusal := event s (fun m => logicalDue m u)

/-! ### Promotion (R126, R127, R155, R156) -/

/-- Whether the frame in slot k is promotable. -/
def promotable (t : Thread) (k : Nat) : Bool :=
  let f := t.frames.getD k default
  let c := t.cell k
  match f.kind with
  | .point => f.state == .latent
  | .range => f.state == .active && decide (2 * c.grain.toNat ≤ f.hi.toNat - f.lo.toNat) && decide (c.npiece.toNat < 7)
/-- The lowest slot with a promotable frame. -/
def Thread.promoteAt (t : Thread) : Option Nat := (List.range t.used).find? (promotable t)
/-- Where a range frame is split: the greatest multiple of GRAIN, or of GRAIN and a power of two, up to half of what remains. -/
def splitMid (det : Bool) (f : Frame) (c : Cell) : Word :=
  let g := c.grain.toNat
  let n := (f.hi.toNat - f.lo.toNat) / 2 / max g 1
  f.lo + BitVec.ofNat 32 (g * (if det then 2 ^ Nat.log2 n else n))
/-- A thread at a packet boundary: parked, stalled in JOIN or RJOIN, in the regrouping table, or before a packet's first group (R126,
R154); one whose ERET waits goes by the slot of that ERET (DEDUCED, log 44). -/
def Thread.atBoundary (t : Thread) : Bool :=
  t.stat == .parked || t.stat == .joinWait || t.stat == .inTable || t.pos.slot == 0
/-- The spindle of a thread: its crew's, whatever became of the gang that it entered the regrouping table from. -/
def Mach.spOfThr (m : Mach) (u : Nat) : Nat :=
  match (m.gangOf u).crew with
  | some k => (m.crew k).sp
  | none => (m.gangOf u).sp
/-- And its die. -/
def Mach.dieOfThr (m : Mach) (u : Nat) : Nat := dieOf (m.spOfThr u)
/-- Whether a promotion finds no room in its spawn queue or its pool (R155). -/
def spawnFull (m : Mach) (u : Nat) : Bool :=
  decide (4096 ≤ (m.die (m.dieOfThr u)).queue.length) || (freeEntries m (m.thr u).region).isEmpty
/-- The address of a slot's join cell (R115). -/
def Mach.cellAddr (m : Mach) (u k : Nat) : BitVec 56 :=
  ((m.thr u).fstk + BitVec.ofNat 64 (32 * m.slotsOf u + 128 * k)).setWidth 56
/-- The thread once slot k is promoted, and the piece that goes to the spawn (DEDUCED, log 73). -/
def Thread.promote (t : Thread) (det : Bool) (k : Nat) : Thread × BitVec 3 × Word × Word :=
  let f := t.frames.getD k default
  let c := t.cell k
  match f.kind with
  | .point =>
    let c1 := { c with npiece := 1, pieces := c.pieces.setIfInBounds 0 { (c.pieces.toList.getD 0 default) with lo := 0, hi := 0 },
                       done := 0, taken := 0 }
    ((t.setFrame k { f with state := .promoted }).setCell k c1, 0, 0, 0)
  | .range =>
    let mid := splitMid det f c
    let j := c.npiece.toNat
    let c1 := { c with npiece := c.npiece + 1,
                       pieces := c.pieces.setIfInBounds j { (c.pieces.toList.getD j default) with lo := mid, hi := f.hi } }
    ((t.setFrame k { f with hi := mid }).setCell k c1, c.npiece, mid, f.hi)
/-- Promote the frame in slot k of thread u: its request enters the die's spawn queue with an entry of the pool. The thread fences, and
releases, what it has accessed before: until that has performed it issues nothing (R226) (DEDUCED, log 46). -/
def promoteSlot (m : Mach) (u k : Nat) : Mach :=
  let t := m.thr u
  let f := t.frames.getD k default
  let free := freeEntries m t.region
  let (x, m1) := m.choose free.length
  let e := free.getD x 0
  let (t1, piece, lo, hi) := t.promote (m.detOf u) k
  let q : SpawnReq :=
    { region := t.region, entry := f.entry, arg := f.arg, kind := f.kind, parent := u, pslot := k, cellAddr := m.cellAddr u k,
      piece := piece, lo := lo, hi := hi, grain := (t.cell k).grain, at' := m.clock, poolIdx := e, seq := m.seq }
  let m2 := (m1.setThr u { t1 with due := false, tried := false, fence := some m.seq }).modDie (m.dieOfThr u) (fun d => { d with queue := d.queue ++ [q] })
  { m2 with pools := m2.pools.put (m.poolOf t.region) (e :: m2.pools.at (m.poolOf t.region)) }
/-- PROMOTION: a due thread at a boundary. A deferral leaves a cycle-mode thread due, to be tried at its next boundary; a deterministic
one is held where it stands (R154, R155, R161). -/
def promoteThr (m : Mach) (u : Nat) : Option Mach :=
  let t := m.thr u
  if !m.threads.has u || !t.due || !t.stat.live || !t.atBoundary || !m.onSpindle u || t.tried then none
  else match t.promoteAt with
  | none => some (m.modThr u (fun x => { x with due := false }))
  | some k =>
    if !spawnFull m u then some (promoteSlot m u k)
    else if m.detOf u then none
    else some (m.modThr u (fun x => { x with tried := true }))
/-- The fence of a promotion performs once the thread's earlier accesses have, at scope dev (R224, R226). -/
def promoteFence (m : Mach) (u : Nat) : Option Mach :=
  match (m.thr u).fence with
  | none => none
  | some n =>
    if m.busyBefore u n then none
    else some ((m.fenceL1 (m.spOfThr u) (m.ctxOf u) 3).modThr u (fun t => { t with fence := none }))
/-- A thread whose promotion has still to perform as a fence. -/
def Mach.fenced (m : Mach) (u : Nat) : Bool := (m.thr u).fence.isSome
def execPromotion (u : Nat) (s : State) : Host.Outcome State Fault Refusal := event s (fun m => promoteThr m u)
/-- A thread that has met a cause and has still to take its trap. -/
def Stat.isTrapping : Stat → Bool
  | .trapping _ _ => true
  | _ => false
/-- A thread of a deterministic region that a promotion holds at its boundary; a handler, and a lane that is on its way to one, is not
held (R161). -/
def Mach.heldDet (m : Mach) (u : Nat) : Bool :=
  let t := m.thr u
  m.detOf u && t.due && !t.h && !t.stat.isTrapping && t.stat.live && t.atBoundary && m.onSpindle u && t.promoteAt.isSome && spawnFull m u

/-! ### The gang assembler (R158) -/

/-- Put a request in the gang of its region and ENTRY that is not released, or in a new one. -/
def joinHeld (hs : List HeldGang) (q : SpawnReq) (id : Nat) : List HeldGang :=
  match hs with
  | [] => [{ id := id, region := q.region, entry := q.entry, reqs := [q], released := false }]
  | h :: r =>
    if !h.released ∧ h.region = q.region ∧ h.entry = q.entry then
      { h with reqs := h.reqs ++ [q], released := decide (32 ≤ h.reqs.length + 1) } :: r
    else h :: joinHeld r q id
/-- GANG_ASSEMBLER_TAKE: the die's oldest request. -/
def assemble (m : Mach) (die : Nat) : Option Mach :=
  match (m.die die).queue with
  | [] => none
  | q :: r => some ({ m with nextId := m.nextId + 1 }.modDie die (fun d => { d with queue := r, held := joinHeld d.held q m.nextId }))
def execGangAssemblerTake (die : Nat) (s : State) : Host.Outcome State Fault Refusal := event s (fun m => assemble m die)
/-- A partial gang of a cycle-mode region whose oldest request has waited 256 cycles, counted from its promotion (R158) (DESIGN CHOICE,
log 107). -/
def heldTimely (m : Mach) (h : HeldGang) : Bool :=
  !h.released && !(m.region h.region).rcb.det && h.reqs.any (fun q => decide (256 ≤ (m.clock - q.at').toNat))
def releaseHeld (m : Mach) (die k : Nat) : Option Mach :=
  if (m.die die).held.any (fun h => h.id == k && heldTimely m h) then
    some (m.modDie die (fun d => { d with held := d.held.map (fun h => if h.id = k then { h with released := true } else h) }))
  else none
def execSpawnGangTimeout (die k : Nat) (s : State) : Host.Outcome State Fault Refusal := event s (fun m => releaseHeld m die k)
/-- The piece that a word would wait for in a thread: its slot and number. -/
def Thread.pieceOf (t : Thread) (i : Instr) : Option (Nat × Nat) :=
  match i with
  | .join _ => if t.joinWay = .wait then some (t.topK, 0) else none
  | .rjoin _ _ =>
    match t.exhausted, (t.cell t.topK).nextPiece with
    | some _, some (j, _) => if (t.cell t.topK).done.getLsbD j then none else some (t.topK, j)
    | _, _ => none
  | _ => none
/-- The piece that a thread stalled in JOIN or RJOIN waits for. -/
def Mach.awaits (m : Mach) (u : Nat) : Option (Nat × Nat) :=
  if (m.thr u).stat ≠ .joinWait then none else (m.nextInstrs u).findSome? (m.thr u).pieceOf
/-- Whether a request is for the piece that its parent waits for. -/
def Mach.awaited (m : Mach) (q : SpawnReq) : Bool := m.awaits q.parent == some (q.pslot, q.piece.toNat)
/-- A die whose assembler owes a join flush to a region. -/
def flushOwed (m : Mach) (d : Die) (r : Nat) : Bool :=
  (m.region r).rcb.det && d.held.any (fun h => h.region == r && !h.released && h.reqs.any m.awaited)
/-- Join flushes: every partial gang that an assembler holds for the region is released (DEDUCED, log 45). -/
def joinFlush (m : Mach) : Mach :=
  { m with dies := m.dies.mapV (fun _ d => { d with held := d.held.map (fun h =>
      if flushOwed m d h.region then { h with released := true } else h) }) }

/-! ### Placing a spawn gang (R128, R159, R226) -/

/-- How the assembler ranks a spindle for the gang of a parent's spindle (DEDUCED, log 46). -/
def spRank (parent sp : Nat) : Nat := if dieOf sp = dieOf parent ∧ sp ≠ parent then 0 else if sp = parent then 1 else 2
/-- Whether a held gang may take a slot of a spindle: it fits, and no spindle that the assembler prefers does. -/
def spawnFits (m : Mach) (h : HeldGang) (sp : Nat) : Bool :=
  let p := m.spOfThr (h.reqs.headD default).parent
  gangsFit m h.region 1 sp && !(List.range 384).any (fun x => decide (spRank p x < spRank p sp) && gangsFit m h.region 1 x)
/-- Whether every access that a parent made before its promotion has performed, and every command has been accepted (R226). -/
def parentsDone (m : Mach) (h : HeldGang) : Bool := h.reqs.all (fun q => !m.busyBefore q.parent q.seq)
/-- A spawn thread as it starts (R128, R159); the cell beside a point frame has the GRAIN of its request (DESIGN CHOICE, log 101). -/
def spawnThread (m : Mach) (g lane : Nat) (q : SpawnReq) : Thread :=
  let R := m.region q.region
  let e := R.poolCrew + q.poolIdx
  let stk := R.pool.entry e + 1024 * R.rcb.stksz
  let v := ((((Vector.replicate 64 0 : Vector Word 64).setIfInBounds 0 (BitVec.ofNat 32 stk)).setIfInBounds 1
    (BitVec.ofNat 32 (stk / 2 ^ 32))).setIfInBounds 2 (q.arg.extractLsb' 0 32)).setIfInBounds 3 (q.arg.extractLsb' 32 32)
  { region := q.region, gang := g, lane := lane, pos := Pos.start q.entry, v := v, fstk := BitVec.ofNat 64 stk,
    tid := 0x80000000 + BitVec.ofNat 32 (R.spawns + lane),
    frames := [{ entry := q.entry, kind := q.kind, state := .active, root := true, arg := q.arg, link := q.cellAddr, piece := q.piece,
                 lo := q.lo, hi := q.hi }],
    cells := [{ grain := q.grain, npiece := 0, done := 0, taken := 0, actdepth := 0, pieces := Vector.replicate 7 default }],
    spawn := true, parent := q.parent, pslot := q.pslot, entry := q.poolIdx, stk := BitVec.ofNat 64 (R.pool.entry e) }
/-- SPAWN_GANG_PLACE: held gang k of a die takes a free slot of a spindle and its threads start. What its parents wrote before the
promotions is at its homes, and its parents' spindles and its own drop their copies (R129, R226). -/
def placeSpawn (m : Mach) (die k sp : Nat) : Option Mach :=
  match (m.die die).held.find? (fun h => h.id == k && h.released) with
  | none => none
  | some h =>
    if !spawnFits m h sp || !parentsDone m h || !(m.region h.region).live then none
    else
      let g := m.nextId
      let n := h.reqs.length
      let c := m.ctxOfRegion h.region
      let mw := m.spindles.nums.foldl (fun (x : Mach) p => x.l1Clean p false (lineOf c)) m
      let m0 := (sp :: h.reqs.map (fun q => m.spOfThr q.parent)).foldl (fun (x : Mach) p => x.fenceL1 p c 3) mw
      let gang : Gang := { region := h.region, crew := none, sp := sp, slot := (m.slotsFor sp).headD 0, gangid := 0xFFFFFFFF,
                           lanes := (List.range 32).map (fun l => if l < n then some (g + 1 + l) else none) }
      let thr := h.reqs.zipIdx.map (fun x => (g + 1 + x.2, spawnThread m g x.2 x.1))
      let m1 := { m0 with gangs := m0.gangs ++ [(g, gang)], threads := m0.threads ++ thr, nextId := g + 1 + n, pickN := m.pickN + 1 }
      some ((m1.modRegion h.region (fun x => { x with spawns := x.spawns + n })).modDie die (fun d =>
        { d with held := d.held.filter (fun y => y.id != k) }))
def execSpawnGangPlace (die k sp : Nat) (s : State) : Host.Outcome State Fault Refusal := event s (fun m => placeSpawn m die k sp)

/-! ### Releases of the regrouping table (R163, R181) -/

/-- The lowest %gangid free in a crew. -/
def freeGangid (m : Mach) (k : Nat) : Nat :=
  ((List.range 33).find? (fun n => !(m.crewGangs k).any (fun g => (m.gang g).gangid.toNat == n))).getD 0
/-- Whether an entry finds a gang slot on its spindle and a place in its crew, which holds at most 32 gangs (R145, R163). -/
def entryFits (m : Mach) (sp : Nat) (e : RgEntry) : Bool :=
  gangsFit m (m.crew e.crew).region 1 sp && decide ((m.crewGangs e.crew).length < 32)
/-- Release an entry as a gang of its crew (DEDUCED, log 47); its threads bring their replay entries (DEDUCED, log 48). -/
def releaseEntry (m : Mach) (sp : Nat) (e : RgEntry) : Mach :=
  let g := m.nextId
  let brought := sortBy (fun a b => decide (a.seq ≤ b.seq)) (e.us.flatMap (fun u => (m.gangOf u).replay.filter (fun y => y.u == u)))
  let gang : Gang := { replay := brought, region := (m.crew e.crew).region, crew := some e.crew, sp := sp, slot := (m.slotsFor sp).headD 0,
                       gangid := BitVec.ofNat 32 (freeGangid m e.crew),
                       lanes := (List.range 32).map (fun l => if l < e.us.length then some (e.us.getD l 0) else none) }
  let left := m.gangs.mapV (fun _ x => { x with replay := x.replay.filter (fun y => !e.us.contains y.u) })
  let m1 := { m with gangs := left ++ [(g, gang)], nextId := g + 1, pickN := m.pickN + 1 }
  (m1.onRun e.us (fun u t => { t with gang := g, lane := e.us.idxOf u, stat := .run, skip := 0, yield := false, att := none, hatt := none })).modSp sp
    (fun x => { x with regroup := x.regroup.erase e })
/-- A cycle-mode entry that becomes due for release: it is full, or its oldest thread has waited 256 cycles (R163). -/
def entryRipe (m : Mach) (e : RgEntry) : Bool :=
  e.due.isNone && !(m.region (m.crew e.crew).region).rcb.det && (decide (32 ≤ e.us.length) || decide (256 ≤ (m.clock - e.since).toNat))
/-- Entries that become due in this cycle are marked so. -/
def markDue (m : Mach) (sp : Nat) : Option Mach :=
  if (m.spindle sp).regroup.any (entryRipe m) then
    some (m.modSp sp (fun s => { s with regroup := s.regroup.map (fun e => if entryRipe m e then { e with due := some m.clock } else e) }))
  else none
/-- An entry that became due in an earlier cycle: all that become due in one cycle are known before the first of them is released
(R181). -/
def entryDue (m : Mach) (e : RgEntry) : Bool := e.due.any (fun c => c != m.clock)
/-- Whether entry x goes before entry e: it became due in an earlier cycle, or in the same cycle with a lower key (R181), in the table's
order for one key. That the earlier cycle goes first is the model's (DEDUCED, log 47). -/
def rgBefore (x e : RgEntry × Nat) : Bool :=
  let c (y : RgEntry × Nat) : Nat := (y.1.due.getD 0).toNat
  decide (c x < c e) || (c x == c e && (decide (x.1.key.toNat < e.1.key.toNat) || (x.1.key == e.1.key && decide (x.2 < e.2))))
/-- Release the entry at a place of the table, where no other that is due and finds a slot goes before it. -/
def releaseAt (m : Mach) (sp k : Nat) : Option Mach :=
  let tab := (m.spindle sp).regroup
  match tab[k]? with
  | none => none
  | some e =>
    if entryDue m e && entryFits m sp e && !tab.zipIdx.any (fun x => entryDue m x.1 && entryFits m sp x.1 && rgBefore x (e, k)) then
      some (releaseEntry m sp e)
    else none
def execRegroupTimeout (sp k : Nat) (s : State) : Host.Outcome State Fault Refusal := event s (fun m => releaseAt m sp k)
/-- A thread stalled in a barrier wait whose phase has not completed. -/
def Mach.phaseWait (m : Mach) (u : Nat) (i : Instr) : Bool :=
  let g := m.gangOf u
  let p (x : Word) : Bool := (m.thr u).attempt.bind (·.phase) == some x
  match i with
  | .nbwait _ k => p ((m.crew (g.crew.getD 0)).bar k.toNat).p
  | .nbsync _ k => p ((m.crew (g.crew.getD 0)).bar k.toNat).p
  | .gbar _ => p (m.region g.region).gbarP
  | _ => false
/-- A REGROUP, and the register of its key. -/
def isRegroup : Instr → Bool
  | .regroup _ _ => true
  | _ => false
def keyReg : Instr → Option Reg
  | .regroup _ a => some a
  | _ => none
/-- Whether the regrouping table of a thread's spindle has no room for it under a key. -/
def Mach.tableFull (m : Mach) (u : Nat) (key : Word) : Bool :=
  (tableFill (m.spindle (m.gangOf u).sp).regroup ((m.gangOf u).crew.getD 0) m.clock [(u, key)]).2 == 0
/-- The lanes of a gang that stand where thread u does, in the same state. -/
def Mach.fellows (m : Mach) (u : Nat) : List Nat :=
  (m.gangOf u).threads.filter (fun v => (m.thr v).stat == (m.thr u).stat && (m.thr v).pos == (m.thr u).pos)
/-- A lane of a stalled JOIN or RJOIN that holds its run there. -/
def Mach.joinHolder (m : Mach) (u : Nat) : Bool :=
  (m.nextInstrs u).any (fun i => match i with
    | .join _ => joinHolds m u
    | .rjoin _ _ => rjoinHolds m u
    | _ => false)
/-- The lanes of a REGROUP's run that have still to enter the table once their pending sets are empty, in ascending lane order. -/
def Mach.rgFellows (m : Mach) (us : List Nat) : List Nat :=
  us.filter (fun v => match (m.thr v).stat with
    | .leaving (.regroup _ vs) => vs == us
    | _ => false)
/-- The key with which such a lane enters. -/
def Stat.key : Stat → Word
  | .leaving (.regroup k _) => k
  | _ => 0
/-- The lane of such a run that enters next, once the pending sets of all of them are empty (R162, R180). -/
def Mach.rgNext (m : Mach) (us : List Nat) : Option Nat :=
  if (m.rgFellows us).any m.waiting then none else (m.rgFellows us).head?
/-- Whether the run stalls in REGROUP: the lane that enters next finds no entry. -/
def Mach.rgStuck (m : Mach) (us : List Nat) : Bool :=
  match m.rgNext us with
  | none => false
  | some v => m.tableFull v (m.thr v).stat.key
/-- The same for a run that stalls at a REGROUP where it stands, with its key in register a. -/
def Mach.rgStalls (m : Mach) (u : Nat) (a : Reg) : Bool :=
  let us := m.fellows u
  us.all (fun v => !m.waiting v) && m.tableFull (us.headD u) ((m.thr (us.headD u)).rd a)
/-- A live lane that a crew-wide flush does not wait for: it stalls, and would stall still. A run that stalls in REGROUP does so while
its first lane finds no entry (R163). -/
def Mach.flushable (m : Mach) (u : Nat) : Bool :=
  match (m.thr u).stat with
  | .inTable => true
  | .joinWait => (m.fellows u).any m.joinHolder
  | .stalled => (m.nextInstrs u).any (fun i => m.phaseWait u i || match keyReg i with
      | some a => m.rgStalls u a
      | none => false)
  | .leaving (.regroup _ us) => m.rgStuck us
  | _ => false
/-- Threads of a crew that live, in lanes or in the table. -/
def Mach.crewThreads (m : Mach) (k : Nat) : List Nat :=
  (m.threads.filter (fun x => x.2.stat.live && (m.gang x.2.gang).crew == some k)).map (·.1)
/-- The threads of the entries of one key, in the order of their old gangs and lanes. -/
def keyThreads (m : Mach) (es : List RgEntry) (key : Word) : List Nat :=
  sortBy (fun a b =>
      decide ((m.gangOf a).gangid.toNat * 32 + (m.thr a).lane ≤ (m.gangOf b).gangid.toNat * 32 + (m.thr b).lane))
    ((es.filter (fun e => e.key == key)).flatMap (·.us))
/-- A list cut into pieces of n. -/
def chunks (n : Nat) : List α → Nat → List (List α)
  | _, 0 => []
  | [], _ => []
  | l, k + 1 => l.take n :: chunks n (l.drop n) k
/-- What a crew's entries become at the flush: the threads of each key packed 32 to a gang, keys ascending. -/
def packEntries (m : Mach) (k : Nat) (es : List RgEntry) : List RgEntry :=
  (sortBy (fun a b => decide (a.toNat ≤ b.toNat)) (es.map (·.key)).eraseDups).flatMap (fun key =>
    (chunks 32 (keyThreads m es key) (keyThreads m es key).length).map (fun us =>
      { crew := k, key := key, us := us, since := m.clock, due := some m.clock }))
/-- CREW_WIDE_FLUSH of a crew of a deterministic region: its entries, packed, are due, and leave the table as gangs in the order of R181 as
slots allow (DEDUCED, log 37). -/
def flushCrew (m : Mach) (k : Nat) : Option Mach :=
  let sp := (m.crew k).sp
  let mine (e : RgEntry) : Bool := e.crew == k && e.due.isNone
  let es := (m.spindle sp).regroup.filter mine
  if !(m.region (m.crew k).region).rcb.det || es.isEmpty || (m.crew k).life != .live || !(m.crewThreads k).all m.flushable then none
  else
    some (m.modSp sp (fun x => { x with regroup := x.regroup.filter (fun e => !mine e) ++ packEntries m k es }))
def execCrewWideFlush (k : Nat) (s : State) : Host.Outcome State Fault Refusal := event s (fun m => flushCrew m k)

/-! ### TIMER_TRAP (R322) -/

def timerDue (m : Mach) (g : Nat) : Bool :=
  m.gangs.has g && (m.gang g).life == .live && decide ((m.gang g).wtrap.toNat ≤ (m.gang g).wtime.toNat)
def timerPend (m : Mach) (g : Nat) : Option Mach :=
  if timerDue m g then some (m.modGang g (fun x => { x with tpend := true, wtrap := BitVec.allOnes 64 })) else none
def execTimerTrap (g : Nat) (s : State) : Host.Outcome State Fault Refusal := event s (fun m => timerPend m g)

end Sys2Proof.Machine
end

