-- ==== Sys2Proof/Machine/Save.lean ====
section
/-! DEFINITION. Saves and restores of crews and spawn gangs (R326 to R332): save points, the save records, forced saves, restores. -/

namespace Sys2Proof.Machine

/-! ### Victims (R326) -/

/-- The crews of a victim that are on a spindle, or saved. -/
def Mach.vCrews (m : Mach) (v : Victim) (l : Life) : List Nat :=
  match v with
  | .crew k => if (m.crew k).life == l && m.crews.has k && !(m.region (m.crew k).region).rcb.cores then [k] else []
  | .gang _ => []
  | .region r => if (m.region r).rcb.cores then (m.regionCrews r).filter (fun k => (m.crew k).life == l) else []
/-- The gangs of a victim. -/
def Mach.vGangs (m : Mach) (v : Victim) (l : Life) : List Nat :=
  match v with
  | .gang g => if (m.gang g).life == l && m.gangs.has g && (m.gang g).crew.isNone then [g] else []
  | _ => (m.vCrews v l).flatMap m.crewGangs
/-- Whether pre-emption of the victim was requested. -/
def Mach.vAsked (m : Mach) (v : Victim) : Bool :=
  match v with
  | .gang g => (m.gang g).preqAt.isSome
  | _ => (m.vCrews v .live).all (fun k => (m.crew k).preqAt.isSome)
/-- A victim that is there, in a given life. -/
def Mach.vThere (m : Mach) (v : Victim) (l : Life) : Bool :=
  match v with
  | .gang _ => !(m.vGangs v l).isEmpty
  | _ => !(m.vCrews v l).isEmpty
/-- PDEAD of a region, capped for the gale class (R312, R326). -/
def Mach.deadline (m : Mach) (r : Nat) (capped : Bool) : Nat :=
  if capped then min (m.region r).rcb.pdead 10000 else (m.region r).rcb.pdead
/-- Whether the deadline of a request has passed. -/
def Mach.pastDead (m : Mach) (r : Nat) (preqAt : Option (BitVec 64)) (capped : Bool) : Bool :=
  match preqAt with
  | none => false
  | some c => decide (m.deadline r capped ≤ (m.clock - c).toNat)
/-- Whether a gang's deadline has passed, so that it issues no more (R327). -/
def Mach.stopped (m : Mach) (g : Nat) : Bool :=
  match (m.gang g).crew with
  | none => m.pastDead (m.gang g).region (m.gang g).preqAt (m.gang g).capped
  | some k => m.pastDead (m.gang g).region (m.crew k).preqAt (m.crew k).capped
def Mach.vLate (m : Mach) (v : Victim) : Bool :=
  match v with
  | .gang g => m.stopped g
  | _ => (m.vCrews v .live).any (fun k => m.pastDead (m.crew k).region (m.crew k).preqAt (m.crew k).capped)

/-! ### Save points (R326) -/

/-- Whether a stalled lane waits in a word at which R326 saves: a barrier wait, or GBAR, that has been attempted and whose phase has not
completed; an MWAIT whose run is not released; an RGRES of a full ring; a QPUSH of a full port; a REGROUP that finds no entry. -/
def Mach.saveWait (m : Mach) (u : Nat) (i : Instr) : Bool :=
  let g := m.gangOf u
  match i with
  | .nbwait _ _ => m.phaseWait u i
  | .nbsync _ _ => m.phaseWait u i
  | .gbar _ => m.phaseWait u i
  | .mwait _ _ => (m.fellows u).any (fun v => !g.released.getLsbD (m.thr v).lane)
  | .rgres _ _ k => ((m.crew (g.crew.getD 0)).ring k.toNat).full
  | .qpush _ _ _ => decide (16 ≤ g.q4.length)
  | .regroup _ a => m.rgStalls u a
  | _ => false
/-- A lane at a save point: at a YIELD, in a parked sub-gang, or stalled in a word of R326, also where its group stalls on another word;
a lane of a REGROUP that has waited for its results is one while its run finds no entry. -/
def Mach.atSavePoint (m : Mach) (u : Nat) : Bool :=
  let t := m.thr u
  match t.stat with
  | .yieldWait => true
  | .joinWait => true
  | .subgang _ _ _ => true
  | .stalled => (m.nextInstrs u).any (m.saveWait u)
  | .leaving (.regroup _ us) => m.rgStuck us
  | _ => false
/-- Whether some thread of the gangs has a result that a save waits for: every long result (R327) (DEDUCED, log 49). -/
def Mach.resultsOut (m : Mach) (gs : List Nat) : Bool := m.results.any (fun r => gs.contains r.gang)

/-! ### The save records (R329, R330) -/

/-- n zero bytes. -/
def zeros (n : Nat) : List Byte := List.replicate n 0
/-- A bit field's contribution. -/
def fld (x sh : Nat) : Nat := x * 2 ^ sh
/-- Marks as a bit map from a counter on. -/
def markBytes (c : Word) (ms : List Word) : List Byte := leBytes 32 ((ms.map (fun s => 2 ^ (gap s c % 256))).foldl (· ||| ·) 0)
/-- A segment entry as LSEG takes it (R209). -/
def segBytes (s : Seg) : List Byte :=
  leBytes 4 s.start ++ leBytes 4 s.len ++ leBytes 4 (s.fmt + fld s.blk 3 + fld s.sparse 5) ++ leBytes 4 s.soff
def ringBytes (r : Ring) : List Byte :=
  leBytes 4 r.base ++ leBytes 4 r.z ++ leBytes 4 r.s ++ leBytes 4 r.res.toNat ++ leBytes 4 r.pub.toNat ++ leBytes 4 r.tak.toNat ++
    leBytes 4 r.fre.toNat ++ zeros 4 ++ markBytes r.pub r.pubm ++ markBytes r.fre r.relm
/-- A barrier, and which of the spindle's 128 it is mapped onto (R261) (DESIGN CHOICE, log 52). -/
def barBytes (n : Nat) (b : Bar) : List Byte := leBytes 4 b.e ++ leBytes 4 b.a ++ leBytes 4 b.p.toNat ++ leBytes 4 (n % 128)
/-- A crew record. -/
def crewRec (m : Mach) (k : Nat) (bound : Bool) : List Byte :=
  let c := m.crew k
  let head := leBytes 8 (m.region c.region).addr ++ leBytes 4 c.crewid.toNat ++
    leBytes 4 (c.sp % 96 + fld (dieOf c.sp) 8 + fld bound.toNat 15 + fld c.gone.toNat 16 + fld ((m.crewGangs k).length - 1) 24) ++ zeros 48
  head ++ if bound then zeros 1152
    else c.segs.toList.flatMap segBytes ++ c.rings.toList.flatMap ringBytes ++ (c.bars.toList.zipIdx.flatMap (fun b => barBytes (c.barNo.getD b.2 0) b.1))
/-- The state of a lane (R330). -/
def Stat.saveCode : Stat → Nat
  | .run => 0
  | .yieldWait => 0
  | .parked => 1
  | .trapping _ _ => 1
  | .eretWait => 1
  | .leaving l => (match l with | .regroup _ _ => 2 | _ => 1)
  | .stalled => 2
  | .joinWait => 2
  | .subgang _ _ _ => 3
  | .exited => 4
  | .inTable => 5
/-- A lane record; p7 is saved as it reads (R12) (DEDUCED, log 42). -/
def laneRec (t : Thread) : List Byte :=
  (t.v.toList.flatMap (fun x => leBytes 4 x.toNat)) ++ leBytes 8 t.pos.word.toNat ++ leBytes 8 t.lnk.toNat ++ leBytes 8 t.trapa.toNat ++
    leBytes 4 t.trapc.toNat ++ leBytes 4 t.trapi.toNat ++ leBytes 4 t.fmode.toNat ++ leBytes 4 t.fstat.toNat ++
    leBytes 4 t.retired.toNat ++ leBytes 4 (t.p.toNat % 128 + fld 1 7 + fld t.stat.saveCode 8 + fld t.h.toNat 11 + fld t.due.toNat 12) ++
    leBytes 8 t.fstk.toNat ++ leBytes 4 t.frng.toNat ++ zeros 4
/-- A PC-table entry, 16 bytes: the threads of one position, parked or not, with their skip count, at most 64, and YIELD mark. -/
def pctBytes (m : Mach) (us : List Nat) (parked : Bool) : List Byte :=
  leBytes 8 ((m.thr (us.headD 0)).pos.word.toNat + fld parked.toNat 63) ++ leBytes 4 (m.laneMask us).toNat ++
    leBytes 2 (min 64 (us.foldl (fun n u => max n (m.thr u).skip) 0)) ++ leBytes 2 (us.all (fun u => (m.thr u).yield)).toNat
/-- Whether a lane is in a parked entry: at a marker, in a stalled JOIN or RJOIN, in a sub-gang (R146). -/
def Stat.isParked (s : Stat) : Bool := s.saveCode == 1 || s.saveCode == 3 || s == .joinWait
/-- The PC table of a gang, by rising position: an entry for each position, parked or not, and each sub-gang (R148). -/
def pctOf (m : Mach) (us : List Nat) : List (List Nat × Bool) :=
  let key (u : Nat) : Pos × Bool × Option Nat := ((m.thr u).pos, (m.thr u).stat.isParked, (m.thr u).stat.sub)
  (sortBy (fun a b => !Pos.lt b.1 a.1) (us.map key).eraseDups).map (fun k => (us.filter (fun u => key u == k), k.2.1))
/-- Pad or cut to n bytes. -/
def fit (n : Nat) (bs : List Byte) : List Byte := bs.take n ++ zeros (n - bs.length)
def portBytes (n : Nat) (q : List (BitVec 64)) : List Byte := fit (8 * n) (q.flatMap (fun x => leBytes 8 x.toNat))
def arrBytes : Arrival → List Byte
  | .none => zeros 8
  | .opened p => leBytes 8 (p.toNat + 2 ^ 63)
  | .waiting p => leBytes 8 (p.toNat + 2 ^ 62)
def replayBytes (m : Mach) (e : Replay) : List Byte :=
  leBytes 8 e.va.toNat ++ fit 16 (e.data.flatMap (fun x => leBytes 4 x.toNat)) ++ leBytes 1 (m.thr e.u).lane ++ leBytes 1 e.reg.val ++
    leBytes 1 e.f.toNat ++ zeros 1 ++ leBytes 4 e.word.toNat
/-- A gang record. -/
def gangRec (m : Mach) (g : Nat) : List Byte :=
  let x := m.gang g
  let us := m.liveThreads g
  leBytes 8 x.wtime.toNat ++ leBytes 8 x.wtrap.toNat ++ leBytes 4 x.gangid.toNat ++
    leBytes 4 (x.qc + fld x.ic 8 + fld x.replay.length 16 + fld x.tpend.toNat 24) ++
    leBytes 4 (x.q1.length + fld x.q3.length 8 + fld x.q4.length 16 + fld x.q5.length 24) ++ zeros 36 ++
    x.masks.toList.flatMap (fun w => leBytes 4 w.toNat) ++ leBytes 4 x.released.toNat ++ zeros 12 ++
    fit 512 ((pctOf m us).flatMap (fun e => pctBytes m e.1 e.2)) ++
    portBytes 64 x.q1 ++ portBytes 32 x.q3 ++ portBytes 16 x.q4 ++ portBytes 16 x.q5 ++
    x.arr.toList.flatMap arrBytes ++ zeros 256 ++
    x.lanes.flatMap (fun o => match o with
      | none => fit 320 (zeros 301 ++ [5])
      | some u => laneRec (m.thr u)) ++
    fit 2048 (x.replay.flatMap (replayBytes m))
/-- Where record n of a context lies in its save pool (DESIGN CHOICE, log 12). -/
def saveAt (m : Mach) (c : Nat) : Nat :=
  (m.ctx c).save + Config.savePlace c (m.ctx c).saveN % max 1 (2 ^ 20 * (m.ctx c).saven - 14336)
/-- Write a record to a context's save pool. -/
def writeRec (m : Mach) (c : Nat) (bs : List Byte) : Mach := (m.physWrite (saveAt m c) bs).modCtx c (fun x => { x with saveN := x.saveN + 1 })
/-- A frame and a cell as their areas hold them (R116, R117). -/
def frameBytes (f : Frame) : List Byte :=
  leBytes 32 (f.entry.toNat + fld (match f.kind with | .point => 0 | .range => 1) 56 +
    fld (match f.state with | .latent => 0 | .active => 1 | .promoted => 2) 58 + fld f.root.toNat 60 + fld f.arg.toNat 64 +
    fld f.link.toNat 128 + fld f.piece.toNat 184 + fld f.lo.toNat 192 + fld f.hi.toNat 224)
def cellBytes (c : Cell) : List Byte :=
  leBytes 16 (c.grain.toNat + fld c.npiece.toNat 16 + fld c.done.toNat 24 + fld c.taken.toNat 32 + fld c.actdepth.toNat 48) ++
    c.pieces.toList.flatMap (fun p => leBytes 16 (p.lo.toNat + fld p.hi.toNat 32 + fld p.part.toNat 64))
/-- What a frame area holds of a thread's n oldest frames and of its cells: each with its address (R115). -/
def frameImage (m : Mach) (u n : Nat) : List (Nat × List Byte) :=
  let t := m.thr u
  (t.frames.zipIdx.take n).map (fun f => (t.fstk.toNat + 32 * f.2, frameBytes f.1)) ++
    t.cells.zipIdx.map (fun k => (t.fstk.toNat + 32 * m.slotsOf u + 128 * k.2, cellBytes k.1))
/-- Write a thread's frames back to its frame area (R115, R330) (DEDUCED, log 34). -/
def writeFrames (m : Mach) (u : Nat) : Mach :=
  (frameImage m u (m.thr u).used).foldl (fun x e => x.schedWrite (m.ctxOf u) e.1 e.2) m
/-- Bytes of an area in memory that differ from what they are to hold, as far as they translate to storage that can take them. -/
def staleBytes (m : Mach) (c : Nat) (img : List (Nat × List Byte)) : List (Loc × Byte) :=
  img.flatMap (fun e => e.2.zipIdx.filterMap (fun b =>
    match m.translate ⟨c, none, 0, false⟩ .write (e.1 + b.2) with
    | .ok l _ =>
      if m.homeGet l = b.1 || (l.sto == .host && headByte l.addr) || (l.sto == .dram && (m.treeAt l.addr).isSome) then none
      else some (l, b.1)
    | _ => none))
/-- Only the top four frames of a thread may differ from memory: the frames below them, and the cells, reach it at once (R115). -/
def syncFrames (m : Mach) (u : Nat) : Option Mach :=
  if !(m.thr u).stat.live then none
  else
    let bs := staleBytes m (m.ctxOf u) (frameImage m u ((m.thr u).used - 4))
    if bs.isEmpty then none else some (bs.foldl (fun x b => x.homeSet b.1 b.2) m)

/-! ### CONTEXT_SAVE and FORCED_SAVE -/

/-- A crew that is saved spindle-bound (R328) (DEDUCED, log 51). -/
def Mach.boundCrew (m : Mach) (k : Nat) : Bool :=
  let s := m.spindle (m.crew k).sp
  m.copies.any (fun c => c.2.crew == k) || m.jobs.any (fun j => j.2.crew == k) || m.streams.any (fun x => x.2.crew == k) ||
    m.pushes.any (fun p => p.crew == k) || s.bslots.any (fun b => b.2.1 == k) || s.units.any (fun b => b.2 == k) ||
    s.handles.any (fun h => h.2.crew == k)
/-- Save a gang: what its spindle's L1 holds of the context goes home, its YIELDs complete, its frames and its record are written. -/
def saveGang (m : Mach) (g : Nat) : Mach :=
  let c := m.ctxOfGang g
  let m1 := (m.liveThreads g).foldl writeFrames ((m.l1Clean (m.gang g).sp false (lineOf c)))
  let m2 := m1.onRun (m1.liveThreads g) (fun _ t => if t.stat = .yieldWait then { t with stat := .run } else t)
  (writeRec m2 c (gangRec m2 g)).modGang g (fun x => { x with life := .saved })
/-- The threads of a crew that stand in the regrouping table of its spindle. -/
def Mach.tableThreads (m : Mach) (k : Nat) : List Nat :=
  ((m.spindle (m.crew k).sp).regroup.filter (fun e => e.crew == k)).flatMap (·.us)
/-- Save a crew with its gangs; its entries of the regrouping table leave with it, the frames of their threads are written back as those of
its gangs are (R115), and its spindle, where it holds no other crew, takes a changed G (R313). -/
def saveCrew (m : Mach) (k : Nat) : Mach :=
  let b := m.boundCrew k
  let sp := (m.crew k).sp
  let m1 := (m.tableThreads k).foldl writeFrames ((m.crewGangs k).foldl saveGang m)
  let ctx := m1.ctxOfRegion (m1.crew k).region
  let m2 := writeRec m1 ctx (crewRec m1 k b)
  regale ((m2.modCrew k (fun c => { c with life := .saved, bound := b, recAt := saveAt m1 ctx, table := (m2.spindle sp).regroup.filter (fun e => e.crew == k) })).modSp sp
    (fun s => { s with regroup := s.regroup.filter (fun e => e.crew != k) })) sp
/-- Save a victim. -/
def saveVictim (m : Mach) (v : Victim) : Mach :=
  match v with
  | .gang g => saveGang m g
  | _ => (m.vCrews v .live).foldl saveCrew m
/-- Every gang of the victim is at a save point, and its results have returned. -/
def Mach.vSaveable (m : Mach) (v : Victim) : Bool :=
  m.vThere v .live && m.vAsked v && (m.vGangs v .live).all (fun g => (m.liveThreads g).all m.atSavePoint) && !m.resultsOut (m.vGangs v .live)
def contextSave (m : Mach) (v : Victim) : Option Mach := if m.vSaveable v then some (saveVictim m v) else none
def execContextSave (vt : Victim) (s : State) : Host.Outcome State Fault Refusal := event s (fun m => contextSave m vt)
/-- Cancel the accesses of some gangs that a watermark holds: they go to the replay lists with F = 0 (R327). -/
def cancelHeld (m : Mach) (gs : List Nat) : Mach :=
  let ns := takenSeqs m (fun g ls => gs.contains g && m.heldAt (m.gang g).crew (vasOf ls))
  (takenItems m ns false).foldl addReplay (dropTaken m ns)
/-- FORCED_SAVE: past the deadline, once every result that no watermark holds has returned. -/
def forcedSave (m : Mach) (v : Victim) : Option Mach :=
  let gs := m.vGangs v .live
  let m1 := cancelHeld m gs
  if m.vThere v .live && m.vLate v && !m1.resultsOut gs then some (saveVictim m1 v) else none
def execForcedSave (vt : Victim) (s : State) : Host.Outcome State Fault Refusal := event s (fun m => forcedSave m vt)

/-! ### CONTEXT_RESTORE (R309, R328, R330 to R332) -/

/-- Whether n gangs of a saved victim of region r may take slots of a spindle: they fit, tokens allow it, and no crew of a class
before it waits for the place (R309, R311, R312) (DEDUCED, log 50). -/
def mayRestore (m : Mach) (r n sp : Nat) : Bool :=
  gangsFit m r n sp && tokensAllow m r sp &&
    !(waitingRegions m).any (fun q => decide ((m.region q).rcb.cls < (m.region r).rcb.cls) && crewFits m q sp && tokensAllow m q sp)
/-- Whether a saved crew may return to a spindle. -/
def crewReturns (m : Mach) (k sp : Nat) : Bool :=
  let c := m.crew k
  mayRestore m c.region (m.crewGangs k).length sp &&
    (if c.bound then sp == c.sp
     else decide (((m.crewsOn sp).map (·.locSize)).sum + c.locSize ≤ 786432) && decide (((m.crewsOn sp).map (·.nbWin)).sum + c.nbWin ≤ 128)) &&
    decide ((m.spindle sp).regroup.length + c.table.length ≤ 32)
/-- Put saved gangs in free slots of a spindle. -/
def wakeGangs (m : Mach) (gs : List Nat) (sp : Nat) : Mach :=
  let slots := m.slotsFor sp
  let m1 := gs.zipIdx.foldl (fun (x : Mach) g => x.modGang g.1 (fun y =>
    { y with life := .live, sp := sp, slot := slots.getD g.2 0, preqAt := none, capped := false })) { m with pickN := m.pickN + 1 }
  m1.mapThr (fun _ t => if gs.contains t.gang then { t with preq := false } else t)
/-- The packet that a thread fetches next: of its handler where it is to enter it, of %trapa where an ERET waits; none where it only ends. -/
def Mach.nextFetch (m : Mach) (t : Thread) : Option Nat :=
  let hvec := (m.ctx (m.ctxOfRegion t.region)).hvec.toNat
  let here := if t.deferred.isSome then hvec else t.pos.pkt.toNat
  let back := if t.deferred.isSome || t.owed.isSome then hvec else (Pos.ofWord t.trapa).pkt.toNat
  match t.stat with
  | .exited => none
  | .trapping _ _ => some hvec
  | .eretWait => some back
  | .leaving (.eret _) => some back
  | .leaving .exit => if t.deferred.isSome then some hvec else none
  | .leaving (.root _) => if t.deferred.isSome then some hvec else none
  | .leaving _ => some here
  | .parked => some here
  | _ => some t.pos.pkt.toNat
/-- The lanes whose code a forced unload took trap with CODE_GONE at their first issue (R332). -/
def goneLanes (m : Mach) (p : Nat → Bool) (spans : List (Nat × Nat)) : Mach :=
  m.mapThr (fun _ t =>
    if p t.gang && (m.nextFetch t).any (fun a => spans.any (fun s => decide (s.1 ≤ a) && decide (a < s.2))) then
      { t with gone := true }
    else t)
/-- A restored gang's spindle drops its clean copies of the context, and its accesses issue again. -/
def reenter (m : Mach) (gs : List Nat) (c sp : Nat) : Mach :=
  let m1 := (m.spindles.nums.foldl (fun (x : Mach) p => x.l1Clean p false (lineOf c)) m).fenceL1 sp c 3
  gs.foldl (fun x g => reissue0 x g (x.gang g).replay) m1
/-- Requests that some gangs have outstanding perform through the spindle that the gangs return to, whose loads then see them (R16). -/
def moveReqs (m : Mach) (p : Nat → Bool) (sp : Nat) : Mach := { m with reqs := m.reqs.map (fun q => if p q.gang then { q with sp := sp } else q) }
/-- Restore a crew. Its regrouping entries keep the cycle at which their oldest threads arrived, so that the time saved counts towards
their 256 cycles (R163) (DESIGN CHOICE, log 81). -/
def restoreCrew (m : Mach) (k sp : Nat) : Mach :=
  let gs := m.crewGangs k
  let c := m.crew k
  let m1 := (wakeGangs m gs sp).modCrew k (fun x =>
    { x with life := .live, sp := sp, preqAt := none, capped := false, bound := false, table := [], gone := false, goneIn := [],
             barNo := if x.bound then x.barNo else (m.barFree sp).take x.nbWin })
  let m2 := m1.modSp sp (fun s => { s with regroup := s.regroup ++ c.table })
  let m3 := m2.mapThr (fun u t => if c.table.any (fun e => e.us.contains u) then { t with preq := false } else t)
  let m4 := moveReqs { m3 with pushes := m3.pushes.map (fun p => if p.crew = k then { p with sp := sp } else p) }
    (fun g => (m.gang g).crew == some k) sp
  reenter (if c.gone then goneLanes m4 (fun g => (m.gang g).crew == some k) c.goneIn else m4) gs (m.ctxOfRegion c.region) sp
/-- Restore all crews of a co-resident region, each to a spindle that the scheduler chooses. -/
def restoreAll (m : Mach) (sps : Mach → List Nat) : List Nat → Option Mach
  | [] => some m
  | k :: r =>
    match (sps m).find? (crewReturns m k) with
    | none => none
    | some p => restoreAll (restoreCrew m k p) sps r
def contextRestore (m : Mach) (v : Victim) (sp : Nat) : Option Mach :=
  match v with
  | .crew k => if m.vThere v .saved && crewReturns m k sp then some (restoreCrew m k sp) else none
  | .gang g =>
    if m.vThere v .saved && mayRestore m (m.gang g).region 1 sp then some (reenter (moveReqs (wakeGangs m [g] sp) (· == g) sp) [g] (m.ctxOfGang g) sp) else none
  | .region _ => if m.vThere v .saved && !m.vThere v .live then
      (restoreAll m (fun x => x.inAnyOrder (List.range 384)) (m.vCrews v .saved)).or
        (restoreAll m (fun _ => (List.range 384).map (fun i => (sp + i) % 384)) (m.vCrews v .saved))
    else none
def execContextRestore (vt : Victim) (sp : Nat) (s : State) : Host.Outcome State Fault Refusal := event s (fun m => contextRestore m vt sp)

end Sys2Proof.Machine
end

