-- ==== Sys2Proof/Machine/Remove.lean ====
section
/-! DEFINITION. How gangs, crews and fault domains end (R145, R162, R246, R265, R268, R271, R303, R333), and fault records of parked
sub-gangs (R321, R361). -/

namespace Sys2Proof.Machine

/-! ### Gangs (R145, R162) -/

/-- A gang whose lanes are all exited or absent, its results returned. -/
def Mach.gangOver (m : Mach) (g : Nat) : Bool :=
  (m.gang g).life == .live && (m.liveThreads g).isEmpty && !m.results.any (fun r => r.gang == g)
/-- A gang ceases: its slot is free, and what waits for every live gang goes on without it (R246, R265). -/
def endGang (m : Mach) (g : Nat) : Mach :=
  let x := m.gang g
  let m1 := m.modGang g (fun y => { y with life := .ended })
  match x.crew with
  | none => m1
  | some k => gbarDone (sendForming m1 k x.sp) x.region

/-! ### Crews (R268, R271, R303) -/

/-- What a crew holds on its spindle is released (R249, R268). -/
def releaseClaims (m : Mach) (k : Nat) : Mach :=
  m.modSp (m.crew k).sp (fun s =>
    { s with regroup := s.regroup.filter (fun e => e.crew != k), handles := s.handles.filter (fun h => h.2.crew != k),
             bslots := s.bslots.filter (fun b => b.2.1 != k), units := s.units.filter (fun b => b.2 != k) })
/-- Apply whole the elements that the scatter-adds of a crew have applied in part (R333). -/
def wholeElems (m : Mach) (k : Nat) : Mach :=
  (m.jobs.filter (fun j => j.2.crew == k && j.2.susp.isNone && j.2.d.kind == 3)).foldl (fun x j => (wholeElem x j.2 j.2.d.row).1) m
/-- What its engines have not finished is dropped, index jobs at an element boundary. -/
def dropEngines (m0 : Mach) (k : Nat) : Mach :=
  let m := wholeElems m0 k
  { m with copies := m.copies.filter (fun c => c.2.crew != k), jobs := m.jobs.filter (fun j => j.2.crew != k),
           streams := m.streams.filter (fun x => x.2.crew != k), pushes := m.pushes.filter (fun p => p.crew != k) }
/-- A crew ends: its claims, handles, slots, rings, barriers and pool entries are free. -/
def endCrew (m : Mach) (k : Nat) : Mach :=
  let c := m.crew k
  let m1 := (dropEngines (releaseClaims m k) k).modCrew k (fun x => { x with life := .ended, forming := [], table := [] })
  let m2 := m1.modRegion c.region (fun x => { x with crewsLeft := x.crewsLeft - 1 })
  let p := m.poolOf c.region
  regale (if c.entries.isEmpty then m2
    else { m2 with pools := m2.pools.put p ((m2.pools.at p).filter (fun e => !c.entries.contains e)) }) c.sp
/-- A crew whose gangs have ceased and whose threads, streams, copies and jobs are done; a frozen copy and a suspended job of a crew
without gangs go with it. -/
def Mach.crewOver (m : Mach) (k : Nat) : Bool :=
  (m.crew k).life == .live && (m.crewGangs k).isEmpty && !(m.spindle (m.crew k).sp).regroup.any (fun e => e.crew == k) &&
    !m.streams.any (fun x => x.2.crew == k) && !m.pushes.any (fun p => p.crew == k) &&
    !m.copies.any (fun c => c.2.crew == k && c.2.frozen.isNone) && !m.jobs.any (fun j => j.2.crew == k && j.2.susp.isNone)

/-! ### Fault domains (R333) -/

/-- Remove a region's threads, and everything that works for them (DEDUCED, log 53). -/
def killRegion (cause : Nat) (m : Mach) (r : Nat) : Mach :=
  let us := (m.threads.filter (fun x => x.2.region == r)).map (·.1)
  let m1 := ((m.crews.filter (fun x => x.2.region == r && x.2.life != .ended)).map (·.1)).foldl endCrew m
  let mineT (u : Nat) : Bool := us.contains u
  let owed : List Nat := (m.dies.flatMap (fun d => d.2.queue ++ d.2.held.flatMap (·.reqs))).filterMap (fun q =>
    if q.region = r then some q.poolIdx else none)
  let held : List Nat := (m.threads.filter (fun x => x.2.region == r && x.2.spawn && x.2.stat.live)).map (fun x => x.2.entry)
  let p := m.poolOf r
  let m2 : Mach :=
    { m1 with
      gangs := m1.gangs.mapV (fun _ g => if g.region = r then { g with life := .ended, replay := [] } else g),
      threads := m1.threads.mapV (fun _ t => if t.region = r then { t with stat := .exited, pend := 0, due := false, deferred := none } else t),
      results := m1.results.filter (fun x => !x.us.any mineT),
      dies := m1.dies.mapV (fun _ d => { d with queue := d.queue.filter (fun q => q.region != r),
                                                held := d.held.filter (fun h => h.region != r) }),
      pools := m1.pools.put p ((m1.pools.at p).filter (fun e => !(owed ++ held).contains e)) }
  m2.modRegion r (fun x => { x with live := false, cause := cause, crewsLeft := 0, placed := x.rcb.crews })
/-- Remove a fault domain of a context with a cause. -/
def removeDomain (m : Mach) (c fdom cause : Nat) : Mach :=
  ((m.regions.filter (fun x => x.2.ctx == c && x.2.rcb.fdom == fdom && x.2.live)).map (·.1)).foldl (killRegion cause) m
/-- Remove every fault domain of a context. -/
def removeAll (m : Mach) (c cause : Nat) : Mach :=
  ((m.regions.filter (fun x => x.2.ctx == c && x.2.live)).map (·.1)).foldl (killRegion cause) m
/-- The removal that a thread's trap asks for (R314, R320): a Fatal cause asks at once, another once the trap would be taken. -/
def removeFor (m : Mach) (u : Nat) : Option Mach :=
  let t := m.thr u
  match t.stat with
  | .trapping tr _ =>
    if (tr.cause.route == .fatal || !m.waiting u) && m.removes t tr then some (removeDomain m (m.ctxOf u) (m.regionOf u).rcb.fdom tr.cause.code) else none
  | _ => none

/-! ### Fault records of parked sub-gangs (R321, R361) -/

/-- The lanes of sub-gang n. -/
def Mach.subLanes (m : Mach) (n : Nat) : List Nat :=
  (m.threads.filter (fun x => match x.2.stat with
    | .subgang k _ _ => k == n
    | _ => false)).map (·.1)
/-- The cause and the failing address that a parked lane stands on. -/
def Stat.fail : Stat → Nat × BitVec 64
  | .subgang _ c va => (c.code, va)
  | _ => (0, 0)
/-- One record for each distinct pair of cause and address among the lanes of sub-gang n. -/
def postSub (m : Mach) (n : Nat) : Mach :=
  let us := m.subLanes n
  let key (u : Nat) : Nat × BitVec 64 := (m.thr u).stat.fail
  ((us.map key).eraseDups).foldl (fun x k =>
    let ls := us.filter (fun u => key u == k)
    let g := m.gangOf (ls.headD 0)
    let r := m.region g.region
    postFault x k.2.toNat r.ctx r.rcb.fdom k.1 g.sp g.slot (m.laneMask ls) n) m
/-- Post the records of the next sub-gang formed. -/
def postNext (m : Mach) : Option Mach :=
  if m.subsPosted < m.subs then some { postSub m m.subsPosted with subsPosted := m.subsPosted + 1 } else none

end Sys2Proof.Machine
end

