-- ==== Sys2Proof/Machine/Host.lean ====
section
/-! DEFINITION. The host, reset, power and faults of the package (R3, R10, R233, R234, R304, R310, R316, R325, R334, R357, R358, R362,
R365, R366, R371 to R374). -/

namespace Sys2Proof.Machine

/-- A step of the running device. -/
def Mach.isUp (m : Mach) : Bool := m.power == .up
/-- What a host read returns, or a report: the newest first. -/
def Mach.answer (m : Mach) (bs : List Byte) : Mach := { m with hostOut := bs :: m.hostOut }
/-- All ones, for an Unsupported Request (R366). -/
def allOnes (n : Nat) : List Byte := List.replicate n 0xFF#8
/-- The context of a function: the lowest-numbered that names it (R365). -/
def Mach.funcCtx (m : Mach) (fn : Nat) : Option Nat :=
  (sortBy (fun a b => decide (a ≤ b)) ((m.ctxs.filter (fun x => x.2.func == fn)).map (·.1))).head?

/-! ### HOST_WINDOW_ACCESS (R233, R304, R305, R365, R366) -/

/-- The bits of byte i of a queue head that a host write reaches: PROD of a queue that is not fed by LAUNCH, and, through the
physical function, the fields above it with access RW. -/
def headMask (phys edge : Bool) (i : Nat) : Byte :=
  if i < 4 then (if edge then 0 else 0xFF)
  else if !phys then 0
  else if i < 13 ∨ i = 23 ∨ i = 31 then 0
  else if i = 13 then 0xFC
  else 0xFF
/-- Write a byte of the host window for a host function. -/
def hostPut (m : Mach) (phys : Bool) (a : Nat) (b : Byte) : Mach :=
  let mask : Byte := if a < 4096 * 32 then headMask phys (m.queue (a / 32)).edge (a % 32) else 0xFF
  { m with host := m.host.set a ((m.host.get a &&& ~~~mask) ||| (b &&& mask)) }
def hostPuts (m : Mach) (phys : Bool) (a : Nat) : List Byte → Mach
  | [] => m
  | b :: r => hostPuts (hostPut m phys a b) phys (a + 1) r
/-- Where a function's access lies in the window: in the grant of its context (DEDUCED, log 54). -/
def windowAt (m : Mach) (fn off n : Nat) : Option Nat :=
  match m.funcCtx fn with
  | none => none
  | some c => if off + n ≤ 4096 * (m.ctx c).hwl ∧ 4096 * (m.ctx c).hwb + off + n ≤ 2 ^ 21 then some (4096 * (m.ctx c).hwb + off) else none
/-- A host access to the window performs whole. -/
def hostWindow (m : Mach) (x : HostAccess) : Option Mach :=
  if !m.isUp || decide (512 < x.fn) then none
  else
    let n := if x.write then x.data.length else x.len
    match windowAt m x.fn x.off n with
    | none => some (if x.write then m else m.answer (allOnes n))
    | some a => some (if x.write then hostPuts m (x.fn == 0) a x.data else m.answer (m.host.bytes a n))
def execHostWindowAccess (acc : HostAccess) (s : State) : Host.Outcome State Fault Refusal := event s (fun m => hostWindow m acc)

/-! ### HOST_BAR2_ACCESS (R234, R365, R366) -/

/-- Whether such a read meets an uncorrectable error: what a dirty L2 sector holds is not what it reads (R234, R324). -/
def ioErr (m : Mach) (l : Loc) : Bool := if l.sto == .dram && m.inL2 l.addr then m.tagErr l else m.homeErr l
/-- A byte as a CXL.io read of the host finds it: device memory as DRAM holds it, and a byte of the CSM as its bank holds it
(DEDUCED, log 55). -/
def ioGet (m : Mach) (l : Loc) : Byte :=
  match l.sto with
  | .dram => (m.treeAt l.addr).getD (m.decrypt m.dram.get l)
  | _ => m.homeGet l
/-- Write a byte for the host: at its home, where PROD of a queue that LAUNCH feeds stays as it is. -/
def ioSet (m : Mach) (phys : Bool) (l : Loc) (b : Byte) : Mach :=
  match l.sto with
  | .host => hostPut m phys l.addr b
  | _ => m.homeSet l b
def ioSets (m : Mach) (phys : Bool) : List Loc → List Byte → Mach
  | l :: ls, b :: bs => ioSets (ioSet m phys l b) phys ls bs
  | _, _ => m
/-- An access through BAR2: translated by the ranges of the function's context. -/
def hostBar2 (m : Mach) (x : HostAccess) : Option Mach :=
  let n := if x.write then x.data.length else x.len
  let refused := some (if x.write then m else m.answer (allOnes n))
  if !m.isUp || decide (512 < x.fn) then none
  else match m.funcCtx x.fn with
  | none => refused
  | some c =>
    match m.reach ⟨c, none, 0, false⟩ (if x.write then .write else .read) (span x.off n) none with
    | .wait => none
    | .trap _ _ _ => refused
    | .ok ls =>
      if ls.any (fun l => if x.write then m.badAt l else ioErr m l) then refused
      else some (if x.write then ioSets m (x.fn == 0) ls x.data else m.answer (ls.map (ioGet m)))
def execHostBar2Access (acc : HostAccess) (s : State) : Host.Outcome State Fault Refusal := event s (fun m => hostBar2 m acc)

/-! ### REGISTER_WRITE (R10, R310, R316, R334, R357, R358) -/

/-- Write a word of a ring head, by the Access codes of R304. -/
def QHead.write (h : QHead) (word : Nat) (v : BitVec 64) : QHead :=
  match word with
  | 0 => { h with prod := v.extractLsb' 0 32 }
  | 1 => { h with ctx := (v.extractLsb' 48 16).toNat, logn := (v.extractLsb' 44 4).toNat, edge := v.getLsbD 43, en := v.getLsbD 42 }
  | 2 => { h with root := (v.extractLsb' 0 56).toNat }
  | _ => { h with ring := (v.extractLsb' 0 56).toNat }
/-- The RW bits of the halves of a token entry and of a trap entry. -/
def tokMask : BitVec 128 := 0xFFFFFFFFFFFFFF00
def trapMask : BitVec 128 := 0x0FFFFFFFFFFFFFFF01FFFFFFFFFFFFFF
/-- Write one half of a 128-bit register, where its bits are RW. -/
def writeHalf (x mask : BitVec 128) (hi : Bool) (v : BitVec 64) : BitVec 128 :=
  let part : BitVec 128 := if hi then mask &&& (BitVec.allOnes 128 <<< 64) else mask &&& (BitVec.allOnes 128 >>> 64)
  (x &&& ~~~part) ||| ((v ++ v : BitVec 128) &&& part)
/-- A 64-bit write to BAR0 of a function. The capability registers and a reset register are read-only, and an address without a
register has nothing to write. -/
def regWrite (m : Mach) (fn off : Nat) (v : BitVec 64) : Option Mach :=
  if !m.isUp || off % 8 != 0 || decide (512 < fn) then none
  else if fn ≠ 0 then some m
  else if 0x100 ≤ off ∧ off < 0x120 then some { m with loader := m.loader.write ((off - 0x100) / 8) v }
  else if 0x140 ≤ off ∧ off < 0x160 then some { m with mgmt := m.mgmt.write ((off - 0x140) / 8) v }
  else if 0x180 ≤ off ∧ off < 0x1A0 then some { m with faultQ := m.faultQ.write ((off - 0x180) / 8) v }
  else if 0x10000 ≤ off ∧ off < 0x20000 then
    some (m.modCtx ((off - 0x10000) / 16) (fun x => { x with tok := writeHalf x.tok tokMask (off % 16 != 0) v }))
  else if 0x20000 ≤ off ∧ off < 0x30000 then
    some (m.modCtx ((off - 0x20000) / 16) (fun x => { x with trapE := writeHalf x.trapE trapMask (off % 16 != 0) v }))
  else some m
/-- DESIGN CHOICE, log 71. -/
def execRegisterWrite (fn off : Nat) (val : BitVec 64) (s : State) : Host.Outcome State Fault Refusal :=
  event s (fun m => regWrite m fn off val)

/-! ### Reads of BAR0 (R2, R10, R304, R310, R316, R357, R358) -/

/-- CAP0 and CAP1. -/
def cap0 : BitVec 64 := 2#8 ++ 4#8 ++ 96#8 ++ 64#8 ++ 16#8 ++ 12#8 ++ 512#16
def cap1 : BitVec 64 := 384#16 ++ 3072#16 ++ 4096#16 ++ 4096#16
/-- A word of a ring head, by the layout of R304. -/
def QHead.read (h : QHead) (word : Nat) : BitVec 64 :=
  match word with
  | 0 => h.cons ++ h.prod
  | 1 => BitVec.ofNat 16 h.ctx ++ BitVec.ofNat 4 h.logn ++ BitVec.ofBool h.edge ++ BitVec.ofBool h.en ++ 0#42
  | 2 => BitVec.ofNat 64 h.root
  | _ => BitVec.ofNat 64 h.ring
/-- A token entry with its balance in whole spindle-cycles. -/
def Ctx.tokEntry (x : Ctx) : BitVec 128 := BitVec.ofInt 40 (x.bal / 64) ++ x.tok.extractLsb' 0 88
/-- One half of a 128-bit register. -/
def readHalf (x : BitVec 128) (hi : Bool) : BitVec 64 := if hi then x.extractLsb' 64 64 else x.extractLsb' 0 64
/-- The register at an offset of BAR0 of a function; none where the spec places none. -/
def regAt (m : Mach) (fn off : Nat) : Option (BitVec 64) :=
  if off = 0 then some cap0
  else if off = 8 then some cap1
  else if fn ≠ 0 then (if off = 0x40 then some (((m.flr.find fn).getD 0).zeroExtend 64) else none)
  else if off = 0x10 then some Config.devid
  else if 0x100 ≤ off ∧ off < 0x120 then some (m.loader.read ((off - 0x100) / 8))
  else if 0x140 ≤ off ∧ off < 0x160 then some (m.mgmt.read ((off - 0x140) / 8))
  else if 0x180 ≤ off ∧ off < 0x1A0 then some (m.faultQ.read ((off - 0x180) / 8))
  else if 0x10000 ≤ off ∧ off < 0x20000 then some (readHalf (m.ctx ((off - 0x10000) / 16)).tokEntry (off % 16 != 0))
  else if 0x20000 ≤ off ∧ off < 0x30000 then some (readHalf (m.ctx ((off - 0x20000) / 16)).trapE (off % 16 != 0))
  else none
/-- A 64-bit read of BAR0 of a function. An address without a register gives a free value (DESIGN CHOICE, log 71). -/
def regRead (m : Mach) (fn off : Nat) : Option Mach :=
  if !m.isUp || off % 8 != 0 || decide (512 < fn) then none
  else some (match regAt m fn off with
    | some v => m.answer (leBytes 8 v.toNat)
    | none => { m.answer (leBytes 8 (Config.freeValue m.freeN % 2 ^ 64)) with freeN := m.freeN + 1 })

/-! ### FUNCTION_LEVEL_RESET (R334) -/

/-- Reset a virtual function: what its contexts' targets have not accepted is discarded, and their queues are disabled (DEDUCED, log 62). -/
def resetFunction (m : Mach) (vf : Nat) : Option Mach :=
  if !m.isUp || vf == 0 || decide (512 < vf) then none
  else
    let cs := (m.ctxs.filter (fun x => x.2.func == vf)).map (·.1)
    let gone (q : Req) : Bool := (q.kind.reads || q.scat) && cs.contains (m.ctxOfGang q.gang)
    let scatter (j : Job) : Bool := j.d.kind == 3 && cs.contains (m.ctxOfRegion (m.crew j.crew).region) &&
      decide ((if j.susp.isSome then j else (wholeElem m j j.d.row).2).elem < j.d.count)
    let part := m.reqs.any gone || m.jobs.any (fun j => scatter j.2)
    let m1 := cs.foldl (fun x c => removeAll x c Cause.killed.code) { m with reqs := (unmerge ((m.reqs.filter gone).map (·.seq)) m.reqs).filter (fun q => !gone q) }
    let m2 := ((List.range 4096).filter (fun q => (m.queue q).en && cs.contains (m.queue q).ctx)).foldl Mach.disable m1
    some { m2 with flr := m2.flr.put vf (if part then 3 else 1) }
def execFunctionLevelReset (vf : Nat) (s : State) : Host.Outcome State Fault Refusal := event s (fun m => resetFunction m vf)

/-! ### POWER_ON and ATTESTATION_REQUEST (R371 to R373) -/

/-- Bring-up: a verified image starts, the functions appear once every memory has trained, and the ports that trained come up; those that
failed are still to be reported (DESIGN CHOICE, log 10). -/
def powerOn (m : Mach) (image : Nat) (ports : Option (BitVec 12)) : Option Mach :=
  if m.power ≠ .off then none
  else if !Config.fwSigned image || decide (Config.fwVersion image < Config.fuseRollback) then some { m with power := .refused }
  else match ports with
  | none => some { m with power := .untrained, fwImage := image }
  | some up => some { m with power := .up, fwImage := image, links := up, untold := ~~~up }
def execPowerOn (image : Nat) (ports : Option (BitVec 12)) (s : State) : Host.Outcome State Fault Refusal :=
  event s (fun m => powerOn m image ports)
/-- The loaded code objects of a context, in load order. -/
def Ctx.images (c : Ctx) : List Byte := (sortBy (fun a b => decide (a.2.order ≤ b.2.order)) c.objs).flatMap (fun o => o.2.image)
/-- Bytes 0 to 191 of a report. -/
def attestBody (m : Mach) (ctx : Nat) (nonce : BitVec 256) : List Byte :=
  [1, 2, 0, 0] ++ leBytes 8 Config.devid.toNat ++ leBytes 4 (Config.fwVersion m.fwImage) ++
    leBytes 64 (Config.shake256 (Config.fwBytes m.fwImage)).toNat ++
    (if ctx = 0xFFFF then zeros 64 else leBytes 64 (Config.shake256 (m.ctx ctx).images).toNat) ++ leBytes 32 nonce.toNat ++
    leBytes 2 ctx ++ zeros 14
def attest (m : Mach) (ctx : Nat) (nonce : BitVec 256) : Option Mach :=
  if !m.isUp || !(ctx == 0xFFFF || m.ctxs.has ctx) then none
  else some (m.answer (attestBody m ctx nonce ++ fit 49856 (Config.attestSign (attestBody m ctx nonce))))
def execAttestationRequest (ctx : Nat) (nonce : BitVec 256) (s : State) : Host.Outcome State Fault Refusal :=
  event s (fun m => attest m ctx nonce)

/-! ### LINK_CRC_ERROR (R362) -/

/-- A flit that fails its CRC is replayed, and no request sees it. -/
def crcError (m : Mach) (port : Nat) : Option Mach :=
  if m.isUp && decide (port < 12) && m.links.getLsbD port then some { m with replays := m.replays + 1 } else none
def execLinkCrcError (port : Nat) (s : State) : Host.Outcome State Fault Refusal := event s (fun m => crcError m port)

/-! ### SRAM_ERROR (R325) -/

/-- Mark the sector of a byte: the next access to it reports the error (R324). -/
def markBad (m : Mach) (sto : Sto) (a : Nat) : Mach := { m with bad := (sto, a / 32) :: m.bad }
/-- Whether an L1 holds a sector of global memory dirty. -/
def dirtySector (m : Mach) (sp : Nat) (sto : Sto) (pa : Nat) : Bool :=
  (m.spindle sp).l1.any (fun x => x.dirty != 0 && x.loc.sto == sto && x.loc.addr / 32 == pa / 32)
/-- A soft error: corrected when single, refetched in a clean copy, else reported by the next access, or the domain is removed. -/
def sramError (m : Mach) (site : SramSite) (single : Bool) : Option Mach :=
  if !m.isUp then none
  else if single then some m
  else match site with
  | .cleanCache => some m
  | .dirtyL1 sp far pa =>
    let sto := far.elim Sto.dram Sto.remote
    if dirtySector m sp sto pa then some (m.modSp sp (fun s => { s with bad := (sto, pa / 32) :: s.bad })) else none
  | .dirtyL2 pa => if m.inL2 pa then some (markBad m .dram pa) else none
  | .crewLocal k off => if m.crews.has k && decide (off < (m.crew k).locSize) then some (markBad m (.crew k) off) else none
  | .csm a => some (markBad m .csm a)
  | .hostWindow off => if off < 2 ^ 21 then some (markBad m .host off) else none
  | .registers u =>
    if m.threads.has u && (m.thr u).stat.live then
      some (removeDomain m (m.ctxOf u) (m.regionOf u).rcb.fdom Cause.dataError.code)
    else none
def execSramError (site : SramSite) (single : Bool) (s : State) : Host.Outcome State Fault Refusal :=
  event s (fun m => sramError m site single)

/-! ### Power and cooling (R3, R374) -/

/-- The dies are the C-dies 0 to 3 and the H-die, 4 (R2). The device starts or stops throttling issue: which cycles then issue is not
architected (DEDUCED, log 60). -/
def execPowerThrottle (on : Bool) (s : State) : Host.Outcome State Fault Refusal :=
  event s (fun m => if m.isUp then some { m with throttled := on } else none)
def execThermalThrottle (die temp : Nat) (s : State) : Host.Outcome State Fault Refusal :=
  event s (fun m => if m.isUp && decide (die < 5) && decide (105 ≤ temp) then some (m.modDie die (fun d => { d with hot := true })) else none)
def execThermalRecovery (die temp : Nat) (s : State) : Host.Outcome State Fault Refusal :=
  event s (fun m => if m.isUp && (m.die die).hot && decide (temp < 100) then some (m.modDie die (fun d => { d with hot := false })) else none)
/-- Perform the requests that are on their way. -/
def drainReqs (m : Mach) : Nat → Mach
  | 0 => m
  | n + 1 => match m.reqs.find? (reqReady m) with
    | none => m
    | some q => drainReqs (performReq m q) n
/-- Complete the regions that can be (R309). -/
def finishRegions (m : Mach) : Nat → Mach
  | 0 => m
  | n + 1 => match m.regions.nums.findSome? (regionDone m) with
    | none => m
    | some m1 => finishRegions m1 n
/-- At 115 °C every fault domain is removed with KILLED: what has been issued performs whole and each region completes, with no wait for the
planer (R333, R309); then the links drop and the regulators turn off (R374) (DEDUCED, log 60). -/
def shutdown (m : Mach) (temp : Nat) : Option Mach :=
  if m.isUp && decide (115 ≤ temp) then
    let m1 := { (m.ctxs.nums).foldl (fun x c => removeAll x c Cause.killed.code) m with whole := true }
    some { finishRegions (drainReqs m1 m1.reqs.length) m1.regions.length with whole := false, links := 0, power := .shut }
  else none
def execThermalShutdown (die temp : Nat) (s : State) : Host.Outcome State Fault Refusal :=
  event s (fun m => if die < 5 then shutdown m temp else none)

end Sys2Proof.Machine
end

