-- ==== Sys2Proof/Machine/Loader.lean ====
section
/-! DEFINITION. Commands of the loader ring and of the management ring (R344, R345, R351 to R354, R358 to R361, R363, R367 to R369). -/

namespace Sys2Proof.Machine

/-! ### Commands (R351, R358, R359) -/

/-- A command record. -/
structure Cmd where
  resv : Bool
  compl : Nat
  dbase : Nat
  cbase : Nat
  image : Nat
  isize : Nat
  handle : Nat
  ctx : Nat
  op : Nat
deriving DecidableEq, Repr
def Cmd.parse (x : Nat) : Cmd :=
  { resv := bitsOf x 464 48 != 0 || bitsOf x 0 160 != 0, compl := bitsOf x 408 56, dbase := bitsOf x 352 56, cbase := bitsOf x 296 56,
    image := bitsOf x 240 56, isize := bitsOf x 208 32, handle := bitsOf x 192 16, ctx := bitsOf x 176 16, op := bitsOf x 160 8 }
/-- The two rings: 0 the loader's, 1 the management ring. -/
def Mach.ring (m : Mach) (r : Nat) : QHead := if r = 0 then m.loader else m.mgmt
def Mach.setRing (m : Mach) (r : Nat) (h : QHead) : Mach := if r = 0 then { m with loader := h } else { m with mgmt := h }
/-- Where the next record lies. -/
def QHead.cmdAt (h : QHead) : Nat := h.ring + 64 * (h.cons.toNat % 2 ^ h.logn)
/-- The next command of a ring, where one waits. -/
def Mach.nextCmd (m : Mach) (r : Nat) : Option Cmd :=
  let h := m.ring r
  if m.isUp && h.en && h.cons != h.prod then some (Cmd.parse (m.physNat h.cmdAt 64)) else none
/-- A command ends: STATUS, a load's new handle, and the completion word are written; a management command raises MSI-X vector 0. -/
def finish (m : Mach) (r : Nat) (c : Cmd) (status handle : Nat) : Mach :=
  let h := m.ring r
  let m1 := m.physWrite (h.cmdAt + 21) [BitVec.ofNat 8 status]
  let m2 := if r = 0 && c.op ≤ 1 && status == 0 then m1.physWrite (h.cmdAt + 24) (leBytes 2 handle) else m1
  let m3 := m2.physWrite c.compl (leBytes 8 (status + handle * 2 ^ 16))
  let m4 := m3.setRing r { h with cons := h.cons + 1 }
  if r = 0 then m4 else { m4 with msix := m4.msix + 1 }
/-- A record that breaks its layout: a reserved bit is set, or its completion word is not aligned (R351). -/
def Cmd.malformed (c : Cmd) : Bool := c.resv || c.compl % 8 != 0
/-- A command of one operation: its body gives the status, the handle and the machine, or waits. A malformed record is refused with CODE
(DEDUCED, log 56). -/
def commandDo (m : Mach) (r op : Nat) (f : Mach → Cmd → Option (Nat × Nat × Mach)) : Option Mach :=
  match m.nextCmd r with
  | none => none
  | some c =>
    if c.op ≠ op then none
    else if c.malformed then some (finish m r c 0x45 c.handle)
    else (f m c).map (fun x => finish (if x.1 = 0 then x.2.2 else m) r c x.1 x.2.1)
def command (s : State) (r op : Nat) (f : Mach → Cmd → Option (Nat × Nat × Mach)) : Host.Outcome State Fault Refusal :=
  event s (fun m => commandDo m r op f)
/-- A record whose OP names no operation is refused with CODE. -/
def refuseOp (m : Mach) (r : Nat) : Option Mach :=
  match m.nextCmd r with
  | none => none
  | some c => if (if r = 0 then 3 else 6) < c.op then some (finish m r c 0x45 c.handle) else none

/-! ### The code object (R344, R345) -/

structure Sec where
  kind : Nat
  off : Nat
  size : Nat
  load : Nat
deriving DecidableEq, Repr, Inhabited
structure SymRec where
  name : List Byte
  bind : Nat
  sec : Nat
  val : Nat
deriving DecidableEq, Repr, Inhabited
structure RelRec where
  kind : Nat
  sec : Nat
  sym : Nat
  off : Nat
  add : Int
deriving DecidableEq, Repr, Inhabited
structure KernRec where
  sym : Nat
  need : Nat
  loc : Nat
  nbar : Nat
  cls : Nat
  kind : Nat
deriving DecidableEq, Repr, Inhabited
/-- A code object. -/
structure Image where
  gen : Nat
  level : Nat
  trans : Nat
  secs : List Sec
  syms : List SymRec
  rels : List RelRec
  kerns : List KernRec
deriving DecidableEq, Repr, Inhabited
/-- n bytes of an image from an offset as a number. -/
def imgNat (b : List Byte) (o n : Nat) : Nat := leNat ((b.drop o).take n)
/-- The name at an offset of the string table; none where no zero byte ends it. -/
def nameAt (str : List Byte) (o : Nat) : Option (List Byte) :=
  let n := (str.drop o).takeWhile (· != 0)
  if o + n.length < str.length then some n else none
/-- Each entry of a table of n entries, where all are sound. -/
def tableOf (n : Nat) (f : Nat → Option α) : Option (List α) := (List.range n).mapM f
def secOf (b : List Byte) (o : Nat) : Option Sec :=
  let k := imgNat b o 1
  let s : Sec := { kind := k, off := imgNat b (o + 8) 8, size := imgNat b (o + 16) 8, load := imgNat b (o + 24) 8 }
  if 4 < k ∨ imgNat b (o + 2) 6 ≠ 0 ∨ s.load % 2 ^ imgNat b (o + 1) 1 ≠ 0 ∨ (k ≠ 4 ∧ b.length < s.off + s.size) ∨ (k = 0 ∧ s.load % 768 ≠ 0) ∨ (k = 3 ∧ s.load % 8 ≠ 0) then none
  else some s
def symOf (b str : List Byte) (secs : List Sec) (o : Nat) : Option SymRec :=
  let bind := imgNat b (o + 4) 1
  let sec := imgNat b (o + 6) 2
  let val := imgNat b (o + 8) 8
  if 3 < bind ∨ imgNat b (o + 5) 1 ≠ 0 ∨ (bind ≠ 3 ∧ (secs.length ≤ sec ∨ (secs.getD sec default).size < val)) then none
  else (nameAt str (imgNat b o 4)).map (fun n => ⟨n, bind, sec, val⟩)
def relOf (b : List Byte) (secs : List Sec) (nsym o : Nat) : Option RelRec :=
  let k := imgNat b o 1
  let sec := imgNat b (o + 2) 2
  let off := imgNat b (o + 8) 8
  let n := if 3 ≤ k then 8 else 4
  if 4 < k ∨ imgNat b (o + 1) 1 ≠ 0 ∨ secs.length ≤ sec ∨ nsym ≤ imgNat b (o + 4) 4 ∨
      (secs.getD sec default).size < off + n then none
  else some ⟨k, sec, imgNat b (o + 4) 4, off, signedOf (imgNat b (o + 16) 8) 64⟩
def kernOf (b : List Byte) (nsym o : Nat) : Option KernRec :=
  if nsym ≤ imgNat b o 4 ∨ bitsOf (imgNat b (o + 6) 2) 12 3 ≠ 0 ∨ 1 < imgNat b (o + 14) 1 ∨ imgNat b (o + 15) 17 ≠ 0 then none
  else some { sym := imgNat b o 4, need := imgNat b (o + 5) 1, loc := imgNat b (o + 8) 4, nbar := imgNat b (o + 12) 1,
              cls := imgNat b (o + 13) 1, kind := imgNat b (o + 14) 1 }
/-- Whether a FLOOR byte is the widest device class of the kernels (R344); a class that does not exist is refused by its own check. -/
def floorOk (fl : Nat) (ks : List KernRec) : Bool := fl == ((ks.filter (fun k => k.kind == 1)).map (·.cls)).foldl max 0
/-- Read an image; none where it breaks its layout (DEDUCED, log 57). -/
def Image.parse (b : List Byte) : Option Image :=
  let n (o w : Nat) : Nat := imgNat b o w
  let str := (b.drop (n 56 8 + 24 * n 24 4)).take (n 28 4)
  if b.length < 64 ∨ n 0 4 ≠ 0x32584B5A ∨ 3 < n 5 1 ∨ n 7 1 ≠ 0 ∨ n 11 1 ≠ 0 ∨ n 14 2 ≠ 0 ∨ (n 5 1 = 0 ∧ n 8 3 ≠ 0) ∨
      b.length < n 32 8 + 32 * n 12 2 ∨ b.length < n 40 8 + 16 * n 16 4 ∨ b.length < n 48 8 + 32 * n 20 4 ∨
      b.length < n 56 8 + 24 * n 24 4 + n 28 4 then none
  else do
    let secs ← tableOf (n 12 2) (fun i => secOf b (n 32 8 + 32 * i))
    let syms ← tableOf (n 16 4) (fun i => symOf b str secs (n 40 8 + 16 * i))
    let rels ← tableOf (n 24 4) (fun i => relOf b secs (n 16 4) (n 56 8 + 24 * i))
    let kerns ← tableOf (n 20 4) (fun i => kernOf b (n 16 4) (n 48 8 + 32 * i))
    if floorOk (n 6 1) kerns then some ⟨n 4 1, n 5 1, n 8 3, secs, syms, rels, kerns⟩ else none

/-! ### Loading (R352, R353) -/

/-- Where a section begins. -/
def Cmd.secAt (c : Cmd) (s : Sec) : Nat := (if s.kind = 0 ∨ s.kind = 3 then c.cbase else c.dbase) + s.load
/-- ACCESS: text wants X, an mstream section (kind 3) and rodata R, data and zero-fill R and W. -/
def secCovered (m : Mach) (c : Cmd) (s : Sec) : Bool :=
  let ok (r : Range) : Bool := match s.kind with
    | 0 => r.x
    | 1 => r.r
    | 3 => r.r
    | _ => r.r && r.w
  coveredBy (((m.ctx c.ctx).ranges.filter ok).map (fun r => (r.base, r.limit))) (c.secAt s) (c.secAt s + s.size)
/-- The address of a symbol that the object defines. -/
def Image.symAt (x : Image) (c : Cmd) (s : SymRec) : Nat := c.secAt (x.secs.getD s.sec default) + s.val
/-- Enter a global definition in a symbol table; none where it is refused with DUP_SYMBOL (R353). -/
def enterSym (repl : Bool) (tab : List Sym) (d : Sym) : Option (List Sym) :=
  match tab.find? (fun x => x.name == d.name) with
  | none => some (tab ++ [d])
  | some x =>
    if d.weak then some tab
    else if x.weak && repl then some (tab.map (fun y => if y.name = d.name then d else y))
    else none
/-- The table with the object's global definitions. -/
def Image.enter (x : Image) (c : Cmd) (h : Nat) (repl : Bool) (tab : List Sym) : Option (List Sym) :=
  (x.syms.filter (fun s => s.bind == 1 || s.bind == 2)).foldlM
    (fun t s => enterSym repl t ⟨s.name, x.symAt c s, s.bind == 2, h⟩) tab
/-- What a symbol of the object is bound to: its address, and the object that defines it. -/
def Image.target (x : Image) (c : Cmd) (h : Nat) (tab : List Sym) (s : SymRec) : Option (Nat × Nat) :=
  if s.bind = 0 then some (x.symAt c s, h)
  else (tab.find? (fun y => y.name == s.name)).map (fun y => (y.addr, y.obj))
/-- A section's bytes before relocation. -/
def Sec.bytes (s : Sec) (b : List Byte) : List Byte := if s.kind = 4 then zeros s.size else (b.drop s.off).take s.size
/-- A word of a section. -/
def secWord (bs : List Byte) (o : Nat) : Word := BitVec.ofNat 32 (imgNat bs o 4)
def putWord (bs : List Byte) (o : Nat) (w : Nat) : List Byte := bs.take o ++ leBytes 4 w ++ bs.drop (o + 4)
/-- Whether two words are a MOVI and the MOVHI of the same register, as far as R352 asks: the second is such a MOVHI. -/
def movPair (a b : Word) : Bool :=
  match decodeWord b with
  | .ok (.movhi _ d _) => rb d == a.extractLsb' 18 6
  | _ => false
/-- Apply one relocation to its section's bytes; none where CODE refuses it: a PKT24 whose target is no packet start, too, does not fit
(DESIGN CHOICE, log 103). -/
def applyRel (k secAddr o : Nat) (v : Int) (bs : List Byte) : Option (List Byte) :=
  let w := (secWord bs o).toNat
  let vn := (v % 2 ^ 64).toNat
  let mov (x : Nat) : Option (List Byte) :=
    if movPair (secWord bs o) (secWord bs (o + 4)) then
      some (putWord (putWord bs o (setBits w 0 18 (x % 2 ^ 14))) (o + 4) (setBits (secWord bs (o + 4)).toNat 0 18 (x / 2 ^ 14)))
    else none
  match k with
  | 0 =>
    let a := secAddr + o
    let q := v - ((a - a % 12 : Nat) : Int)
    if q % 12 ≠ 0 ∨ q / 12 < -(2 ^ 23) ∨ 2 ^ 23 ≤ q / 12 then none else some (putWord bs o (setBits w 0 24 ((q / 12) % 2 ^ 24).toNat))
  | 1 => some (putWord bs o (vn % 2 ^ 32))
  | 2 => some (putWord bs o (vn / 2 ^ 32))
  | 3 => mov (vn % 2 ^ 32)
  | _ => mov (vn / 2 ^ 32)
/-- Every section's bytes, relocated. -/
def Image.link (x : Image) (c : Cmd) (b : List Byte) (bind : SymRec → Option (Nat × Nat)) : Option (List (List Byte)) :=
  x.rels.foldlM (fun ss r => do
    let t ← bind (x.syms.getD r.sym default)
    let s := x.secs.getD r.sec default
    let bs ← applyRel r.kind (c.secAt s) r.off ((t.1 : Int) + r.add) (ss.getD r.sec [])
    some (ss.set r.sec bs)) (x.secs.map (fun s => s.bytes b))
/-- Where the loader writes a byte of a context: the physical function's own write, under the range's key. -/
def loadLoc (m : Mach) (c va : Nat) : Option Loc :=
  match m.rangeAt c va with
  | none => none
  | some r => match m.globalAt ⟨c, none, 0, false⟩ .write r ((r.offAt va).getD r.offg) va with
    | .ok l _ => some l
    | _ => none
def loadBytes (m : Mach) (c va : Nat) (code : Bool) : List Byte → Mach
  | [] => m
  | b :: r =>
    loadBytes (match loadLoc m c va with
      | none => m
      | some l =>
        let m1 := m.homeSet l b
        if code then { m1 with codePas := l.addr :: m1.codePas, tainted := m1.tainted.filter (· != l.addr) } else m1) c (va + 1) code r
/-- A handle that no object of the context has; which one is not architected (DEDUCED, log 58). -/
def newHandle (m : Mach) (c : Nat) : Nat × Mach :=
  let x := m.choose 65536
  ((((List.range 65536).map (fun i => (x.1 + i) % 65536)).find? (fun n => !(m.ctx c).objs.has n)).getD 0, x.2)
/-- The launchable kernels of an object. -/
def Image.kernels (x : Image) (c : Cmd) (h : Nat) : List Kern :=
  (x.kerns.filter (fun k => k.kind == 1)).map (fun k =>
    { entry := x.symAt c (x.syms.getD k.sym default), need := k.need, loc := k.loc, nbar := k.nbar, cls := k.cls, obj := h,
      level := x.level, trans := x.trans })
/-- No instruction cache or fetch agent holds a packet of a context in the blocks of some spans (R354, R355). -/
def dropPackets (m : Mach) (c : Nat) (spans : List (Nat × Nat)) : Mach :=
  let has (ctx a : Nat) : Bool := ctx == c && spans.any (fun s => decide (s.1 < s.2) && decide (s.1 / 192 ≤ a / 192) && decide (a / 192 ≤ (s.2 - 1) / 192))
  { m with spindles := m.spindles.mapV (fun _ s =>
      { s with icache := s.icache.filter (fun x => !has x.1 x.2.1), ifault := s.ifault.filter (fun x => !has x.1 x.2.1),
               imiss := s.imiss.filter (fun x => !has x.1 x.2) }) }
/-- A load, in the order of its checks. Its text and its stream sections are code, whose bytes are not architected once the physical function
has changed them (R17, DESIGN CHOICE, log 9). -/
def loadObject (repl : Bool) (m : Mach) (c : Cmd) : Option (Nat × Nat × Mach) :=
  let b := m.physRead c.image c.isize
  let no (st : Nat) : Option (Nat × Nat × Mach) := some (st, c.handle, m)
  match Image.parse b with
  | none => no 0x45
  | some x =>
    let hm := newHandle m c.ctx
    let h := hm.1
    if c.cbase % 768 ≠ 0 ∨ c.dbase % 4096 ≠ 0 then no 0x45
    else if x.gen ≠ 2 then no 0x40
    else if x.kerns.any (fun k => decide (1 < k.cls)) then no 0x41
    else if !x.secs.all (secCovered m c) then no 0x47
    else match x.enter c h repl (m.ctx c.ctx).syms with
    | none => no 0x50
    | some tab =>
      let bind := x.target c h tab
      if (x.syms.any (fun s => s.bind == 3 && (bind s).isNone)) || x.rels.any (fun r => (bind (x.syms.getD r.sym default)).isNone) then no 0x44
      else match x.link c b bind with
      | none => no 0x45
      | some ss =>
        let m1 := (x.secs.zip ss).foldl (fun y z => loadBytes y c.ctx (c.secAt z.1) (z.1.kind == 0 || z.1.kind == 3) z.2) hm.2
        let uses := ((x.rels.filterMap (fun r => (bind (x.syms.getD r.sym default)).map (·.2))).filter (· != h)).eraseDups
        let place (s : Sec) : Nat × Nat := (c.secAt s, c.secAt s + s.size)
        let o : Obj := { secs := x.secs.map place, streams := (x.secs.filter (fun s => s.kind == 3)).map place, uses := uses, image := b, order := m1.nextId }
        some (0, h, (dropPackets { m1 with nextId := m1.nextId + 1 } c.ctx o.secs).modCtx c.ctx (fun y =>
          { y with syms := tab, kerns := y.kerns ++ x.kernels c h, objs := y.objs.put h o }))
def execLoad (s : State) : Host.Outcome State Fault Refusal := command s 0 0 (loadObject false)
def execLoadWithOverride (s : State) : Host.Outcome State Fault Refusal := command s 0 1 (loadObject true)

/-! ### Unloading (R332, R354) -/

def Obj.has (o : Obj) (a : Nat) : Bool := o.secs.any (fun s => decide (s.1 ≤ a) && decide (a < s.2))
/-- A relocation of another loaded object targets this one. -/
def objUsed (x : Ctx) (h : Nat) : Bool := x.objs.any (fun o => o.1 != h && o.2.uses.contains h)
/-- Whether a lane stands in an object, or may return to it. -/
def Thread.holds (t : Thread) (o : Obj) : Bool :=
  o.has t.pos.pkt.toNat || o.has t.lnk.toNat || o.has (t.trapa.extractLsb' 0 56).toNat || t.frames.any (fun f => o.has f.entry.toNat)
/-- A lane, running or saved, that stands in, or may return to, an object. -/
def objHeld (m : Mach) (c : Nat) (o : Obj) : Bool :=
  m.threads.any (fun x => x.2.stat.live && m.ctxOfRegion x.2.region == c &&
    x.2.holds o)
/-- A live region with its ENTRY in an object. -/
def objEntered (m : Mach) (c : Nat) (o : Obj) : Bool := m.regions.any (fun x => x.2.ctx == c && x.2.live && o.has x.2.rcb.entry.toNat)
/-- The object, its symbols and kernels leave, and no instruction cache or fetch agent holds a block of it. -/
def dropObject (m : Mach) (c h : Nat) (o : Obj) : Mach :=
  let pas := (o.secs.flatMap (fun s => span s.1 (s.2 - s.1))).filterMap (fun va => (loadLoc m c va).map (·.addr))
  let m1 := m.modCtx c (fun x =>
    { x with syms := x.syms.filter (fun y => y.obj != h), kerns := x.kerns.filter (fun k => k.obj != h), objs := x.objs.drop h })
  dropPackets { m1 with codePas := m1.codePas.filter (fun p => !pas.contains p), tainted := m1.tainted.filter (fun p => !pas.contains p) } c o.secs
/-- An unload that no condition refuses begins: the object unloads, until a later step completes the command (R307, R354) (DEDUCED,
log 63). -/
def beginUnload (m : Mach) (op : Nat) (refused : Mach → Cmd → Obj → Bool) : Option Mach :=
  match m.nextCmd 0 with
  | none => none
  | some c =>
    match (m.ctx c.ctx).objs.find c.handle with
    | none => none
    | some o =>
      if c.op ≠ op ∨ c.malformed ∨ o.unloading ∨ refused m c o then none
      else some (m.modCtx c.ctx (fun x => { x with objs := x.objs.put c.handle { o with unloading := true } }))
/-- What refuses an unload with UNLOAD_BUSY. -/
def unloadBusy (m : Mach) (c : Cmd) (o : Obj) : Bool := objEntered m c.ctx o || objUsed (m.ctx c.ctx) c.handle || objHeld m c.ctx o
def unloadObject (m : Mach) (c : Cmd) : Option (Nat × Nat × Mach) :=
  match (m.ctx c.ctx).objs.find c.handle with
  | none => some (0x45, c.handle, m)
  | some o =>
    if !o.unloading && unloadBusy m c o then some (0x51, c.handle, m)
    else some (0, c.handle, dropObject m c.ctx c.handle o)
def execUnload (s : State) : Host.Outcome State Fault Refusal :=
  event s (fun m => (beginUnload m 2 unloadBusy).or (commandDo m 0 2 unloadObject))
/-- What refuses a forced unload. -/
def forceBusy (m : Mach) (c : Cmd) (_ : Obj) : Bool := objUsed (m.ctx c.ctx) c.handle
/-- Mark a saved crew GONE, in its record too (R329, R332). -/
def markGone (m : Mach) (o : Obj) (k : Nat) : Mach :=
  let a := (m.crew k).recAt + 14
  (m.physWrite a [BitVec.ofNat 8 (m.physNat a 1) ||| 1]).modCrew k (fun x => { x with gone := true, goneIn := o.secs ++ x.goneIn })
/-- Lanes on spindles, and lanes of saved spawn gangs, that are about to fetch from an object trap with CODE_GONE at their first issue, and
saved crews that stand in it, or may return to it, are marked (DEDUCED, log 63). -/
def forceGone (m : Mach) (c : Nat) (o : Obj) : Mach :=
  let here (u : Nat) (t : Thread) : Bool := m.onSpindle u || (m.gang t.gang).crew.isNone
  let m1 := m.mapThr (fun u t =>
    if m.ctxOfRegion t.region == c && here u t && (m.nextFetch t).any o.has then { t with gone := true } else t)
  (m.crews.nums.filter (fun k => (m.crew k).life == .saved && m.ctxOfRegion (m.crew k).region == c &&
    (m.crewThreads k).any (fun u => (m.thr u).holds o))).foldl (fun x k => markGone x o k) m1
def forceUnload (m : Mach) (c : Cmd) : Option (Nat × Nat × Mach) :=
  match (m.ctx c.ctx).objs.find c.handle with
  | none => some (0x45, c.handle, m)
  | some o =>
    if !o.unloading && forceBusy m c o then some (0x51, c.handle, m)
    else some (0, c.handle, dropObject (forceGone m c.ctx o) c.ctx c.handle o)
def execForcedUnload (s : State) : Host.Outcome State Fault Refusal :=
  event s (fun m => (beginUnload m 3 forceBusy).or (commandDo m 0 3 forceUnload))

/-! ### CREATE and DESTROY (R359, R360, R363) -/

/-- The neighbour of rank r in direction d of a grid; none in a dimension of size 1. -/
def neighbour (dx dy dz r d : Nat) : Option Nat :=
  let x := r % dx
  let y := r / dx % dy
  let z := r / (dx * dy)
  let step (n v : Nat) : Nat := if d % 2 = 0 then (v + 1) % n else (v + n - 1) % n
  match d / 2 with
  | 0 => if dx = 1 then none else some (step dx x + dx * (y + dy * z))
  | 1 => if dy = 1 then none else some (x + dx * (step dy y + dy * z))
  | _ => if dz = 1 then none else some (x + dx * (y + dy * step dz z))
/-- The own rank and N of a process-group table; none where TOPOLOGY refuses it. -/
def groupOf (m : Mach) (a : Nat) : Option (Nat × Nat) :=
  if a = 0 then some (0, 1)
  else
    let h := m.physNat a 64
    let n := bitsOf h 0 16
    let dx := bitsOf h 16 16
    let dy := bitsOf h 32 16
    let dz := bitsOf h 48 16
    let dev (r : Nat) : Nat := m.physNat (a + 64 + 16 * r) 8
    let mine := (List.range n).filter (fun r => dev r == Config.devid.toNat)
    if a % 64 ≠ 0 ∨ n = 0 ∨ 1024 < n ∨ dx * dy * dz ≠ n ∨ bitsOf h 64 448 ≠ 0 ∨
        (List.range n).any (fun r => m.physNat (a + 64 + 16 * r + 8) 8 != 0) then none
    else match mine with
    | [r] =>
      let ok (d : Nat) : Bool := match neighbour dx dy dz r d with
        | none => true
        | some q => [2 * d, 2 * d + 1].all (fun p => m.links.getLsbD p && (Config.portPeer p).toNat == dev q)
      if (List.range 6).all ok then some (r, n) else none
    | _ => none
/-- A context descriptor as CREATE reads it; none where CODE refuses it. -/
def Ctx.parse (x : Nat) : Option Ctx :=
  let c : Ctx := { mgr := bitsOf x 496 16, func := bitsOf x 486 10, sys := x.testBit 485, csmb := bitsOf x 474 11, csml := bitsOf x 463 11,
                   hwb := bitsOf x 453 10, hwl := bitsOf x 443 10, tree := bitsOf x 376 56, treen := bitsOf x 360 16,
                   save := bitsOf x 304 56, saven := bitsOf x 288 16, group := bitsOf x 232 56 }
  if bitsOf x 432 11 ≠ 0 ∨ bitsOf x 0 232 ≠ 0 ∨ 512 < c.func ∨ 1024 < c.csmb + c.csml ∨ 512 < c.hwb + c.hwl ∨ c.tree % 512 ≠ 0 ∨
      c.save % 4096 ≠ 0 then none
  else some c
def createCtx (m : Mach) (c : Cmd) : Option (Nat × Nat × Mach) :=
  if 4095 < c.ctx ∨ m.ctxs.has c.ctx then some (0x45, c.handle, m)
  else match Ctx.parse (m.physNat c.image 64) with
  | none => some (0x45, c.handle, m)
  | some x =>
    match groupOf m x.group with
    | none => some (0x60, c.handle, m)
    | some (r, n) =>
      let y := { x with rank := r, ranks := n, keys := [(0, Config.freshKey m.created)], accrued := m.clock }
      some (0, c.handle, { m with created := m.created + 1, ctxs := m.ctxs.put c.ctx y })
def execCreate (s : State) : Host.Outcome State Fault Refusal := command s 1 0 createCtx
/-- DESTROY: what caches hold of the context goes home, and the context leaves (DEDUCED, log 59). -/
def destroyCtx (m : Mach) (c : Cmd) : Option (Nat × Nat × Mach) :=
  if 4095 < c.ctx then some (0x45, c.handle, m)
  else if m.regions.any (fun x => x.2.ctx == c.ctx) then some (0x51, c.handle, m)
  else
    let m1 := m.spindles.nums.foldl (fun (x : Mach) p => x.l1Clean p true (lineOf c.ctx)) m
    let m2 := (m1.ctx c.ctx).objs.foldl (fun x o => dropObject x c.ctx o.1 o.2) m1
    some (0, c.handle, { m2 with ctxs := m2.ctxs.drop c.ctx, spindles := m2.spindles.mapV (fun _ s =>
      { s with icache := s.icache.filter (fun x => x.1 != c.ctx), ifault := s.ifault.filter (fun x => x.1 != c.ctx),
               imiss := s.imiss.filter (fun x => x.1 != c.ctx) }) })
def execDestroy (s : State) : Host.Outcome State Fault Refusal := command s 1 1 destroyCtx

/-! ### SETACC (R366, R367) -/

def Acc.parse (x : Nat) : Option Acc :=
  if bitsOf x 80 30 ≠ 0 then none
  else some { ctx := bitsOf x 112 16, w := x.testBit 111, r := x.testBit 110, limg := bitsOf x 40 40, baseg := bitsOf x 0 40 }
/-- A byte that an entry covers at its target. -/
def Acc.has (a : Acc) (target : Nat) (l : Loc) : Bool :=
  l.sto == .dram && homeOf l.addr == some target && decide (a.baseg * 4096 ≤ l.addr) && decide (l.addr < a.limg * 4096)
/-- An access of a context that was checked against an entry and has not performed; a copy checks each byte again as it moves it. -/
def accBusy (m : Mach) (a : Acc) (target : Nat) : Bool :=
  m.pushes.any (fun p => m.ctxOfRegion (m.crew p.crew).region == a.ctx && p.k.recLocs.any (a.has target)) ||
  m.results.any (fun r => m.ctxOfGang r.gang == a.ctx && r.src.locs.any (a.has target)) ||
    m.reqs.any (fun q => m.ctxOfGang q.gang == a.ctx && q.ls.any (a.has target))
/-- Write back what caches hold dirty of the bytes of an entry, and drop every copy that an access of its context could hit. -/
def accFlush (m : Mach) (a : Acc) (target : Nat) : Mach :=
  let m0 := m.spindles.nums.foldl (fun (x : Mach) p => x.l1Clean p false (fun y => a.has target y.loc)) m
  let m1 := m.spindles.nums.foldl (fun (x : Mach) p => x.l1Clean p true (fun y => lineOf a.ctx y && a.has target y.loc)) m0
  let m2 := (m1.l2.nums.filter (fun pa => homeOf pa == some target && decide (a.baseg * 4096 ≤ pa) && decide (pa < a.limg * 4096))).foldl
    (fun (x : Mach) pa => x.l2Clean pa) m1
  { m2 with spindles := m2.spindles.mapV (fun _ s => { s with icache := s.icache.filter (fun x => x.1 != a.ctx) }) }
/-- Whether an entry no longer admits all that another did. -/
def Acc.narrows (old new : Acc) : Bool := (old.r && !new.r) || (old.w && !new.w) || decide (new.limg < old.limg)
def setAcc (m : Mach) (c : Cmd) : Option (Nat × Nat × Mach) :=
  let no (st : Nat) : Option (Nat × Nat × Mach) := some (st, c.handle, m)
  if 4095 < c.ctx ∨ 4 < c.handle then no 0x45
  else match Acc.parse (m.physNat c.image 16) with
  | none => no 0x45
  | some e =>
    if e.ctx ≠ c.ctx then no 0x45
    else
      let tab := m.access.at c.handle
      let same (a : Acc) : Bool := a.ctx == c.ctx && a.baseg == e.baseg
      let rest := tab.filter (fun a => !same a)
      let new := if e.r || e.w then rest ++ [e] else rest
      if 2048 < new.length then no 0x47
      else match tab.find? same with
      | none => some (0, c.handle, { m with access := m.access.put c.handle new })
      | some old =>
        if accBusy m old c.handle then none
        else
          let m1 := { m with access := m.access.put c.handle new }
          some (0, c.handle, if old.narrows e then accFlush m1 old c.handle else m1)
def execSetacc (s : State) : Host.Outcome State Fault Refusal := command s 1 2 setAcc

/-! ### INSTALL_KEY, RESUME, KILL, SETGALE (R313, R321, R333, R361, R369) -/

def installKey (m : Mach) (c : Cmd) : Option (Nat × Nat × Mach) :=
  let b := m.physRead c.image 96
  if 4095 < c.ctx ∨ 4095 < c.handle ∨ leNat (b.drop 80) ≠ 0 then some (0x45, c.handle, m)
  else match Config.unwrapKey b with
  | none => some (0x47, c.handle, m)
  | some k => some (0, c.handle, m.modCtx c.ctx (fun x => { x with keys := x.keys.put c.handle k }))
def execInstallKey (s : State) : Host.Outcome State Fault Refusal := command s 1 3 installKey
/-- Release sub-gang n: its lanes stand at their group again. -/
def releaseSub (m : Mach) (n : Nat) : Mach := m.onRun (m.subLanes n) (fun _ t => { t with stat := .run })
/-- A copy that waits for residency under the record tries its segment again, and posts another where it is not resident still (R195,
R254). -/
def retryCopies (m : Mach) (n : Nat) : Mach :=
  { m with copies := m.copies.mapV (fun _ c => if c.paused = some n then { c with paused := none } else c) }
/-- Mark the latest record of a number resumed; the sub-gang goes on once all its records are. -/
def markResumed (n : BitVec 16) : List FaultRec → List FaultRec
  | [] => []
  | r :: rs => if r.num = n then { r with resumed := true } :: rs else r :: markResumed n rs
def resumeSub (m : Mach) (c : Cmd) : Option (Nat × Nat × Mach) :=
  let n := BitVec.ofNat 16 c.handle
  match m.faults.find? (fun r => r.num == n) with
  | none => some (0, c.handle, m)
  | some r =>
    let m1 := { m with faults := markResumed n m.faults }
    some (0, c.handle, if (m1.faults.filter (fun x => x.sub == r.sub)).all (·.resumed) then retryCopies (releaseSub m1 r.sub) r.sub else m1)
def execResume (s : State) : Host.Outcome State Fault Refusal := command s 1 4 resumeSub
def killDomain (m : Mach) (c : Cmd) : Option (Nat × Nat × Mach) :=
  if 4095 < c.ctx then some (0x45, c.handle, m) else some (0, c.handle, removeDomain m c.ctx c.handle Cause.killed.code)
def execKill (s : State) : Host.Outcome State Fault Refusal := command s 1 5 killDomain
def setGale (m : Mach) (c : Cmd) : Option (Nat × Nat × Mach) :=
  if 96 < c.handle then some (0x47, c.handle, m)
  else
    let m1 := { m with gale := c.handle }
    some (0, c.handle, (List.range 384).foldl regale m1)
def execSetgale (s : State) : Host.Outcome State Fault Refusal := command s 1 6 setGale

end Sys2Proof.Machine
end

