-- ==== Sys2Proof/Machine/Alu.lean ====
section
/-! DEFINITION. The integer words: ALU-A (R70), ALU-B (R71 to R74), compares and predicate logic (R75, R76) and immediates (R77). -/

namespace Sys2Proof.Machine

/-! ### ALU-A (R70) -/

def execAdd (h : Hdr) (d a b : Reg) (s : State) : Host.Outcome State Fault Refusal :=
  regWord h (.add h d a b) s d (fun t => t.rd a + t.rd b)
def execSub (h : Hdr) (d a b : Reg) (s : State) : Host.Outcome State Fault Refusal :=
  regWord h (.sub h d a b) s d (fun t => t.rd a - t.rd b)
def execAnd (h : Hdr) (d a b : Reg) (s : State) : Host.Outcome State Fault Refusal :=
  regWord h (.and h d a b) s d (fun t => t.rd a &&& t.rd b)
def execOr (h : Hdr) (d a b : Reg) (s : State) : Host.Outcome State Fault Refusal :=
  regWord h (.or h d a b) s d (fun t => t.rd a ||| t.rd b)
def execXor (h : Hdr) (d a b : Reg) (s : State) : Host.Outcome State Fault Refusal :=
  regWord h (.xor h d a b) s d (fun t => t.rd a ^^^ t.rd b)
def execAndn (h : Hdr) (d a b : Reg) (s : State) : Host.Outcome State Fault Refusal :=
  regWord h (.andn h d a b) s d (fun t => t.rd a &&& ~~~(t.rd b))
def execShl (h : Hdr) (d a b : Reg) (s : State) : Host.Outcome State Fault Refusal :=
  regWord h (.shl h d a b) s d (fun t => shlW (t.rd a) (shamt (t.rd b)))
def execShr (h : Hdr) (d a b : Reg) (s : State) : Host.Outcome State Fault Refusal :=
  regWord h (.shr h d a b) s d (fun t => shrW (t.rd a) (shamt (t.rd b)))
def execSar (h : Hdr) (d a b : Reg) (s : State) : Host.Outcome State Fault Refusal :=
  regWord h (.sar h d a b) s d (fun t => sarW (t.rd a) (shamt (t.rd b)))
def execRotl (h : Hdr) (d a b : Reg) (s : State) : Host.Outcome State Fault Refusal :=
  regWord h (.rotl h d a b) s d (fun t => rotlW (t.rd a) (shamt (t.rd b)))
def execMin (h : Hdr) (d a b : Reg) (s : State) : Host.Outcome State Fault Refusal :=
  regWord h (.min h d a b) s d (fun t => minS (t.rd a) (t.rd b))
def execMax (h : Hdr) (d a b : Reg) (s : State) : Host.Outcome State Fault Refusal :=
  regWord h (.max h d a b) s d (fun t => maxS (t.rd a) (t.rd b))
def execMinu (h : Hdr) (d a b : Reg) (s : State) : Host.Outcome State Fault Refusal :=
  regWord h (.minu h d a b) s d (fun t => minU (t.rd a) (t.rd b))
def execMaxu (h : Hdr) (d a b : Reg) (s : State) : Host.Outcome State Fault Refusal :=
  regWord h (.maxu h d a b) s d (fun t => maxU (t.rd a) (t.rd b))
def execAddmin (h : Hdr) (d a b : Reg) (s : State) : Host.Outcome State Fault Refusal :=
  regWord h (.addmin h d a b) s d (fun t => minS (satW ((t.rd a).toInt + (t.rd b).toInt)) (t.rd d))
def execAddsat (h : Hdr) (d a b : Reg) (s : State) : Host.Outcome State Fault Refusal :=
  regWord h (.addsat h d a b) s d (fun t => satW ((t.rd a).toInt + (t.rd b).toInt))
def execSubsat (h : Hdr) (d a b : Reg) (s : State) : Host.Outcome State Fault Refusal :=
  regWord h (.subsat h d a b) s d (fun t => satW ((t.rd a).toInt - (t.rd b).toInt))
def execAbsdiff (h : Hdr) (d a b : Reg) (s : State) : Host.Outcome State Fault Refusal :=
  regWord h (.absdiff h d a b) s d (fun t => BitVec.ofNat 32 ((t.rd a).toInt - (t.rd b).toInt).natAbs)

/-! ### ALU-B (R71 to R74) -/

def execMul (h : Hdr) (d a b : Reg) (s : State) : Host.Outcome State Fault Refusal :=
  regWord h (.mul h d a b) s d (fun t => t.rd a * t.rd b)
def execMulh (h : Hdr) (d a b : Reg) (s : State) : Host.Outcome State Fault Refusal :=
  regWord h (.mulh h d a b) s d (fun t => BitVec.ofInt 32 ((t.rd a).toInt * (t.rd b).toInt / 2 ^ 32))
def execMulhu (h : Hdr) (d a b : Reg) (s : State) : Host.Outcome State Fault Refusal :=
  regWord h (.mulhu h d a b) s d (fun t => BitVec.ofNat 32 ((t.rd a).toNat * (t.rd b).toNat / 2 ^ 32))
def execMula (h : Hdr) (d a b : Reg) (s : State) : Host.Outcome State Fault Refusal :=
  regWord h (.mula h d a b) s d (fun t => t.rd d + t.rd a * t.rd b)
def execClz (h : Hdr) (d a : Reg) (s : State) : Host.Outcome State Fault Refusal :=
  regWord h (.clz h d a) s d (fun t => BitVec.ofNat 32 (clzN (t.rd a) 32))
def execCtz (h : Hdr) (d a : Reg) (s : State) : Host.Outcome State Fault Refusal :=
  regWord h (.ctz h d a) s d (fun t => BitVec.ofNat 32 (ctzN (t.rd a) 32))
def execPopc (h : Hdr) (d a : Reg) (s : State) : Host.Outcome State Fault Refusal :=
  regWord h (.popc h d a) s d (fun t => BitVec.ofNat 32 (popN (t.rd a) 32))
def execBrev (h : Hdr) (d a : Reg) (s : State) : Host.Outcome State Fault Refusal :=
  regWord h (.brev h d a) s d (fun t => brevW (t.rd a))
def execBfx (h : Hdr) (d a b : Reg) (s : State) : Host.Outcome State Fault Refusal :=
  regWord h (.bfx h d a b) s d (fun t =>
    if fieldLen (t.rd b) = 0 then 0 else BitVec.ofInt 32 (signedOf (fieldOf (t.rd a) (t.rd b)) (fieldLen (t.rd b))))
def execBfxu (h : Hdr) (d a b : Reg) (s : State) : Host.Outcome State Fault Refusal :=
  regWord h (.bfxu h d a b) s d (fun t => BitVec.ofNat 32 (fieldOf (t.rd a) (t.rd b)))
def execBfi (h : Hdr) (d a b : Reg) (s : State) : Host.Outcome State Fault Refusal :=
  regWord h (.bfi h d a b) s d (fun t =>
    (t.rd d &&& ~~~(fieldMask (t.rd b))) ||| ((t.rd a <<< fieldPos (t.rd b)) &&& fieldMask (t.rd b)))
def execSel (h : Hdr) (d a b : Reg) (s : State) : Host.Outcome State Fault Refusal :=
  regWord h (.sel h d a b) s d (fun t => (t.rd d &&& t.rd a) ||| (~~~(t.rd d) &&& t.rd b))
def execExtb (h : Hdr) (d a : Reg) (s : State) : Host.Outcome State Fault Refusal :=
  regWord h (.extb h d a) s d (fun t => ((t.rd a).extractLsb' 0 8).signExtend 32)
def execExth (h : Hdr) (d a : Reg) (s : State) : Host.Outcome State Fault Refusal :=
  regWord h (.exth h d a) s d (fun t => ((t.rd a).extractLsb' 0 16).signExtend 32)
def execAdd64 (h : Hdr) (d a b : Reg) (s : State) : Host.Outcome State Fault Refusal :=
  pairWord h (.add64 h d a b) s d (fun t => t.rdPair a + t.rdPair b)
def execSub64 (h : Hdr) (d a b : Reg) (s : State) : Host.Outcome State Fault Refusal :=
  pairWord h (.sub64 h d a b) s d (fun t => t.rdPair a - t.rdPair b)
def execShl64 (h : Hdr) (d a b : Reg) (s : State) : Host.Outcome State Fault Refusal :=
  pairWord h (.shl64 h d a b) s d (fun t => if shamt (t.rd b) < 64 then t.rdPair a <<< shamt (t.rd b) else 0)
def execShr64 (h : Hdr) (d a b : Reg) (s : State) : Host.Outcome State Fault Refusal :=
  pairWord h (.shr64 h d a b) s d (fun t => if shamt (t.rd b) < 64 then t.rdPair a >>> shamt (t.rd b) else 0)
def execLea (h : Hdr) (d a b : Reg) (s : State) : Host.Outcome State Fault Refusal :=
  pairWord h (.lea h d a b) s d (fun t => t.rdPair a + (t.rd b).signExtend 64)

/-! ### Compares and predicate logic (R75, R76) -/

def execCmp (h : Hdr) (pd : PReg) (cond : BitVec 3) (a b : Reg) (s : State) : Host.Outcome State Fault Refusal :=
  predWord h (.cmp h pd cond a b) s pd (fun t => condOf cond (t.rd a) (t.rd b))
def execPlog (h : Hdr) (pd pa pq : PReg) (lut : BitVec 4) (s : State) : Host.Outcome State Fault Refusal :=
  predWord h (.plog h pd pa pq lut) s pd (fun t => lut.getLsbD (2 * (t.rdP pa).toNat + (t.rdP pq).toNat))

/-! ### Immediates (R56, R77) -/

def execAddi (h : Hdr) (d a : Reg) (imm : BitVec 12) (s : State) : Host.Outcome State Fault Refusal :=
  regWord h (.addi h d a imm) s d (fun t => t.rd a + sx12 imm)
def execAndi (h : Hdr) (d a : Reg) (imm : BitVec 12) (s : State) : Host.Outcome State Fault Refusal :=
  regWord h (.andi h d a imm) s d (fun t => t.rd a &&& zx12 imm)
def execOri (h : Hdr) (d a : Reg) (imm : BitVec 12) (s : State) : Host.Outcome State Fault Refusal :=
  regWord h (.ori h d a imm) s d (fun t => t.rd a ||| zx12 imm)
def execXori (h : Hdr) (d a : Reg) (imm : BitVec 12) (s : State) : Host.Outcome State Fault Refusal :=
  regWord h (.xori h d a imm) s d (fun t => t.rd a ^^^ zx12 imm)
def execShli (h : Hdr) (d a : Reg) (n : BitVec 5) (s : State) : Host.Outcome State Fault Refusal :=
  regWord h (.shli h d a n) s d (fun t => shlW (t.rd a) n.toNat)
def execShri (h : Hdr) (d a : Reg) (n : BitVec 5) (s : State) : Host.Outcome State Fault Refusal :=
  regWord h (.shri h d a n) s d (fun t => shrW (t.rd a) n.toNat)
def execSari (h : Hdr) (d a : Reg) (n : BitVec 5) (s : State) : Host.Outcome State Fault Refusal :=
  regWord h (.sari h d a n) s d (fun t => sarW (t.rd a) n.toNat)
def execRotli (h : Hdr) (d a : Reg) (n : BitVec 5) (s : State) : Host.Outcome State Fault Refusal :=
  regWord h (.rotli h d a n) s d (fun t => rotlW (t.rd a) n.toNat)
def execCmpi (h : Hdr) (pd : PReg) (cond : BitVec 3) (a : Reg) (imm : BitVec 12) (s : State) : Host.Outcome State Fault Refusal :=
  predWord h (.cmpi h pd cond a imm) s pd (fun t => condOf cond (t.rd a) (sx12 imm))
def execMuli (h : Hdr) (d a : Reg) (imm : BitVec 12) (s : State) : Host.Outcome State Fault Refusal :=
  regWord h (.muli h d a imm) s d (fun t => t.rd a * sx12 imm)
def execAddi64 (h : Hdr) (d a : Reg) (imm : BitVec 12) (s : State) : Host.Outcome State Fault Refusal :=
  pairWord h (.addi64 h d a imm) s d (fun t => t.rdPair a + imm.signExtend 64)
def execMovi (h : Hdr) (d : Reg) (imm : BitVec 18) (s : State) : Host.Outcome State Fault Refusal :=
  regWord h (.movi h d imm) s d (fun _ => sx18 imm)
def execMovhi (h : Hdr) (d : Reg) (imm : BitVec 18) (s : State) : Host.Outcome State Fault Refusal :=
  regWord h (.movhi h d imm) s d (fun t => (imm ++ (t.rd d).extractLsb' 0 14 : BitVec 32))

end Sys2Proof.Machine
end

