-- ==== Sys2Proof/Machine/Float.lean ====
section
/-! DEFINITION. The FPU words: arithmetic (R79, R80), conversions (R81), compares, classes and signs (R82 to R84) and the packed
words (R85). -/

namespace Sys2Proof.Machine

/-- A word that writes one register of each lane and raises flags (R37, R38). -/
def fpWord (h : Hdr) (i : Instr) (s : State) (d : Reg) (f : Thread → Nat × Flags) : Host.Outcome State Fault Refusal :=
  gangWord h i s noCause noStall .stalled (fun g m =>
    (m.onRun g.run (fun u t => t.wr d (BitVec.ofNat 32 (f (g.pre.thr u)).1)),
     g.run.foldl (fun x u => x.raise u (f (g.pre.thr u)).2) g))

/-- The effective FI, FO and mode of a word (R30, R35). -/
def Thread.fiOf (t : Thread) (fi : Bool) : Bool := fi || fidOf t.fmode
def Thread.foOf (t : Thread) (fo : Bool) : Bool := fo || fodOf t.fmode
def Thread.modeOf (t : Thread) (fm : FMod) : RM := RM.ofField fm.rm t.fmode
/-- An FP32 operand's bits after the FI flush, and its value. -/
def Thread.fbits (t : Thread) (fi : Bool) (r : Reg) : Nat := fp32.flushIn (t.fiOf fi) (t.rd r).toNat
def Thread.fop (t : Thread) (fi : Bool) (r : Reg) : FVal := fp32.decode (t.fbits fi r)

/-! ### Arithmetic -/

def execFadd (h : Hdr) (d a b : Reg) (fm : FMod) (s : State) : Host.Outcome State Fault Refusal :=
  fpWord h (.fadd h d a b fm) s d (fun t => sumRound fp32 (t.modeOf fm) (t.foOf fm.fo) [t.fop fm.fi a, t.fop fm.fi b] false)
def execFsub (h : Hdr) (d a b : Reg) (fm : FMod) (s : State) : Host.Outcome State Fault Refusal :=
  fpWord h (.fsub h d a b fm) s d (fun t => sumRound fp32 (t.modeOf fm) (t.foOf fm.fo) [t.fop fm.fi a, (t.fop fm.fi b).neg] false)
def execFmul (h : Hdr) (d a b : Reg) (fm : FMod) (s : State) : Host.Outcome State Fault Refusal :=
  fpWord h (.fmul h d a b fm) s d (fun t =>
    let p := (t.fop fm.fi a).mul (t.fop fm.fi b)
    sumRound fp32 (t.modeOf fm) (t.foOf fm.fo) [p.1] p.2)
def execFfma (h : Hdr) (d a b : Reg) (fm : FMod) (s : State) : Host.Outcome State Fault Refusal :=
  fpWord h (.ffma h d a b fm) s d (fun t =>
    fmaRound fp32 (t.modeOf fm) (t.foOf fm.fo) false (t.fop fm.fi a) (t.fop fm.fi b) (t.fop fm.fi d))
def execFfms (h : Hdr) (d a b : Reg) (fm : FMod) (s : State) : Host.Outcome State Fault Refusal :=
  fpWord h (.ffms h d a b fm) s d (fun t =>
    fmaRound fp32 (t.modeOf fm) (t.foOf fm.fo) false (t.fop fm.fi a) (t.fop fm.fi b) (t.fop fm.fi d).neg)
def execFnfma (h : Hdr) (d a b : Reg) (fm : FMod) (s : State) : Host.Outcome State Fault Refusal :=
  fpWord h (.fnfma h d a b fm) s d (fun t =>
    fmaRound fp32 (t.modeOf fm) (t.foOf fm.fo) true (t.fop fm.fi a) (t.fop fm.fi b) (t.fop fm.fi d))
/-- FMIN and FMAX: one of the operands after the FI flush, then the FO flush (R80). -/
def minmaxOf (t : Thread) (mx : Bool) (fm : FMod) (a b : Reg) : Nat × Flags :=
  let r := fp32.minmax mx (t.fbits fm.fi a) (t.fbits fm.fi b)
  let o := fp32.flushOut (t.foOf fm.fo) r.1
  (o.1, r.2 ||| o.2)
def execFmin (h : Hdr) (d a b : Reg) (fm : FMod) (s : State) : Host.Outcome State Fault Refusal :=
  fpWord h (.fmin h d a b fm) s d (fun t => minmaxOf t false fm a b)
def execFmax (h : Hdr) (d a b : Reg) (fm : FMod) (s : State) : Host.Outcome State Fault Refusal :=
  fpWord h (.fmax h d a b fm) s d (fun t => minmaxOf t true fm a b)

/-! ### Conversions (R81) -/

/-- The low half of a register, FI applied in its own format. -/
def Thread.hbits (t : Thread) (f : Fmt) (fi : Bool) (r : Reg) : Nat := f.flushIn (t.fiOf fi) (bitsOf (t.rd r).toNat 0 16)
def execFcvtHF (h : Hdr) (d a : Reg) (fm : FMod) (s : State) : Host.Outcome State Fault Refusal :=
  fpWord h (.fcvtHF h d a fm) s d (fun t => cvtFF fp32 fp16 (t.modeOf fm) (t.foOf fm.fo) (t.fbits fm.fi a))
def execFcvtBfF (h : Hdr) (d a : Reg) (fm : FMod) (s : State) : Host.Outcome State Fault Refusal :=
  fpWord h (.fcvtBfF h d a fm) s d (fun t => cvtFF fp32 bf16 (t.modeOf fm) (t.foOf fm.fo) (t.fbits fm.fi a))
def execFcvtFH (h : Hdr) (d a : Reg) (fm : FMod) (s : State) : Host.Outcome State Fault Refusal :=
  fpWord h (.fcvtFH h d a fm) s d (fun t => cvtFF fp16 fp32 (t.modeOf fm) (t.foOf fm.fo) (t.hbits fp16 fm.fi a))
def execFcvtFBf (h : Hdr) (d a : Reg) (fm : FMod) (s : State) : Host.Outcome State Fault Refusal :=
  fpWord h (.fcvtFBf h d a fm) s d (fun t => cvtFF bf16 fp32 (t.modeOf fm) (t.foOf fm.fo) (t.hbits bf16 fm.fi a))
/-- A conversion to an integer, as register bits. -/
def toIntOf (lo hi : Int) (mode : RM) (x : Nat) : Nat × Flags :=
  let r := cvtIF lo hi mode x
  ((BitVec.ofInt 32 r.1).toNat, r.2)
def execFcvtIF (h : Hdr) (d a : Reg) (fm : FMod) (s : State) : Host.Outcome State Fault Refusal :=
  fpWord h (.fcvtIF h d a fm) s d (fun t => toIntOf (-2 ^ 31) (2 ^ 31 - 1) (t.modeOf fm) (t.fbits fm.fi a))
def execFcvtUF (h : Hdr) (d a : Reg) (fm : FMod) (s : State) : Host.Outcome State Fault Refusal :=
  fpWord h (.fcvtUF h d a fm) s d (fun t => toIntOf 0 (2 ^ 32 - 1) (t.modeOf fm) (t.fbits fm.fi a))
def execFcvtFI (h : Hdr) (d a : Reg) (fm : FMod) (s : State) : Host.Outcome State Fault Refusal :=
  fpWord h (.fcvtFI h d a fm) s d (fun t => cvtFI (t.modeOf fm) (t.foOf fm.fo) (t.rd a).toInt)
def execFcvtFU (h : Hdr) (d a : Reg) (fm : FMod) (s : State) : Host.Outcome State Fault Refusal :=
  fpWord h (.fcvtFU h d a fm) s d (fun t => cvtFI (t.modeOf fm) (t.foOf fm.fo) (t.rd a).toNat)
def execFcvtFL (h : Hdr) (d a : Reg) (fm : FMod) (s : State) : Host.Outcome State Fault Refusal :=
  fpWord h (.fcvtFL h d a fm) s d (fun t => cvtFI (t.modeOf fm) (t.foOf fm.fo) (t.rdPair a).toInt)
def execFrint (h : Hdr) (d a : Reg) (fm : FMod) (s : State) : Host.Outcome State Fault Refusal :=
  fpWord h (.frint h d a fm) s d (fun t => rint (t.modeOf fm) (t.fbits fm.fi a))

/-! ### Compare, classify, sign (R82 to R84) -/

def execFcmp (h : Hdr) (pd : PReg) (cond : BitVec 3) (a b : Reg) (fm : FMod) (s : State) : Host.Outcome State Fault Refusal :=
  let f := fun (t : Thread) => fcond cond.toNat (t.fop fm.fi a) (t.fop fm.fi b)
  gangWord h (.fcmp h pd cond a b fm) s noCause noStall .stalled (fun g m =>
    (m.onRun g.run (fun u t => t.wrP pd (f (g.pre.thr u)).1), g.run.foldl (fun x u => x.raise u (f (g.pre.thr u)).2) g))
def execFclass (h : Hdr) (d a : Reg) (fm : FMod) (s : State) : Host.Outcome State Fault Refusal :=
  regWord h (.fclass h d a fm) s d (fun t => BitVec.ofNat 32 (fclassOf (t.rd a).toNat))
/-- A sign operation: canonical for a NaN, else the sign that `sg` gives, then the FO flush (R84). -/
def signOp (t : Thread) (fi fo : Bool) (a : Reg) (sg : Bool → Bool) : Nat × Flags :=
  let x := t.fbits fi a
  if fp32.isNan x then (fp32.nanBits, 0)
  else fp32.flushOut (t.foOf fo) (fp32.sg (sg (x.testBit 31)) + bitsOf x 0 31)
def execFabs (h : Hdr) (d a : Reg) (fi fo : Bool) (s : State) : Host.Outcome State Fault Refusal :=
  fpWord h (.fabs h d a fi fo) s d (fun t => signOp t fi fo a (fun _ => false))
def execFneg (h : Hdr) (d a : Reg) (fi fo : Bool) (s : State) : Host.Outcome State Fault Refusal :=
  fpWord h (.fneg h d a fi fo) s d (fun t => signOp t fi fo a (fun x => !x))
def execFcopysign (h : Hdr) (d a b : Reg) (fi fo : Bool) (s : State) : Host.Outcome State Fault Refusal :=
  fpWord h (.fcopysign h d a b fi fo) s d (fun t => signOp t fi fo a (fun _ => (t.rd b).getLsbD 31))

/-! ### Packed words and FDOT2 (R85) -/

/-- The element format of a packed word, and its mode. -/
def hmFmt (hm : HMod) : Fmt := if hm.t then bf16 else fp16
def Thread.hmode (t : Thread) (hm : HMod) : RM := if hm.rs then .rne else RM.ofMode t.fmode
/-- Half k of a register, FI applied. -/
def Thread.half (t : Thread) (hm : HMod) (r : Reg) (k : Nat) : FVal :=
  (hmFmt hm).decode ((hmFmt hm).flushIn (t.fiOf hm.fi) (bitsOf (t.rd r).toNat (16 * k) 16))
/-- Both halves of a result, their flags ORed. -/
def packed (f : Nat → Nat × Flags) : Nat × Flags := ((f 0).1 + (f 1).1 * 2 ^ 16, (f 0).2 ||| (f 1).2)
def execHadd2 (h : Hdr) (d a b : Reg) (hm : HMod) (s : State) : Host.Outcome State Fault Refusal :=
  fpWord h (.hadd2 h d a b hm) s d (fun t => packed (fun k =>
    sumRound (hmFmt hm) (t.hmode hm) (t.foOf hm.fo) [t.half hm a k, t.half hm b k] false))
def execHmul2 (h : Hdr) (d a b : Reg) (hm : HMod) (s : State) : Host.Outcome State Fault Refusal :=
  fpWord h (.hmul2 h d a b hm) s d (fun t => packed (fun k =>
    let p := (t.half hm a k).mul (t.half hm b k)
    sumRound (hmFmt hm) (t.hmode hm) (t.foOf hm.fo) [p.1] p.2))
def execHfma2 (h : Hdr) (d a b : Reg) (hm : HMod) (s : State) : Host.Outcome State Fault Refusal :=
  fpWord h (.hfma2 h d a b hm) s d (fun t => packed (fun k =>
    fmaRound (hmFmt hm) (t.hmode hm) (t.foOf hm.fo) false (t.half hm a k) (t.half hm b k) (t.half hm d k)))
def execFdot2 (h : Hdr) (d a b : Reg) (hm : HMod) (s : State) : Host.Outcome State Fault Refusal :=
  fpWord h (.fdot2 h d a b hm) s d (fun t =>
    let p := (t.half hm a 0).mul (t.half hm b 0)
    let q := (t.half hm a 1).mul (t.half hm b 1)
    sumRound fp32 (t.hmode hm) (t.foOf hm.fo) [p.1, q.1, t.fop hm.fi d] (p.2 || q.2))

end Sys2Proof.Machine
end

