-- ==== Sys2Proof/Machine/Sfu.lean ====
section
/-! DEFINITION. The special functions (R86, R87). Special values and exact results are fixed; another result is the free value
Config.sfu where that lies within the error bound of R87, and else the exact result rounded (DESIGN CHOICE, log 6). The exact result is enclosed by
fixed-point series at scale 2^-512, whose error stays below 2^-452 and is taken from the bound: no FP32 number lies so near the bound of an
exact result that is not exact itself. -/

namespace Sys2Proof.Machine

/-! ### Fixed-point series -/

def fxS : Int := 2 ^ 512
/-- Division of a fixed-point product. -/
def fxMul (a b : Int) : Int := a * b / fxS
/-- arctan(1/q) at scale 2^n: terms ± 1/((2k+1) q^(2k+1)). -/
def atanInv (q n : Nat) : Nat → Int
  | 0 => (2 : Int) ^ n / q
  | k + 1 => atanInv q n k + (if k % 2 = 0 then -1 else 1) * ((2 : Int) ^ n / ((2 * (k : Int) + 3) * (q : Int) ^ (2 * k + 3)))
/-- 2π at scale 2^672 (Machin). -/
def twoPi : Int := 2 * (16 * atanInv 5 672 150 - 4 * atanInv 239 672 50)
/-- ln 2 at scale 2^-512: the sum of 1/(k 2^k). -/
def ln2Go : Nat → Int
  | 0 => 0
  | k + 1 => ln2Go k + fxS / ((k + 1 : Nat) * 2 ^ (k + 1))
def ln2 : Int := ln2Go 530
/-- Σ x^k / k! from term k with value t. -/
def expGo (x : Int) : Nat → Nat → Int → Int
  | 0, _, _ => 0
  | n + 1, k, t => t + expGo x n (k + 1) (fxMul t x / ((k : Int) + 1))
/-- e^x. -/
def fxExp (x : Int) : Int := expGo x 260 0 fxS
/-- Alternating series of sin (k = 1) and cos (k = 0): terms x^k / k!, two steps apart. -/
def trigGo (x2 : Int) : Nat → Nat → Int → Int
  | 0, _, _ => 0
  | n + 1, k, t => t + trigGo x2 n (k + 2) (-(fxMul t x2) / (((k : Int) + 1) * ((k : Int) + 2)))
/-- 2 artanh z: Σ 2 z^(2k+1) / (2k+1). -/
def artanhGo (z2 : Int) : Nat → Nat → Int → Int
  | 0, _, _ => 0
  | n + 1, k, p => 2 * p / (2 * (k : Int) + 1) + artanhGo z2 n (k + 1) (fxMul p z2)
/-- ln y for y between 1 and 2. -/
def fxLn (y : Int) : Int :=
  let z := (y - fxS) * fxS / (y + fxS)
  artanhGo (fxMul z z) 170 0 z

/-- The number ± m × 2^e at scale 2^-512, for e of at least -512 (every FP32 number). -/
def fxOf (s : Bool) (m : Nat) (e : Int) : Int := (if s then -1 else 1) * ((m * 2 ^ (e + 512).toNat : Nat) : Int)
/-- sin and cos of ± m × 2^e, reduced exactly by 2π. -/
def fxTrig (cosine s : Bool) (m : Nat) (e : Int) : Int :=
  let r := ((m * 2 ^ (e + 672).toNat : Nat) : Int) % twoPi / 2 ^ 160
  let x2 := fxMul r r
  if cosine then trigGo x2 90 0 fxS else (if s then -1 else 1) * trigGo x2 90 1 r
/-- tanh of m × 2^e, for values below 9.5. -/
def fxTanh (m : Nat) (e : Int) : Int :=
  let y := fxExp (-2 * fxOf false m e)
  (fxS - y) * fxS / (fxS + y)
/-- log2 of m × 2^e. -/
def fxLog2 (m : Nat) (e : Int) : Int :=
  let k := Nat.log2 m
  let y : Int := (m : Int) * fxS / 2 ^ k
  ((k : Int) + e) * fxS + fxLn y * fxS / ln2

/-! ### Choosing within a bound -/

/-- A fixed-point value rounded to FP32 by RNE. -/
def fxRound (x : Int) : Nat := (roundF fp32 .rne false (decide (x < 0)) x.natAbs (-512)).1
/-- Units of the last place of FP32 at a fixed-point value, at scale 2^-512. -/
def fxUlp (x : Int) : Int := 2 ^ (fp32.place x.natAbs (-512) + 512).toNat
/-- The candidate where it is a finite number within the bound of the exact value x, else x rounded. -/
def within (cand : Nat) (x bound : Int) : Nat :=
  match fp32.decode cand with
  | .fin s m e => if ((fxOf s m e - x).natAbs : Int) ≤ bound - 2 ^ 60 then cand else fxRound x
  | _ => fxRound x
/-- FO on an SFU result: no flag (R86). -/
def sfuFlush (fo : Bool) (x : Nat) : Nat := (fp32.flushOut fo x).1
/-- Whether m is a power of two. -/
def isPow2 (m : Nat) : Bool := m == 2 ^ Nat.log2 m
/-- The candidate that the device gives for an argument. -/
def sfuCand (fn x : Nat) (fi fo : Bool) : Nat := (Config.sfu fn (BitVec.ofNat 32 x) fi fo).toNat

/-! ### The functions of R87, on the bits of the argument after the FI flush -/

/-- 1/(m × 2^e): exact for powers of two; beyond the largest finite value, ∞; else within 1 ulp. -/
def rcpOf (cand : Nat) (s : Bool) (m : Nat) (e : Int) : Nat :=
  if isPow2 m then (roundF fp32 .rne false s 1 (-(e + Nat.log2 m))).1
  else
    -- the exact result at 2^-400, with a low bit that marks the remainder
    let q := 2 ^ 400 / m
    let r := (roundF fp32 .rne false s (2 * q + 1) (-401 - e)).1
    if bitsOf r 0 31 = fp32.infBits then r
    else
      let u := fp32.place (2 * q + 1) (-401 - e)
      match fp32.decode cand with
      | .fin s' m' e' =>
        -- |m' 2^e' - 1/(m 2^e)| ≤ 2^u, times m 2^e
        let b := min (e' + e) (min (u + e) 0)
        let lhs := ((m' * m * 2 ^ (e' + e - b).toNat : Nat) : Int) - 2 ^ (-b).toNat
        if s' = s ∧ (lhs.natAbs : Int) ≤ ((m * 2 ^ (u + e - b).toNat : Nat) : Int) then cand else r
      | _ => r
/-- 1/√(m × 2^e): exact when that is a power of two; else within 1 ulp. -/
def rsqOf (cand : Nat) (m : Nat) (e : Int) : Nat :=
  let k := (Nat.log2 m : Int) + e
  if isPow2 m ∧ k % 2 = 0 then (roundF fp32 .rne false false 1 (-(k / 2))).1
  else
    -- ⌊2^200 / √(m 2^(e mod 2))⌋ with a sticky bit, times 2^(-200 - ⌊e/2⌋)
    let n := 2 ^ 400 / (m * 2 ^ (e % 2).toNat)
    let q := 2 * isqrt 201 n + 1
    let r := (roundF fp32 .rne false false q (-201 - e / 2)).1
    let u := fp32.place q (-201 - e / 2)
    match fp32.decode cand with
    | .fin false m' e' =>
      -- (c - u)² x ≤ 1 ≤ (c + u)² x at a common scale
      let b := min e' u
      let c := ((m' * 2 ^ (e' - b).toNat : Nat) : Int)
      let v := (2 : Int) ^ (u - b).toNat
      let sh := 2 * b + e
      let lo := (c - v) * (c - v) * m
      let hi := (c + v) * (c + v) * m
      let ok := if 0 ≤ sh then decide (lo * 2 ^ sh.toNat ≤ 1 ∧ 1 ≤ hi * 2 ^ sh.toNat)
        else decide (lo ≤ 2 ^ (-sh).toNat ∧ 2 ^ (-sh).toNat ≤ hi)
      if ok && decide (v ≤ c) then cand else r
    | _ => r
/-- √(m × 2^e), correctly rounded by RNE. -/
def sqrtOf (m : Nat) (e : Int) : Nat :=
  let n := m * 2 ^ (200 + (e % 2).toNat)
  let q := isqrt 116 n
  (roundF fp32 .rne false false (2 * q + (if q * q = n then 0 else 1)) (-101 + e / 2)).1
/-- log2 of m × 2^e. -/
def lg2Of (cand m : Nat) (e : Int) : Nat :=
  let k := (Nat.log2 m : Int) + e
  if isPow2 m then (cvtFI .rne false k).1
  else
    let x := fxLog2 m e
    within cand x (if k = -1 ∨ k = 0 then 2 ^ 490 else 2 * fxUlp x)
/-- 2^(± m × 2^e). -/
def ex2Of (cand : Nat) (s : Bool) (m : Nat) (e : Int) : Nat :=
  let x := fxOf s m e
  if 128 * fxS ≤ x then fp32.infBits
  else if x < -160 * fxS then
    -- the exact result lies between 0 and 2^-160, and 2 ulp are 2^-148
    match fp32.decode cand with
    | .fin t m' e' => if decide (m' * 2 ^ (e' + 149).toNat < 2) || (!t && m' * 2 ^ (e' + 149).toNat == 2) then cand else 0
    | _ => 0
  else
    let n := x / fxS
    if x % fxS = 0 ∧ -149 ≤ n then (roundF fp32 .rne false false 1 n).1
    else
      -- the exact result is f × 2^n with 1 ≤ f < 2, at scale 2^-512
      let f := fxExp (fxMul (x % fxS) ln2)
      let ulp : Int := 2 ^ (max (n - 23) (-149) - n + 512).toNat
      match fp32.decode cand with
      | .fin t m' e' =>
        if ((fxOf t m' (e' - n) - f).natAbs : Int) ≤ 2 * ulp - 2 ^ 60 then cand else (roundF fp32 .rne false false f.natAbs (n - 512)).1
      | _ => (roundF fp32 .rne false false f.natAbs (n - 512)).1

/-- An SFU word's result and flags (R86, R87). -/
def sfuOf (fn : Nat) (fi fo : Bool) (arg : Nat) : Nat × Flags :=
  let x := fp32.flushIn fi arg
  let c := sfuCand fn arg fi fo
  let nan : Nat × Flags := (fp32.nanBits, nvFlag)
  let r : Nat × Flags :=
    match fp32.decode x with
    | .nan sig => (fp32.nanBits, flagIf sig nvFlag)
    | .inf s =>
      match fn with
      | 0 => (fp32.sg s, 0)
      | 1 => if s then nan else (0, 0)
      | 2 => if s then nan else (fp32.infBits, 0)
      | 3 => if s then nan else (fp32.infBits, 0)
      | 4 => (if s then 0 else fp32.infBits, 0)
      | 5 => nan
      | 6 => nan
      | _ => (fp32.sg s + 0x3F800000, 0)
    | .fin s m e =>
      if m = 0 then
        match fn with
        | 0 => (fp32.sg s + fp32.infBits, dzFlag)
        | 1 => (fp32.sg s + fp32.infBits, dzFlag)
        | 2 => (fp32.sg s, 0)
        | 3 => (fp32.sg true + fp32.infBits, dzFlag)
        | 4 => (0x3F800000, 0)
        | 5 => (fp32.sg s, 0)
        | 6 => (0x3F800000, 0)
        | _ => (fp32.sg s, 0)
      else
        match fn with
        | 0 => (rcpOf c s m e, 0)
        | 1 => if s then nan else (rsqOf c m e, 0)
        | 2 => if s then nan else (sqrtOf m e, 0)
        | 3 => if s then nan else (lg2Of c m e, 0)
        | 4 => (ex2Of c s m e, 0)
        | 5 => (within c (fxTrig false s m e) (2 ^ 491), 0)
        | 6 => (within c (fxTrig true s m e) (2 ^ 491), 0)
        | _ =>
          if 19 * fxS ≤ 2 * fxOf false m e then (fp32.sg s + 0x3F800000, 0)
          else (within c (if s then -(fxTanh m e) else fxTanh m e) (2 ^ 491), 0)
  (sfuFlush fo r.1, r.2)

/-- An SFU word: a long result and the flags of R37. -/
def sfuWord (h : Hdr) (i : Instr) (fn : Nat) (d a : Reg) (fi fo : Bool) (s : State) : Host.Outcome State Fault Refusal :=
  let f := fun (t : Thread) => sfuOf fn (t.fiOf fi) (t.foOf fo) (t.rd a).toNat
  gangWord h i s noCause noStall .stalled (fun g m =>
    (longVal g m d 1 (wordOf i) (fun u => [BitVec.ofNat 32 (f (g.pre.thr u)).1]),
     g.run.foldl (fun x u => x.raise u (f (g.pre.thr u)).2) g))

def execRcp (h : Hdr) (d a : Reg) (fi fo : Bool) (s : State) : Host.Outcome State Fault Refusal :=
  sfuWord h (.rcp h d a fi fo) 0 d a fi fo s
def execRsq (h : Hdr) (d a : Reg) (fi fo : Bool) (s : State) : Host.Outcome State Fault Refusal :=
  sfuWord h (.rsq h d a fi fo) 1 d a fi fo s
def execSqrt (h : Hdr) (d a : Reg) (fi fo : Bool) (s : State) : Host.Outcome State Fault Refusal :=
  sfuWord h (.sqrt h d a fi fo) 2 d a fi fo s
def execLg2 (h : Hdr) (d a : Reg) (fi fo : Bool) (s : State) : Host.Outcome State Fault Refusal :=
  sfuWord h (.lg2 h d a fi fo) 3 d a fi fo s
def execEx2 (h : Hdr) (d a : Reg) (fi fo : Bool) (s : State) : Host.Outcome State Fault Refusal :=
  sfuWord h (.ex2 h d a fi fo) 4 d a fi fo s
def execSin (h : Hdr) (d a : Reg) (fi fo : Bool) (s : State) : Host.Outcome State Fault Refusal :=
  sfuWord h (.sin h d a fi fo) 5 d a fi fo s
def execCos (h : Hdr) (d a : Reg) (fi fo : Bool) (s : State) : Host.Outcome State Fault Refusal :=
  sfuWord h (.cos h d a fi fo) 6 d a fi fo s
def execTanh (h : Hdr) (d a : Reg) (fi fo : Bool) (s : State) : Host.Outcome State Fault Refusal :=
  sfuWord h (.tanh h d a fi fo) 7 d a fi fo s

end Sys2Proof.Machine
end

