-- ==== Sys2Proof/Machine/Dispatch.lean ====
section
/-! DEFINITION. What each instruction does: one arm per constructor, one call of its meaning. -/

namespace Sys2Proof.Machine

def exec (i : Instr) (s : State) : Host.Outcome State Fault Refusal :=
  match i with
  | .nop h => Sys2Proof.Machine.execNop h s
  | .exit h => Sys2Proof.Machine.execExit h s
  | .trap h a => Sys2Proof.Machine.execTrap h a s
  | .yield h => Sys2Proof.Machine.execYield h s
  | .waitc h d a b => Sys2Proof.Machine.execWaitc h d a b s
  | .entry h cls => Sys2Proof.Machine.execEntry h cls s
  | .eret h => Sys2Proof.Machine.execEret h s
  | .bra h cc hint off => Sys2Proof.Machine.execBra h cc hint off s
  | .ychk h hint off => Sys2Proof.Machine.execYchk h hint off s
  | .call h off => Sys2Proof.Machine.execCall h off s
  | .ret h => Sys2Proof.Machine.execRet h s
  | .brx h a => Sys2Proof.Machine.execBrx h a s
  | .calli h cls a => Sys2Proof.Machine.execCalli h cls a s
  | .movs h d sp => Sys2Proof.Machine.execMovs h d sp s
  | .smov h sp a => Sys2Proof.Machine.execSmov h sp a s
  | .mjoin h k => Sys2Proof.Machine.execMjoin h k s
  | .mleave h k => Sys2Proof.Machine.execMleave h k s
  | .mwait h k => Sys2Proof.Machine.execMwait h k s
  | .mset h k a => Sys2Proof.Machine.execMset h k a s
  | .mget h d k => Sys2Proof.Machine.execMget h d k s
  | .mact h d => Sys2Proof.Machine.execMact h d s
  | .fork h vs off => Sys2Proof.Machine.execFork h vs off s
  | .add h d a b => Sys2Proof.Machine.execAdd h d a b s
  | .sub h d a b => Sys2Proof.Machine.execSub h d a b s
  | .and h d a b => Sys2Proof.Machine.execAnd h d a b s
  | .or h d a b => Sys2Proof.Machine.execOr h d a b s
  | .xor h d a b => Sys2Proof.Machine.execXor h d a b s
  | .andn h d a b => Sys2Proof.Machine.execAndn h d a b s
  | .shl h d a b => Sys2Proof.Machine.execShl h d a b s
  | .shr h d a b => Sys2Proof.Machine.execShr h d a b s
  | .sar h d a b => Sys2Proof.Machine.execSar h d a b s
  | .rotl h d a b => Sys2Proof.Machine.execRotl h d a b s
  | .min h d a b => Sys2Proof.Machine.execMin h d a b s
  | .max h d a b => Sys2Proof.Machine.execMax h d a b s
  | .minu h d a b => Sys2Proof.Machine.execMinu h d a b s
  | .maxu h d a b => Sys2Proof.Machine.execMaxu h d a b s
  | .addmin h d a b => Sys2Proof.Machine.execAddmin h d a b s
  | .addsat h d a b => Sys2Proof.Machine.execAddsat h d a b s
  | .subsat h d a b => Sys2Proof.Machine.execSubsat h d a b s
  | .absdiff h d a b => Sys2Proof.Machine.execAbsdiff h d a b s
  | .mul h d a b => Sys2Proof.Machine.execMul h d a b s
  | .mulh h d a b => Sys2Proof.Machine.execMulh h d a b s
  | .mulhu h d a b => Sys2Proof.Machine.execMulhu h d a b s
  | .mula h d a b => Sys2Proof.Machine.execMula h d a b s
  | .clz h d a => Sys2Proof.Machine.execClz h d a s
  | .ctz h d a => Sys2Proof.Machine.execCtz h d a s
  | .popc h d a => Sys2Proof.Machine.execPopc h d a s
  | .brev h d a => Sys2Proof.Machine.execBrev h d a s
  | .bfx h d a b => Sys2Proof.Machine.execBfx h d a b s
  | .bfxu h d a b => Sys2Proof.Machine.execBfxu h d a b s
  | .bfi h d a b => Sys2Proof.Machine.execBfi h d a b s
  | .sel h d a b => Sys2Proof.Machine.execSel h d a b s
  | .extb h d a => Sys2Proof.Machine.execExtb h d a s
  | .exth h d a => Sys2Proof.Machine.execExth h d a s
  | .add64 h d a b => Sys2Proof.Machine.execAdd64 h d a b s
  | .sub64 h d a b => Sys2Proof.Machine.execSub64 h d a b s
  | .shl64 h d a b => Sys2Proof.Machine.execShl64 h d a b s
  | .shr64 h d a b => Sys2Proof.Machine.execShr64 h d a b s
  | .lea h d a b => Sys2Proof.Machine.execLea h d a b s
  | .cmp h pd cond a b => Sys2Proof.Machine.execCmp h pd cond a b s
  | .plog h pd pa pq lut => Sys2Proof.Machine.execPlog h pd pa pq lut s
  | .addi h d a imm => Sys2Proof.Machine.execAddi h d a imm s
  | .andi h d a imm => Sys2Proof.Machine.execAndi h d a imm s
  | .ori h d a imm => Sys2Proof.Machine.execOri h d a imm s
  | .xori h d a imm => Sys2Proof.Machine.execXori h d a imm s
  | .shli h d a n => Sys2Proof.Machine.execShli h d a n s
  | .shri h d a n => Sys2Proof.Machine.execShri h d a n s
  | .sari h d a n => Sys2Proof.Machine.execSari h d a n s
  | .rotli h d a n => Sys2Proof.Machine.execRotli h d a n s
  | .cmpi h pd cond a imm => Sys2Proof.Machine.execCmpi h pd cond a imm s
  | .muli h d a imm => Sys2Proof.Machine.execMuli h d a imm s
  | .addi64 h d a imm => Sys2Proof.Machine.execAddi64 h d a imm s
  | .movi h d imm => Sys2Proof.Machine.execMovi h d imm s
  | .movhi h d imm => Sys2Proof.Machine.execMovhi h d imm s
  | .fadd h d a b fm => Sys2Proof.Machine.execFadd h d a b fm s
  | .fsub h d a b fm => Sys2Proof.Machine.execFsub h d a b fm s
  | .fmul h d a b fm => Sys2Proof.Machine.execFmul h d a b fm s
  | .fmin h d a b fm => Sys2Proof.Machine.execFmin h d a b fm s
  | .ffma h d a b fm => Sys2Proof.Machine.execFfma h d a b fm s
  | .ffms h d a b fm => Sys2Proof.Machine.execFfms h d a b fm s
  | .fnfma h d a b fm => Sys2Proof.Machine.execFnfma h d a b fm s
  | .fmax h d a b fm => Sys2Proof.Machine.execFmax h d a b fm s
  | .fcvtHF h d a fm => Sys2Proof.Machine.execFcvtHF h d a fm s
  | .fcvtBfF h d a fm => Sys2Proof.Machine.execFcvtBfF h d a fm s
  | .fcvtFH h d a fm => Sys2Proof.Machine.execFcvtFH h d a fm s
  | .fcvtFBf h d a fm => Sys2Proof.Machine.execFcvtFBf h d a fm s
  | .fcvtIF h d a fm => Sys2Proof.Machine.execFcvtIF h d a fm s
  | .fcvtUF h d a fm => Sys2Proof.Machine.execFcvtUF h d a fm s
  | .fcvtFI h d a fm => Sys2Proof.Machine.execFcvtFI h d a fm s
  | .fcvtFU h d a fm => Sys2Proof.Machine.execFcvtFU h d a fm s
  | .fcvtFL h d a fm => Sys2Proof.Machine.execFcvtFL h d a fm s
  | .frint h d a fm => Sys2Proof.Machine.execFrint h d a fm s
  | .fcmp h pd cond a b fm => Sys2Proof.Machine.execFcmp h pd cond a b fm s
  | .fclass h d a fm => Sys2Proof.Machine.execFclass h d a fm s
  | .fabs h d a fi fo => Sys2Proof.Machine.execFabs h d a fi fo s
  | .fneg h d a fi fo => Sys2Proof.Machine.execFneg h d a fi fo s
  | .fcopysign h d a b fi fo => Sys2Proof.Machine.execFcopysign h d a b fi fo s
  | .hadd2 h d a b hm => Sys2Proof.Machine.execHadd2 h d a b hm s
  | .hmul2 h d a b hm => Sys2Proof.Machine.execHmul2 h d a b hm s
  | .hfma2 h d a b hm => Sys2Proof.Machine.execHfma2 h d a b hm s
  | .fdot2 h d a b hm => Sys2Proof.Machine.execFdot2 h d a b hm s
  | .rcp h d a fi fo => Sys2Proof.Machine.execRcp h d a fi fo s
  | .rsq h d a fi fo => Sys2Proof.Machine.execRsq h d a fi fo s
  | .sqrt h d a fi fo => Sys2Proof.Machine.execSqrt h d a fi fo s
  | .lg2 h d a fi fo => Sys2Proof.Machine.execLg2 h d a fi fo s
  | .ex2 h d a fi fo => Sys2Proof.Machine.execEx2 h d a fi fo s
  | .sin h d a fi fo => Sys2Proof.Machine.execSin h d a fi fo s
  | .cos h d a fi fo => Sys2Proof.Machine.execCos h d a fi fo s
  | .tanh h d a fi fo => Sys2Proof.Machine.execTanh h d a fi fo s
  | .xshuf h d a b f => Sys2Proof.Machine.execXshuf h d a b f s
  | .xshufi h d a imm f => Sys2Proof.Machine.execXshufi h d a imm f s
  | .xvote h d a imm => Sys2Proof.Machine.execXvote h d a imm s
  | .xballot h d a => Sys2Proof.Machine.execXballot h d a s
  | .xmatch h d a f => Sys2Proof.Machine.execXmatch h d a f s
  | .xcompact h d a b f => Sys2Proof.Machine.execXcompact h d a b f s
  | .xred h d a imm => Sys2Proof.Machine.execXred h d a imm s
  | .xscan h d a imm f => Sys2Proof.Machine.execXscan h d a imm f s
  | .xgath h d a b f => Sys2Proof.Machine.execXgath h d a b f s
  | .permb h d a b f => Sys2Proof.Machine.execPermb h d a b f s
  | .xrank h d a imm => Sys2Proof.Machine.execXrank h d a imm s
  | .regroup h a => Sys2Proof.Machine.execRegroup h a s
  | .rstep h d => Sys2Proof.Machine.execRstep h d s
  | .join h => Sys2Proof.Machine.execJoin h s
  | .rjoin h d => Sys2Proof.Machine.execRjoin h d s
  | .endp h a => Sys2Proof.Machine.execEndp h a s
  | .forkr h vs off => Sys2Proof.Machine.execForkr h vs off s
  | .dbnz h vs off => Sys2Proof.Machine.execDbnz h vs off s
  | .ldB h d base off => Sys2Proof.Machine.execLdB h d base off s
  | .ldBu h d base off => Sys2Proof.Machine.execLdBu h d base off s
  | .ldH h d base off => Sys2Proof.Machine.execLdH h d base off s
  | .ldHu h d base off => Sys2Proof.Machine.execLdHu h d base off s
  | .ldW h d base off => Sys2Proof.Machine.execLdW h d base off s
  | .ldD h d base off => Sys2Proof.Machine.execLdD h d base off s
  | .ldQ h d base off => Sys2Proof.Machine.execLdQ h d base off s
  | .ldT h d base off => Sys2Proof.Machine.execLdT h d base off s
  | .stB h vs base off => Sys2Proof.Machine.execStB h vs base off s
  | .stH h vs base off => Sys2Proof.Machine.execStH h vs base off s
  | .stW h vs base off => Sys2Proof.Machine.execStW h vs base off s
  | .stD h vs base off => Sys2Proof.Machine.execStD h vs base off s
  | .stQ h vs base off => Sys2Proof.Machine.execStQ h vs base off s
  | .stT h vs base off => Sys2Proof.Machine.execStT h vs base off s
  | .atom h d a w op sc => Sys2Proof.Machine.execAtom h d a w op sc s
  | .acas h d a w sc => Sys2Proof.Machine.execAcas h d a w sc s
  | .fred h vs a op fmt sc => Sys2Proof.Machine.execFred h vs a op fmt sc s
  | .acq h d a sc => Sys2Proof.Machine.execAcq h d a sc s
  | .rel h vs a sc => Sys2Proof.Machine.execRel h vs a sc s
  | .fence h sc => Sys2Proof.Machine.execFence h sc s
  | .cflush h sc a b => Sys2Proof.Machine.execCflush h sc a b s
  | .cinv h sc a b => Sys2Proof.Machine.execCinv h sc a b s
  | .pref h lv a => Sys2Proof.Machine.execPref h lv a s
  | .qpush h k a => Sys2Proof.Machine.execQpush h k a s
  | .qpop h d k => Sys2Proof.Machine.execQpop h d k s
  | .qstat h d k => Sys2Proof.Machine.execQstat h d k s
  | .cpy h a => Sys2Proof.Machine.execCpy h a s
  | .cpyt h vc a mode => Sys2Proof.Machine.execCpyt h vc a mode s
  | .cpyq h a => Sys2Proof.Machine.execCpyq h a s
  | .cpres h a => Sys2Proof.Machine.execCpres h a s
  | .wmrd h d a => Sys2Proof.Machine.execWmrd h d a s
  | .tlreg h d a => Sys2Proof.Machine.execTlreg h d a s
  | .tlrfl h d a => Sys2Proof.Machine.execTlrfl h d a s
  | .tlunreg h a => Sys2Proof.Machine.execTlunreg h a s
  | .lseg h k a => Sys2Proof.Machine.execLseg h k a s
  | .ixjob h vc a => Sys2Proof.Machine.execIxjob h vc a s
  | .ixres h vc a => Sys2Proof.Machine.execIxres h vc a s
  | .nbinit h a k => Sys2Proof.Machine.execNbinit h a k s
  | .nbarr h k => Sys2Proof.Machine.execNbarr h k s
  | .nbwait h k => Sys2Proof.Machine.execNbwait h k s
  | .nbsync h k => Sys2Proof.Machine.execNbsync h k s
  | .gbar h => Sys2Proof.Machine.execGbar h s
  | .rginit h a k => Sys2Proof.Machine.execRginit h a k s
  | .rgres h d k => Sys2Proof.Machine.execRgres h d k s
  | .rgpub h a k => Sys2Proof.Machine.execRgpub h a k s
  | .rgwait h d k => Sys2Proof.Machine.execRgwait h d k s
  | .rgrel h a k => Sys2Proof.Machine.execRgrel h a k s
  | .chunk h d a => Sys2Proof.Machine.execChunk h d a s
  | .mstream h d a => Sys2Proof.Machine.execMstream h d a s
  | .launch h d a b => Sys2Proof.Machine.execLaunch h d a b s
  | .rsplit h d a => Sys2Proof.Machine.execRsplit h d a s
  | .rmerge h d a => Sys2Proof.Machine.execRmerge h d a s
  | .rbind h d a b => Sys2Proof.Machine.execRbind h d a b s
  | .rquery h d a qw => Sys2Proof.Machine.execRquery h d a qw s
  | .rset h d a b => Sys2Proof.Machine.execRset h d a b s
  | .rinv h d a b => Sys2Proof.Machine.execRinv h d a b s
  | .rwait h d a => Sys2Proof.Machine.execRwait h d a s
  | .rcompact h d a b => Sys2Proof.Machine.execRcompact h d a b s
  | .mldb bslot off => Sys2Proof.Machine.execMldb bslot off s
  | .mma r rnd acc bslot aoff coff => Sys2Proof.Machine.execMma r rnd acc bslot aoff coff s
  | .mmas r rnd acc bslot aoff coff sp => Sys2Proof.Machine.execMmas r rnd acc bslot aoff coff sp s
  | .mmap r rnd acc bslot aoff coff => Sys2Proof.Machine.execMmap r rnd acc bslot aoff coff s
  | .mclr acc coff => Sys2Proof.Machine.execMclr acc coff s
  | .mout coff acc off => Sys2Proof.Machine.execMout coff acc off s
  | .marrive nb => Sys2Proof.Machine.execMarrive nb s
  | .streamMwait nb => Sys2Proof.Machine.execStreamMwait nb s
  | .mloop count off => Sys2Proof.Machine.execMloop count off s
  | .mjmp off => Sys2Proof.Machine.execMjmp off s
  | .serviceRestart k => Sys2Proof.Machine.execServiceRestart k s
  | .longResultReturn k => Sys2Proof.Machine.execLongResultReturn k s
  | .fetchAgentDelivery die ctx blk => Sys2Proof.Machine.execFetchAgentDelivery die ctx blk s
  | .heartbeatTick r => Sys2Proof.Machine.execHeartbeatTick r s
  | .logicalTick u => Sys2Proof.Machine.execLogicalTick u s
  | .promotion u => Sys2Proof.Machine.execPromotion u s
  | .gangAssemblerTake die => Sys2Proof.Machine.execGangAssemblerTake die s
  | .spawnGangTimeout die k => Sys2Proof.Machine.execSpawnGangTimeout die k s
  | .spawnGangPlace die k sp => Sys2Proof.Machine.execSpawnGangPlace die k sp s
  | .regroupTimeout sp k => Sys2Proof.Machine.execRegroupTimeout sp k s
  | .crewWideFlush k => Sys2Proof.Machine.execCrewWideFlush k s
  | .timerTrap g => Sys2Proof.Machine.execTimerTrap g s
  | .waitcTimeout k => Sys2Proof.Machine.execWaitcTimeout k s
  | .memoryAccessPerform k => Sys2Proof.Machine.execMemoryAccessPerform k s
  | .routerMerge k l => Sys2Proof.Machine.execRouterMerge k l s
  | .planerBlockMove k => Sys2Proof.Machine.execPlanerBlockMove k s
  | .copyStart k => Sys2Proof.Machine.execCopyStart k s
  | .copyLand k n => Sys2Proof.Machine.execCopyLand k n s
  | .indexJobStart k => Sys2Proof.Machine.execIndexJobStart k s
  | .indexElement k => Sys2Proof.Machine.execIndexElement k s
  | .contextSave vt => Sys2Proof.Machine.execContextSave vt s
  | .forcedSave vt => Sys2Proof.Machine.execForcedSave vt s
  | .contextRestore vt sp => Sys2Proof.Machine.execContextRestore vt sp s
  | .recordAdmission q => Sys2Proof.Machine.execRecordAdmission q s
  | .crewPlace k sp => Sys2Proof.Machine.execCrewPlace k sp s
  | .regionComplete r => Sys2Proof.Machine.execRegionComplete r s
  | .tokenAccrual ctx => Sys2Proof.Machine.execTokenAccrual ctx s
  | .functionLevelReset vf => Sys2Proof.Machine.execFunctionLevelReset vf s
  | .powerOn image ports => Sys2Proof.Machine.execPowerOn image ports s
  | .attestationRequest ctx nonce => Sys2Proof.Machine.execAttestationRequest ctx nonce s
  | .linkCrcError port => Sys2Proof.Machine.execLinkCrcError port s
  | .linkRequestTimeout k => Sys2Proof.Machine.execLinkRequestTimeout k s
  | .hostWindowAccess acc => Sys2Proof.Machine.execHostWindowAccess acc s
  | .hostBar2Access acc => Sys2Proof.Machine.execHostBar2Access acc s
  | .sramError site single => Sys2Proof.Machine.execSramError site single s
  | .powerThrottle on => Sys2Proof.Machine.execPowerThrottle on s
  | .thermalThrottle die temp => Sys2Proof.Machine.execThermalThrottle die temp s
  | .thermalRecovery die temp => Sys2Proof.Machine.execThermalRecovery die temp s
  | .thermalShutdown die temp => Sys2Proof.Machine.execThermalShutdown die temp s
  | .registerWrite fn off val => Sys2Proof.Machine.execRegisterWrite fn off val s
  | .illegalEncoding w => Sys2Proof.Machine.execIllegalEncoding w s
  | .illegalStreamWord w => Sys2Proof.Machine.execIllegalStreamWord w s
  | .mnop => Sys2Proof.Machine.execMnop s
  | .mend => Sys2Proof.Machine.execMend s
  | .load => Sys2Proof.Machine.execLoad s
  | .loadWithOverride => Sys2Proof.Machine.execLoadWithOverride s
  | .unload => Sys2Proof.Machine.execUnload s
  | .forcedUnload => Sys2Proof.Machine.execForcedUnload s
  | .create => Sys2Proof.Machine.execCreate s
  | .destroy => Sys2Proof.Machine.execDestroy s
  | .setacc => Sys2Proof.Machine.execSetacc s
  | .installKey => Sys2Proof.Machine.execInstallKey s
  | .resume => Sys2Proof.Machine.execResume s
  | .kill => Sys2Proof.Machine.execKill s
  | .setgale => Sys2Proof.Machine.execSetgale s

end Sys2Proof.Machine
end

