-- ==== Sys2Proof/Machine/Look.lean ====
section
/-! DEFINITION. How a gang takes an issue opportunity (R20, R21, R26, R27, R109, R148, R149, R178, R262, R317, R322): its runs, which of
them can issue, and the group that is opened. The words of a group are judged before any of them acts: each is tried on the machine
before the group by its own meaning. -/

namespace Sys2Proof.Machine

/-! ### Packets (R20, R21, R355) -/

/-- What the instruction cache holds for a packet. -/
inductive Packet where
  | words (ws : List Word)
  | fault (t : Trap)
  | missing
deriving DecidableEq, Repr
def Mach.packetAt (m : Mach) (sp ctx a : Nat) : Packet :=
  match m.icacheAt sp ctx a with
  | some bs => .words (packetWords bs)
  | none => match (m.spindle sp).ifault.find? (fun x => x.1 == ctx && x.2.1 == a) with
    | some x => .fault x.2.2
    | none => .missing
/-- Ask the fetch agent for a packet. -/
def Mach.askPacket (m : Mach) (sp ctx a : Nat) : Mach :=
  if (m.spindle sp).imiss.contains (ctx, a) then m else m.modSp sp (fun s => { s with imiss := s.imiss ++ [(ctx, a)] })
/-- A fetch fault that has been reported is gone. -/
def Mach.dropFault (m : Mach) (sp ctx a : Nat) : Mach :=
  m.modSp sp (fun s => { s with ifault := s.ifault.filter (fun x => !(x.1 == ctx && x.2.1 == a)) })
/-- Two words of one pipe in a group. -/
def samePipe : List Word → Bool
  | [] => false
  | w :: r => ((pipeOf w).isSome && r.any (fun v => pipeOf v == pipeOf w)) || samePipe r
/-- The groups of some words of a packet. -/
def groupsOf : List Word → List (List Word)
  | [] => []
  | w :: r =>
    if (hdrOf w).c then
      match groupsOf r with
      | [] => [[w]]
      | g :: gs => (w :: g) :: gs
    else [w] :: groupsOf r
/-- PACKET: C = 1 in slot 2, or a group with two words of one pipe (R21, R314). -/
def packetTrap (ws : List Word) : Option Trap :=
  if (hdrOf (ws.getD 2 0)).c then some { cause := .packet, info := 0 }
  else if (groupsOf ws).any samePipe then some { cause := .packet, info := 1 }
  else none

/-! ### Judging a group -/

/-- The outcome of one word tried for some lanes: it stalls, leaving them so; or it goes on. -/
inductive Probe where
  | stall (st : Stat) (m : Mach)
  | ok (g : Group)
/-- Try a word in slot k for some lanes: with its chain bit set, so that its group stays open. -/
def probe (m : Mach) (gang : Nat) (us : List Nat) (q : Pos) (k : Nat) (w : Word) : Probe :=
  match exec (issueOf (w ||| 0x80000000#32)) ⟨m, .group { gang := gang, run := us, pos := q, slot := k, rest := [w], pre := m }⟩ with
  | .next s => match s.act with
    | .group g => .ok g
    | _ => .stall (s.m.thr (us.headD 0)).stat s.m
  | _ => .stall .stalled m
/-- A barrier wait, whose first attempt is recorded even when it stalls (R262, R265). -/
def isWait : Instr → Bool
  | .nbwait _ _ => true
  | .nbsync _ _ => true
  | .gbar _ => true
  | _ => false
/-- The word itself where %trapi is to hold it (R314). -/
def fixInfo (w : Word) (t : Trap) : Trap :=
  match t.cause with
  | .illegal => { t with info := w }
  | .priv => { t with info := w }
  | .determ => { t with info := w }
  | _ => t
/-- Two words of a group that name one destination register: ILLEGAL with the later word (R11). -/
def clashes (earlier : List Word) (w : Word) : Bool :=
  (Instr.dests (issueOf w)).any (fun r => earlier.any (fun v => (Instr.dests (issueOf v)).contains r))
/-- An RSET, whose lanes act in turn, each on what the lower ones have done (R238). -/
def isRset : Instr → Bool
  | .rset _ _ _ _ => true
  | _ => false
/-- A trap that judging a word finds for a lane, and whether the word is an RSET. -/
abbrev Found := Nat × Trap × Bool
/-- The traps that judging some words finds, and the lanes left; or a stall. Words after TRAP are not reached. The run of an MWAIT is what
the words before it have left, also where a lane meets a cause at a later one (R178) (DESIGN CHOICE, log 108). -/
def judgeWords (m : Mach) (gang : Nat) (q : Pos) (earlier : List Word) : List Nat → List (Nat × Word) → Except Stat (List Nat × List Found)
  | us, [] => .ok (us, [])
  | us, (k, w) :: r =>
    if us.isEmpty then .ok (us, [])
    else if clashes earlier w then .ok ([], us.map (fun u => (u, { cause := .illegal, info := w }, false)))
    else match probe m gang us q k w with
    | .stall st _ =>
      if isWait (issueOf w) then judgeWords m gang q (earlier ++ [w]) us r
      else if st = .joinWait then .error st
      else match judgeWords m gang q (earlier ++ [w]) us r with
      | .error .joinWait => .error .joinWait
      | _ => .error st
    | .ok g =>
      let ts := (g.traps.filter (fun x => x.2.cause != .user)).map (fun x => (x.1, fixInfo w x.2, isRset (issueOf w)))
      let us' := us.filter (fun u => !ts.any (fun x => x.1 == u))
      if g.traps.any (fun x => x.2.cause == .user) then .ok (us', ts)
      else match judgeWords m gang q (earlier ++ [w]) us' r with
      | .error st => .error st
      | .ok x => .ok (x.1, ts ++ x.2)
/-- The traps that stand: one that an RSET meets where a lower lane meets a cause too is judged again without that lane, whose RSET does not
act (R26, R238). -/
def standing (m : Mach) (xs : List Found) : List (Nat × Trap) :=
  (xs.filter (fun x => !(x.2.2 && xs.any (fun y => decide ((m.thr y.1).lane < (m.thr x.1).lane))))).map (fun x => (x.1, x.2.1))
/-- Judge until no lane leaves any more: the run of every word is the lanes for which the group completes (R166). -/
def judgeAll (m : Mach) (gang : Nat) (q : Pos) (ws : List (Nat × Word)) (us : List Nat) (ts : List (Nat × Trap)) :
    Nat → Except Stat (List Nat × List (Nat × Trap))
  | 0 => .ok (us, ts)
  | n + 1 =>
    match judgeWords m gang q [] us ws with
    | .error st => .error st
    | .ok x =>
      let new := standing m x.2
      if new.isEmpty then .ok (us, ts) else judgeAll m gang q ws (us.filter (fun u => !new.any (fun y => y.1 == u))) (ts ++ new) n

/-! ### What a run's next group can do -/

inductive Look where
  | missing                          -- its packet is not there, or a promotion holds it
  | stalled (st : Stat)
  | attempt (m : Mach)               -- a barrier wait that is attempted now and then stalls
  | go (m : Mach) (run : List Nat) (traps : List (Nat × Trap)) (words : List Word)
/-- Lanes of a run that a pending timer trap takes (R320, R322) (DEDUCED, log 65). -/
def timerLanes (m : Mach) (gang : Nat) (us : List Nat) : List Nat := if (m.gang gang).tpend then us.filter (fun u => !(m.thr u).h) else []
/-- A run that traps as a whole. -/
def trapRun (us : List Nat) (t : Trap) : List (Nat × Trap) := us.map (fun u => (u, t))
/-- The lanes of a REGROUP that find no entry stay behind with their group: the words chained before it act for them when they enter
(R162, R180, R326) (DESIGN CHOICE, log 100). -/
def trimRegroup (m : Mach) (gang : Nat) (q : Pos) (us : List Nat) : List (Nat × Word) → Mach × List Nat
  | [] => (m, us)
  | (k, w) :: r =>
    if isRegroup (issueOf w) then
      match probe m gang us q k w with
      | .ok g => (m.onRun (us.filter (fun u => !g.run.contains u)) (fun _ t => { t with stat := .stalled }), g.run)
      | _ => (m, us)
    else trimRegroup m gang q us r
/-- Try the barrier wait of a group, if it has one. -/
def tryWait (m : Mach) (gang : Nat) (q : Pos) (us : List Nat) : List (Nat × Word) → Probe
  | [] => .ok { gang := gang, run := us, pos := q, slot := 0, rest := [], pre := m }
  | (k, w) :: r => if isWait (issueOf w) then probe m gang us q k w else tryWait m gang q us r
/-- Whether a run has attempted the group where it stands. -/
def triedAt (m : Mach) (us : List Nat) : Bool := us.all (fun u => (m.thr u).attempt.any (fun a => a.pos == (m.thr u).pos))
/-- Whether the accesses of all words of a group, with those that a watermark holds of its gang already, would be more than 64 (R327). -/
def groupHeld (m : Mach) (gang : Nat) (q : Pos) (us : List Nat) (ws : List (Nat × Word)) : Bool :=
  let g : Group := { gang := gang, run := us, pos := q, slot := 0, rest := [], pre := m }
  heldStall g ((ws.map (fun x => match issueOf x.2 with
    | .cpyt _ _ a mode => recHeld g (cpytReach a mode g)
    | i => if (memOpOf i).isSome then heldLanes g (memReach i g) else 0)).sum)
/-- What the words of a group at q do for some lanes. Where lanes of its REGROUP find no entry, the others are judged again without them:
a cause that an RSET meets behind the RSET of a lane that does not act does not stand (R26, R162, R238). -/
def lookWords (m : Mach) (gang : Nat) (q : Pos) (ws : List (Nat × Word)) (us : List Nat) : Nat → Look
  | 0 => .stalled .stalled
  | n + 1 =>
    match judgeAll m gang q ws us [] 33 with
    | .error st => .stalled st
    | .ok (run, traps) =>
      if run.isEmpty then .go m [] traps (ws.map (·.2))
      else if groupHeld m gang q run ws then .stalled .stalled
      else match tryWait m gang q run ws with
      | .stall st m1 => if triedAt m run then .stalled st else .attempt m1
      | .ok g1 =>
        let x := trimRegroup g1.pre gang q run ws
        let out := run.filter (fun u => !x.2.contains u)
        if out.isEmpty then .go x.1 x.2 traps (ws.map (·.2)) else lookWords x.1 gang q ws (us.filter (fun u => !out.contains u)) n
/-- Look at the next group of some lanes that stand together. -/
def lookFor (m : Mach) (gang : Nat) (us : List Nat) : Look :=
  let g := m.gang gang
  let c := m.ctxOfGang gang
  let q := (m.thr (us.headD 0)).pos
  let gone := us.filter (fun u => (m.thr u).gone)
  if us.any m.heldDet || us.any m.fenced then .missing
  else if !gone.isEmpty then .go m [] (trapRun gone { cause := .codeGone, info := 0 }) []
  else match m.packetAt g.sp c q.pkt.toNat with
  | .missing => .missing
  | .fault t => .go (m.dropFault g.sp c q.pkt.toNat) [] (trapRun us t) []
  | .words ps =>
    match packetTrap ps with
    | some t => .go m [] (trapRun us t) []
    | none => lookWords m gang q ((chainOf (ps.drop q.slot.toNat)).zipIdx.map (fun x => (q.slot.toNat + x.2, x.1))) us 33
/-- Look at the next group of a run. A pending timer trap takes its lanes before the group takes any effect, once the group would issue
(R322). -/
def look (m : Mach) (gang : Nat) (us : List Nat) : Look :=
  let tl := timerLanes m gang us
  match lookFor m gang us with
  | .go m1 run traps ws =>
    if tl.isEmpty then .go m1 run traps ws
    else
      let m0 := m.modGang gang (fun x => { x with tpend := false })
      let ts := trapRun tl { cause := .timer, info := 0 }
      let others := us.filter (fun u => !tl.contains u)
      match if others.isEmpty then .missing else lookFor m0 gang others with
      | .go m2 run2 traps2 ws2 => .go m2 run2 (ts ++ traps2) ws2
      | _ => .go m0 [] ts ws
  | x => x

/-! ### Runs (R148, R178) -/

/-- A lane that belongs to a run: not parked, and not away. -/
def Stat.inRun : Stat → Bool
  | .run => true
  | .stalled => true
  | _ => false
/-- Lanes grouped by position, the lowest first. -/
def byPos (m : Mach) (us : List Nat) : List (List Nat) :=
  (sortBy (fun a b => !Pos.lt b a) (us.map (fun u => (m.thr u).pos)).eraseDups).map (fun q => us.filter (fun u => (m.thr u).pos == q))
/-- The runs of a gang, by rising program counter. -/
def Mach.runs (m : Mach) (gang : Nat) : List (List Nat) := byPos m (((m.gang gang).threads).filter (fun u => (m.thr u).stat.inRun))
/-- Entries parked in a stalled JOIN or RJOIN. -/
def Mach.joinEntries (m : Mach) (gang : Nat) : List (List Nat) :=
  byPos m (((m.gang gang).threads).filter (fun u => (m.thr u).stat == .joinWait))
/-- The mask for which a lane waits: its run's next group holds an MWAIT. -/
def Mach.waitsMask (m : Mach) (u : Nat) : Option Nat :=
  if (m.thr u).stat.inRun then
    (m.nextInstrs u).findSome? (fun i => match i with
      | .mwait _ k => some k.toNat
      | _ => none)
  else none
/-- Release the lanes of each mask whose live lanes all wait, as soon as they do (R178). -/
def releaseMasks (m : Mach) (gang : Nat) : Mach :=
  let g := m.gang gang
  let lanes (k : Nat) : List Nat := (g.threads).filter (fun u => (m.thr u).stat.live &&
    (g.masks.toList.getD k 0).getLsbD (m.thr u).lane)
  let full (k : Nat) : Bool := !(lanes k).isEmpty && (lanes k).all (fun u => m.waitsMask u == some k)
  let add := ((List.range 12).filter full).foldl (fun w k => w ||| m.laneMask (lanes k)) 0
  if add = 0 then m else m.modGang gang (fun x => { x with released := x.released ||| add })
/-- The release of masks that a gang on a spindle owes. -/
def maskStep (m : Mach) (gang : Nat) : Option Mach :=
  if (m.gang gang).life != .live || (m.gang gang).masks.toList.all (· == 0) then none
  else if ((releaseMasks m gang).gang gang).released == (m.gang gang).released then none
  else some (releaseMasks m gang)
/-- Lanes parked in JOIN or RJOIN whose wait has ended are released (R146). -/
def releaseJoins (m : Mach) (gang : Nat) : Mach :=
  (m.joinEntries gang).foldl (fun x us =>
    match look x gang us with
    | .stalled _ => x
    | .missing => x
    | _ => x.onRun us (fun _ t => { t with stat := .run })) m
/-- Ask for a packet that the spindle does not have. -/
def Mach.askMissing (m : Mach) (sp ctx a : Nat) : Mach := if m.packetAt sp ctx a = .missing then m.askPacket sp ctx a else m
/-- The target that the spindle prefetches for a run before a packet: of a conditional BRA, or a DBNZ, in slot 0 that does not lie before
it (R136); a YCHK is no conditional BRA here (DESIGN CHOICE, log 98). -/
def prefetchOf (q : Pos) (w : Word) : Option Nat :=
  let back (off : BitVec 18) : Option Nat :=
    let t := (relTarget q off.toInt).toNat
    if t ≤ q.pkt.toNat then some t else none
  match issueOf w with
  | .bra _ cc _ off => if cc.extractLsb' 0 3 = 7#3 then none else back off
  | .dbnz _ _ off => back off
  | _ => none
/-- Ask for the packets that runs miss, and for those that they may branch back to, at the gang's issue turn (R136)
(DESIGN CHOICE, log 98). -/
def askRuns (m : Mach) (gang : Nat) : Mach :=
  let sp := (m.gang gang).sp
  let c := m.ctxOfGang gang
  ((m.runs gang) ++ (m.joinEntries gang)).foldl (fun x us =>
    let q := (m.thr (us.headD 0)).pos
    match x.packetAt sp c q.pkt.toNat with
    | .missing => x.askPacket sp c q.pkt.toNat
    | .words ws => if q.slot = 0 then (prefetchOf q (ws.headD 0)).elim x (x.askMissing sp c) else x
    | .fault _ => x) m

/-! ### Quadrants and pipes (R20, R88, R150, R167) -/

/-- The quadrant of a gang slot (DESIGN CHOICE, log 86). -/
def Gang.quad (g : Gang) : Nat := g.slot / 16
def Pipe.num : Pipe → Nat
  | .ctl => 0
  | .alu => 1
  | .fpu => 2
  | .xln => 3
  | .mem => 4
  | .eng => 5
/-- Cycles for which a word occupies its pipe. -/
def pipeTime (w : Word) : Nat :=
  if majorOf w = 0x17 then 4
  else match issueOf w with
  | .xrank _ _ _ _ => 2
  | _ => 1
/-- Whether the pipe of a word takes a word of a gang in this cycle. -/
def Mach.pipeFree (m : Mach) (g : Gang) (w : Word) : Bool :=
  match pipeOf w with
  | none => true
  | some p => !(m.spindle g.sp).busy.any (fun x => x.1 == g.quad && x.2.1 == p.num && decide (m.clock < x.2.2))
/-- The words of a group that issues occupy the pipes of their quadrant. -/
def Mach.takePipes (m : Mach) (gang : Nat) (ws : List Word) : Mach :=
  let g := m.gang gang
  m.modSp g.sp (fun s => { s with
    busy := s.busy.filter (fun x => decide (m.clock < x.2.2)) ++
      ws.filterMap (fun w => (pipeOf w).map (fun p => (g.quad, p.num, m.clock + BitVec.ofNat 64 (pipeTime w)))) })

/-! ### The issue rule (R149) -/

/-- A run that a pick may choose, with what its group does. -/
def Look.issues : Look → Bool
  | .attempt _ => true
  | .go _ _ _ _ => true
  | _ => false
/-- Whether its words have their pipes; a group that only traps needs none. -/
def Look.free (m : Mach) (g : Gang) : Look → Bool
  | .go _ run _ ws => run.isEmpty || ws.all (m.pipeFree g)
  | _ => true
/-- The skip count and the YIELD mark of a run (R149): a run that has merged from marked and unmarked lanes is not marked (DESIGN CHOICE,
log 80). -/
def Mach.skipOf (m : Mach) (us : List Nat) : Nat := us.foldl (fun n u => max n (m.thr u).skip) 0
def Mach.yielded (m : Mach) (us : List Nat) : Bool := us.all (fun u => (m.thr u).yield)
/-- The run that issues: the lowest starved one, else the lowest one, leaving out YIELDed runs while others are there; among YIELDed runs
alone the lowest (DESIGN CHOICE, log 80). -/
def pickRun (m : Mach) (cands : List (List Nat)) : Option (List Nat) :=
  match cands.find? (fun us => decide (64 ≤ m.skipOf us)) with
  | some us => some us
  | none => match cands.find? (fun us => !m.yielded us) with
    | some us => some us
    | none => cands.head?
/-- Mark the runs whose groups stall. -/
def markStalls (m : Mach) (gang : Nat) : Mach :=
  (m.runs gang).foldl (fun x us =>
    match look x gang us with
    | .stalled st => x.onRun us (fun _ t => { t with stat := st })
    | _ => x) m
/-- The group of a picked run opens: its lanes' stalls are over, and its first word is to execute. A group that only traps ends at
once. -/
def openRun (m : Mach) (gang : Nat) (us : List Nat) : State :=
  match look m gang us with
  | .go m1 run traps ws =>
    let q := (m.thr (us.headD 0)).pos
    let m2 := (if run.isEmpty then m1 else m1.takePipes gang ws).onRun us (fun u t =>
      if run.contains u || traps.any (fun x => x.1 == u) then { t with stat := .run } else t)
    let g : Group := { gang := gang, run := run, pos := q, slot := q.slot.toNat, rest := ws, pre := m2, traps := traps,
                       attempted := ws.any (fun w => isWait (issueOf w)) }
    if run.isEmpty then ⟨closeGroup { g with slot := q.slot.toNat + ws.length - 1 } m2, .idle⟩ else ⟨m2, .group g⟩
  | .attempt m1 => ⟨m1, .idle⟩
  | _ => ⟨m, .idle⟩
/-- Before a gang picks: waits end, packets are asked for, stalls are marked. -/
def prepare (m : Mach) (gang : Nat) : Mach := markStalls (askRuns (releaseJoins m gang) gang) gang
/-- The candidates of R149. -/
def candidates (m : Mach) (gang : Nat) : List (List Nat) :=
  (m.runs gang).filter (fun us => (look m gang us).issues && (look m gang us).free m (m.gang gang))
/-- A gang that is on a spindle and has not issued in this cycle (R149, R327, R330). -/
def Mach.able (m : Mach) (gang : Nat) : Bool :=
  let g := m.gang gang
  m.gangs.has gang && g.life == .live && g.issued != some m.clock && !m.stopped gang && !g.reissuing
/-- Cycles since a gang's last issue opportunity; a gang that has had none has waited longest. -/
def Mach.waited (m : Mach) (g : Gang) : Nat :=
  match g.issued with
  | none => 2 ^ 64
  | some c => (m.clock - c).toNat
/-- Whether another gang of its quadrant, whose next group can issue in this cycle, has waited longer (R150). -/
def Mach.mustWait (m : Mach) (gang : Nat) : Bool :=
  let g := m.gang gang
  m.gangs.any (fun y => y.2.sp == g.sp && y.2.quad == g.quad && decide (m.waited g < m.waited y.2) && m.able y.1 &&
    !(candidates (prepare m y.1) y.1).isEmpty)
/-- A gang that may issue in this cycle (R149, R150). -/
def Mach.mayIssue (m : Mach) (gang : Nat) : Bool := m.able gang && !m.mustWait gang
/-- A word that reads a descriptor or record as it issues. -/
def readsNow : Instr → Bool
  | .rset _ _ _ _ => true
  | .tlreg _ _ _ => true
  | .tlrfl _ _ _ => true
  | .ixjob _ _ _ => true
  | .ixres _ _ _ => true
  | .launch _ _ _ _ => true
  | _ => false
/-- Whether the next group of a run reads one. -/
def runLoads (m : Mach) (us : List Nat) : Bool := (m.nextInstrs (us.headD 0)).any readsNow
/-- Whether the group that a gang would issue now does. -/
def loadsRecord (m : Mach) (gang : Nat) : Bool := m.mayIssue gang && (pickRun m (candidates m gang)).any (runLoads m)
/-- An issue opportunity of a gang, which the first attempt of a barrier wait uses too (DESIGN CHOICE, log 105). A record that a link has not
delivered for too long is lost to its group (R362). -/
def issueTurn (m0 : Mach) (gang : Nat) : State :=
  let m := prepare m0 gang
  let cs := candidates m gang
  match pickRun m cs with
  | none => ⟨m, .idle⟩
  | some us =>
    let late := if runLoads m us then (m.gang gang).recOut else 0
    let m1 := (m.onRun us (fun _ t => { t with skip := 0, yield := false })).modGang gang (fun x =>
      { x with issued := some m.clock, recOut := if runLoads m us then 0 else x.recOut })
    let others := (cs.filter (fun r => r != us)).flatten
    openRun ((m1.onRun others (fun _ t => { t with skip := t.skip + 1 })).after late) gang us

end Sys2Proof.Machine
end

