-- ==== Sys2Proof/Machine/Turns.lean ====
section
/-! DEFINITION. What the device does between groups: steps that are owed at once, the passing of cycles (R3, R322), what caches do by
themselves (R210, R211, R298), and who moves next (DESIGN CHOICE, log 1). -/

namespace Sys2Proof.Machine

/-! ### Owed steps -/

/-- The first that applies. -/
def firstSome (f : Nat → Option Mach) : List Nat → Option Mach
  | [] => none
  | x :: r => match f x with
    | some m => some m
    | none => firstSome f r
/-- A condition, and what is owed when it holds. -/
def onlyIf (b : Bool) (m : Mach) : Option Mach := if b then some m else none
/-- Threads in the order of their gangs and lanes, in which promotions of one moment make their requests (R158) (DEDUCED, log 44). -/
def dueThreads (m : Mach) : List Nat :=
  ((sortBy (fun a b => decide (a.2.gang * 32 + a.2.lane ≤ b.2.gang * 32 + b.2.lane)) (m.threads.filter (fun x => x.2.due && x.2.stat.live)))).map (·.1)
/-- Reissue a restored gang's accesses, where some can go (R330). -/
def reissueStep (m : Mach) (g : Nat) : Option Mach :=
  if !(m.gang g).reissuing then none
  else
    let es := (m.gang g).replay
    let m1 := reissue0 m g es
    if (m1.gang g).replay = es then none else some (renumber m1 g (fun e => !es.any (fun y => y.f && y.seq == e.seq)))
/-- A thread that leaves its run once its pending set is empty (R24, R111, R113, R125, R180, R318), its accesses done where it ends a root
frame. A report that is due is made first, and the thread goes on where it would have (R324). The threads of a REGROUP enter the
regrouping table in ascending lane order, each once it finds an entry, when the pending sets of all of them are empty (R162, R180); the
lanes of an ERET return together (R321) (DEDUCED, log 41). -/
def leaveStep (m : Mach) (u : Nat) : Option Mach :=
  let t := m.thr u
  let g := t.gang
  match t.stat with
  | .leaving l =>
    if m.waiting u || !m.onSpindle u || (match l with | .root _ => m.busy u | _ => false) then none
    else match t.deferred, l with
    | some d, .regroup _ _ => some (m.setThr u { t with stat := .trapping d.trap (resumeWord t.pos 0 d.trap), deferred := none })
    | some d, .exit => some (m.setThr u { t with stat := .trapping d.trap (resumeWord t.pos 0 d.trap), deferred := none })
    | some d, .yield _ => some (m.setThr u { t with stat := .trapping d.trap (resumeWord t.pos 0 d.trap), deferred := none })
    | some d, .root _ => some (m.setThr u { t with stat := .trapping d.trap (resumeWord t.pos 0 d.trap), deferred := none })
    | _, .eret us =>
      let vs := us.filter (fun v => (m.thr v).stat == .leaving (.eret us))
      if vs.any m.waiting || vs.any m.eretHeld then none else some (eretLanes m g vs)
    | none, .exit => some (endLanes m g [u])
    | none, .yield save => some (m.setThr u { t with pend := 0, yield := !save, stat := if save then .yieldWait else .run })
    | none, .root x => some (endLanes (endRoot (m.fenceL1 (m.gang g).sp (m.ctxOfGang g) 3) t x) g [u])
    | none, .regroup key us =>
      let sp := (m.gang g).sp
      let x := tableFill (m.spindle sp).regroup ((m.gang g).crew.getD 0) m.clock [(u, key)]
      if x.2 = 0 || m.rgNext us != some u then none else some (goToTable m g sp [u] x.1 t.pos)
  | _ => none
/-- Victims on spindles. -/
def victims (m : Mach) : List Victim :=
  (m.crews.filter (fun c => c.2.life == .live)).map (fun c =>
      if (m.region c.2.region).rcb.cores then .region c.2.region else .crew c.1) ++
    (m.gangs.filter (fun g => g.2.life == .live && g.2.crew.isNone)).map (fun g => .gang g.1)
def firstVictim (f : Victim → Option Mach) : List Victim → Option Mach
  | [] => none
  | v :: r => match f v with
    | some m => some m
    | none => firstVictim f r
/-- The entries of a spindle's table that become due, and those that have been (R163, R181). -/
def tableStep (m : Mach) (sp : Nat) : Option Mach :=
  (markDue m sp).or (firstSome (releaseAt m sp) (List.range (m.spindle sp).regroup.length))
/-- What follows at once for threads, gangs, crews and regions that have ended or trapped. -/
def owedEnds (m : Mach) : Option Mach :=
  match (firstSome (removeFor m) m.threads.nums).or (firstSome (leaveStep m) m.threads.nums) with
  | some x => some x
  | none => match postNext m with
    | some x => some x
    | none => match firstSome (fun g => onlyIf (m.gangOver g) (endGang m g)) m.gangs.nums with
      | some x => some x
      | none => match firstSome (fun k => onlyIf (m.crewOver k) (endCrew m k)) m.crews.nums with
        | some x => some x
        | none => firstSome (regionDone m) m.regions.nums
/-- Whether some assembler owes a join flush. -/
def anyFlush (m : Mach) : Bool := m.dies.any (fun d => d.2.held.any (fun h => !h.released && flushOwed m d.2 h.region))
/-- The trap of a held thread, taken where it stands: a thread in the regrouping table enters the handler there, and runs it once its
entry is released. -/
def Mach.heldTrap (m : Mach) (t : Thread) : Thread :=
  let tr : Trap := { cause := .frame, info := 1 }
  if t.stat = .inTable then
    { (t.takeTrap (m.ctx (m.ctxOfRegion t.region)).hvec tr (resumeWord t.pos 0 tr)) with stat := .inTable, tried := false }
  else { t with stat := .trapping tr (resumeWord t.pos 0 tr) }
/-- When every live thread of a deterministic region is held, each traps with FRAME (R161); without a handler the domain goes (R320). -/
def trapAllHeld (m : Mach) (r : Nat) : Option Mach :=
  let us := (m.threads.filter (fun x => x.2.region == r && x.2.stat.live)).map (·.1)
  let x := m.region r
  if !x.rcb.det || us.isEmpty || !us.all m.heldDet then none
  else if (m.ctx x.ctx).hvec = 0 then some (removeDomain m x.ctx x.rcb.fdom Cause.frame.code)
  else some (m.onRun us (fun _ t => m.heldTrap t))
/-- What follows at once for promotions. -/
def owedPromotions (m : Mach) : Option Mach :=
  match (firstSome (logicalDue m) m.threads.nums).or (firstSome (promoteFence m) m.threads.nums) with
  | some x => some x
  | none => match firstSome (promoteThr m) (dueThreads m) with
    | some x => some x
    | none => if anyFlush m then some (joinFlush m) else firstSome (trapAllHeld m) m.regions.nums
/-- What follows at once from the clock. -/
def owedClock (m : Mach) : Option Mach :=
  match firstSome (fun r => onlyIf (tickDue m r) (tickRegion m r)) m.regions.nums with
  | some x => some x
  | none => match firstSome (timerPend m) m.gangs.nums with
    | some x => some x
    | none => match firstSome (accrue m) m.ctxs.nums with
      | some x => some x
      | none => match firstSome (waitcEnd m) (m.results.map (·.seq)) with
        | some x => some x
        | none => firstSome (fun d => firstSome (releaseHeld m d) ((m.die d).held.map (·.id))) m.dies.nums
/-- The lowest port whose failed training is not yet in the fault ring is reported there, once the ring is enabled (R373). -/
def postPorts (m : Mach) : Option Mach :=
  if !m.faultQ.en then none
  else ((List.range 12).find? m.untold.getLsbD).map (fun p =>
    { postFault m p 0 0 0 0 0 0 m.subs with subs := m.subs + 1, subsPosted := m.subsPosted + 1, untold := m.untold &&& ~~~(1#12 <<< p) })
/-- What follows at once for tables, saves, restores and commands. -/
def owedRest (m : Mach) : Option Mach :=
  match (firstSome (maskStep m) m.gangs.nums).or (firstSome (tableStep m) m.spindles.nums) with
  | some x => some x
  | none => match firstSome (flushCrew m) m.crews.nums with
    | some x => some x
    | none => match firstVictim (forcedSave m) (victims m) with
      | some x => some x
      | none => match ((firstSome (abandonAfter m) m.threads.nums).or (firstSome (reissueStep m) m.gangs.nums)).or
          (firstSome (syncFrames m) m.threads.nums) with
        | some x => some x
        | none => match acceptFirst m false with
          | some x => some x
          | none => (postPending m).or (postPorts m)
/-- Steps that follow at once from what has happened, the first that is owed. -/
def owed (m : Mach) : Option Mach :=
  match owedEnds m with
  | some x => some x
  | none => match owedPromotions m with
    | some x => some x
    | none => match owedClock m with
      | some x => some x
      | none => owedRest m

/-! ### A cycle (R3, R322) -/

/-- A cycle passes: %clock counts it, and so does %wtime of every gang that is held on a spindle (DESIGN CHOICE, log 72). -/
def tickClock (m : Mach) : Mach :=
  { m with clock := m.clock + 1,
           gangs := m.gangs.mapV (fun _ g => if g.life = .live then { g with wtime := g.wtime + 1 } else g) }

/-! ### Caches (R210, R211, R298) -/

/-- A scale byte that a CPYQ is still to write. -/
def Copy.owesScale (c : Copy) (va : Nat) : Bool :=
  match c.kind with
  | .quant src sfmt dst sc lim fmt blk n =>
    let q : Quant := ⟨src, sfmt, dst, sc, lim, fmt, blk, n / max blk 1⟩
    let staged := c.done / max q.codeBytes 1 + (if c.buf.isEmpty then 0 else 1)
    decide (sc + staged ≤ va) && decide (va < min lim (sc + q.blocks))
  | _ => false
/-- A byte of a destination at or above the watermark of a command of the spindle (R298). -/
def fillBarred (m : Mach) (sp ctx va : Nat) : Bool :=
  m.crews.any (fun c => c.2.sp == sp && m.ctxOfRegion c.2.region == ctx && (m.marks c.1).any (fun k => k.holds va)) ||
    m.copies.any (fun c => c.2.sp == sp && m.ctxOfRegion (m.crew c.2.crew).region == ctx && c.2.owesScale va)
/-- Whether an L1 may hold a byte, and it reads without error. -/
def fills (m : Mach) (sp : Nat) (l : Loc) : Bool :=
  l.cache == .l1l2 && (m.l1Find sp l).isNone && !m.homeErr l &&
    match l.sto with
    | .dram => true
    | .remote _ => true
    | _ => false
/-- A fill of the sector of an address of a context into an L1 of 256 KiB (R2), where no byte of it is barred (DEDUCED, log 67). -/
def l1Fill (m : Mach) (sp ctx va : Nat) : Mach :=
  let vas := span (va / 32 * 32) 32
  match m.reach ⟨ctx, none, sp, false⟩ .read vas none with
  | .ok ls =>
    if ls.all (fills m sp) && !vas.any (fillBarred m sp ctx) && decide ((m.spindle sp).l1.length + 32 ≤ 262144) then
      m.modSp sp (fun s => { s with l1 := ls.map (fun l => ⟨l, m.homeGet l, 0⟩) ++ s.l1 })
    else m
  | _ => m
/-- An L1 writes a sector back and drops it. -/
def l1Evict (m : Mach) (sp pa : Nat) : Mach := m.l1Clean sp true (fun x => x.loc.addr / 32 == pa / 32)

/-! ### Accesses that a link does not deliver (R362) -/

/-- What a stream's next word does. -/
def streamNext (m : Mach) (x : Stream) : SRes :=
  match streamFetch m x x.idx with
  | .wait => .stall
  | .bad c => .stop m c
  | .ok bs => streamDo m x (streamIssueOf (BitVec.ofNat 64 (leNat bs)))
/-- Whether a link has something of a stream to deliver: its next word, and once that is there, what the word reads, where nothing on this
device holds the word back. -/
def streamGoes (m : Mach) (x : Stream) : Bool :=
  !x.waitQ && x.post.isNone && if x.got then !tileWaits m x && (match streamNext m x with
    | .stall => false
    | _ => true)
  else match streamFetch m x x.idx with
    | .wait => false
    | _ => true
/-- A cycle in which no link delivers what engines and agents ask for: a step that something on this device holds back has nothing on its
way (R362) (DEDUCED, log 114). -/
def outCycle (m : Mach) : Mach :=
  { m with
    copies := m.copies.mapV (fun k c => if canLand m k then { c with out := c.out + 1 } else c),
    jobs := m.jobs.mapV (fun k j => if (elementStep m k).isSome then { j with out := j.out + 1 } else j),
    streams := m.streams.mapV (fun _ x => if streamGoes m x then { x with out := x.out + 1 } else x),
    gangs := m.gangs.mapV (fun k g => if loadsRecord m k then { g with recOut := g.recOut + 1 } else g),
    pushes := m.pushes.zipIdx.map (fun p => if p.1.far && m.acceptable p.2 then { p.1 with out := p.1.out + 1 } else p.1),
    spindles := m.spindles.mapV (fun sp s => { s with
      missOut := countOut s.missOut s.awaits (fun x => (deliverBlock m (dieOf sp) x.1 x.2).isSome) }),
    queueOut := countOut m.queueOut ((List.range 4096).filterMap (fun q => if (m.queue q).en then some (q, 0) else none))
      (fun y => (admitNext m y.1).isSome),
    planOut := countOut m.planOut ((movingRanges m).map (fun x => (x.1, x.2.base))) (fun y =>
      (List.range (movingRanges m).length).any (fun k => ((movingRanges m)[k]?).any (fun x => x.1 == y.1 && x.2.base == y.2) &&
        (planerStep m k).isSome)) }
/-- A cycle passes, also for each access that a link has not delivered. -/
def passCycle (m : Mach) : Mach := outCycle (linkCycle (tickClock m))

/-! ### Who moves next -/

/-- What a turn leads to: a step that is done, or an instruction that is to execute in a state. -/
inductive Ready where
  | done (s : State)
  | run (i : Instr) (s : State)
/-- A sequencer's turn: its next word is fetched and is to execute; a word that cannot be fetched stops the stream (R272, R274). What a link
has not delivered for too long is lost: the word, or where it has been fetched what it reads (R362). -/
def seqTurn (m : Mach) (k : Nat) : Ready :=
  match m.streams.find k with
  | none => .done ⟨passCycle m, .idle⟩
  | some x =>
    if x.waitQ || x.post.isSome || tileWaits m x then .done ⟨passCycle m, .idle⟩
    else match streamFetch (if x.got then m else m.after x.out) x x.idx with
    | .ok bs => .run (streamIssueOf (BitVec.ofNat 64 (leNat bs))) ⟨m.after x.out, .stream k⟩
    | .bad c => .done ⟨(stopStream m k x c).settle, .idle⟩
    | .wait => .done ⟨passCycle m, .idle⟩
/-- A gang's turn: the first word of the group that opens is to execute. -/
def gangTurn (m : Mach) (g : Nat) : Ready :=
  if !m.mayIssue g then .done ⟨passCycle m, .idle⟩
  else
    let s := issueTurn m g
    match s.act with
    | .group x => .run (issueOf (x.rest.headD 0)) s
    | _ => .done s
/-- Whether a device that is not up takes a turn: only power-on does (R371). -/
def Turn.isPowerOn : Turn → Bool
  | .event (.powerOn _ _) => true
  | _ => false
/-- A turn. -/
def takeTurn (m : Mach) (t : Turn) : Ready :=
  let opt (o : Option Mach) : Ready := .done ⟨o.getD (passCycle m), .idle⟩
  if !m.isUp && !t.isPowerOn then .done ⟨passCycle m, .idle⟩
  else match t with
  | .issue g => gangTurn m g
  | .event i => .run i ⟨m, .idle⟩
  | .seq k => seqTurn m k
  | .cycle => .done ⟨passCycle m, .idle⟩
  | .l1Fill sp ctx va => .done ⟨l1Fill m sp ctx va, .idle⟩
  | .l1Evict sp pa => .done ⟨l1Evict m sp pa, .idle⟩
  | .l2Evict pa => .done ⟨m.l2Clean pa, .idle⟩
  | .typedPart k scale => opt (readPart m k scale)
  | .badCommand r => opt (refuseOp m r)
  | .acceptFar => opt ((acceptFirst m true).map Mach.settle)
  | .barRead fn off => opt (regRead m fn off)
/-- Turns of gangs, sequencers, and accesses on their way. -/
def accessTurns (m : Mach) : List Turn :=
  let reqs := m.reqs.map (·.seq)
  let rets := m.results.map (·.seq)
  m.gangs.nums.map Turn.issue ++ m.streams.nums.map Turn.seq ++ rets.map (fun k => Turn.event (.longResultReturn k)) ++
    rets.map (fun k => Turn.typedPart k true) ++ rets.map (fun k => Turn.typedPart k false) ++
    reqs.map (fun k => Turn.event (.memoryAccessPerform k)) ++ reqs.map (fun k => Turn.typedPart k true) ++
    (reqs ++ rets).map (fun k => Turn.event (.linkRequestTimeout k)) ++
    reqs.flatMap (fun k => reqs.map (fun l => Turn.event (.routerMerge k l)))
/-- Turns of engines, fetch agents, assemblers and the planer. -/
def engineTurns (m : Mach) : List Turn :=
  m.streams.nums.map (fun k => Turn.event (.serviceRestart k)) ++
    m.spindles.flatMap (fun s => s.2.imiss.map (fun x => Turn.event (.fetchAgentDelivery (dieOf s.1) x.1 (blockOf x.2)))) ++
    m.dies.nums.map (fun d => Turn.event (.gangAssemblerTake d)) ++
    m.dies.flatMap (fun d => d.2.held.flatMap (fun h => (List.range 384).map (fun sp => Turn.event (.spawnGangPlace d.1 h.id sp)))) ++
    (List.range (movingRanges m).length).map (fun k => Turn.event (.planerBlockMove k)) ++
    m.copies.nums.map (fun k => Turn.event (.copyStart k)) ++ m.copies.nums.map (fun k => Turn.event (.copyLand k 1)) ++
    m.copies.nums.map (fun k => Turn.event (.copyLand k 64)) ++ m.jobs.nums.map (fun k => Turn.event (.indexJobStart k)) ++
    m.jobs.nums.map (fun k => Turn.event (.indexElement k)) ++ [Turn.acceptFar]
/-- Saved victims. -/
def savedVictims (m : Mach) : List Victim :=
  (m.crews.filter (fun c => c.2.life == .saved)).map (fun c => Victim.crew c.1) ++
    (m.crews.filter (fun c => c.2.life == .saved)).map (fun c => Victim.region c.2.region) ++
    (m.gangs.filter (fun g => g.2.life == .saved && g.2.crew.isNone)).map (fun g => Victim.gang g.1)
/-- Turns of the scheduler. -/
def schedTurns (m : Mach) : List Turn :=
  (victims m).map (fun v => Turn.event (.contextSave v)) ++
    (savedVictims m).flatMap (fun v => (List.range 384).map (fun sp => Turn.event (.contextRestore v sp))) ++
    (List.range 4096).map (fun q => Turn.event (.recordAdmission q)) ++
    (waitingRegions m).flatMap (fun r => (List.range 384).map (fun sp => Turn.event (.crewPlace r sp)))
/-- Turns of the loader and the management processor. -/
def ringTurns : List Turn :=
  [Turn.event .load, Turn.event .loadWithOverride, Turn.event .unload, Turn.event .forcedUnload, Turn.event .create, Turn.event .destroy,
   Turn.event .setacc, Turn.event .installKey, Turn.event .resume, Turn.event .kill, Turn.event .setgale, Turn.badCommand 0,
   Turn.badCommand 1]
/-- Turns of caches: what an L1 or an L2 holds may leave it, and a byte of any range may enter an L1. -/
def cacheTurns (m : Mach) : List Turn :=
  m.spindles.flatMap (fun s => s.2.l1.map (fun x => Turn.l1Evict s.1 x.loc.addr)) ++ m.l2.nums.map Turn.l2Evict ++
    (List.range 384).flatMap (fun sp => m.ctxs.flatMap (fun c => c.2.ranges.map (fun r =>
      Turn.l1Fill sp c.1 (r.base + (m.choose (r.limit - r.base)).1))))
/-- Every turn that the device may take by itself in some state of the machine; one that cannot happen now lets a cycle pass
(DESIGN CHOICE, log 66). -/
def ownTurns (m : Mach) : List Turn := Turn.cycle :: (accessTurns m ++ engineTurns m ++ schedTurns m ++ ringTurns ++ cacheTurns m)
/-- What the machine does between groups: an owed step, else the turn that stands first in the queue, else one that Config.pick takes
(DESIGN CHOICE, log 1). What an earlier step has not been delivered is no matter of this one (R362). -/
def between (m0 : Mach) : Ready :=
  let m : Mach := { m0 with lost := false }
  match if m.isUp then owed m else none with
  | some m1 => .done ⟨m1.settle, .idle⟩
  | none =>
    match m.turns with
    | t :: r => takeTurn { m with turns := r } t
    | [] => takeTurn (m.choose (ownTurns m).length).2 ((ownTurns m).getD (m.choose (ownTurns m).length).1 .cycle)

end Sys2Proof.Machine
end

