-- ==== Sys2Proof/Machine/Step.lean ====
section
/-! DEFINITION. One step of the machine, and the placing of an instruction where the next step runs it. -/

namespace Sys2Proof.Machine

/-- A step that does not happen now: a cycle passes instead. -/
def orCycle (m : Mach) (o : Host.Outcome State Fault Refusal) : Host.Outcome State Fault Refusal :=
  match o with
  | .refused .notEnabled => .next ⟨passCycle m, .idle⟩
  | x => x
/-- What a turn leads to. -/
def Ready.step : Ready → Host.Outcome State Fault Refusal
  | .done s => .next s
  | .run i s => orCycle s.m (exec i s)
/-- One step: the next word of the group that issues, or what happens between groups. -/
def step (s : State) : Host.Outcome State Fault Refusal :=
  match s.act with
  | .group g =>
    match g.rest with
    | w :: _ => exec (issueOf w) s
    | [] => .next ⟨closeGroup g s.m, .idle⟩
  | .stream k => (seqTurn s.m k).step
  | .idle => if s.m.power = .shut then .fault .poweredOff else (between s.m).step

/-! ### Placing an instruction (DESIGN CHOICE, log 40) -/

/-- Where withFetchWord puts the words: the virtual and the physical address of a code segment. -/
def fetchBase : Nat := 0x300000
/-- The machine, up, with a context whose code range holds some bytes, and a crew of one gang of one thread that stands at them. -/
def placed (m : Mach) (bs : List Byte) : Mach :=
  let n := m.nextId
  let code : Range := { baseg := fetchBase / 4096, limg := fetchBase / 4096 + 1, rhi := 1, r := true, x := true }
  { m with
    power := .up, nextId := n + 5,
    dram := m.dram.block fetchBase bs,
    access := m.access.put 0 ({ ctx := 1, w := false, r := true, limg := fetchBase / 4096 + 1, baseg := fetchBase / 4096 } :: m.access.at 0),
    ctxs := m.ctxs.put 1 { ranges := [code], keys := [(0, 0)], accrued := m.clock },
    regions := m.regions.put (n + 3) { ctx := 1, rcb := { crews := 1, gangs := 1, spbud := 1, gbud := 1 }, placed := 1, crewsLeft := 1,
                                       ticked := m.clock },
    crews := m.crews.put (n + 2) { region := n + 3, life := .live },
    gangs := m.gangs.put (n + 1) { region := n + 3, crew := some (n + 2), lanes := some n :: List.replicate 31 none },
    threads := m.threads.put n { region := n + 3, gang := n + 1, pos := ⟨BitVec.ofNat 56 fetchBase, 0⟩ } }
/-- The packet of a gang word: the word, and words of zeros, which are NOP, after it. -/
def packetOf (w : Nat) : List Byte := leBytes 12 w
/-- The state with an instruction where the next step runs it: a gang word in the packet of a thread whose gang issues next, a stream
word before a sequencer that moves next. -/
def State.withFetchWord (s : State) (nbits w : Nat) : State :=
  let x := w % 2 ^ nbits
  if nbits ≤ 32 then
    let m := placed s.m (packetOf x)
    { m := { m.modSp 0 (fun p => { p with icache := (1, fetchBase, packetOf x) :: p.icache }) with turns := [.issue (s.m.nextId + 1)] },
      act := .idle }
  else if nbits ≤ 64 then
    let m := placed s.m (leBytes 8 x)
    let n := s.m.nextId
    let y : Stream := { crew := n + 2, gang := n + 1, sp := 0, seqNo := 0, addr := fetchBase, data := 0, abase := 0, bbase := 0, bcnt := 0,
                        cbase := 0, ccnt := 0, cpitch := 0, serv := false, tag := 0, memb := 0, p0 := Vector.replicate 16 0 }
    { m := { m with streams := m.streams.put (n + 4) y, turns := [.seq (n + 4)] }, act := .idle }
  else s

end Sys2Proof.Machine
end

