-- ==== Sys2Proof/Safety.lean ====
section
/-! DEFINITION. What claims about the machine speak of: canonical memory, the shape of a group that issues, lanes that meet no
cause, the forms in which a word's effect is written, and what a step leaves alone. -/

namespace Sys2Proof.Machine

/-! ### Invariants -/

/-- Every memory of the machine has its canonical form (DESIGN CHOICE, log 2). -/
def Mach.memWf (m : Mach) : Prop :=
  m.dram.wf = true ∧ m.csm.wf = true ∧ m.host.wf = true ∧ (∀ x ∈ m.remote, x.2.wf = true) ∧
    (∀ x ∈ m.crews, x.2.loc.wf = true) ∧ (∀ x ∈ m.spindles, x.2.acc.wf = true)
/-- Every word but the last goes on to the next by its C bit (R20). -/
def linked : List Word → Bool
  | [] => true
  | [_] => true
  | w :: r => (hdrOf w).c && linked r
/-- The words still to execute are one chain inside the packet (R18, R20, R21). -/
def Group.shaped (g : Group) : Prop := g.slot + g.rest.length ≤ 3 ∧ linked g.rest = true
/-- The state's group, where one issues, is shaped. -/
def State.shaped (s : State) : Prop :=
  match s.act with
  | .group g => g.shaped
  | _ => True

/-- The ranges of a context, as the range words keep them: none empty, and no two share an address (R189). -/
def rangesApart (rs : List Range) : Prop :=
  (∀ r ∈ rs, r.baseg < r.limg) ∧ rs.Pairwise (fun a b => a.limg ≤ b.baseg ∨ b.limg ≤ a.baseg)

/-! ### Lanes that complete a word -/

/-- No lane of the run has a register of the word pending, and a privileged word finds its privilege (R25, R63, R64). -/
def Clear (i : Instr) (g : Group) : Prop :=
  ∀ u ∈ g.run, (∀ r ∈ g.pre.touches u i, (g.pre.thr u).isPend r = false) ∧ (Instr.isPriv i = true → g.pre.privOf u = true)
/-- The group g issues in state s, and no lane of its run meets a general cause at word i. -/
def Issues (i : Instr) (s : State) (g : Group) : Prop := s.act = .group g ∧ Clear i g

/-! ### The forms of an effect -/

/-- The word of header h has done this to the machine and to the group: the group goes on or ends (R20, R22). -/
def did (h : Hdr) (g : Group) (m : Mach) : Host.Outcome State Fault Refusal := .next (finishWord h g m)
/-- The word has changed each thread of its run by f, which reads the machine before the group (R26). -/
def didThreads (h : Hdr) (s : State) (g : Group) (f : Nat → Thread → Thread) : Host.Outcome State Fault Refusal :=
  did h g (s.m.onRun g.run f)
/-- It has written register d of each lane, computed from the lane's registers before the group. -/
def didReg (h : Hdr) (s : State) (g : Group) (d : Reg) (f : Thread → Word) : Host.Outcome State Fault Refusal :=
  didThreads h s g (fun u t => t.wr d (f (g.pre.thr u)))
/-- A pair, and a predicate. -/
def didPair (h : Hdr) (s : State) (g : Group) (d : Reg) (f : Thread → BitVec 64) : Host.Outcome State Fault Refusal :=
  didThreads h s g (fun u t => t.wrPair d (f (g.pre.thr u)))
def didPred (h : Hdr) (s : State) (g : Group) (d : PReg) (f : Thread → Bool) : Host.Outcome State Fault Refusal :=
  didThreads h s g (fun u t => t.wrP d (f (g.pre.thr u)))
/-- It has sent the lanes that p selects to a target, and changed nothing else. -/
def didJump (h : Hdr) (s : State) (g : Group) (p : Thread → Bool) (f : Thread → Pos) : Host.Outcome State Fault Refusal :=
  did h (g.jump (g.run.filter (fun u => p (g.pre.thr u))) (fun u => f (g.pre.thr u))) s.m
/-- It has raised flags f for each lane (R37, R38). -/
def Group.flagged (g : Group) (f : Nat → Flags) : Group := g.run.foldl (fun x u => x.raise u (f u)) g

/-- It has written floating-point results, and raised the flags of each. -/
def didFp (h : Hdr) (s : State) (g : Group) (d : Reg) (f : Thread → Nat × Flags) : Host.Outcome State Fault Refusal :=
  did h (g.flagged (fun u => (f (g.pre.thr u)).2)) (s.m.onRun g.run (fun u t => t.wr d (BitVec.ofNat 32 (f (g.pre.thr u)).1)))
/-- It has put one long result of n registers from d on its way to each lane, its value fixed (R24). -/
def didLong (h : Hdr) (s : State) (g : Group) (i : Instr) (d : Reg) (n : Nat) (f : Nat → List Word) : Host.Outcome State Fault Refusal :=
  did h g (longVal g s.m d n (wordOf i) f)
/-- The word w is instruction i, issues on pipe p, and where it executes for its run leads to o. -/
def Acts (w : Word) (p : Pipe) (i : Instr) (s : State) (g : Group) (o : Host.Outcome State Fault Refusal) : Prop :=
  decodeWord w = .ok i ∧ pipeOf w = some p ∧ (Issues i s g → exec i s = o)
/-- x, kept between lo and hi. -/
def clamp (lo hi x : Int) : Int := max lo (min hi x)
/-- v[a] of the thread that holds lane l of the run that lane u sees (R160, R166). -/
def laneVal (g : Group) (u : Nat) (a : Reg) (l : Nat) : Option Word :=
  ((g.xrun u).find? (fun w => (g.pre.thr w).lane == l)).map (fun w => (g.pre.thr w).rd a)

/-- Step i, which is no gang word, happens in state s: it leads to a machine of which P holds, and every lane whose pending set has
emptied goes on (R24, R317). -/
def Happens (i : Instr) (s : State) (P : Mach → Prop) : Prop := s.act = .idle → ∃ m, exec i s = .next ⟨m.settle, .idle⟩ ∧ P m

/-- Every lane of the run has met a cause and leaves it, with its trap (R317). -/
def Group.left (g : Group) (f : Nat → Trap) : Group := { g with run := [], traps := g.traps ++ g.run.map (fun u => (u, f u)) }

/-! ### Rounding (R34) -/

/-- y is the number of units u that a number of magnitude x, negative where s holds, rounds to. -/
def RoundsTo (mode : RM) (s : Bool) (y : Nat) (x u : ℚ) : Prop :=
  let down := y * u ≤ x ∧ x < (y + 1) * u
  let up := (y - 1) * u < x ∧ x ≤ y * u
  match mode with
  | .rne => |y * u - x| ≤ u / 2 ∧ (|y * u - x| = u / 2 → y % 2 = 0)
  | .rtz => down
  | .rup => if s then down else up
  | .rdn => if s then up else down
/-- The bits x of a format are a number of sign s and magnitude v. -/
def Fmt.Shows (f : Fmt) (x : Nat) (s : Bool) (v : ℚ) : Prop :=
  x < 2 ^ (f.eb + f.fb + 1) ∧ ∃ (m : Nat) (e : Int), f.decode x = .fin s m e ∧ (m : ℚ) * 2 ^ e = v

/-! ### Classes of words -/

/-- A gang word whose major lies from lo to hi (R57). -/
def Instr.inMajors (i : Instr) (lo hi : Nat) : Prop :=
  ∃ w, encodeWord i = some w ∧ i ≠ .illegalEncoding w ∧ lo ≤ (majorOf w).toNat ∧ (majorOf w).toNat ≤ hi
/-- The predicate that a word names as its destination. -/
def Instr.predDest : Instr → Option PReg
  | .cmp _ pd _ _ _ => some pd
  | .plog _ pd _ _ _ => some pd
  | .cmpi _ pd _ _ _ => some pd
  | .fcmp _ pd _ _ _ _ => some pd
  | _ => none

/-! ### What a step leaves alone -/

/-- A lane of a group that no cause and no word has turned off its path, and that owes nothing. -/
def Calm (g : Group) (u : Nat) (t : Thread) : Prop := g.trapOf u = none ∧ g.stats = [] ∧ t.stat = .run ∧ t.deferred = none

/-- The registers of a thread that only words write: vector registers, predicates, special registers, frames and join cells. -/
structure SameRegs (t t' : Thread) : Prop where
  v : t'.v = t.v
  p : t'.p = t.p
  lnk : t'.lnk = t.lnk
  fmode : t'.fmode = t.fmode
  fstk : t'.fstk = t.fstk
  tid : t'.tid = t.tid
  frames : t'.frames = t.frames
  cells : t'.cells = t.cells
  depth : t'.depth = t.depth
  place : t'.region = t.region ∧ t'.gang = t.gang ∧ t'.lane = t.lane
/-- The exception registers of a thread, and its mode. -/
def SameTrap (t t' : Thread) : Prop := t'.trapc = t.trapc ∧ t'.trapa = t.trapa ∧ t'.trapi = t.trapi ∧ t'.h = t.h
/-- Every byte that a load of some spindle can read reads as before. -/
def SameBytes (m m' : Mach) : Prop := ∀ sp l, m'.load sp l = m.load sp l
/-- Nothing has changed but threads and the count of parked sub-gangs. -/
def OnlyThreads (m m' : Mach) : Prop := m' = { m with threads := m'.threads, subs := m'.subs }
/-- And the results and requests on their way. -/
def OnlyAccesses (m m' : Mach) : Prop :=
  m' = { m with threads := m'.threads, subs := m'.subs, results := m'.results, reqs := m'.reqs, seq := m'.seq, wordNo := m'.wordNo }

end Sys2Proof.Machine
end

