-- ==== Sys2Proof/Certificates/Slice0/Obligations.lean ====
section
/-! DEFINITION. The statements for the provers. `Acts w p i s g o`: the word w decodes to instruction i, issues on pipe p, and whenever
the group g issues it in state s with no lane of its run meeting HAZARD or PRIV, exec i s is the next state o. The forms `did…` are
next states: what the word has done to the machine and its group, after which the group goes on to its next word or ends. -/

section
open Sys2Proof Sys2Proof.Machine

/-- R70: the ALU-A words, their encodings, their pipe and their results. R71, R73: the ALU-B words of one register. CLZ counts the zero
bits above the highest set bit, CTZ those below the lowest, POPC the set bits: the counts are stated by what they count. R72: the bit-
field words. -/
def Obligations.IntegerWords : Prop :=
  (∀ (h : Hdr) (d a b : Reg) (s : State) (g : Group),
    let w (fn : BitVec 6) := mkWord h 0x05#6 (rb d) (rb a) (rb b) fn
    let acts (fn : BitVec 6) (i : Instr) (f : Word → Word → Word → Word) := Acts (w fn) .alu i s g
      (didReg h s g d (fun t => f (t.rd d) (t.rd a) (t.rd b)))
    let sat (x : Int) := BitVec.ofInt 32 (clamp (-2 ^ 31) (2 ^ 31 - 1) x)
    acts 0x00#6 (.add h d a b) (fun _ x y => BitVec.ofNat 32 (x.toNat + y.toNat)) ∧
    acts 0x01#6 (.sub h d a b) (fun _ x y => BitVec.ofInt 32 (x.toInt - y.toInt)) ∧
    acts 0x02#6 (.and h d a b) (fun _ x y => x &&& y) ∧
    acts 0x03#6 (.or h d a b) (fun _ x y => x ||| y) ∧
    acts 0x04#6 (.xor h d a b) (fun _ x y => x ^^^ y) ∧
    acts 0x05#6 (.andn h d a b) (fun _ x y => x &&& ~~~y) ∧
    acts 0x06#6 (.shl h d a b) (fun _ x y => x <<< (y.toNat % 256)) ∧
    acts 0x07#6 (.shr h d a b) (fun _ x y => x >>> (y.toNat % 256)) ∧
    acts 0x08#6 (.sar h d a b) (fun _ x y => BitVec.ofInt 32 (x.toInt / 2 ^ (y.toNat % 256))) ∧
    acts 0x09#6 (.rotl h d a b) (fun _ x y => (x <<< (y.toNat % 32)) ||| (x >>> (32 - y.toNat % 32))) ∧
    acts 0x0A#6 (.min h d a b) (fun _ x y => BitVec.ofInt 32 (min x.toInt y.toInt)) ∧
    acts 0x0B#6 (.max h d a b) (fun _ x y => BitVec.ofInt 32 (max x.toInt y.toInt)) ∧
    acts 0x0C#6 (.minu h d a b) (fun _ x y => BitVec.ofNat 32 (min x.toNat y.toNat)) ∧
    acts 0x0D#6 (.maxu h d a b) (fun _ x y => BitVec.ofNat 32 (max x.toNat y.toNat)) ∧
    acts 0x0E#6 (.addmin h d a b) (fun z x y => BitVec.ofInt 32 (min (clamp (-2 ^ 31) (2 ^ 31 - 1) (x.toInt + y.toInt)) z.toInt)) ∧
    acts 0x0F#6 (.addsat h d a b) (fun _ x y => sat (x.toInt + y.toInt)) ∧
    acts 0x10#6 (.subsat h d a b) (fun _ x y => sat (x.toInt - y.toInt)) ∧
    acts 0x11#6 (.absdiff h d a b) (fun _ x y => BitVec.ofInt 32 |x.toInt - y.toInt|)) ∧
  (∀ (h : Hdr) (d a b : Reg) (s : State) (g : Group),
    let w (fn : BitVec 6) := mkWord h 0x06#6 (rb d) (rb a) (rb b) fn
    let w1 (fn : BitVec 6) := mkWord h 0x06#6 (rb d) (rb a) 0#6 fn
    let acts (fn : BitVec 6) (i : Instr) (f : Word → Word → Word → Word) := Acts (w fn) .alu i s g
      (didReg h s g d (fun t => f (t.rd d) (t.rd a) (t.rd b)))
    let acts1 (fn : BitVec 6) (i : Instr) (f : Word → Word) := Acts (w1 fn) .alu i s g (didReg h s g d (fun t => f (t.rd a)))
    let zerosFrom (x : Word) (p : Nat → Nat) : Word :=
      BitVec.ofNat 32 ((List.range 32).takeWhile (fun k => !x.getLsbD (p k))).length
    acts 0x00#6 (.mul h d a b) (fun _ x y => BitVec.ofNat 32 (x.toNat * y.toNat)) ∧
    acts 0x01#6 (.mulh h d a b) (fun _ x y => BitVec.ofInt 32 (x.toInt * y.toInt / 2 ^ 32)) ∧
    acts 0x02#6 (.mulhu h d a b) (fun _ x y => BitVec.ofNat 32 (x.toNat * y.toNat / 2 ^ 32)) ∧
    acts 0x03#6 (.mula h d a b) (fun z x y => BitVec.ofNat 32 (z.toNat + x.toNat * y.toNat)) ∧
    acts1 0x04#6 (.clz h d a) (fun x => zerosFrom x (fun k => 31 - k)) ∧
    acts1 0x05#6 (.ctz h d a) (fun x => zerosFrom x (fun k => k)) ∧
    acts1 0x06#6 (.popc h d a) (fun x => BitVec.ofNat 32 ((List.range 32).filter x.getLsbD).length) ∧
    acts1 0x07#6 (.brev h d a) (fun x => x.reverse) ∧
    acts 0x0B#6 (.sel h d a b) (fun z x y => (z &&& x) ||| (~~~z &&& y)) ∧
    acts1 0x0C#6 (.extb h d a) (fun x => (x.setWidth 8).signExtend 32) ∧
    acts1 0x0D#6 (.exth h d a) (fun x => (x.setWidth 16).signExtend 32)) ∧
  (∀ (h : Hdr) (d a b : Reg) (s : State) (g : Group),
    let pos (y : Word) := y.toNat % 32
    let k (y : Word) := min (y.toNat / 256 % 64) (32 - pos y)
    let field (x y : Word) := x.toNat / 2 ^ pos y % 2 ^ k y
    let mask (y : Word) : Word := BitVec.ofNat 32 ((2 ^ k y - 1) * 2 ^ pos y)
    Acts (mkWord h 0x06#6 (rb d) (rb a) (rb b) 0x08#6) .alu (.bfx h d a b) s g
      (didReg h s g d (fun t => BitVec.ofInt 32
        (if 2 * field (t.rd a) (t.rd b) < 2 ^ k (t.rd b) then (field (t.rd a) (t.rd b) : Int)
         else if k (t.rd b) = 0 then 0 else (field (t.rd a) (t.rd b) : Int) - 2 ^ k (t.rd b)))) ∧
    Acts (mkWord h 0x06#6 (rb d) (rb a) (rb b) 0x09#6) .alu (.bfxu h d a b) s g
      (didReg h s g d (fun t => BitVec.ofNat 32 (field (t.rd a) (t.rd b)))) ∧
    Acts (mkWord h 0x06#6 (rb d) (rb a) (rb b) 0x0A#6) .alu (.bfi h d a b) s g
      (didReg h s g d (fun t => (t.rd d &&& ~~~mask (t.rd b)) ||| ((t.rd a <<< pos (t.rd b)) &&& mask (t.rd b)))))

/-- R74: the words on pairs. A pair register that is odd makes the word no instruction (R62). R77: the immediate words. -/
def Obligations.PairAndImmediateWords : Prop :=
  (∀ (h : Hdr) (d a b : Reg) (s : State) (g : Group),
    let w (fn : BitVec 6) := mkWord h 0x06#6 (rb d) (rb a) (rb b) fn
    let acts (fn : BitVec 6) (i : Instr) (f : Thread → BitVec 64) := Acts (w fn) .alu i s g (didPair h s g d f)
    (isEven d = true → isEven a = true → isEven b = true →
      acts 0x0E#6 (.add64 h d a b) (fun t => BitVec.ofNat 64 ((t.rdPair a).toNat + (t.rdPair b).toNat)) ∧
      acts 0x0F#6 (.sub64 h d a b) (fun t => BitVec.ofInt 64 ((t.rdPair a).toInt - (t.rdPair b).toInt))) ∧
    (isEven d = true → isEven a = true →
      acts 0x10#6 (.shl64 h d a b) (fun t => t.rdPair a <<< ((t.rd b).toNat % 256)) ∧
      acts 0x11#6 (.shr64 h d a b) (fun t => t.rdPair a >>> ((t.rd b).toNat % 256)) ∧
      acts 0x12#6 (.lea h d a b) (fun t => BitVec.ofInt 64 ((t.rdPair a).toInt + (t.rd b).toInt))) ∧
    (∀ fn, fn ∈ [0x0E#6, 0x0F#6, 0x10#6, 0x11#6, 0x12#6] → isEven d = false ∨ isEven a = false →
      issueOf (w fn) = .illegalEncoding (w fn)) ∧
    (∀ fn, fn ∈ [0x0E#6, 0x0F#6] → isEven b = false → issueOf (w fn) = .illegalEncoding (w fn))) ∧
  (∀ (h : Hdr) (d a : Reg) (imm : BitVec 12) (big : BitVec 18) (n : BitVec 5) (s : State) (g : Group),
    let w (mj : BitVec 6) := mkWord h mj (rb d) (rb a) (hi6 imm) (lo6 imm)
    let w18 (mj : BitVec 6) := mkWord h mj (rb d) (t2 big) (t1 big) (t0 big)
    let wsh (kind : BitVec 2) := mkWord h 0x0C#6 (rb d) (rb a) (kind ++ 0#4) (0#1 ++ n)
    let acts (v : Word) (i : Instr) (f : Word → Word) := Acts v .alu i s g (didReg h s g d (fun t => f (t.rd a)))
    acts (w 0x08#6) (.addi h d a imm) (fun x => BitVec.ofInt 32 (x.toInt + imm.toInt)) ∧
    acts (w 0x09#6) (.andi h d a imm) (fun x => x &&& BitVec.ofNat 32 imm.toNat) ∧
    acts (w 0x0A#6) (.ori h d a imm) (fun x => x ||| BitVec.ofNat 32 imm.toNat) ∧
    acts (w 0x0B#6) (.xori h d a imm) (fun x => x ^^^ BitVec.ofNat 32 imm.toNat) ∧
    acts (wsh 0#2) (.shli h d a n) (fun x => x <<< n.toNat) ∧
    acts (wsh 1#2) (.shri h d a n) (fun x => x >>> n.toNat) ∧
    acts (wsh 2#2) (.sari h d a n) (fun x => BitVec.ofInt 32 (x.toInt / 2 ^ n.toNat)) ∧
    acts (wsh 3#2) (.rotli h d a n) (fun x => (x <<< n.toNat) ||| (x >>> (32 - n.toNat))) ∧
    acts (w 0x0E#6) (.muli h d a imm) (fun x => BitVec.ofInt 32 (x.toInt * imm.toInt)) ∧
    (isEven d = true → isEven a = true → Acts (w 0x0F#6) .alu (.addi64 h d a imm) s g
      (didPair h s g d (fun t => BitVec.ofInt 64 ((t.rdPair a).toInt + imm.toInt)))) ∧
    Acts (w18 0x10#6) .alu (.movi h d big) s g (didReg h s g d (fun _ => BitVec.ofInt 32 big.toInt)) ∧
    Acts (w18 0x11#6) .alu (.movhi h d big) s g
      (didReg h s g d (fun t => BitVec.ofNat 32 (big.toNat * 2 ^ 14 + (t.rd d).toNat % 2 ^ 14))))

/-- R75, R76, and CMPI of R77: compares and predicate logic. A write to p7 is discarded (R12). -/
def Obligations.PredicateWords : Prop :=
  ∀ (h : Hdr) (pd pa pq : PReg) (c : BitVec 3) (lut : BitVec 4) (a b : Reg) (imm : BitVec 12) (s : State) (g : Group),
    let cond (x y : Word) : Bool := match c.toNat with
      | 0 => x == y
      | 1 => x != y
      | 2 => decide (x.toInt < y.toInt)
      | 3 => decide (y.toInt ≤ x.toInt)
      | 4 => decide (x.toNat < y.toNat)
      | 5 => decide (y.toNat ≤ x.toNat)
      | 6 => decide (x.toInt ≤ y.toInt)
      | _ => decide (x.toNat ≤ y.toNat)
    Acts (mkWord h 0x07#6 (pb pd ++ c) (rb a) (rb b) 0x00#6) .alu (.cmp h pd c a b) s g
      (didPred h s g pd (fun t => cond (t.rd a) (t.rd b))) ∧
    Acts (mkWord h 0x07#6 (pb pd ++ pb pa) (pb pq ++ lut.extractLsb' 1 3) (lut.extractLsb' 0 1 ++ 0#5) 0x01#6) .alu
      (.plog h pd pa pq lut) s g
      (didPred h s g pd (fun t => lut.getLsbD ((if t.rdP pa then 2 else 0) + (if t.rdP pq then 1 else 0)))) ∧
    Acts (mkWord h 0x0D#6 (pb pd ++ c) (rb a) (hi6 imm) (lo6 imm)) .alu (.cmpi h pd c a imm) s g
      (didPred h s g pd (fun t => cond (t.rd a) (BitVec.ofInt 32 imm.toInt))) ∧
    (∀ t : Thread, ∀ x : Bool, t.wrP 7 x = t ∧ t.rdP 7 = true ∧ ∀ q : PReg, q ≠ 7 → (t.wrP q x).rdP q = x ∧
      ∀ q' : PReg, q' ≠ q → (t.wrP q x).rdP q' = t.rdP q')

/-- R79, R80: floating-point arithmetic: one rounding of the exact sum or product of the decoded operands. R81: conversions. R85: the
packed words act on both halves alike, FDOT2 adds both products to v[d]; that opposite infinities there
raise NV beside a quiet NaN too is the model's choice (DESIGN CHOICE, log 106). -/
def Obligations.FloatWords : Prop :=
  (∀ (h : Hdr) (d a b : Reg) (fm : FMod) (s : State) (g : Group),
    let w (mj : BitVec 6) (fn : BitVec 2) := mkWord h mj (rb d) (rb a) (rb b) (fmb fm ++ fn)
    let acts (mj : BitVec 6) (fn : BitVec 2) (i : Instr) (f : Thread → Nat × Flags) := Acts (w mj fn) .fpu i s g (didFp h s g d f)
    let x (t : Thread) (r : Reg) : FVal := fp32.decode (fp32.flushIn (fm.fi || t.fmode.getLsbD 2) (t.rd r).toNat)
    let round (t : Thread) := sumRound fp32 (RM.ofField fm.rm t.fmode) (fm.fo || t.fmode.getLsbD 3)
    let mul (t : Thread) := ((x t a).mul (x t b)).1
    let bad (t : Thread) := ((x t a).mul (x t b)).2
    acts 0x12#6 0#2 (.fadd h d a b fm) (fun t => round t [x t a, x t b] false) ∧
    acts 0x12#6 1#2 (.fsub h d a b fm) (fun t => round t [x t a, (x t b).neg] false) ∧
    acts 0x12#6 2#2 (.fmul h d a b fm) (fun t => round t [mul t] (bad t)) ∧
    acts 0x13#6 0#2 (.ffma h d a b fm) (fun t => round t [mul t, x t d] (bad t)) ∧
    acts 0x13#6 1#2 (.ffms h d a b fm) (fun t => round t [mul t, (x t d).neg] (bad t)) ∧
    acts 0x13#6 2#2 (.fnfma h d a b fm) (fun t => round t [(mul t).neg, x t d] (bad t))) ∧
  (∀ (h : Hdr) (d a : Reg) (fm : FMod) (s : State) (g : Group),
    let acts (fn : BitVec 6) (i : Instr) (f : Thread → Nat × Flags) :=
      Acts (mkWord h 0x14#6 (rb d) (rb a) fn (fmb fm ++ 0#2)) .fpu i s g (didFp h s g d f)
    let mode (t : Thread) := RM.ofField fm.rm t.fmode
    let fo (t : Thread) := fm.fo || t.fmode.getLsbD 3
    let from' (f : Fmt) (n : Nat) (t : Thread) := f.flushIn (fm.fi || t.fmode.getLsbD 2) ((t.rd a).toNat % 2 ^ n)
    let int (lo hi : Int) (t : Thread) : Nat × Flags :=
      ((BitVec.ofInt 32 (cvtIF lo hi (mode t) (from' fp32 32 t)).1).toNat, (cvtIF lo hi (mode t) (from' fp32 32 t)).2)
    acts 0#6 (.fcvtHF h d a fm) (fun t => cvtFF fp32 fp16 (mode t) (fo t) (from' fp32 32 t)) ∧
    acts 1#6 (.fcvtBfF h d a fm) (fun t => cvtFF fp32 bf16 (mode t) (fo t) (from' fp32 32 t)) ∧
    acts 2#6 (.fcvtFH h d a fm) (fun t => cvtFF fp16 fp32 (mode t) (fo t) (from' fp16 16 t)) ∧
    acts 3#6 (.fcvtFBf h d a fm) (fun t => cvtFF bf16 fp32 (mode t) (fo t) (from' bf16 16 t)) ∧
    acts 4#6 (.fcvtIF h d a fm) (int (-2 ^ 31) (2 ^ 31 - 1)) ∧
    acts 5#6 (.fcvtUF h d a fm) (int 0 (2 ^ 32 - 1)) ∧
    acts 6#6 (.fcvtFI h d a fm) (fun t => cvtFI (mode t) (fo t) (t.rd a).toInt) ∧
    acts 7#6 (.fcvtFU h d a fm) (fun t => cvtFI (mode t) (fo t) ((t.rd a).toNat : Int)) ∧
    (isEven a = true → acts 8#6 (.fcvtFL h d a fm) (fun t => cvtFI (mode t) (fo t) (t.rdPair a).toInt)) ∧
    acts 9#6 (.frint h d a fm) (fun t => rint (mode t) (from' fp32 32 t))) ∧
  (∀ (h : Hdr) (d a b : Reg) (hm : HMod) (s : State) (g : Group),
    let acts (fn : BitVec 2) (i : Instr) (f : Thread → Nat × Flags) :=
      Acts (mkWord h 0x16#6 (rb d) (rb a) (rb b) (hmb hm ++ fn)) .fpu i s g (didFp h s g d f)
    let f : Fmt := if hm.t then bf16 else fp16
    let fi (t : Thread) := hm.fi || t.fmode.getLsbD 2
    let fo (t : Thread) := hm.fo || t.fmode.getLsbD 3
    let mode (t : Thread) := if hm.rs then RM.rne else RM.ofMode t.fmode
    let x (t : Thread) (r : Reg) (k : Nat) : FVal := f.decode (f.flushIn (fi t) ((t.rd r).toNat / 2 ^ (16 * k) % 2 ^ 16))
    let mul (t : Thread) (k : Nat) := (x t a k).mul (x t b k)
    let both (e : Thread → Nat → Nat × Flags) (t : Thread) : Nat × Flags := ((e t 0).1 + (e t 1).1 * 2 ^ 16, (e t 0).2 ||| (e t 1).2)
    acts 0#2 (.hadd2 h d a b hm) (both (fun t k => sumRound f (mode t) (fo t) [x t a k, x t b k] false)) ∧
    acts 1#2 (.hmul2 h d a b hm) (both (fun t k => sumRound f (mode t) (fo t) [(mul t k).1] (mul t k).2)) ∧
    acts 2#2 (.hfma2 h d a b hm) (both (fun t k => sumRound f (mode t) (fo t) [(mul t k).1, x t d k] (mul t k).2)) ∧
    acts 3#2 (.fdot2 h d a b hm) (fun t => sumRound fp32 (mode t) (fo t)
      [(mul t 0).1, (mul t 1).1, fp32.decode (fp32.flushIn (fi t) (t.rd d).toNat)] ((mul t 0).2 || (mul t 1).2)))

/-- R32, R80: FMIN and FMAX take an operand; R82 to R84: compares, classes and sign words. What the two select, the conditions of FCMP and
the classes of FCLASS are stated on the bits of the operands: a number that is no NaN has a place in their order, in which -0 is below +0
for FMIN and FMAX and equal to it for FCMP. -/
def Obligations.FloatSelection : Prop :=
  (∀ x y : Nat, x < 2 ^ 32 → y < 2 ^ 32 →
    let nan (z : Nat) : Prop := 0x7F800000 < z % 2 ^ 31
    let sig (z : Nat) : Prop := nan z ∧ z.testBit 22 = false
    let neg (z : Nat) : Prop := 2 ^ 31 ≤ z
    let place (z : Nat) : Int := if 2 ^ 31 ≤ z then -((z % 2 ^ 31 : Nat) : Int) else z
    let total (z : Nat) : Int := if 2 ^ 31 ≤ z then -((z % 2 ^ 31 : Nat) : Int) - 1 else z
    let nv (p : Prop) (f : Flags) : Prop := (p → f = 16) ∧ (¬ p → f = 0)
    (∀ mx : Bool, nv (sig x ∨ sig y) (fp32.minmax mx x y).2 ∧
      (nan x → nan y → (fp32.minmax mx x y).1 = 0x7FC00000) ∧ (nan x → ¬ nan y → (fp32.minmax mx x y).1 = y) ∧
      (¬ nan x → nan y → (fp32.minmax mx x y).1 = x)) ∧
    (¬ nan x → ¬ nan y → (total x ≤ total y → (fp32.minmax false x y).1 = x ∧ (fp32.minmax true x y).1 = y) ∧
      (total y ≤ total x → (fp32.minmax false x y).1 = y ∧ (fp32.minmax true x y).1 = x)) ∧
    (∀ c, c < 6 → nv (if c = 2 ∨ c = 3 then nan x ∨ nan y else sig x ∨ sig y) (fcond c (fp32.decode x) (fp32.decode y)).2 ∧
      ((fcond c (fp32.decode x) (fp32.decode y)).1 = true ↔ match c with
        | 0 => ¬ nan x ∧ ¬ nan y ∧ place x = place y
        | 1 => nan x ∨ nan y ∨ place x ≠ place y
        | 2 => ¬ nan x ∧ ¬ nan y ∧ place x < place y
        | 3 => ¬ nan x ∧ ¬ nan y ∧ place x ≤ place y
        | 4 => nan x ∨ nan y
        | _ => ¬ nan x ∧ ¬ nan y)) ∧
    (nan x → fclassOf x = if x.testBit 22 then 2 ^ 9 else 2 ^ 8) ∧
    (x % 2 ^ 31 = 0x7F800000 → (neg x → fclassOf x = 2 ^ 0) ∧ (¬ neg x → fclassOf x = 2 ^ 7)) ∧
    (x % 2 ^ 31 = 0 → (neg x → fclassOf x = 2 ^ 3) ∧ (¬ neg x → fclassOf x = 2 ^ 4)) ∧
    (0 < x % 2 ^ 31 → x % 2 ^ 31 < 2 ^ 23 → (neg x → fclassOf x = 2 ^ 2) ∧ (¬ neg x → fclassOf x = 2 ^ 5)) ∧
    (2 ^ 23 ≤ x % 2 ^ 31 → x % 2 ^ 31 < 0x7F800000 → (neg x → fclassOf x = 2 ^ 1) ∧ (¬ neg x → fclassOf x = 2 ^ 6))) ∧
  ∀ (h : Hdr) (d a b : Reg) (pd : PReg) (c : BitVec 3) (fm : FMod) (fi fo : Bool) (s : State) (g : Group),
    let bits (t : Thread) (fi : Bool) (r : Reg) := fp32.flushIn (fi || t.fmode.getLsbD 2) (t.rd r).toNat
    let out (t : Thread) (fo : Bool) (y : Nat) := fp32.flushOut (fo || t.fmode.getLsbD 3) y
    let pick (mx : Bool) (t : Thread) : Nat × Flags :=
      ((out t fm.fo (fp32.minmax mx (bits t fm.fi a) (bits t fm.fi b)).1).1,
       (fp32.minmax mx (bits t fm.fi a) (bits t fm.fi b)).2 ||| (out t fm.fo (fp32.minmax mx (bits t fm.fi a) (bits t fm.fi b)).1).2)
    let signed (sg : Thread → Nat → Bool) (t : Thread) : Nat × Flags :=
      if fp32.isNan (bits t fi a) then (0x7FC00000, 0)
      else out t fo ((if sg t (bits t fi a) then 2 ^ 31 else 0) + bits t fi a % 2 ^ 31)
    Acts (mkWord h 0x12#6 (rb d) (rb a) (rb b) (fmb fm ++ 3#2)) .fpu (.fmin h d a b fm) s g (didFp h s g d (pick false)) ∧
    Acts (mkWord h 0x13#6 (rb d) (rb a) (rb b) (fmb fm ++ 3#2)) .fpu (.fmax h d a b fm) s g (didFp h s g d (pick true)) ∧
    (c.toNat < 6 → Acts (mkWord h 0x15#6 (pb pd ++ c) (rb a) (rb b) (fmb fm ++ 0#2)) .fpu (.fcmp h pd c a b fm) s g
      (did h (g.flagged (fun u => (fcond c.toNat (fp32.decode (bits (g.pre.thr u) fm.fi a)) (fp32.decode (bits (g.pre.thr u) fm.fi b))).2))
        (s.m.onRun g.run (fun u t => t.wrP pd
          (fcond c.toNat (fp32.decode (bits (g.pre.thr u) fm.fi a)) (fp32.decode (bits (g.pre.thr u) fm.fi b))).1)))) ∧
    Acts (mkWord h 0x15#6 (rb d) (rb a) 0#6 (fmb fm ++ 1#2)) .fpu (.fclass h d a fm) s g
      (didReg h s g d (fun t => BitVec.ofNat 32 (fclassOf (t.rd a).toNat))) ∧
    Acts (mkWord h 0x15#6 (rb d) (rb a) 0#6 (bb fi ++ bb fo ++ 0#2 ++ 2#2)) .fpu (.fabs h d a fi fo) s g
      (didFp h s g d (signed (fun _ _ => false))) ∧
    Acts (mkWord h 0x15#6 (rb d) (rb a) 0#6 (bb fi ++ bb fo ++ 1#2 ++ 2#2)) .fpu (.fneg h d a fi fo) s g
      (didFp h s g d (signed (fun _ y => !y.testBit 31))) ∧
    Acts (mkWord h 0x15#6 (rb d) (rb a) (rb b) (bb fi ++ bb fo ++ 2#2 ++ 2#2)) .fpu (.fcopysign h d a b fi fo) s g
      (didFp h s g d (signed (fun t _ => (t.rd b).getLsbD 31)))

/-- R29, R34: decoding a finite FP32 number and rounding it, under any mode, gives it back exactly and raises nothing; FADD of a number
and a zero of its sign, or FMUL by one, therefore returns it. R34, R37: a number is rounded by its mode to the last place that its format
keeps; beyond the largest finite number it overflows, and a tiny result underflows where it is inexact or flushed. R33, R79: the sum of
terms is that of their exact values. R39, R81: conversions to integers round, then saturate; FRINT rounds to an integral value; widening is
exact. -/
def Obligations.RoundingKeepsNumbers : Prop :=
  (∀ (x : Nat) (mode : RM) (s : Bool) (m : Nat) (e : Int), x < 2 ^ 32 → fp32.decode x = .fin s m e →
    roundF fp32 mode false s m e = (x, 0) ∧
    sumRound fp32 mode false [.fin s m e, .fin s 0 fp32.qmin] false = (x, 0) ∧
    sumRound fp32 mode false [((FVal.fin s m e).mul (fp32.decode 0x3F800000)).1] false = (x, 0)) ∧
  (∀ f ∈ [fp32, fp16, bf16], ∀ (mode : RM) (fo s : Bool) (m : Nat) (e : Int), 0 < m →
    let bias : Int := 2 ^ (f.eb - 1) - 1
    let q : Int := max ((Nat.log2 m : Int) + e - f.fb) (1 - bias - f.fb)
    let x : ℚ := m * 2 ^ e
    let r := roundF f mode fo s m e
    ∃ y : Nat, RoundsTo mode s y x (2 ^ q) ∧
      let v : ℚ := y * 2 ^ q
      let tiny : Prop := v < 2 ^ (1 - bias)
      (2 ^ (bias + 1) ≤ v → r.2 = 5 ∧
        ((mode = .rne ∨ mode = .rup ∧ s = false ∨ mode = .rdn ∧ s = true) → f.decode r.1 = .inf s ∧ r.1 < 2 ^ (f.eb + f.fb + 1)) ∧
        (¬ (mode = .rne ∨ mode = .rup ∧ s = false ∨ mode = .rdn ∧ s = true) → f.Shows r.1 s ((2 - 2 ^ (-f.fb : Int)) * 2 ^ bias))) ∧
      (v < 2 ^ (bias + 1) → (tiny ∧ fo = true ∧ y ≠ 0) → f.Shows r.1 s 0 ∧ r.2 = 3) ∧
      (v < 2 ^ (bias + 1) → ¬ (tiny ∧ fo = true ∧ y ≠ 0) → f.Shows r.1 s v ∧
        (v = x → r.2 = 0) ∧ (v ≠ x → tiny → r.2 = 3) ∧ (v ≠ x → ¬ tiny → r.2 = 1))) ∧
  (∀ f ∈ [fp32, fp16, bf16], ∀ (mode : RM) (fo : Bool) (ts : List (Bool × Nat × Int)), ts ≠ [] →
    let sum : ℚ := (ts.map (fun t => (if t.1 = true then -1 else 1) * ((t.2.1 : ℚ) * 2 ^ t.2.2))).sum
    let r := sumRound f mode fo (ts.map (fun t => FVal.fin t.1 t.2.1 t.2.2)) false
    (sum ≠ 0 → ∃ (m : Nat) (e : Int), 0 < m ∧ |sum| = m * 2 ^ e ∧ r = roundF f mode fo (decide (sum < 0)) m e) ∧
    (sum = 0 → r.2 = 0 ∧ ((∀ t ∈ ts, t.1 = true) → f.Shows r.1 true 0) ∧ ((∀ t ∈ ts, t.1 = false) → f.Shows r.1 false 0) ∧
      ((∃ t ∈ ts, t.1 = true) → (∃ t ∈ ts, t.1 = false) → f.Shows r.1 (decide (mode = .rdn)) 0))) ∧
  (∀ (lo hi : Int) (mode : RM) (x : Nat), lo ≤ 0 → 0 ≤ hi →
    (∀ sig, fp32.decode x = .nan sig → cvtIF lo hi mode x = (0, 16) ∧ rint mode x = (0x7FC00000, if sig then 16 else 0)) ∧
    (∀ s, x < 2 ^ 32 → fp32.decode x = .inf s → cvtIF lo hi mode x = (if s then lo else hi, 16) ∧ rint mode x = (x, 0)) ∧
    (∀ s m e, x < 2 ^ 32 → fp32.decode x = .fin s m e → ∃ y : Nat, RoundsTo mode s y ((m : ℚ) * 2 ^ e) 1 ∧
      let v : Int := if s then -(y : Int) else y
      (v < lo → cvtIF lo hi mode x = (lo, 16)) ∧ (hi < v → cvtIF lo hi mode x = (hi, 16)) ∧
      (lo ≤ v → v ≤ hi → (y : ℚ) = m * 2 ^ e → cvtIF lo hi mode x = (v, 0)) ∧
      (lo ≤ v → v ≤ hi → (y : ℚ) ≠ m * 2 ^ e → cvtIF lo hi mode x = (v, 1)) ∧
      ((y : ℚ) = m * 2 ^ e → rint mode x = (x, 0)) ∧
      ((y : ℚ) ≠ m * 2 ^ e → fp32.Shows (rint mode x).1 s y ∧ (rint mode x).2 = 1))) ∧
  (∀ src ∈ [fp16, bf16], ∀ (mode : RM) (x : Nat) (s : Bool) (m : Nat) (e : Int), x < 2 ^ 16 → src.decode x = .fin s m e →
    fp32.Shows (cvtFF src fp32 mode false x).1 s ((m : ℚ) * 2 ^ e) ∧ (cvtFF src fp32 mode false x).2 = 0)

/-- R51, R52, R173: a reduction tree over an operation that is associative and raises nothing combines the lanes present from the lowest
to the highest. -/
def Obligations.TreeFoldsLanes : Prop :=
  ∀ (op : Nat → Nat → Nat) (leaf : Nat → Option Nat) (k lo : Nat), (∀ x y z, op (op x y) z = op x (op y z)) →
    node (fun x y => (op x y, 0)) leaf k lo =
      match ((List.range (2 ^ k)).filterMap (fun i => leaf (lo + i))) with
      | [] => none
      | x :: r => some (r.foldl op x, 0)

/-- R86, R87, R30: the SFU words. One function of the argument's bits and the flush controls gives each result; its special values,
its results that are exact or correctly rounded, what overflows and that no subnormal is left where FO flushes stand here (the error bounds
of the others are no part of this statement). -/
def Obligations.SfuWords : Prop :=
  ∃ f : Nat → Bool → Bool → Nat → Nat × Flags,
    (∀ (h : Hdr) (d a : Reg) (fi fo : Bool) (s : State) (g : Group),
      let acts (n : Nat) (i : Instr) :=
        let r (u : Nat) := f n (fi || (g.pre.thr u).fmode.getLsbD 2) (fo || (g.pre.thr u).fmode.getLsbD 3) ((g.pre.thr u).rd a).toNat
        Acts (mkWord h 0x17#6 (rb d) (rb a) (BitVec.ofNat 3 n ++ 0#3) (bb fi ++ bb fo ++ 0#4)) .xln i s g
          (did h (g.flagged (fun u => (r u).2)) (longVal g s.m d 1 (wordOf i) (fun u => [BitVec.ofNat 32 (r u).1])))
      acts 0 (.rcp h d a fi fo) ∧ acts 1 (.rsq h d a fi fo) ∧ acts 2 (.sqrt h d a fi fo) ∧ acts 3 (.lg2 h d a fi fo) ∧
      acts 4 (.ex2 h d a fi fo) ∧ acts 5 (.sin h d a fi fo) ∧ acts 6 (.cos h d a fi fo) ∧ acts 7 (.tanh h d a fi fo)) ∧
    (∀ (n x : Nat) (fi fo : Bool), n < 8 → x < 2 ^ 32 →
      (∀ sig, fp32.decode x = .nan sig → f n fi fo x = (0x7FC00000, if sig then 16 else 0)) ∧
      (fp32.isSub x = true → f n true fo x = f n true fo (x / 2 ^ 31 * 2 ^ 31)) ∧
      (f n fi fo x).2 &&& 7 = 0) ∧
    (∀ fi fo : Bool,
      f 0 fi fo 0 = (0x7F800000, 8) ∧ f 0 fi fo 0x80000000 = (0xFF800000, 8) ∧
      f 0 fi fo 0x7F800000 = (0, 0) ∧ f 0 fi fo 0xFF800000 = (0x80000000, 0) ∧
      f 1 fi fo 0 = (0x7F800000, 8) ∧ f 1 fi fo 0x80000000 = (0xFF800000, 8) ∧
      f 1 fi fo 0x7F800000 = (0, 0) ∧ f 1 fi fo 0xFF800000 = (0x7FC00000, 16) ∧
      f 2 fi fo 0 = (0, 0) ∧ f 2 fi fo 0x80000000 = (0x80000000, 0) ∧
      f 2 fi fo 0x7F800000 = (0x7F800000, 0) ∧ f 2 fi fo 0xFF800000 = (0x7FC00000, 16) ∧
      f 3 fi fo 0 = (0xFF800000, 8) ∧ f 3 fi fo 0x80000000 = (0xFF800000, 8) ∧
      f 3 fi fo 0x7F800000 = (0x7F800000, 0) ∧ f 3 fi fo 0xFF800000 = (0x7FC00000, 16) ∧
      f 4 fi fo 0 = (0x3F800000, 0) ∧ f 4 fi fo 0x80000000 = (0x3F800000, 0) ∧
      f 4 fi fo 0x7F800000 = (0x7F800000, 0) ∧ f 4 fi fo 0xFF800000 = (0, 0) ∧
      f 5 fi fo 0 = (0, 0) ∧ f 5 fi fo 0x80000000 = (0x80000000, 0) ∧
      f 5 fi fo 0x7F800000 = (0x7FC00000, 16) ∧ f 5 fi fo 0xFF800000 = (0x7FC00000, 16) ∧
      f 6 fi fo 0 = (0x3F800000, 0) ∧ f 6 fi fo 0x80000000 = (0x3F800000, 0) ∧
      f 6 fi fo 0x7F800000 = (0x7FC00000, 16) ∧ f 6 fi fo 0xFF800000 = (0x7FC00000, 16) ∧
      f 7 fi fo 0 = (0, 0) ∧ f 7 fi fo 0x80000000 = (0x80000000, 0) ∧
      f 7 fi fo 0x7F800000 = (0x3F800000, 0) ∧ f 7 fi fo 0xFF800000 = (0xBF800000, 0)) ∧
    (∀ (x m : Nat) (e : Int) (n : Nat), x < 2 ^ 32 → n ∈ [1, 2, 3] → fp32.decode x = .fin true m e → 0 < m →
      f n false false x = (0x7FC00000, 16)) ∧
    (∀ (n x : Nat) (fi : Bool), n < 8 → x < 2 ^ 32 → fp32.isSub (f n fi true x).1 = false) ∧
    (∀ (neg : Bool) (k : Nat) (fi fo : Bool), 1 ≤ k →
      let sg := if neg then 2 ^ 31 else 0
      (k ≤ 253 → f 0 fi fo (sg + k * 2 ^ 23) = (sg + (254 - k) * 2 ^ 23, 0)) ∧
      (k = 254 → f 0 fi false (sg + k * 2 ^ 23) = (sg + 2 ^ 22, 0) ∧ f 0 fi true (sg + k * 2 ^ 23) = (sg, 0)) ∧
      f 0 false fo (sg + 2 ^ 22) = (sg + 254 * 2 ^ 23, 0) ∧
      (k ≤ 2 ^ 21 → f 0 false fo (sg + k) = (sg + 0x7F800000, 0))) ∧
    (∀ (x m : Nat) (e : Int) (fi fo : Bool), x < 2 ^ 31 → fp32.decode x = .fin false m e → 0 < m → fi = false ∨ fp32.isSub x = false →
      (f 2 fi fo x).2 = 0 ∧ ∃ (n : Nat) (g : Int), fp32.decode (f 2 fi fo x).1 = .fin false n g ∧ 2 ^ 23 ≤ n ∧
        4 * ((m : ℚ) * 2 ^ e) < ((2 * n + 1) * 2 ^ g) ^ 2 ∧
        (n ≠ 2 ^ 23 → ((2 * n - 1) * (2 : ℚ) ^ g) ^ 2 < 4 * ((m : ℚ) * 2 ^ e)) ∧
        (n = 2 ^ 23 → ((4 * n - 1) * (2 : ℚ) ^ g) ^ 2 < 16 * ((m : ℚ) * 2 ^ e))) ∧
    (∀ (j : Nat) (fo : Bool), j ≤ 22 → j % 2 = 1 → f 1 false fo (2 ^ j) = ((127 + (149 - j) / 2) * 2 ^ 23, 0)) ∧
    (∀ (n : Int) (fi : Bool), -149 ≤ n → n < -126 → f 4 fi false (cvtFI .rne false n).1 = (2 ^ (n + 149).toNat, 0) ∧
      f 4 fi true (cvtFI .rne false n).1 = (0, 0)) ∧
    (∀ (k : Nat) (fi fo : Bool), 1 ≤ k → k ≤ 254 → k % 2 = 1 →
      f 1 fi fo (k * 2 ^ 23) = ((381 - k) / 2 * 2 ^ 23, 0) ∧ f 2 fi fo (k * 2 ^ 23) = ((127 + k) / 2 * 2 ^ 23, 0)) ∧
    (∀ (k : Nat) (fi fo : Bool), 1 ≤ k → k ≤ 254 → f 3 fi fo (k * 2 ^ 23) = ((cvtFI .rne false ((k : Int) - 127)).1, 0)) ∧
    (∀ (n : Int) (fi fo : Bool), -126 ≤ n → n ≤ 127 → f 4 fi fo (cvtFI .rne false n).1 = ((127 + n).toNat * 2 ^ 23, 0)) ∧
    (∀ (x : Nat) (fi fo : Bool), 0x43000000 ≤ x → x < 0x7F800000 → f 4 fi fo x = (0x7F800000, 0)) ∧
    (∀ (x : Nat) (fi fo : Bool), 0x41180000 ≤ x → x < 0x7F800000 → f 7 fi fo x = (0x3F800000, 0) ∧ f 7 fi fo (x + 2 ^ 31) = (0xBF800000, 0))

/-- R166 to R172, R174: the cross-lane words other than the reductions. v[a] of lane l of the run that a lane sees is laneVal; a lane
outside that run gives the fill value. -/
def Obligations.CrossLaneWords : Prop :=
  ∀ (h : Hdr) (d a b : Reg) (f : Bool) (imm : BitVec 6) (s : State) (g : Group),
    let acts (w : Word) (i : Instr) (v : Nat → Word) := Acts w .xln i s g (didLong h s g i d 1 (fun u => [v u]))
    let w (mj x : BitVec 6) (fn : BitVec 5) := mkWord h mj (rb d) (rb a) x (bb f ++ fn)
    let w0 (mj x : BitVec 6) (fn : BitVec 5) := mkWord h mj (rb d) (rb a) x (0#1 ++ fn)
    let rd (u : Nat) (r : Reg) := (g.pre.thr u).rd r
    let lane (u : Nat) := (g.pre.thr u).lane
    let fill (u : Nat) : Word := if f then rd u a else 0
    let at' (u l : Nat) : Option Word := laneVal g u a l
    let mask (us : List Nat) : Word := us.foldl (fun x u => x ||| (1#32 <<< lane u)) 0
    let e := imm.toNat % 8
    let source (i : Nat) : Option Nat :=
      if 32 ≤ imm.toNat then some (imm.toNat - 32)
      else if imm.toNat / 8 = 0 then some (i ^^^ 2 ^ e)
      else if imm.toNat / 8 = 1 then (if i < 2 ^ e then none else some (i - 2 ^ e))
      else if imm.toNat / 8 = 2 then (if 31 < i + 2 ^ e then none else some (i + 2 ^ e))
      else some ((i + 2 ^ e) % 32)
    acts (w 0x18#6 (rb b) 0#5) (.xshuf h d a b f)
      (fun u => if (rd u b).toNat < 32 then (at' u (rd u b).toNat).getD (fill u) else fill u) ∧
    (32 ≤ imm.toNat ∨ e < 5 → acts (w 0x18#6 imm 1#5) (.xshufi h d a imm f)
      (fun u => ((source (lane u)).bind (at' u)).getD (fill u))) ∧
    (imm.toNat < 32 → 5 ≤ e → issueOf (w 0x18#6 imm 1#5) = .illegalEncoding (w 0x18#6 imm 1#5)) ∧
    acts (w0 0x18#6 0#6 2#5) (.xvote h d a 0) (fun u => if (g.xrun u).all (fun j => rd j a != 0) then 1 else 0) ∧
    acts (w0 0x18#6 1#6 2#5) (.xvote h d a 1) (fun u => if (g.xrun u).any (fun j => rd j a != 0) then 1 else 0) ∧
    acts (w0 0x18#6 2#6 2#5) (.xvote h d a 2)
      (fun u => if (g.xrun u).all (fun i => (g.xrun u).all (fun j => rd i a == rd j a)) then 1 else 0) ∧
    (2 < imm.toNat → issueOf (w0 0x18#6 imm 2#5) = .illegalEncoding (w0 0x18#6 imm 2#5)) ∧
    acts (w0 0x18#6 0#6 3#5) (.xballot h d a) (fun u => mask ((g.xrun u).filter (fun j => rd j a != 0))) ∧
    ((f = true → isEven a = true) → acts (w 0x18#6 0#6 4#5) (.xmatch h d a f)
      (fun u => mask ((g.xrun u).filter (fun j => rd j a == rd u a && (!f || rd j (a + 1) == rd u (a + 1)))))) ∧
    (f = true → isEven a = false → issueOf (w 0x18#6 0#6 4#5) = .illegalEncoding (w 0x18#6 0#6 4#5)) ∧
    acts (w 0x18#6 (rb b) 5#5) (.xcompact h d a b f) (fun u =>
      (((g.xrun u).filter (fun j => rd j b != 0)).map (fun j => rd j a)).getD ((g.xrun u).takeWhile (· != u)).length (fill u)) ∧
    acts (w 0x19#6 (rb b) 0#5) (.xgath h d a b f) (fun u =>
      let byte (m : Nat) : Nat :=
        let k := (rd u b).toNat + m
        (if 127 < k then (fill u).toNat / 256 ^ m
          else ((at' u (k / 4)).map (fun x => x.toNat / 256 ^ (k % 4))).getD ((fill u).toNat / 256 ^ m)) % 256
      BitVec.ofNat 32 (byte 0 + 256 * byte 1 + 65536 * byte 2 + 16777216 * byte 3)) ∧
    (a.val % 4 = 0 → acts (w 0x19#6 (rb b) 1#5) (.permb h d a b f) (fun u =>
      let byte (m : Nat) : Nat :=
        let x := (rd u b).toNat / 256 ^ m % 256
        let n := if f then x / 16 else x % 16
        (rd u (a + Fin.ofNat 64 (n / 4))).toNat / 256 ^ (n % 4) % 256
      BitVec.ofNat 32 (byte 0 + 256 * byte 1 + 65536 * byte 2 + 16777216 * byte 3))) ∧
    (imm.toNat < 8 → imm.toNat % 4 ≠ 3 → acts (w0 0x19#6 imm 2#5) (.xrank h d a imm) (fun u =>
      let lt (x y : Word) : Bool := match imm.toNat % 4 with
        | 0 => decide (x.toInt < y.toInt)
        | 1 => decide (x.toNat < y.toNat)
        | _ => FVal.lt false (fp32.decode x.toNat) (fp32.decode y.toNat)
      let nan (x : Word) : Bool := imm.toNat % 4 == 2 && fp32.isNan x.toNat
      let better (x y : Word) : Bool := !nan x && (nan y || (if 4 ≤ imm.toNat then lt x y else lt y x))
      BitVec.ofNat 32 ((g.xrun u).filter (fun j => better (rd j a) (rd u a) ||
        (!better (rd u a) (rd j a) && decide (lane j < lane u)))).length))

/-- R52, R173: XRED and XSCAN. The value and flags are those of the trees of R52 under the %fmode of the lowest lane of the run; every
lane of the run has the flags of every combination. R52, R173: the integer reductions of a run in ascending lanes fold its values from
the lowest lane up; a scan folds those of the lanes up to the reading lane, or below it, and is the identity where there is none. -/
def Obligations.ReductionWords : Prop :=
  (∀ (h : Hdr) (d a : Reg) (f : Bool) (imm : BitVec 6) (s : State) (g : Group),
    (imm.toNat % 16 < 11 ∧ (imm.toNat < 16 ∨ 8 ≤ imm.toNat % 16)) →
    Acts (mkWord h 0x18#6 (rb d) (rb a) imm (0#1 ++ 6#5)) .xln (.xred h d a imm) s g
      (did h (g.flagged (fun u => partFlags (g.whole u a imm)))
        (longVal g s.m d 1 (wordOf (.xred h d a imm)) (fun u => [partVal (g.whole u a imm) 0]))) ∧
    Acts (mkWord h 0x18#6 (rb d) (rb a) imm (bb f ++ 7#5)) .xln (.xscan h d a imm f) s g
      (did h (g.flagged (fun u => ((g.xrun u).map (fun w => partFlags (g.scan u a imm f (g.pre.thr w).lane))).foldl (· ||| ·)
          (partFlags (g.whole u a imm))))
        (longVal g s.m d 1 (wordOf (.xscan h d a imm f))
          (fun u => [partVal (g.scan u a imm f (g.pre.thr u).lane) (redId imm)])))) ∧
  (∀ (g : Group) (u : Nat) (a : Reg) (imm : BitVec 6), imm.toNat < 8 → u ∈ g.xrun u →
    ((g.xrun u).map (fun w => (g.pre.thr w).lane)).Pairwise (· < ·) → (∀ w ∈ g.xrun u, (g.pre.thr w).lane < 32) →
    let op (x y : Word) : Word := match imm.toNat with
      | 0 => BitVec.ofNat 32 (x.toNat + y.toNat)
      | 1 => if x.toInt ≤ y.toInt then x else y
      | 2 => if x.toInt ≤ y.toInt then y else x
      | 3 => if x.toNat ≤ y.toNat then x else y
      | 4 => if x.toNat ≤ y.toNat then y else x
      | 5 => x &&& y
      | 6 => x ||| y
      | _ => x ^^^ y
    let ident : Word := match imm.toNat with
      | 1 => 0x7FFFFFFF
      | 2 => 0x80000000
      | 3 => 0xFFFFFFFF
      | 5 => 0xFFFFFFFF
      | _ => 0
    let vals (p : Nat → Bool) := ((g.xrun u).filter (fun w => p (g.pre.thr w).lane)).map (fun w => (g.pre.thr w).rd a)
    let l := (g.pre.thr u).lane
    partVal (g.whole u a imm) 0 = (vals (fun _ => true)).foldl op ident ∧
    partVal (g.scan u a imm false l) (redId imm) = (vals (fun k => decide (k ≤ l))).foldl op ident ∧
    partVal (g.scan u a imm true l) (redId imm) = (vals (fun k => decide (k < l))).foldl op ident ∧
    partFlags (g.whole u a imm) = 0)

/-- R56, R57, R104 to R109: branches, calls and returns, where no target breaks a rule. CALLI's target is a packet whose word 0 is an ENTRY
word of its class. That a relative target outside the 56-bit space wraps modulo 2^56 is the model's choice (DESIGN CHOICE, log 96). -/
def Obligations.TransferWords : Prop :=
  ∀ (h : Hdr) (cc : BitVec 4) (hint : BitVec 2) (off : BitVec 18) (far : BitVec 24) (cls : BitVec 12) (a : Reg) (s : State) (g : Group),
    let tgt (x : Int) : Pos := ⟨g.pos.pkt + BitVec.ofInt 56 (12 * x), 0⟩
    let next : BitVec 64 := (g.pos.pkt + 12#56).setWidth 64
    let packet (x : BitVec 64) : Prop := x.toNat < 2 ^ 56 ∧ x.toNat % 12 = 0
    let linked := s.m.onRun g.run (fun _ t => { t with lnk := next })
    (cc ≠ 15#4 → hint ≠ 3#2 → Acts (mkWord h 0x01#6 (cc ++ hint) (t2 off) (t1 off) (t0 off)) .ctl (.bra h cc hint off) s g
      (didJump h s g (fun t => cc.toNat % 8 == 7 && !cc.getLsbD 3 || cc.toNat % 8 != 7 && (t.p.getLsbD (cc.toNat % 8) != cc.getLsbD 3))
        (fun _ => tgt off.toInt))) ∧
    (hint ≠ 3#2 → Acts (mkWord h 0x01#6 (15#4 ++ hint) (t2 off) (t1 off) (t0 off)) .ctl (.ychk h hint off) s g
      (didJump h s g (fun t => t.preq) (fun _ => tgt off.toInt))) ∧
    Acts (mkWord h 0x02#6 (u3 far) (u2 far) (u1 far) (u0 far)) .ctl (.call h far) s g
      (did h (g.jump g.run (fun _ => tgt far.toInt)) linked) ∧
    ((∀ u ∈ g.run, packet (g.pre.thr u).lnk) → Acts (mkWord h 0x03#6 0#6 0#6 0#6 0x00#6) .ctl (.ret h) s g
      (didJump h s g (fun _ => true) (fun t => ⟨t.lnk.setWidth 56, 0⟩))) ∧
    (isEven a = true → (∀ u ∈ g.run, packet ((g.pre.thr u).rdPair a)) →
      Acts (mkWord h 0x03#6 0#6 (rb a) 0#6 0x01#6) .ctl (.brx h a) s g
        (didJump h s g (fun _ => true) (fun t => ⟨(t.rdPair a).setWidth 56, 0⟩))) ∧
    (isEven a = true → (∀ u ∈ g.run, packet ((g.pre.thr u).rdPair a) ∧
        ∃ bs, g.pre.fetchBytes (g.pre.who u) ((g.pre.thr u).rdPair a).toNat 4 = .ok bs ∧
          ∃ h', BitVec.ofNat 32 (leNat bs) = mkWord h' 0x00#6 0#6 (hi6 cls) (lo6 cls) 0x05#6) →
      Acts (mkWord h 0x03#6 (hi6 cls) (rb a) (lo6 cls) 0x02#6) .ctl (.calli h cls a) s g
        (did h (g.jump g.run (fun u => ⟨((g.pre.thr u).rdPair a).setWidth 56, 0⟩)) linked)) ∧
    Acts (mkWord h 0x1F#6 (rb a) (t2 off) (t1 off) (t0 off)) .ctl (.dbnz h a off) s g
      (did h (g.jump (g.run.filter (fun u => (g.pre.thr u).rd a != 1)) (fun _ => tgt off.toInt))
        (s.m.onRun g.run (fun u t => t.wr a (BitVec.ofInt 32 (((g.pre.thr u).rd a).toInt - 1)))))

/-- R108, R110 to R114: NOP and ENTRY do nothing; EXIT and YIELD as the last word of their group, where no lane owes a frame, a result or a
report; WAITC, whose read waits as a load does; TRAP takes every lane of its run to USER with %trapi v[a], to resume after its group.
Where a word follows EXIT or YIELD in its group, its lanes leave once their pending sets are empty: that is the model's choice
(DEDUCED, log 41). -/
def Obligations.SystemWords : Prop :=
  ∀ (h : Hdr) (cls : BitVec 12) (d a b : Reg) (s : State) (g : Group),
    let waits := ∀ u ∈ g.run, g.pre.waiting u = false
    let settled := waits ∧ g.rest.tail = [] ∧ ∀ u ∈ g.run, s.m.waiting u = false ∧ (s.m.thr u).deferred = none
    let bare := ∀ u ∈ g.run, (g.pre.thr u).frames = [] ∧ (g.pre.thr u).depth = 0
    let leaves (l : Nat → Leave) := did h { g with stats := g.run.map (fun u => (u, Stat.leaving (l u))) ++ g.stats } s.m
    let user (u : Nat) : Nat × Trap := (u, { cause := .user, info := (g.pre.thr u).rd a, res := .after })
    let sys (f3 f2 f1 fn : BitVec 6) := mkWord h 0x00#6 f3 f2 f1 fn
    Acts (sys 0#6 0#6 0#6 0x00#6) .ctl (.nop h) s g (did h g s.m) ∧
    Acts (sys 0#6 (hi6 cls) (lo6 cls) 0x05#6) .ctl (.entry h cls) s g (did h g s.m) ∧
    (settled → bare →
      ∃ m, Acts (sys 0#6 0#6 0#6 0x01#6) .ctl (.exit h) s g (did h { g with held := g.run ++ g.held } m) ∧
        (∀ u, u ∈ g.run → s.m.threads.has u = true → (m.thr u).stat = .exited ∧ (m.thr u).due = false) ∧
        (∀ u, u ∉ g.run → m.thr u = s.m.thr u) ∧ SameBytes s.m m) ∧
    (waits → bare → g.rest.tail ≠ [] → Acts (sys 0#6 0#6 0#6 0x01#6) .ctl (.exit h) s g (leaves (fun _ => .exit))) ∧
    (waits → g.rest.tail ≠ [] → Acts (sys 0#6 0#6 0#6 0x03#6) .ctl (.yield h) s g (leaves (fun u => .yield (g.pre.thr u).preq))) ∧
    (∀ (m : Mach) (u : Nat), m.threads.has u = true → m.waiting u = false → m.onSpindle u = true → (m.thr u).deferred = none →
      ((m.thr u).stat = .leaving .exit → ∃ m', leaveStep m u = some m' ∧ (m'.thr u).stat = .exited ∧ (m'.thr u).due = false) ∧
      (∀ p, (m.thr u).stat = .leaving (.yield p) → ∃ m', leaveStep m u = some m' ∧
        m'.thr u = { m.thr u with pend := 0, yield := !p, stat := if p = true then .yieldWait else .run })) ∧
    Acts (sys 0#6 (rb a) 0#6 0x02#6) .ctl (.trap h a) s g
      (did h { g with run := [], traps := g.traps ++ g.run.map user } s.m) ∧
    (settled → Acts (sys 0#6 0#6 0#6 0x03#6) .ctl (.yield h) s g
      (did h { g with stats := (g.run.filter (fun u => (g.pre.thr u).preq)).map (fun u => (u, Stat.yieldWait)) ++ g.stats }
        (s.m.onRun g.run (fun u t => { t with pend := 0, yield := !(g.pre.thr u).preq })))) ∧
    (isEven a = true → ∀ ls : Nat → List Loc, (∀ u ∈ g.run, accessAt g.pre u .read ((g.pre.thr u).rdPair a) 4 4 = .ok (ls u) ∧
        g.pre.acquiring u = false ∧ g.pre.heldAt (g.pre.gang g.gang).crew (vasOf (ls u)) = false) →
      Acts (sys (rb d) (rb a) (rb b) 0x04#6) .ctl (.waitc h d a b) s g
        (did h g (longRes g s.m d 1 (sys (rb d) (rb a) (rb b) 0x04#6)
          (fun u => (.waitc (ls u) ((g.pre.thr u).rd b), (g.pre.thr u).rdPair a)))))

/-- R14, R15, R36, R37: MOVS and SMOV. Each special register and what it holds; the timers are long results; %wtrap is the gang's and
takes the lowest lane's operand (DEDUCED, log 36). -/
def Obligations.SpecialRegisterWords : Prop :=
  ∀ (h : Hdr) (d a : Reg) (sp : BitVec 6) (s : State) (g : Group),
    let movs := mkWord h 0x03#6 (rb d) sp 0#6 0x08#6
    let smov := mkWord h 0x03#6 sp (rb a) 0#6 0x09#6
    let gang (u : Nat) := g.pre.gang (g.pre.thr u).gang
    let region (u : Nat) := g.pre.region (g.pre.thr u).region
    let narrow (n : Nat) (f : Nat → Word) := sp.toNat = n → Acts movs .ctl (.movs h d sp) s g (didThreads h s g (fun u t => t.wr d (f u)))
    let wide (n : Nat) (f : Nat → BitVec 64) := sp.toNat = n → isEven d = true →
      Acts movs .ctl (.movs h d sp) s g (didThreads h s g (fun u t => t.wrPair d (f u)))
    let timer (n : Nat) (f : Nat → BitVec 64) := sp.toNat = n → isEven d = true →
      Acts movs .ctl (.movs h d sp) s g (didLong h s g (.movs h d sp) d 2 (fun u => [(f u).setWidth 32, (f u >>> 32).setWidth 32]))
    narrow 0x00 (fun u => BitVec.ofNat 32 (g.pre.thr u).lane) ∧
    narrow 0x01 (fun u => (gang u).gangid) ∧
    narrow 0x02 (fun u => match (gang u).crew with | some k => (g.pre.crew k).crewid | none => 0xFFFFFFFF) ∧
    narrow 0x03 (fun u => match (gang u).crew with | some k => BitVec.ofNat 32 (g.pre.crewGangs k).length | none => 0) ∧
    narrow 0x04 (fun u => BitVec.ofNat 32 ((gang u).sp % 96)) ∧
    narrow 0x05 (fun u => BitVec.ofNat 32 ((gang u).sp / 96)) ∧
    narrow 0x06 (fun u => BitVec.ofNat 32 (g.pre.ctx (region u).ctx).rank) ∧
    narrow 0x07 (fun u => (g.pre.thr u).tid) ∧
    timer 0x08 (fun _ => g.pre.clock) ∧ timer 0x09 (fun u => (gang u).wtime) ∧ timer 0x0A (fun u => (gang u).wtrap) ∧
    narrow 0x0B (fun u => BitVec.ofNat 32 (2 ^ ((region u).rcb.hbexp + 8))) ∧
    wide 0x0C (fun u => (g.pre.thr u).fstk) ∧
    narrow 0x0D (fun u => BitVec.ofNat 32 ((g.pre.thr u).depth.toNat * 2 ^ 16 + (g.pre.thr u).frames.length % 512)) ∧
    wide 0x0E (fun u => (g.pre.thr u).lnk) ∧
    narrow 0x0F (fun u => (g.pre.thr u).fmode) ∧ narrow 0x10 (fun u => (g.pre.thr u).fstat) ∧
    narrow 0x11 (fun u => if (g.pre.thr u).preq then 1 else 0) ∧
    narrow 0x12 (fun u => if (region u).rcb.det then BitVec.ofNat 32 (16 * (region u).rcb.lpexp + 1) else 0) ∧
    narrow 0x13 (fun u => (g.pre.thr u).trapc) ∧ wide 0x14 (fun u => (g.pre.thr u).trapa) ∧ narrow 0x15 (fun u => (g.pre.thr u).trapi) ∧
    (0x16 ≤ sp.toNat → issueOf movs = .illegalEncoding movs) ∧
    (sp.toNat = 0x0A → isEven a = true → g.run ≠ [] → Acts smov .ctl (.smov h sp a) s g
      (did h g (s.m.modGang g.gang (fun x => { x with wtrap := (g.pre.thr (g.run.headD 0)).rdPair a })))) ∧
    (sp.toNat = 0x0E → isEven a = true → Acts smov .ctl (.smov h sp a) s g
      (didThreads h s g (fun u t => { t with lnk := (g.pre.thr u).rdPair a }))) ∧
    (sp.toNat = 0x0F → Acts smov .ctl (.smov h sp a) s g
      (didThreads h s g (fun u t => { t with fmode := (g.pre.thr u).rd a &&& 0xF }))) ∧
    (sp.toNat = 0x10 → Acts smov .ctl (.smov h sp a) s g
      (didThreads h s g (fun u t => { t with fstat := (g.pre.thr u).rd a &&& 0x1F }))) ∧
    (sp.toNat ∉ [0x0A, 0x0E, 0x0F, 0x10] → issueOf smov = .illegalEncoding smov)

/-- R176 to R179: the gang masks. Run is the mask of the lanes of the run. R162, R163, R180: REGROUP of a crew gang whose pending sets
are empty and whose lanes all find an entry, as the last word of its group: they leave the gang for the table, to go on at the next
packet. -/
def Obligations.MaskAndRegroupWords : Prop :=
  (∀ (h : Hdr) (k : BitVec 6) (d a : Reg) (s : State) (g : Group), k.toNat < 12 →
    let run : Word := g.run.foldl (fun x u => x ||| (1#32 <<< (g.pre.thr u).lane)) 0
    let gang := g.pre.gang g.gang
    let old : Word := gang.masks.toList.getD k.toNat 0
    let w (f3 f2 f1 fn : BitVec 6) := mkWord h 0x03#6 f3 f2 f1 fn
    let set (x : Word) := s.m.modGang g.gang (fun y => { y with masks := y.masks.setIfInBounds k.toNat x })
    (gang.crew.isSome = true →
      Acts (w k 0#6 0#6 0x10#6) .ctl (.mjoin h k) s g (did h g (set (old ||| run))) ∧
      Acts (w k 0#6 0#6 0x11#6) .ctl (.mleave h k) s g (did h g (set (old &&& ~~~run))) ∧
      (run &&& ~~~old = 0 → run &&& ~~~gang.released = 0 → Acts (w k 0#6 0#6 0x12#6) .ctl (.mwait h k) s g
        (did h g (s.m.modGang g.gang (fun y => { y with released := y.released &&& ~~~run })))) ∧
      (g.run ≠ [] → Acts (w k (rb a) 0#6 0x13#6) .ctl (.mset h k a) s g (did h g (set ((g.pre.thr (g.run.headD 0)).rd a))))) ∧
    Acts (w (rb d) 0#6 k 0x14#6) .ctl (.mget h d k) s g (didReg h s g d (fun _ => if gang.crew.isSome then old else 0)) ∧
    Acts (w (rb d) 0#6 0#6 0x15#6) .ctl (.mact h d) s g
      (didReg h s g d (fun t => if gang.crew = none ∧ (g.pre.region gang.region).rcb.det = true then 1#32 <<< t.lane else run))) ∧
  (∀ (h : Hdr) (a : Reg) (s : State) (g : Group),
    decodeWord (mkWord h 0x19#6 0#6 (rb a) 0#6 (0#1 ++ 3#5)) = .ok (.regroup h a) ∧
    (Issues (.regroup h a) s g → (g.pre.gang g.gang).crew.isSome = true →
      (∀ u ∈ g.run, g.pre.waiting u = false ∧ s.m.waiting u = false ∧ (s.m.thr u).deferred = none) → g.rest.tail = [] →
      (rgFill g a).2 = g.run.length →
      ∃ m, exec (.regroup h a) s = did h { g with held := g.run ++ g.held } m ∧
        (∀ u, u ∈ g.run → s.m.threads.has u = true →
        (m.thr u).stat = .inTable ∧ (m.thr u).pos = ⟨g.pos.pkt + 12, 0⟩ ∧ (m.thr u).pend = 0) ∧
        (∀ u, u ∉ g.run → m.thr u = s.m.thr u) ∧
        (m.spindle (g.pre.gang g.gang).sp).regroup = (rgFill g a).1 ∧
        (∀ u ∈ g.run, some u ∉ (m.gang g.gang).lanes) ∧
        m.dram = s.m.dram ∧ m.crews = s.m.crews ∧ m.results = s.m.results ∧ m.reqs = s.m.reqs))

/-- R115, R118 to R122: FORK pushes a latent frame or calls its body, FORKR opens a range, RSTEP claims its next step. F is the number
of frame slots of the lane's region. That FORK and FORKR write v2:v3 also in a group whose earlier word names it as a destination
(DESIGN CHOICE, log 83), and that an ENTRY, a relative target, wraps modulo 2^56 (DESIGN CHOICE, log 96), are the model's choices. -/
def Obligations.ForkWords : Prop :=
  ∀ (h : Hdr) (vs d : Reg) (off : BitVec 18) (s : State) (g : Group),
    let F (u : Nat) := 8 * ((g.pre.region (g.pre.thr u).region).rcb.fslots + 1)
    let fits (u : Nat) := decide ((g.pre.thr u).frames.length < F u - 4)
    let entry : BitVec 56 := g.pos.pkt + BitVec.ofInt 56 (12 * off.toInt)
    let next : BitVec 56 := g.pos.pkt + 12#56
    let arg (u : Nat) := (g.pre.thr u).rdPair vs
    (isEven vs = true → (∀ u ∈ g.run, fits u = true ∨ (g.pre.thr u).depth ≠ 0xFFFF#16) →
      Acts (mkWord h 0x04#6 (rb vs) (t2 off) (t1 off) (t0 off)) .ctl (.fork h vs off) s g
        (did h (g.jump (g.run.filter (fun u => !fits u)) (fun _ => ⟨entry, 0⟩))
          (s.m.onRun g.run (fun u t =>
            if fits u then { t with frames := t.frames ++ [⟨entry, .point, .latent, false, arg u, 0, 0, 0, 0⟩] }
            else { t.wrPair 2 (arg u) with depth := t.depth + 1, lnk := next.setWidth 64 })))) ∧
    (isEven vs = true → vs.val ≤ 58 →
      (∀ u ∈ g.run, (g.pre.thr u).frames.length ≠ F u ∧ ((g.pre.thr u).rd (vs + 4)).toNat % 65536 ≠ 0) →
      Acts (mkWord h 0x1E#6 (rb vs) (t2 off) (t1 off) (t0 off)) .ctl (.forkr h vs off) s g
        (did h (g.jump g.run (fun _ => ⟨entry, 0⟩))
          (s.m.onRun g.run (fun u t =>
            let lo := (g.pre.thr u).rd (vs + 2)
            let hi := if ((g.pre.thr u).rd (vs + 3)).toNat < lo.toNat then lo else (g.pre.thr u).rd (vs + 3)
            ((t.setCell t.frames.length { t.cell t.frames.length with
                grain := BitVec.ofNat 16 ((g.pre.thr u).rd (vs + 4)).toNat, npiece := 0, done := 0, taken := 0, actdepth := t.depth }).push
              ⟨entry, .range, .active, false, arg u, next, 0, lo, hi⟩).wrPair 2 (arg u))))) ∧
    (isEven d = true → ∀ f : Nat → Frame,
      (∀ u ∈ g.run, (g.pre.thr u).frames.getLast? = some (f u) ∧ (f u).kind = .range ∧ (f u).state = .active) →
      Acts (mkWord h 0x1C#6 (rb d) 0#6 0#6 0x00#6) .ctl (.rstep h d) s g
        (did h g (s.m.onRun g.run (fun u t =>
          let n := min (t.cell (t.frames.length - 1)).grain.toNat ((f u).hi.toNat - (f u).lo.toNat)
          let e := (f u).lo + BitVec.ofNat 32 n
          let t1 := (t.wr d (f u).lo).wr (d + 1) e
          { t1 with frames := t.frames.set (t.frames.length - 1) { f u with lo := e } })))) ∧
    (isEven d = true → ∀ f : Nat → Frame, (∀ u ∈ g.run, (g.pre.thr u).frames.getLast? = some (f u) ∧ ¬ ((f u).kind = .range ∧ (f u).state = .active)) →
      (Issues (.rstep h d) s g → exec (.rstep h d) s =
        did h { g with run := [], traps := g.traps ++ g.run.map (fun u => (u, ⟨.frame, 0, 0, .group, false⟩)) } s.m))

/-- R118, R123, R226: JOIN, by how each lane of its run stands: a lane that owes depth pays it, a latent frame runs inline, the done piece
of a promoted frame pops it after an acquire and a fence at dev scope. R124, R226: RJOIN of an exhausted range: the end of the range when
every piece has been returned, else the piece with the lowest LO, once it is done. R125, R224, R226: ENDP, by how each lane stands: an
overflow call returns by %lnk, an inline body by LINK, with Pair(a) in v2:v3 for a range; a root frame, where ENDP is the last word of its
group, delivers Pair(a) to its piece of the parent's cell and ends the thread; where a word follows, a lane of a root leaves once its
pending set is empty. That JOIN and ENDP write v2:v3 also in a group whose earlier word names it as a destination (DESIGN CHOICE, log 83), and
when the lane of a root leaves (DEDUCED, log 41), are the model's choices. -/
def Obligations.JoinAndEndpWords : Prop :=
  (∀ (h : Hdr) (s : State) (g : Group) (f : Nat → Frame),
    let w := mkWord h 0x1D#6 0#6 0#6 0#6 0x00#6
    let next : BitVec 56 := g.pos.pkt + 12#56
    let owes (u : Nat) := decide ((g.pre.thr u).mark.toNat < (g.pre.thr u).depth.toNat)
    let top (t : Thread) := t.frames.length - 1
    let calls (u : Nat) := !owes u && (f u).state == .latent
    let pops (u : Nat) := !owes u && (f u).state == .promoted
    let stands (u : Nat) : Prop := (g.pre.thr u).frames.getLast? = some (f u) ∧ (f u).kind = .point ∧ (calls u = true ∨ pops u = true)
    let m1 := s.m.onRun g.run (fun u t =>
      if owes u then { t with depth := t.depth - 1 }
      else if calls u then ((t.setFrame (top t) { f u with state := .active, link := next }).setCell (top t)
        { t.cell (top t) with actdepth := t.depth }).wrPair 2 (f u).arg
      else { t with frames := t.frames.dropLast })
    (∀ u ∈ g.run, owes u = true ∨ stands u) →
    (∀ u ∈ g.run, pops u = true → ((g.pre.thr u).cell (top (g.pre.thr u))).done.getLsbD 0 = true ∧ g.pre.busy u = false) →
    Acts w .ctl (.join h) s g (did h (g.jump (g.run.filter calls) (fun u => ⟨(f u).entry, 0⟩))
      (if g.run.any pops then m1.fenceL1 (g.pre.gang g.gang).sp (g.pre.ctxOfGang g.gang) 3 else m1))) ∧
  (∀ (h : Hdr) (d : Reg) (s : State) (g : Group) (f : Nat → Frame) (j : Nat → Nat), d.val % 4 = 0 →
    let w := mkWord h 0x1D#6 (rb d) 0#6 0#6 0x01#6
    let cell (u : Nat) := (g.pre.thr u).cell ((g.pre.thr u).frames.length - 1)
    let ended (u : Nat) := (g.pre.thr u).frames.getLast? = some (f u) ∧ (f u).kind = .range ∧ (f u).state = .active ∧ (f u).lo = (f u).hi
    let piece (u j : Nat) := (cell u).pieces.toList.getD j default
    let left (u : Nat) := (List.range (cell u).npiece.toNat).any (fun i => !(cell u).taken.getLsbD i)
    let m1 := s.m.onRun g.run (fun u t =>
      if left u then (t.wrs d [(piece u (j u)).part.setWidth 32, ((piece u (j u)).part >>> 32).setWidth 32,
            (piece u (j u)).lo, 1]).setCell (t.frames.length - 1) { cell u with taken := (cell u).taken ||| (1#7 <<< j u) }
      else t.wrs d [0, 0, (f u).hi, 0])
    (∀ u ∈ g.run, s.m.thr u = g.pre.thr u ∧ ended u) →
    (∀ u ∈ g.run, left u = true → j u < (cell u).npiece.toNat ∧ (cell u).taken.getLsbD (j u) = false ∧
        (cell u).done.getLsbD (j u) = true ∧ g.pre.busy u = false ∧
        ∀ i, i < (cell u).npiece.toNat → (cell u).taken.getLsbD i = false → i ≠ j u → (piece u (j u)).lo.toNat < (piece u i).lo.toNat) →
    Acts w .ctl (.rjoin h d) s g (did h g
      (if g.run.any left then m1.fenceL1 (g.pre.gang g.gang).sp (g.pre.ctxOfGang g.gang) 3 else m1))) ∧
  (∀ (h : Hdr) (a : Reg) (s : State) (g : Group) (f : Nat → Frame), isEven a = true →
    let w := mkWord h 0x1D#6 0#6 (rb a) 0#6 0x02#6
    let t (u : Nat) := g.pre.thr u
    let owes (u : Nat) := decide ((t u).mark.toNat < (t u).depth.toNat)
    let cell (u : Nat) := (t u).cell ((t u).frames.length - 1)
    let root (u : Nat) := !owes u && (f u).root
    let calls (u : Nat) : Prop := owes u = true ∧ (t u).lnk.toNat < 2 ^ 56 ∧ (t u).lnk.toNat % 12 = 0
    let ends (u : Nat) : Prop := owes u = false ∧ (t u).frames.getLast? = some (f u) ∧ (f u).state = .active ∧
      ((f u).kind = .range → (f u).lo = (f u).hi ∧ ∀ j < (cell u).npiece.toNat, (cell u).taken.getLsbD j = true)
    let quiet (u : Nat) : Prop := g.pre.waiting u = false ∧ g.pre.busy u = false
    let goes (u : Nat) : Pos := if owes u then ⟨(t u).lnk.setWidth 56, 0⟩ else ⟨(f u).link, 0⟩
    ((∀ u ∈ g.run, calls u ∨ (ends u ∧ (f u).root = false)) → ∃ m,
      Acts w .ctl (.endp h a) s g (did h (g.jump g.run goes) m) ∧ m.dram = s.m.dram ∧
        ∀ u ∈ g.run, s.m.threads.has u = true → m.thr u =
          if owes u then s.m.thr u
          else if (f u).kind = .range then { s.m.thr u with frames := (s.m.thr u).frames.dropLast }.wrPair 2 ((t u).rdPair a)
          else { s.m.thr u with frames := (s.m.thr u).frames.dropLast }) ∧
    ((∀ u ∈ g.run, ends u ∧ (f u).root = true ∧ quiet u) → g.rest.tail ≠ [] → ∃ m,
      Acts w .ctl (.endp h a) s g (did h { g with
        stats := g.run.map (fun u => (u, Stat.leaving (.root ((t u).rdPair a)))) ++ g.stats } m) ∧ SameBytes s.m m ∧
        ∀ u, m.thr u = s.m.thr u) ∧
    (g.rest.tail = [] → (∀ u ∈ g.run, calls u ∨ (ends u ∧ (f u).root = false) ∨ (ends u ∧ (f u).root = true ∧ quiet u ∧
        s.m.waiting u = false ∧ s.m.busy u = false ∧ (s.m.thr u).deferred = none ∧ (f u).piece ≠ 7 ∧ s.m.threads.has (t u).parent = true)) →
      (g.run.filter root).Pairwise (fun u v => ((t u).parent, (t u).pslot, (f u).piece) ≠ ((t v).parent, (t v).pslot, (f v).piece)) → ∃ m,
      Acts w .ctl (.endp h a) s g (did h { g.jump (g.run.filter (fun u => !root u)) goes with held := g.run.filter root ++ g.held } m) ∧
        (∀ u ∈ g.run, root u = false → s.m.threads.has u = true → (m.thr u).frames =
          if owes u then (s.m.thr u).frames else (s.m.thr u).frames.dropLast) ∧
        ∀ u ∈ g.run, root u = true → (s.m.threads.has u = true → (m.thr u).stat = .exited) ∧
          (((m.thr (t u).parent).cell (t u).pslot).pieces.toList.getD (f u).piece.toNat default).part = (t u).rdPair a ∧
          ((m.thr (t u).parent).cell (t u).pslot).done.getLsbD (f u).piece.toNat = true ∧
          (t u).entry ∉ m.pools.at (g.pre.poolOf (t u).region)))

/-- R23, R24, R89, R90, R92, R94: the loads, where no lane waits for an ACQ, every access passes the checks of R95 and no watermark
holds it. The destinations join the pending set, and one load of n aligned bytes at Pair(base) + off goes on its way for each lane. R90:
the words that loaded bytes give: sign and zero extension, and little-endian words. R97: the bytes of a typed element, its scale byte last,
and how they decode. R39, R41, R43 to R49, R98: FP32 as it is, FP16 and BF16 widened exactly, L6, K8 and K4 elements and the entries of a
sparse group as codes times their scale, rounded once; a malformed group gives no value. -/
def Obligations.LoadWords : Prop :=
  (∀ (h : Hdr) (d base : Reg) (off : BitVec 12) (s : State) (g : Group) (ls : Nat → List Loc), isEven base = true →
    let va (u : Nat) : BitVec 64 := (g.pre.thr u).rdPair base + off.signExtend 64
    let w (mj : BitVec 6) := mkWord h mj (rb d) (rb base) (hi6 off) (lo6 off)
    let free := ∀ u ∈ g.run, g.pre.acquiring u = false ∧ g.pre.heldAt (g.pre.gang g.gang).crew (vasOf (ls u)) = false
    let loads (mj : BitVec 6) (i : Instr) (n : Nat) (cv : Nat → Conv) := Acts (w mj) .mem i s g
      (did h g (longRes g s.m d n (w mj) (fun u => (.load (ls u) (cv u), va u))).nextWord)
    let open' (n : Nat) := free ∧ ∀ u ∈ g.run, accessAt g.pre u .read (va u) n n = .ok (ls u)
    (open' 1 → loads 0x20#6 (.ldB h d base off) 1 (fun _ => .sext 8) ∧ loads 0x21#6 (.ldBu h d base off) 1 (fun _ => .zext)) ∧
    (open' 2 → loads 0x22#6 (.ldH h d base off) 1 (fun _ => .sext 16) ∧ loads 0x23#6 (.ldHu h d base off) 1 (fun _ => .zext)) ∧
    (open' 4 → loads 0x24#6 (.ldW h d base off) 1 (fun _ => .words 1)) ∧
    (isEven d = true → open' 8 → loads 0x25#6 (.ldD h d base off) 2 (fun _ => .words 2)) ∧
    (d.val % 4 = 0 → open' 16 → loads 0x26#6 (.ldQ h d base off) 4 (fun _ => .words 4)) ∧
    (free → (∀ u ∈ g.run, typedReach false g.pre u (va u) = .ok (ls u)) →
      loads 0x27#6 (.ldT h d base off) 1 (fun u => typedConv g.pre u (va u)))) ∧
  (∀ (bs : List Byte),
    let x := leNat bs
    (bs.length = 1 → (Conv.sext 8).value bs = some [BitVec.ofInt 32 (if x < 128 then (x : Int) else (x : Int) - 256)]) ∧
    (bs.length = 2 → (Conv.sext 16).value bs = some [BitVec.ofInt 32 (if x < 32768 then (x : Int) else (x : Int) - 65536)]) ∧
    (bs.length ≤ 2 → Conv.zext.value bs = some [BitVec.ofNat 32 x]) ∧
    (bs.length = 4 → (Conv.words 1).value bs = some [BitVec.ofNat 32 x] ∧ (Conv.typed 1 0).value bs = some [BitVec.ofNat 32 x]) ∧
    (bs.length = 8 → (Conv.words 2).value bs = some [BitVec.ofNat 32 x, BitVec.ofNat 32 (x / 2 ^ 32)]) ∧
    (bs.length = 16 → (Conv.words 4).value bs =
      some [BitVec.ofNat 32 x, BitVec.ofNat 32 (x / 2 ^ 32), BitVec.ofNat 32 (x / 2 ^ 64), BitVec.ofNat 32 (x / 2 ^ 96)]) ∧
    (bs.length = 2 → ∀ s m e,
      (bf16.decode x = .fin s m e → (Conv.typed 3 0).value bs = some [BitVec.ofNat 32 (x * 2 ^ 16)]) ∧
      (fp16.decode x = .fin s m e → (Conv.typed 2 0).value bs = some [BitVec.ofNat 32 (roundF fp32 .rne false s m e).1] ∧
        (roundF fp32 .rne false s m e).2 = 0)) ∧
    (bs.length = 2 → ∀ f, (f = 2 ∧ x % 2 ^ 15 = 0x7C00) ∨ (f = 3 ∧ x % 2 ^ 15 = 0x7F80) →
      (Conv.typed f 0).value bs = some [BitVec.ofNat 32 (x / 2 ^ 15 * 2 ^ 31 + 0x7F800000)]) ∧
    (bs.length = 2 → ∀ f, (f = 2 ∧ 0x7C00 < x % 2 ^ 15) ∨ (f = 3 ∧ 0x7F80 < x % 2 ^ 15) → (Conv.typed f 0).value bs = some [0x7FC00000])) ∧
  (∀ (body : List Byte) (sc : Byte),
    let b := leNat body
    let sat (neg : Bool) (m : Nat) (e : Int) : Word :=
      let r := (roundF fp32 .rne false neg m e).1
      BitVec.ofNat 32 (if r % 2 ^ 31 = 0x7F800000 then r - 1 else r)
    let times (w c : Nat) : Word :=
      let k : Int := if c < 2 ^ (w - 1) then (c : Int) else (c : Int) - 2 ^ w
      sat (decide (k < 0)) k.natAbs sc.toInt
    let l6 (c : Nat) : Word :=
      if c = 0x20 then 0 else sat (decide (32 ≤ c)) ([32768, 38968, 46341, 55109].getD (c % 4) 0) (((c % 32 / 4 : Nat) : Int) - 19 + sc.toInt)
    (body.length = 1 → (Conv.typed 5 0).value (body ++ [sc]) = some [times 8 b] ∧
      ∀ k < 2, (Conv.typed 6 (4 * k)).value (body ++ [sc]) = some [times 4 (b / 16 ^ k % 16)]) ∧
    (body.length = 3 → ∀ k < 4, (Conv.typed 4 (6 * k)).value (body ++ [sc]) = some [l6 (b / 64 ^ k % 64)]) ∧
    (∀ fmt w n p : Nat, (fmt = 4 ∧ w = 6) ∨ (fmt = 5 ∧ w = 8) ∨ (fmt = 6 ∧ w = 4) →
      let code (i : Nat) := b / 2 ^ (w * i) % 2 ^ w
      let pos (i : Nat) := b / 2 ^ (w * n + 4 * i) % 16
      ((∃ i < n, 12 ≤ pos i ∨ (i + 1 < n ∧ pos (i + 1) ≤ pos i)) → (Conv.sparse fmt n p).value (body ++ [sc]) = none) ∧
      ((∀ i < n, pos i < 12 ∧ (i + 1 < n → pos i < pos (i + 1))) →
        ((∀ i < n, pos i ≠ p) → (Conv.sparse fmt n p).value (body ++ [sc]) = some [0]) ∧
        ∀ i < n, pos i = p → (Conv.sparse fmt n p).value (body ++ [sc]) = some [if fmt = 4 then l6 (code i) else times w (code i)]))) ∧
  (∀ (m : Mach) (u : Nat) (va : BitVec 64) (a : Attr) (ls : List Loc), m.attrAt (m.who u) va.toNat = some a →
    a.origin ≤ va.toNat → typedReach false m u va = .ok ls → a.blk < 3 →
    let i := va.toNat - a.origin
    let sc := a.origin + a.soff + i / [24, 48, 96].getD a.blk 1
    let lies (bytes : List Nat) (cv : Conv) : Prop := ls.map (·.va) = bytes ∧ typedConv m u va = cv
    let near (x n : Nat) : List Nat := (List.range n).map (fun j => a.origin + x + j)
    (a.sparse = 0 →
      (a.fmt = 1 → lies (near (4 * i) 4) (.typed 1 0)) ∧ (a.fmt = 2 ∨ a.fmt = 3 → lies (near (2 * i) 2) (.typed a.fmt 0)) ∧
      (a.fmt = 4 → lies (near (3 * (i / 4)) 3 ++ [sc]) (.typed 4 (6 * (i % 4)))) ∧
      (a.fmt = 5 → lies (near i 1 ++ [sc]) (.typed 5 0)) ∧ (a.fmt = 6 → lies (near (i / 2) 1 ++ [sc]) (.typed 6 (4 * (i % 2))))) ∧
    (∀ n w, (a.sparse, n) ∈ [(1, 2), (2, 3), (3, 4), (4, 6)] → (a.fmt, w) ∈ [(4, 6), (5, 8), (6, 4)] →
      let size := (n * (w + 4) + 7) / 8
      lies (near (i / 12 * size) size ++ [sc]) (.sparse a.fmt n (i % 12))))

/-- R25, R89, R90, R92, R94, R99: the stores, on the conditions of the loads: one store of the lowest n bytes of the data goes on its
way for each lane, and nothing is stored yet. ST.T stores an FP32 as it is, and an FP16 or BF16 rounded by RNE; into a block format it
keeps the FP32 until it performs, as RequestsPerform says. -/
def Obligations.StoreWords : Prop :=
  ∀ (h : Hdr) (vs base : Reg) (off : BitVec 12) (s : State) (g : Group) (ls : Nat → List Loc), isEven base = true →
    let va (u : Nat) : BitVec 64 := (g.pre.thr u).rdPair base + off.signExtend 64
    let w (mj : BitVec 6) := mkWord h mj (rb vs) (rb base) (hi6 off) (lo6 off)
    let free := ∀ u ∈ g.run, g.pre.acquiring u = false ∧ g.pre.heldAt (g.pre.gang g.gang).crew (vasOf (ls u)) = false
    let rd (u i : Nat) : Nat := ((g.pre.thr u).rd (vs + Fin.ofNat 64 i)).toNat
    let req (mj : BitVec 6) (n : Nat) (k : ReqK) (x : Mach) (u : Nat) : Req :=
      { seq := 0, u := u, gang := g.gang, sp := (x.gang g.gang).sp, kind := k, ls := ls u,
        va := va u, scope := 0, word := w mj, data := (g.pre.thr u).rdN vs n, regs := vs }
    let stores (mj : BitVec 6) (i : Instr) (n : Nat) (k : Nat → ReqK) := Acts (w mj) .mem i s g
      (did h g (eachLane g s.m (fun x u => x.addReq (req mj n (k u) x u))).nextWord)
    let open' (n : Nat) := free ∧ ∀ u ∈ g.run, accessAt g.pre u .write (va u) n n = .ok (ls u)
    let typed (fmt : Nat) := free ∧ ∀ u ∈ g.run, typedReach true g.pre u (va u) = .ok (ls u) ∧
      ∃ sub, typedConv g.pre u (va u) = .typed fmt sub
    (open' 1 → stores 0x28#6 (.stB h vs base off) 1 (fun u => .store (rd u 0 % 2 ^ 8) (2 ^ 8 - 1))) ∧
    (open' 2 → stores 0x29#6 (.stH h vs base off) 1 (fun u => .store (rd u 0 % 2 ^ 16) (2 ^ 16 - 1))) ∧
    (open' 4 → stores 0x2A#6 (.stW h vs base off) 1 (fun u => .store (rd u 0) (2 ^ 32 - 1))) ∧
    (isEven vs = true → open' 8 → stores 0x2B#6 (.stD h vs base off) 2 (fun u => .store (rd u 0 + 2 ^ 32 * rd u 1) (2 ^ 64 - 1))) ∧
    (vs.val % 4 = 0 → open' 16 → stores 0x2C#6 (.stQ h vs base off) 4
      (fun u => .store (rd u 0 + 2 ^ 32 * rd u 1 + 2 ^ 64 * rd u 2 + 2 ^ 96 * rd u 3) (2 ^ 128 - 1))) ∧
    (typed 1 → stores 0x2D#6 (.stT h vs base off) 1 (fun u => .store (rd u 0) (2 ^ 32 - 1))) ∧
    (typed 2 → stores 0x2D#6 (.stT h vs base off) 1 (fun u => .store (cvtFF fp32 fp16 .rne false (rd u 0)).1 (2 ^ 16 - 1))) ∧
    (typed 3 → stores 0x2D#6 (.stT h vs base off) 1 (fun u => .store (cvtFF fp32 bf16 .rne false (rd u 0)).1 (2 ^ 16 - 1))) ∧
    (∀ fmt sub : Nat → Nat, free → (∀ u ∈ g.run, typedReach true g.pre u (va u) = .ok (ls u) ∧
        typedConv g.pre u (va u) = .typed (fmt u) (sub u) ∧ (fmt u = 4 ∨ fmt u = 5 ∨ fmt u = 6)) →
      stores 0x2D#6 (.stT h vs base off) 1 (fun u => .typed (fmt u) (sub u) (rd u 0)))

/-- R212 to R217, R221 to R223, R335: ATOM, ACAS, FRED, CHUNK, ACQ and REL, on the conditions of the loads and outside the cases that
trap with DETERM. Each sends one request, and the old value returns as a long result; FRED's register stays pending until it has
performed. R213: the sector of an atomic leaves the L1 of the spindle before, an error
in what is written back with it (DESIGN CHOICE, log 104). R222, R223, R227: ACQ and REL cover the ranges that are bound
to their object as they issue. -/
def Obligations.AtomicWords : Prop :=
  ∀ (h : Hdr) (d a : Reg) (w8 : Bool) (op : BitVec 4) (fop fmt : BitVec 2) (sc : BitVec 3) (s : State) (g : Group) (ls : Nat → List Loc),
    isEven a = true → sc.toNat < 6 →
    let va (u : Nat) : BitVec 64 := (g.pre.thr u).rdPair a
    let n := if w8 then 2 else 1
    let rd (u i : Nat) : Nat := ((g.pre.thr u).rd (d + Fin.ofNat 64 i)).toNat
    let free := ∀ u ∈ g.run, g.pre.acquiring u = false ∧ g.pre.detOf u = false ∧ g.pre.heldAt (g.pre.gang g.gang).crew (vasOf (ls u)) = false
    let open' (n : Nat) := free ∧ ∀ u ∈ g.run, accessAt g.pre u .atomic (va u) n n = .ok (ls u)
    let asked (w : Word) (k : ReqK) (xs : List Word) (x : Mach) (u : Nat) : Req :=
      { seq := 0, u := u, gang := g.gang, sp := (x.gang g.gang).sp, kind := k, ls := ls u,
        va := va u, scope := sc.toNat, word := w, data := xs, regs := d }
    let req (w : Word) (k : ReqK) (xs : List Word) (x : Mach) (u : Nat) : Mach :=
      (x.l1Clean (x.gang g.gang).sp true (lineIn (ls u))).addReq (asked w k xs x u)
    let cov (u : Nat) := g.pre.covers (g.pre.ctxOfGang g.gang) (va u).toNat sc.toNat
    let res (w : Word) (n : Nat) (src : Src) (x : Mach) (u : Nat) : Mach :=
      x.addRes { seq := 0, us := [u], gang := g.gang, dst := d, n := n, src := src, va := va u, word := w }
    let pend (k : Nat) : Mach := s.m.onRun g.run (fun _ t => t.pendSet (regsFrom d k))
    let sends (w : Word) (i : Instr) (m : Mach) (f : Mach → Nat → Mach) :=
      Acts w .mem i s g (did h g (eachLane g m f).nextWord)
    let atom := mkWord h 0x2E#6 (rb d) (rb a) (bb w8 ++ op ++ 0#1) (sc ++ 0#3)
    let acas := mkWord h 0x2E#6 (rb d) (rb a) (bb w8 ++ 0#5) (sc ++ 1#3)
    let fred := mkWord h 0x2F#6 (rb d) (rb a) (fop ++ fmt ++ 0#2) (sc ++ 0#3)
    let acq := mkWord h 0x30#6 (rb d) (rb a) (sc ++ 0#3) 0#6
    let rel := mkWord h 0x30#6 (rb d) (rb a) (sc ++ 0#3) 1#6
    (op.toNat < 13 → (w8 = true → op.toNat < 10 ∧ isEven d = true) → open' (4 * n) →
      sends atom (.atom h d a w8 op sc) (pend n) (fun x u =>
        res atom n (.req x.seq) (req atom (.atom op.toNat w8 (if w8 then rd u 0 + 2 ^ 32 * rd u 1 else rd u 0)) ((g.pre.thr u).rdN d n) x u) u)) ∧
    ((if w8 then d.val % 4 = 0 else isEven d = true) → open' (4 * n) →
      sends acas (.acas h d a w8 sc) (pend n) (fun x u =>
        res acas n (.req x.seq) (req acas (.acas w8 (if w8 then rd u 0 + 2 ^ 32 * rd u 1 else rd u 0)
          (if w8 then rd u 2 + 2 ^ 32 * rd u 3 else rd u 1)) ((g.pre.thr u).rdN d (2 * n)) x u) u)) ∧
    (fop ≠ 3 → open' 4 →
      sends fred (.fred h d a fop fmt sc) (pend 1) (fun x u =>
        res fred 0 (.val []) (req fred (.fred fop.toNat fmt.toNat (rd u 0)) [(g.pre.thr u).rd d] x u) u)) ∧
    (isEven d = true → open' 16 → sc = 0 →
      Acts (mkWord h 0x36#6 (rb d) (rb a) 0#6 0#6) .eng (.chunk h d a) s g (did h g (eachLane g (pend 2) (fun x u =>
        res (mkWord h 0x36#6 (rb d) (rb a) 0#6 0#6) 2 (.req x.seq) (req (mkWord h 0x36#6 (rb d) (rb a) 0#6 0#6) .chunk [] x u) u)).nextWord)) ∧
    (open' 4 → sends acq (.acq h d a sc) (pend 1) (fun x u => res acq 1 (.acq (ls u) (cov u)) x u) ∧
      sends rel (.rel h d a sc) s.m (fun x u => x.addReq (asked rel (.rel (rd u 0) (cov u)) [(g.pre.thr u).rd d] x u)))

/-- R211, R218, R224, R225: FENCE once the accesses of its threads' earlier groups have performed, CFLUSH, CINV and PREF. That what is
chained before a FENCE in its own group does not count as earlier is the model's choice (DESIGN CHOICE, log 99), and so is that
an uncorrectable error goes home with what is written back (DESIGN CHOICE, log 104). -/
def Obligations.FenceWords : Prop :=
  ∀ (h : Hdr) (a b : Reg) (sc : BitVec 3) (lv : BitVec 6) (s : State) (g : Group), sc.toNat < 6 →
    let asked (w : Word) (inv : Bool) (x : Mach) (u : Nat) : Req :=
      { seq := 0, u := u, gang := g.gang, sp := (x.gang g.gang).sp, ls := [], va := (g.pre.thr u).rdPair a, scope := sc.toNat, word := w,
        kind := .flush inv sc.toNat (g.pre.ctxOfGang g.gang) ((g.pre.thr u).rd b).toNat, data := [], regs := a }
    let sent (w : Word) (inv : Bool) : Mach := (eachLane g s.m (fun x u => x.addReq (asked w inv x u))).nextWord
    let flush (fn : BitVec 6) := mkWord h 0x30#6 (sc ++ 0#3) (rb a) (rb b) fn
    ((∀ u ∈ g.run, g.pre.busy u = false) → g.run ≠ [] →
      Acts (mkWord h 0x30#6 0#6 0#6 (sc ++ 0#3) 2#6) .mem (.fence h sc) s g
        (did h g (if 2 ≤ sc.toNat then s.m.l1Clean (g.pre.gang g.gang).sp true (fun x => x.loc.tag.ctx == g.pre.ctxOfGang g.gang) else s.m))) ∧
    (isEven a = true → (∀ u ∈ g.run, g.pre.acquiring u = false) →
      Acts (flush 3#6) .mem (.cflush h sc a b) s g (did h g (sent (flush 3#6) false)) ∧
      Acts (flush 4#6) .mem (.cinv h sc a b) s g (did h g (sent (flush 4#6) true)) ∧
      (lv.toNat < 2 → Acts (mkWord h 0x30#6 lv (rb a) 0#6 5#6) .mem (.pref h lv a) s g (did h g s.m)))

/-- R261 to R264: the named-barrier words of a crew gang, at a barrier inside the window. An arrival counts one and completes the phase
at E; a wait goes on once the phase has moved from those that its run's first attempts fixed, which a handler's own words leave
alone (R317). R265: GBAR in a co-resident region, once the phase in which its run has arrived has completed, whatever other runs of its
gang have arrived in since: it goes on after a fence at dev scope, and an arrival of another run in another phase stands. The phase
completes when every live gang of every crew has arrived in it. -/
def Obligations.BarrierWords : Prop :=
  (∀ (h : Hdr) (a : Reg) (k : BitVec 6) (c : Nat) (s : State) (g : Group), k.toNat < 16 → g.run ≠ [] →
    (g.pre.gang g.gang).crew = some c → k.toNat < (g.pre.crew c).nbWin →
    let w (f2 fn : BitVec 6) := mkWord h 0x34#6 0#6 f2 k fn
    let b := (g.pre.crew c).bars.toList.getD k.toNat {}
    let n := ((g.pre.thr (g.run.headD 0)).rd a).toNat % 4096
    let setBar (m : Mach) (f : Bar → Bar) : Mach :=
      m.modCrew c (fun x => { x with bars := x.bars.setIfInBounds k.toNat (f (x.bars.toList.getD k.toNat {})) })
    let arrive (b : Bar) : Bar := if b.a + 1 = b.e then { b with a := 0, p := b.p + 1 } else { b with a := b.a + 1 }
    let setArr (m : Mach) (x : Arrival) : Mach := m.modGang g.gang (fun y => { y with arr := y.arr.setIfInBounds k.toNat x })
    let quiet := ∀ u ∈ g.run, g.pre.busy u = false
    let att (t : Thread) := if t.h then t.hatt else t.att
    let moved := ∀ u ∈ g.run, ∀ x, att (g.pre.thr u) = some x → x.phase ≠ some b.p
    (n ≠ 0 → b.a = 0 → barrierNamed g.pre c k.toNat = false → (∀ u ∈ g.run, g.pre.acquiring u = false) →
      Acts (w (rb a) 0#6) .eng (.nbinit h a k) s g (did h g (setBar s.m (fun x => { x with e := n })))) ∧
    (b.e ≠ 0 → quiet → Acts (w 0#6 1#6) .eng (.nbarr h k) s g
      (did h g (setBar (setArr s.m (.opened ((s.m.crew c).bars.toList.getD k.toNat {}).p)) arrive))) ∧
    (quiet → g.attempted = true → moved →
      Acts (w 0#6 2#6) .eng (.nbwait h k) s g (did h g (setArr s.m .none))) ∧
    (b.e ≠ 0 → quiet → g.attempted = true → moved →
      Acts (w 0#6 3#6) .eng (.nbsync h k) s g (did h g (setArr s.m .none)))) ∧
  (∀ (h : Hdr) (s : State) (g : Group), g.run ≠ [] → (g.pre.gang g.gang).crew.isSome = true →
    (g.pre.region (g.pre.gang g.gang).region).rcb.cores = true → g.attempted = true → (∀ u ∈ g.run, g.pre.busy u = false) →
    let own (p : Word) : Bool := g.run.any (fun u => (if (g.pre.thr u).h then (g.pre.thr u).hatt else (g.pre.thr u).att).any (fun x => x.phase == some p))
    own (g.pre.region (g.pre.gang g.gang).region).gbarP = false →
    Acts (mkWord h 0x34#6 0#6 0#6 0#6 4#6) .eng (.gbar h) s g
      (did h g ((s.m.fenceL1 (g.pre.gang g.gang).sp (g.pre.ctxOfGang g.gang) 3).modGang g.gang
        (fun x => { x with gbar := if x.gbar.any own then none else x.gbar }))) ∧
    (∀ (m : Mach) (r : Nat), (m.gridGangs r) ≠ [] → (∀ q ∈ m.gridGangs r, (m.gang q).gbar = some (m.region r).gbarP) →
      gbarDone m r = m.modRegion r (fun x => { x with gbarP := x.gbarP + 1 })) ∧
    (∀ (m : Mach) (r q : Nat), q ∈ m.gridGangs r → (m.gang q).gbar ≠ some (m.region r).gbarP → gbarDone m r = m))

/-- R258, R259: the ring words of a crew gang. The stage of a sequence n is base + (n mod S) × Z. R258: publication and release in any
order: the counter passes exactly the sequences that are marked already without a gap, and the marks that it has not reached stay. -/
def Obligations.RingWords : Prop :=
  (∀ (h : Hdr) (a d : Reg) (k : BitVec 6) (c : Nat) (s : State) (g : Group), k.toNat < 8 → g.run ≠ [] →
    (g.pre.gang g.gang).crew = some c → (∀ u ∈ g.run, g.pre.acquiring u = false) →
    let w (f3 f2 fn : BitVec 6) := mkWord h 0x35#6 f3 f2 k fn
    let r := (g.pre.crew c).rings.toList.getD k.toNat {}
    let setRing (m : Mach) (f : Ring → Ring) : Mach :=
      m.modCrew c (fun x => { x with rings := x.rings.setIfInBounds k.toNat (f (x.rings.toList.getD k.toNat {})) })
    let op (i : Nat) := ((g.pre.thr (g.run.headD 0)).rd (a + Fin.ofNat 64 i)).toNat
    let q := (g.pre.thr (g.run.headD 0)).rd a
    let stage (n : Word) : Word := BitVec.ofNat 32 (r.base + n.toNat % r.s * r.z)
    (a.val % 4 = 0 → op 0 % 256 = 0 → op 1 % 256 = 0 → op 1 ≠ 0 → op 0 + op 2 * op 1 ≤ (g.pre.crew c).locSize → 0 < op 2 → op 2 ≤ 256 →
      ringNamed g.pre c k.toNat = false →
      Acts (w 0#6 (rb a) 0#6) .eng (.rginit h a k) s g (did h g (setRing s.m (fun _ =>
        { init := true, base := op 0, z := op 1, s := op 2, res := 0, pub := 0, tak := 0, fre := 0, pubm := [], relm := [] })))) ∧
    (isEven d = true → 0 < r.s → r.res ≠ r.fre + BitVec.ofNat 32 r.s →
      Acts (w (rb d) 0#6 1#6) .eng (.rgres h d k) s g (did h g
        (setRing (s.m.onRun g.run (fun _ t => t.wrPair d (stage r.res ++ r.res))) (fun x => { x with res := r.res + 1 })))) ∧
    ((q - r.pub).toNat < (r.res - r.pub).toNat → r.pubm.contains q = false → (∀ u ∈ g.run, g.pre.busy u = false) →
      Acts (w 0#6 (rb a) 2#6) .eng (.rgpub h a k) s g (did h g (setRing s.m (fun x => x.publish q)))) ∧
    (isEven d = true → Acts (w (rb d) 0#6 3#6) .eng (.rgwait h d k) s g
      (did h g ((s.m.onRun g.run (fun _ t => t.pendSet [d, d + 1])).addRes
        ⟨0, g.run, g.gang, d, 2, .ring k.toNat, 0, 0, w (rb d) 0#6 3#6, false, [], 0⟩))) ∧
    ((q - r.fre).toNat < (r.tak - r.fre).toNat → r.relm.contains q = false →
      Acts (w 0#6 (rb a) 4#6) .eng (.rgrel h a k) s g (did h g (setRing s.m (fun x => x.release q))))) ∧
  (∀ (r : Ring) (n : Word),
    (n ≠ r.pub → r.pubm.contains r.pub = false → (r.publish n).pub = r.pub ∧ (r.publish n).pubm = n :: r.pubm) ∧
    (r.pubm = [] → r.publish r.pub = { r with pub := r.pub + 1, pubm := [] }) ∧
    (n ≠ r.fre → r.relm.contains r.fre = false → (r.release n).fre = r.fre ∧ (r.release n).relm = n :: r.relm) ∧
    (r.relm = [] → r.release r.fre = { r with fre := r.fre + 1, relm := [] }) ∧
    (∀ m : Nat, 0 < m → m < 2 ^ 32 →
      (n = r.pub → (∀ i, 1 ≤ i → i < m → r.pubm.contains (r.pub + BitVec.ofNat 32 i) = true) →
        r.pubm.contains (r.pub + BitVec.ofNat 32 m) = false → m ≤ r.pubm.length + 1 →
        (r.publish n).pub = r.pub + BitVec.ofNat 32 m ∧ ∀ x, x ∈ (r.publish n).pubm ↔ x ∈ r.pubm ∧ ∀ i < m, x ≠ r.pub + BitVec.ofNat 32 i) ∧
      (n = r.fre → (∀ i, 1 ≤ i → i < m → r.relm.contains (r.fre + BitVec.ofNat 32 i) = true) →
        r.relm.contains (r.fre + BitVec.ofNat 32 m) = false → m ≤ r.relm.length + 1 →
        (r.release n).fre = r.fre + BitVec.ofNat 32 m ∧ ∀ x, x ∈ (r.release n).relm ↔ x ∈ r.relm ∧ ∀ i < m, x ≠ r.fre + BitVec.ofNat 32 i)))

/-- R240, R241: QPUSH with room in q4, QPOP of a port with an entry or with something that can fill it, QSTAT. -/
def Obligations.PortWords : Prop :=
  ∀ (h : Hdr) (a d : Reg) (k : BitVec 6) (s : State) (g : Group), g.run ≠ [] → (∀ u ∈ g.run, g.pre.acquiring u = false) →
    let x := g.pre.gang g.gang
    let res (w : Word) (src : Src) : Res := ⟨0, g.run, g.gang, d, 2, src, 0, 0, w, false, [], 0⟩
    let pend := s.m.onRun g.run (fun _ t => t.pendSet [d, d + 1])
    let pop := mkWord h 0x31#6 (rb d) k 0#6 1#6
    (isEven a = true → x.q4.length < 16 → Acts (mkWord h 0x31#6 4#6 (rb a) 0#6 0#6) .eng (.qpush h 4#6 a) s g
      (did h g (s.m.modGang g.gang (fun y => { y with q4 := y.q4 ++ [(g.pre.thr (g.run.headD 0)).rdPair a], q4at := y.q4at ++ [s.m.seq] })))) ∧
    (isEven d = true → k = 1#6 → x.crew.isSome = true → ∀ e r, x.q1 = e :: r → Acts pop .eng (.qpop h d k) s g
      (did h g ((pend.modGang g.gang (fun y => { y with q1 := r, qc := y.qc - 1 })).addRes
        (res pop (.val [e.setWidth 32, (e >>> 32).setWidth 32]))))) ∧
    (isEven d = true → k = 3#6 → ∀ e r, x.q3 = e :: r → Acts pop .eng (.qpop h d k) s g
      (did h g ((pend.modGang g.gang (fun y => { y with q3 := r, ic := y.ic - 1 })).addRes
        (res pop (.val [e.setWidth 32, (e >>> 32).setWidth 32]))))) ∧
    (isEven d = true → k = 5#6 → ∀ e r, x.q5 = e :: r → Acts pop .eng (.qpop h d k) s g
      (did h g ((pend.modGang g.gang (fun y => { y with q5 := r })).addRes
        (res pop (.val [e.setWidth 32, (e >>> 32).setWidth 32]))))) ∧
    (isEven d = true → k = 1#6 → x.crew.isSome = true → x.q1 = [] → (g.pre.popping g.gang 1).length < x.qc →
      Acts pop .eng (.qpop h d k) s g (did h g (pend.addRes (res pop (.pop 1))))) ∧
    (isEven d = true → k = 3#6 → x.q3 = [] → (g.pre.popping g.gang 3).length < x.ic →
      Acts pop .eng (.qpop h d k) s g (did h g (pend.addRes (res pop (.pop 3))))) ∧
    (isEven d = true → k = 5#6 → x.q5 = [] → g.pre.hasStream g.gang = true →
      Acts pop .eng (.qpop h d k) s g (did h g (pend.addRes (res pop (.pop 5))))) ∧
    (k.toNat < 6 → (x.crew.isSome = true ∨ 2 ≤ k.toNat) → Acts (mkWord h 0x31#6 (rb d) k 0#6 2#6) .eng (.qstat h d k) s g
      (didReg h s g d (fun _ => BitVec.ofNat 32 (match k.toNat with
        | 0 => x.qc
        | 1 => x.q1.length
        | 2 => x.ic
        | 3 => x.q3.length
        | 4 => x.q4.length
        | _ => x.q5.length))))

/-- R209, R242 to R249, R256, R257: the copy words of a crew gang, where its credits and its completion word pass their checks: CPY joins a
forming crew copy, CPYT, CPYQ and CPRES push a command, WMRD answers the watermark of the oldest active copy or gather job over the
address, with bit 63 where that is frozen, or all ones, and the record and segment words change their tables. Operands are those of the
lowest lane. TLREG and TLRFL read their record as they issue, after what earlier groups of the lane accessed (DESIGN CHOICE, log 99), and renew
a copy that they pass in their L1 (DEDUCED, log 115). That a command is pushed at once and accepted later (DEDUCED, log 13), and that a CPYT is pushed although a watermark holds its record, which
the push then reads later (DEDUCED, log 19), are the model's choices. -/
def Obligations.CopyWords : Prop :=
  ∀ (h : Hdr) (a d vc : Reg) (k : BitVec 6) (c : Nat) (s : State) (g : Group) (ls : List Loc), g.run ≠ [] →
    (g.pre.gang g.gang).crew = some c → (∀ u ∈ g.run, g.pre.acquiring u = false) → (g.pre.gang g.gang).qc < 64 →
    let w (f3 f2 f1 fn : BitVec 6) := mkWord h 0x32#6 f3 f2 f1 fn
    let sp := (g.pre.gang g.gang).sp
    let low := g.run.headD 0
    let rd (i : Nat) : Word := (g.pre.thr low).rd (a + Fin.ofNat 64 i)
    let pair (i : Nat) : Nat := ((g.pre.thr low).rdPair (a + Fin.ofNat 64 i)).toNat
    let cwOk (x : Word) : Prop :=
      (x.getLsbD 16 = true → x.toNat / 2 ^ 17 % 16 < (g.pre.crew c).nbWin ∧ ((g.pre.crew c).bars.toList.getD (x.toNat / 2 ^ 17 % 16) {}).e ≠ 0) ∧
      (x.getLsbD 21 = true → ((g.pre.crew c).rings.toList.getD (x.toNat / 2 ^ 22 % 8) {}).init = true)
    let credit := s.m.modGang g.gang (fun x => { x with qc := x.qc + 1 })
    let seg : Seg := ⟨(rd 0).toNat, (rd 1).toNat, (rd 2).toNat % 8, (rd 2).toNat / 8 % 4, (rd 2).toNat / 32, (rd 3).toNat⟩
    let slice : Slice := ⟨g.gang, pair 0, pair 2, (rd 4).toNat, rd 5, g.run, s.m.seq⟩
    let push (q : PushK) : Mach :=
      { credit with pushes := s.m.pushes ++ [⟨c, g.gang, sp, [(g.gang, g.run, s.m.seq)], q, 0⟩], seq := s.m.seq + 1 }
    let still (t : Tlr) := spanWaits g.pre (g.pre.engine c sp) .read t.srcSpan.1 t.srcLen = false ∧
      spanWaits g.pre (g.pre.engine c sp) .write t.dst t.dstLen = false
    let loads := accessAt g.pre low .read ((g.pre.thr low).rdPair a) 192 64 = .ok ls ∧
      g.pre.owesRead low ls = false ∧ g.pre.readReady [low] g.gang g.pre.seq ls = true ∧ ls.all (fun l => !g.pre.readErr sp l) = true
    let covers (x : Nat × Nat × Bool) : Prop :=
      (∃ y, (x.1, y) ∈ g.pre.copies ∧ y.crew = c ∧ ¬ (y.cw.getLsbD 21 = true ∧ y.stage = none) ∧ y.base ≤ pair 0 ∧ pair 0 < y.hi ∧
        x.2 = (y.wm, y.frozen.isSome)) ∨
      (∃ j, (x.1, j) ∈ g.pre.jobs ∧ j.crew = c ∧ (j.d.kind = 0 ∨ j.d.kind = 1 ∨ j.d.kind = 4) ∧ j.d.data ≤ pair 0 ∧ pair 0 < j.d.hi ∧
        x.2 = (j.wm, j.susp.isSome))
    (isEven a = true → a.val ≤ 58 → cwOk (rd 5) →
      Acts (w 0#6 (rb a) 0#6 0#6) .eng (.cpy h a) s g
        (did h g (sendForming (({ credit with seq := s.m.seq + 1 } : Mach).modCrew c (fun x => { x with forming := joinForming g.gang slice x.forming })) c sp)) ∧
      Acts (w 0#6 (rb a) 0#6 2#6) .eng (.cpyq h a) s g (did h g (push (.cpyq (pair 0) (pair 2) (rd 4).toNat (rd 5))))) ∧
    (cwOk ((g.pre.thr low).rd vc) →
      Acts (w (rb vc) (rb a) 1#6 1#6) .eng (.cpyt h vc a 1#6) s g
        (did h g (push (.cpyh ((g.pre.thr low).rd vc) ((rd 0).toNat % 64)))) ∧
      (isEven a = true → accessAt g.pre low .read ((g.pre.thr low).rdPair a) 192 64 = .ok ls →
        (g.pre.heldAt (some c) (vasOf ls) = true → g.pre.heldCount g.gang < 64) →
        Acts (w (rb vc) (rb a) 0#6 1#6) .eng (.cpyt h vc a 0#6) s g
          (did h g (push (.cpyt ((g.pre.thr low).rd vc) (w (rb vc) (rb a) 0#6 1#6) low ((g.pre.thr low).rdPair a) ls))))) ∧
    Acts (w 0#6 (rb a) 0#6 3#6) .eng (.cpres h a) s g (did h g (push (.cpres (rd 0)))) ∧
    (isEven a = true → isEven d = true → ∀ v : BitVec 64, ((∀ x, ¬ covers x) → v = BitVec.allOnes 64) →
      (∀ x, covers x → (∀ y, covers y → y = x ∨ x.1 < y.1) → v = BitVec.ofNat 64 (x.2.1 + if x.2.2 then 2 ^ 63 else 0)) →
      ((∀ x, ¬ covers x) ∨ ∃ x, covers x ∧ ∀ y, covers y → y = x ∨ x.1 < y.1) →
      Acts (w (rb d) (rb a) 0#6 4#6) .eng (.wmrd h d a) s g (didLong h s g (.wmrd h d a) d 2
        (fun _ => [v.setWidth 32, (v >>> 32).setWidth 32]))) ∧
    (isEven a = true → loads → ∀ t n, tlrCheck g.pre (g.pre.engine c sp) (leNat (ls.map (g.pre.load sp))) = .inl t → still t →
      n < 64 → (g.pre.spindle sp).handles.has n = false → ∃ (k : Nat) (m : Mach), k < 64 ∧ (g.pre.spindle sp).handles.has k = false ∧
      m = { s.m with pickN := m.pickN } ∧
      Acts (w (rb d) (rb a) 0#6 5#6) .eng (.tlreg h d a) s g (did h g
        (((m.modSp sp (fun x => { x with handles := x.handles.put k ⟨c, pair 0, t⟩ })).l1Renew sp ls).onRun g.run
          (fun _ y => y.wr d (BitVec.ofNat 32 k))))) ∧
    (∀ e t, g.pre.handleOf c sp ((rd 0).toNat % 64) = some e → accessAt g.pre low .read (BitVec.ofNat 64 e.addr) 192 64 = .ok ls →
      g.pre.owesRead low ls = false → g.pre.readReady [low] g.gang g.pre.seq ls = true → ls.all (fun l => !g.pre.readErr sp l) = true →
      tlrCheck g.pre (g.pre.engine c sp) (leNat (ls.map (g.pre.load sp))) = .inl t → still t →
      Acts (w (rb d) (rb a) 0#6 6#6) .eng (.tlrfl h d a) s g (did h g
        (((s.m.modSp sp (fun x => { x with handles := x.handles.put ((rd 0).toNat % 64) ⟨e.crew, e.addr, t⟩ })).l1Renew sp ls).onRun g.run
          (fun _ y => y.wr d (BitVec.ofNat 32 ((rd 0).toNat % 64)))))) ∧
    (g.pre.handleOf c sp ((rd 0).toNat % 64) = none →
      (g.pre.readReady [low] g.gang g.pre.seq [] = true →
        Acts (w (rb d) (rb a) 0#6 6#6) .eng (.tlrfl h d a) s g (didReg h s g d (fun _ => 0x80000004#32))) ∧
      Acts (w 0#6 (rb a) 0#6 7#6) .eng (.tlunreg h a) s g (did h g s.m)) ∧
    (∀ e, g.pre.handleOf c sp ((rd 0).toNat % 64) = some e →
      Acts (w 0#6 (rb a) 0#6 7#6) .eng (.tlunreg h a) s g
        (did h g (s.m.modSp sp (fun x => { x with handles := x.handles.drop ((rd 0).toNat % 64) })))) ∧
    (a.val % 4 = 0 → k.toNat < 8 → (rd 0).toNat % 256 = 0 → (rd 1).toNat % 256 = 0 → (rd 0).toNat + (rd 1).toNat ≤ (g.pre.crew c).locSize →
      (rd 2).toNat < 256 → (rd 2).toNat / 32 < 6 → ((rd 2).toNat / 32 ≠ 0 → 4 ≤ (rd 2).toNat % 8 ∧ (rd 2).toNat % 8 ≠ 7) →
      Acts (w k (rb a) 0#6 8#6) .eng (.lseg h k a) s g 
        (did h g (s.m.modCrew c (fun x => { x with segs := x.segs.setIfInBounds k.toNat (if rd 1 = 0 then ⟨0, 0, 0, 0, 0, 0⟩ else seg) }))))

/-- R291 to R293: IXJOB and IXRES of a crew gang with an index credit left, whose record loads without fault: they push a command with the
bytes that the loads return, and which is accepted later (DEDUCED, log 13). R270 of spec/18: MSTREAM, once the gang's earlier accesses have performed, answers the first refusal code
that holds, or starts a stream with its operands and answers the stream's sequencer. R306 of spec/21:
LAUNCH, once the gang's earlier accesses and commands have performed: what the gang wrote reaches its home; v[b] = 0xFFFF_FFFF admits the
record as a child of the issuing region; an EDGE queue of the context that is not full takes the record's bytes in its slot PROD, and PROD
rises by one; a full one leaves LAUNCH without effect under a pre-emption request; any other v[b] answers ACCESS. That an EDGE queue takes a
record whether or not it is enabled is the model's choice (DEDUCED, log 29), and so are that a record written by the scheduler goes to the
homes of its bytes (DEDUCED, log 21), that an A base at or above the crew's `.local` size counts as BAD_OPERAND (DEDUCED, log 113), and that
a record is read after what earlier groups of the lane accessed (DESIGN CHOICE, log 99), a copy that the read passes in its L1 being
renewed (DEDUCED, log 115), and an error going home with what L1 writes back (DESIGN CHOICE, log 104). -/
def Obligations.IndexAndLaunchWords : Prop :=
  ∀ (h : Hdr) (a b d vc : Reg) (c : Nat) (s : State) (g : Group) (ls : List Loc), g.run ≠ [] →
    (g.pre.gang g.gang).crew = some c → (∀ u ∈ g.run, g.pre.acquiring u = false) →
    let sp := (g.pre.gang g.gang).sp
    let low := g.run.headD 0
    let va := (g.pre.thr low).rdPair a
    let cw := (g.pre.thr low).rd vc
    let loads (n al : Nat) := accessAt g.pre low .read va n al = .ok ls ∧ g.pre.owesRead low ls = false ∧
      g.pre.readReady [low] g.gang g.pre.seq ls = true ∧ ls.all (fun l => !g.pre.readErr sp l) = true
    let bytes := ls.map (g.pre.load sp)
    let push (q : PushK) : Mach := Mach.l1Renew
      { s.m.modGang g.gang (fun x => { x with ic := x.ic + 1 }) with
        pushes := s.m.pushes ++ [⟨c, g.gang, sp, [(g.gang, g.run, s.m.seq)], q, 0⟩], seq := s.m.seq + 1 } sp ls
    let quiet := (∀ r ∈ g.pre.results, r.src.isLoad = true → r.gang ≠ g.gang ∧ ∀ u ∈ r.us, (g.pre.thr u).gang ≠ g.gang) ∧
      ∀ r ∈ g.pre.reqs, r.gang ≠ g.gang ∧ (g.pre.thr r.u).gang ≠ g.gang
    let ctx := g.pre.ctxOfGang g.gang
    let launch := mkWord h 0x36#6 (rb d) (rb a) (rb b) 2#6
    let home := s.m.l1Clean sp false (lineOf ctx)
    let v (i : Nat) : Nat := ((g.pre.thr low).rd (a + Fin.ofNat 64 i)).toNat
    let data : Nat := ((g.pre.thr low).rdPair (a + 2)).toNat
    let badOp : Prop := va.toNat % 8 ≠ 0 ∨ data % 64 ≠ 0 ∨ v 4 % 64 ≠ 0 ∨ (g.pre.crew c).locSize ≤ v 4 ∨ v 6 / 2 ^ 26 % 2 ^ 5 ≠ 0 ∨
      v 6 / 2 ^ 10 % 2 ^ 6 ≠ 0 ∨ 255 < v 5 % 2 ^ 8 + v 5 / 2 ^ 8 % 2 ^ 8 ∨ 1023 < v 6 % 2 ^ 10 + v 6 / 2 ^ 16 % 2 ^ 10 ∨
      ∃ k < 16, (v 7).testBit k = true ∧ ((g.pre.crew c).nbWin ≤ k ∨ ((g.pre.crew c).bar k).e = 0)
    let busy : Prop := ∃ x ∈ g.pre.streams, x.2.gang = g.gang
    let floor : Prop := (g.pre.region (g.pre.gang g.gang).region).kcls = 0 ∧ ∃ x ∈ g.pre.streams, x.2.crew = c
    let noSeq : Prop := ∀ q < 4, ∃ x ∈ g.pre.streams, x.2.sp = sp ∧ x.2.seqNo = q
    let window : Prop :=
      (∃ i ≤ v 5 / 2 ^ 8 % 2 ^ 8, ∃ x, (g.pre.spindle sp).bslots.find (v 5 % 2 ^ 8 + i) = some x ∧ x.1 ≠ c) ∨
      (∃ i ≤ v 6 / 2 ^ 16 % 2 ^ 10, ∃ k, (g.pre.spindle sp).units.find (v 6 % 2 ^ 10 + i) = some k ∧ k ≠ c)
    (isEven a = true → loads 64 64 → (g.pre.gang g.gang).ic < 32 →
      (cw.getLsbD 16 = true → cw.toNat / 2 ^ 17 % 16 < (g.pre.crew c).nbWin ∧ ((g.pre.crew c).bars.toList.getD (cw.toNat / 2 ^ 17 % 16) {}).e ≠ 0) →
      ¬ ((g.pre.region (g.pre.gang g.gang).region).rcb.det = true ∧ leNat bytes / 2 ^ 400 % 16 = 3 ∧ leNat bytes / 2 ^ 404 % 2 = 0) →
      Acts (mkWord h 0x33#6 (rb vc) (rb a) 0#6 0#6) .eng (.ixjob h vc a) s g (did h g (push (.job bytes cw)))) ∧
    (isEven a = true → loads 128 64 → (g.pre.gang g.gang).ic < 32 →
      (∀ q ∈ g.pre.reqs, q.gang = g.gang ∨ (g.pre.thr q.u).gang = g.gang → overlap q.body ls = false) →
      Acts (mkWord h 0x33#6 (rb vc) (rb a) 0#6 1#6) .eng (.ixres h vc a) s g (did h g (push (.ixres (cw.getLsbD 0) va.toNat bytes)))) ∧
    (a.val % 4 = 0 → a.val ≤ 56 → quiet →
      (∀ n : Nat, (badOp ∧ n = 1) ∨ (¬ badOp ∧ busy ∧ n = 2) ∨ (¬ badOp ∧ ¬ busy ∧ floor ∧ n = 3) ∨
          (¬ badOp ∧ ¬ busy ∧ ¬ floor ∧ noSeq ∧ n = 4) ∨ (¬ badOp ∧ ¬ busy ∧ ¬ floor ∧ ¬ noSeq ∧ window ∧ n = 5) →
        Acts (mkWord h 0x36#6 (rb d) (rb a) 0#6 1#6) .eng (.mstream h d a) s g
          (didReg h s g d (fun _ => BitVec.ofNat 32 (0x80000000 + n)))) ∧
      (¬ badOp → ¬ busy → ¬ floor → ¬ noSeq → ¬ window →
        ∃ (q k : Nat) (x : Stream) (m : Mach), (q < 4 ∧ ∀ y ∈ g.pre.streams, ¬ (y.2.sp = sp ∧ y.2.seqNo = q)) ∧
          Acts (mkWord h 0x36#6 (rb d) (rb a) 0#6 1#6) .eng (.mstream h d a) s g
            (did h g (m.onRun g.run (fun _ t => t.wr d (BitVec.ofNat 32 q)))) ∧ m.streams.find k = some x ∧
          x.gang = g.gang ∧ x.crew = c ∧ x.seqNo = q ∧ x.addr = va.toNat ∧ x.data = data ∧ x.abase = v 4 ∧ x.bbase = v 5 % 2 ^ 8 ∧
          x.bcnt = v 5 / 2 ^ 8 % 2 ^ 8 ∧ x.cpitch = v 5 / 2 ^ 16 ∧ x.cbase = v 6 % 2 ^ 10 ∧ x.ccnt = v 6 / 2 ^ 16 % 2 ^ 10 ∧
          x.serv = (v 6).testBit 31 ∧ x.tag.toNat = v 7 / 2 ^ 16 ∧ x.memb.toNat = v 7 % 2 ^ 16 ∧
          (∀ i (hi : i < 16), x.p0[i] = ((g.pre.crew c).bar i).p) ∧ x.idx = 0 ∧ x.waitQ = false ∧
          m.threads = s.m.threads ∧ m.dram = s.m.dram)) ∧
    (isEven a = true → isEven d = true → quiet → g.pre.formingBy g.gang g.run = false → loads 128 128 →
      ((g.pre.thr low).rd b = 0xFFFFFFFF → complMoves g.pre ctx (Rcb.parse (leNat bytes)).compl = false →
        let r := (s.m.gang g.gang).region
        let x := admitRegion home ctx va.toNat (Rcb.parse (leNat bytes)) (s.m.region r).rcb (some (s.m.region r).pool)
          (s.m.region r).addr (some r)
        Acts launch .eng (.launch h d a b) s g (did h g ((x.2.l1Renew sp ls).onRun g.run (fun _ t => (t.wr d (BitVec.ofNat 32 x.1)).wr (d + 1) 0))) ∧
        (x.1 = 0 → ∃ y, x.2.regions.find s.m.nextId = some y ∧ y.parent = some r ∧ y.ctx = ctx ∧ y.addr = va.toNat ∧
          y.crewsLeft = y.rcb.crews)) ∧
      ((g.pre.thr low).rd b ≠ 0xFFFFFFFF → edgeQueue g.pre ctx ((g.pre.thr low).rd b) = none →
        Acts launch .eng (.launch h d a b) s g (did h g ((s.m.l1Renew sp ls).onRun g.run (fun _ t => t.wr d 0x47)))) ∧
      ((g.pre.thr low).rd b ≠ 0xFFFFFFFF → ∀ q, edgeQueue g.pre ctx ((g.pre.thr low).rd b) = some q →
        (q.full = true → (g.pre.thr low).preq = true → Acts launch .eng (.launch h d a b) s g
          (did h g ((s.m.l1Renew sp ls).onRun g.run (fun _ t => t.wr d 0x80000000)))) ∧
        (q.full = false → g.pre.moves ctx (q.slot q.prod) 128 = false →
          let n := ((g.pre.thr low).rd b).toNat
          let m := ((home.schedWrite ctx (q.slot q.prod) bytes).setQueue n 0 (leBytes 4 (q.prod + 1).toNat)).l1Renew sp ls
          Acts launch .eng (.launch h d a b) s g (did h g (m.onRun g.run (fun _ t => (t.wr d 0).wr (d + 1) q.prod))) ∧
          (s.m.host.wf = true → (m.queue n).prod = q.prod + 1) ∧
          (s.m.dram.wf = true → ∀ at' : List Loc, at'.length = 128 → (at'.map (·.addr)).Nodup →
            (∀ j < 128, ∃ l, at'[j]? = some l ∧ s.m.translate ⟨ctx, none, 0, false⟩ .write (q.slot q.prod + j) = .ok l true) →
            (∀ l ∈ at', l.sto = .dram ∧ s.m.treeAt l.addr = none ∧ ∀ l' ∈ at', l.addr / 64 = l'.addr / 64 → l.tag = l'.tag) →
            m.homeGets at' = bytes))))

/-- R21, R318, R375: ERET of lanes in handler mode whose results have returned and that owe no access and no report, where %trapa names
a packet. As the last word of its group: H becomes 0, the lanes leave with their group, and once it ends each stands at its %trapa with
its registers and trap registers as before. Before a further word (the model's choice, DEDUCED, log 41): the lanes of the run leave; once the
group has ended and the results of all of them have returned they return together, each to its %trapa. Where %trapa names no packet the
lanes trap with PACKET. -/
def Obligations.EretWord : Prop :=
  ∀ (h : Hdr) (s : State) (g : Group),
    let w := mkWord h 0x00#6 0#6 0#6 0#6 0x06#6
    let packet (u : Nat) := (g.pre.thr u).trapa.toNat % 2 ^ 56 % 12 = 0
    let ready := ∀ u ∈ g.run, (g.pre.thr u).h = true ∧ packet u ∧ g.pre.waiting u = false ∧ g.pre.owedBy u = [] ∧ s.m.owedBy u = []
    ((∀ u ∈ g.run, (g.pre.thr u).h = true ∧ ¬ packet u) → Acts w .ctl (.eret h) s g
      (did h (g.left (fun _ => { cause := .packet, info := 2 })) s.m)) ∧
    (ready → g.rest.tail ≠ [] → Acts w .ctl (.eret h) s g
      (did h { g with stats := g.run.map (fun u => (u, Stat.leaving (.eret g.run))) ++ g.stats } s.m)) ∧
    (ready → g.rest.tail = [] → (∀ u ∈ g.run, s.m.waiting u = false) → Acts w .ctl (.eret h) s g
      (did h { g with held := g.run ++ g.held }
        (s.m.onRun g.run (fun _ t => { t with h := false, pend := 0, stat := .eretWait })))) ∧
    (ready → g.rest.tail = [] → (∀ u ∈ g.run, s.m.waiting u = false) → Issues (.eret h) s g → h.c = false → ∀ u ∈ g.run, s.m.threads.has u = true → g.trapOf u = none → s.m.waiting u = false →
      (s.m.thr u).deferred = none → (s.m.thr u).owed = none →
      ∃ s', exec (.eret h) s = .next s' ∧ s'.act = .idle ∧ (s'.m.thr u).h = false ∧
        (s'.m.thr u).pos = ⟨(s.m.thr u).trapa.setWidth 56, (s.m.thr u).trapa.extractLsb' 56 2⟩ ∧ (s'.m.thr u).stat = .run ∧
        (s'.m.thr u).pend = 0 ∧ (s'.m.thr u).trapc = (s.m.thr u).trapc ∧ (s'.m.thr u).trapa = (s.m.thr u).trapa ∧
        (s'.m.thr u).trapi = (s.m.thr u).trapi ∧ SameRegs (s.m.thr u) (s'.m.thr u) ∧ SameBytes s.m s'.m) ∧
    (∀ (m : Mach) (u : Nat) (us : List Nat), (m.thr u).stat = .leaving (.eret us) → m.onSpindle u = true → m.waiting u = false →
      let vs := us.filter (fun v => (m.thr v).stat == .leaving (.eret us))
      (∀ v ∈ vs, m.waiting v = false ∧ m.owedBy v = []) →
      leaveStep m u = some (m.onRun vs (fun _ t => { t with h := false, pend := 0, stat := .eretWait }))) ∧
    (∀ (m : Mach) (u : Nat), m.threads.has u = true → (m.thr u).stat = .eretWait → m.waiting u = false → (m.thr u).deferred = none →
      (m.thr u).owed = none → let t := m.settle.thr u
      t.pos = ⟨(m.thr u).trapa.setWidth 56, (m.thr u).trapa.extractLsb' 56 2⟩ ∧ t.stat = .run ∧ t.h = (m.thr u).h ∧
        SameTrap (m.thr u) t ∧ SameRegs (m.thr u) t)

/-- R196, R200 to R204, R238: the range words, once per lane in ascending order, each lane after the lower ones (DEDUCED, log 26) and with its
own result, on the contexts that MGR lets it name (DESIGN CHOICE, log 111);
RINV and RCOMPACT write a ticket beside the status; that a refused one leaves v[d+1] as it was is the model's choice (DEDUCED, log 25). R201, R238: RSET's descriptor is a load of 64 bytes, checked and read on the machine
as the lower lanes leave it, after what earlier groups accessed alone (DESIGN CHOICE, log 99), and renews a copy that it
passes in its L1 (DEDUCED, log 115). R203: RWAIT writes 0 for a ticket of 0, for a ticket that is done, 11 for a frozen one, and 10 where pre-emption came first. -/
def Obligations.RangeWords : Prop :=
  (∀ (h : Hdr) (d a b : Reg) (qw : BitVec 6) (s : State) (g : Group), (∀ u ∈ g.run, g.pre.acquiring u = false) →
    let c := g.pre.ctxOfGang g.gang
    let pa (u : Nat) : Nat := ((g.pre.thr u).rdPair a).toNat
    let each (f : Mach → Nat → List Word × Mach) :=
      did h g (g.run.foldl (fun x u => (f x u).2.modThr u (fun t => t.wrs d (f x u).1)) s.m)
    let one (r : Nat × Mach) : List Word × Mach := ([BitVec.ofNat 32 r.1], r.2)
    let named (m : Mach) (x : Word) (f : Nat → List Word × Mach) : List Word × Mach :=
      if x.toNat % 2 ^ 16 = 0xFFFF then f c
      else if m.ctxs.has (x.toNat % 2 ^ 16) && (m.ctx (x.toNat % 2 ^ 16)).mgr == c then f (x.toNat % 2 ^ 16) else ([9], m)
    isEven a = true →
      Acts (mkWord h 0x37#6 (rb d) (rb a) 0#6 0#6) .eng (.rsplit h d a) s g (each (fun m u => one (splitAt m c (pa u)))) ∧
      Acts (mkWord h 0x37#6 (rb d) (rb a) 0#6 1#6) .eng (.rmerge h d a) s g (each (fun m u => one (mergeAt m c (pa u)))) ∧
      (isEven b = true → Acts (mkWord h 0x37#6 (rb d) (rb a) (rb b) 2#6) .eng (.rbind h d a b) s g
        (each (fun m u => one (bindAt m c (pa u) ((g.pre.thr u).rdPair b))))) ∧
      (isEven d = true → qw.toNat < 8 → Acts (mkWord h 0x37#6 (rb d) (rb a) qw 3#6) .eng (.rquery h d a qw) s g
        (each (fun m u => (wordsOf 2 (queryAt m c (pa u) qw.toNat (g.pre.privOf u)), m)))) ∧
      (∀ ls : Nat → List Loc, (∀ u ∈ g.run, rsetReach a g (rsetBefore a b g u) u = .ok (ls u) ∧
          g.pre.readReady [u] g.gang g.pre.seq (ls u) = true) →
        Acts (mkWord h 0x38#6 (rb d) (rb a) (rb b) 0#6) .eng (.rset h d a b) s g (each (fun m u => one (rsetLane a b g s.m.seq m u)))) ∧
      (∀ (m : Mach) (n u : Nat) (ls : List Loc), accessAt m u .read ((g.pre.thr u).rdPair a) 64 64 = .ok ls →
        m.owesRead u ls = false → (∀ l ∈ ls, m.readErr (g.pre.gang g.gang).sp l = false) →
        let sp := (g.pre.gang g.gang).sp
        one (rsetLane a b g n m u) = named m ((g.pre.thr u).rd b) (fun k =>
          let y := setRange m k (leNat (ls.map (m.load sp)))
          one (y.1, y.2.l1Renew sp ls))) ∧
      (isEven d = true → Acts (mkWord h 0x38#6 (rb d) (rb a) (rb b) 1#6) .eng (.rinv h d a b) s g
        (each (fun m u => named m ((g.pre.thr u).rd b) (fun n => invAt m n (pa u))))) ∧
      (isEven d = true → isEven b = true → Acts (mkWord h 0x38#6 (rb d) (rb a) (rb b) 3#6) .eng (.rcompact h d a b) s g
        (each (fun m u => named m ((g.pre.thr u).rd d) (fun n => compactAt m n (pa u) ((g.pre.thr u).rdPair b).toNat))))) ∧
  (∀ (h : Hdr) (d a : Reg) (f : Nat → Nat) (s : State) (g : Group), (∀ u ∈ g.run, g.pre.acquiring u = false) →
    (∀ u ∈ g.run, ((g.pre.thr u).rd a = 0 ∧ f u = 0) ∨
      (∃ t ∈ g.pre.tickets, (∀ t' ∈ g.pre.tickets, t'.num = t.num → t' = t) ∧ t.num = (g.pre.thr u).rd a ∧ t.num ≠ 0 ∧
        (g.pre.ticketN - t.num).toNat ≤ 2 ^ 31 ∧
        ((t.frozen = true ∧ f u = 11) ∨ (t.frozen = false ∧ t.done g.pre = true ∧ f u = 0) ∨
         (t.frozen = false ∧ t.done g.pre = false ∧ (g.pre.thr u).preq = true ∧ f u = 10)))) →
    Acts (mkWord h 0x38#6 (rb d) (rb a) 0#6 2#6) .eng (.rwait h d a) s g
      (didThreads h s g (fun u t => t.wr d (BitVec.ofNat 32 (f u)))))

/-- R198: a split keeps what every byte of every context translates to, for every kind of access; the two parts meet at P, their
resident extents are cut there, GEN rises in the lower and is 0 in the upper. That CWM, which R198 does not give, stays in both is the
model's choice (DESIGN CHOICE, log 92). -/
def Obligations.SplitKeepsTranslation : Prop :=
  ∀ (m : Mach) (c p : Nat), m.ctxs.has c = true → rangesApart (m.ctx c).ranges → (splitAt m c p).1 = 0 →
    (∀ w k va, (splitAt m c p).2.translate w k va = m.translate w k va) ∧
    ∃ r ∈ (m.ctx c).ranges, ∃ lo ∈ ((splitAt m c p).2.ctx c).ranges, ∃ hi ∈ ((splitAt m c p).2.ctx c).ranges,
      let n := p / 4096 - r.baseg
      r.base < p ∧ p < r.limit ∧ p = (r.baseg + n) * 4096 ∧
      lo = { r with limg := r.baseg + n, rlo := min r.rlo n, rhi := min r.rhi n, gen := r.gen + 1 } ∧
      hi = { r with baseg := r.baseg + n, rlo := max r.rlo n - n, rhi := max r.rhi n - n, gen := 0 }

/-- R196, R197: a range word that returns a status other than DONE has changed nothing. R202: after RINV with status DONE no address of
the removed range translates in its context, the other ranges stay, and the ticket written is the next one, which is not 0. R198, R199,
R201, R204: with status DONE, RMERGE, RBIND, RSET and RCOMPACT leave the ranges of the context as they were but for the one that they
make or change, whose every field is given; an extent's ends keep their low 32 bits (R9, R190), and that the merged range has the lower
one's CWM and NOFFG is the model's choice (DESIGN CHOICE, log 92). R190, R200: RQUERY returns 64 bits of the descriptor, its offsets 0
without system privilege, or 0 where no range covers the address. -/
def Obligations.RangeWordEffects : Prop :=
  let becomes (m m' : Mach) (c : Nat) (old : List Range) (new : Range) : Prop :=
    ∀ x, x ∈ (m'.ctx c).ranges ↔ (x ∈ (m.ctx c).ranges ∧ x ∉ old) ∨ x = new
  (∀ (m : Mach) (c p x : Nat) (b : BitVec 64),
    ((splitAt m c p).1 ≠ 0 → (splitAt m c p).2 = m) ∧ ((mergeAt m c p).1 ≠ 0 → (mergeAt m c p).2 = m) ∧
    ((bindAt m c p b).1 ≠ 0 → (bindAt m c p b).2 = m) ∧ ((setRange m c x).1 ≠ 0 → (setRange m c x).2 = m) ∧
    ((invAt m c p).1.head? ≠ some 0 → (invAt m c p).2 = m) ∧ ((compactAt m c p x).1.head? ≠ some 0 → (compactAt m c p x).2 = m)) ∧
  (∀ (m : Mach) (c p : Nat) (r : Range), m.ctxs.has c = true → rangesApart (m.ctx c).ranges → m.rangeAt c p = some r → r.cstate ≠ 1 →
    ∃ t : Word, t ≠ 0 ∧ (invAt m c p).1 = [0, t] ∧ (invAt m c p).2.ticketN = t ∧ (m.ticketN.toNat + 1 < 2 ^ 32 → t = m.ticketN + 1) ∧
      (∃ k ∈ (invAt m c p).2.tickets, k.num = t ∧ k.kind = .inv c r.base r.limit m.seq ∧ k.frozen = false) ∧
      (∀ va, r.base ≤ va → va < r.limit → (invAt m c p).2.rangeAt c va = none) ∧
      (∀ va, ¬ (r.base ≤ va ∧ va < r.limit) → (invAt m c p).2.rangeAt c va = m.rangeAt c va) ∧
      (∀ c' va, c' ≠ c → (invAt m c p).2.rangeAt c' va = m.rangeAt c' va)) ∧
  (∀ (m : Mach) (c p : Nat), m.ctxs.has c = true → rangesApart (m.ctx c).ranges → (mergeAt m c p).1 = 0 →
    ∃ lo ∈ (m.ctx c).ranges, ∃ hi ∈ (m.ctx c).ranges, ∃ e f : Nat,
      let n := lo.limg - lo.baseg
      lo.limit = p ∧ hi.base = p ∧ lo.cstate = 0 ∧ hi.cstate = 0 ∧ lo.fmt ∉ [4, 5, 6] ∧ hi.limg - lo.baseg ≤ 2 ^ 32 ∧
      { hi with baseg := lo.baseg, limg := lo.limg, rlo := lo.rlo, rhi := lo.rhi, cwm := lo.cwm, noffg := lo.noffg, gen := lo.gen } = lo ∧
      (lo.rlo ≠ lo.rhi → hi.rlo ≠ hi.rhi → lo.rhi = n ∧ hi.rlo = 0 ∧ e = lo.rlo ∧ f = (n + hi.rhi) % 2 ^ 32) ∧
      (lo.rlo ≠ lo.rhi → hi.rlo = hi.rhi → e = lo.rlo ∧ f = lo.rhi) ∧
      (lo.rlo = lo.rhi → hi.rlo ≠ hi.rhi → e = (n + hi.rlo) % 2 ^ 32 ∧ f = (n + hi.rhi) % 2 ^ 32) ∧
      (lo.rlo = lo.rhi → hi.rlo = hi.rhi → e = 0 ∧ f = 0) ∧
      becomes m (mergeAt m c p).2 c [lo, hi] { lo with limg := hi.limg, rlo := e, rhi := f, gen := lo.gen + 1 }) ∧
  (∀ (m : Mach) (c p : Nat) (b : BitVec 64), m.ctxs.has c = true → rangesApart (m.ctx c).ranges → (bindAt m c p b).1 = 0 →
    ∃ r, m.rangeAt c p = some r ∧ r.w = true ∧ b.toNat / 2 ^ 56 % 8 ≤ 5 ∧
      (b.toNat % 2 ^ 56 ≠ 0 → b.toNat % 8 = 0 ∧
        ∃ q, m.rangeAt c (b.toNat % 2 ^ 56) = some q ∧ q.r = true ∧ q.w = true ∧ q.a = true) ∧
      becomes m (bindAt m c p b).2 c [r] { r with sync := b.extractLsb' 0 56, sscope := b.extractLsb' 56 3, gen := r.gen + 1 }) ∧
  (∀ (m : Mach) (c p i : Nat), i < 8 →
    (∀ priv, (∀ r ∈ (m.ctx c).ranges, ¬ (r.base ≤ p ∧ p < r.limit)) → queryAt m c p i priv = 0) ∧
    ∀ r, m.rangeAt c p = some r →
      let bits (off noff : Nat) : Nat :=
        r.baseg % 2 ^ 44 + r.limg % 2 ^ 44 * 2 ^ 44 + off * 2 ^ 88 + noff * 2 ^ 132 + r.cwm % 2 ^ 50 * 2 ^ 176 +
        r.rlo % 2 ^ 32 * 2 ^ 226 + r.rhi % 2 ^ 32 * 2 ^ 258 + r.sync.toNat * 2 ^ 290 + r.sscope.toNat * 2 ^ 346 +
        r.soff % 2 ^ 40 * 2 ^ 349 + r.r.toNat * 2 ^ 389 + r.w.toNat * 2 ^ 390 + r.x.toNat * 2 ^ 391 + r.a.toNat * 2 ^ 392 +
        r.fmt % 8 * 2 ^ 393 + r.blk % 4 * 2 ^ 396 + r.sparse % 8 * 2 ^ 398 + r.home % 8 * 2 ^ 401 + r.hdev % 2 ^ 10 * 2 ^ 404 +
        r.cache % 4 * 2 ^ 414 + r.key % 2 ^ 12 * 2 ^ 416 + r.cstate % 4 * 2 ^ 428 + r.gen.toNat * 2 ^ 432 + 2 ^ 511
      queryAt m c p i true = bits r.offg.toNat r.noffg.toNat / 2 ^ (64 * i) % 2 ^ 64 ∧
      queryAt m c p i false = bits 0 0 / 2 ^ (64 * i) % 2 ^ 64) ∧
  (∀ (m : Mach) (c x : Nat), m.ctxs.has c = true → rangesApart (m.ctx c).ranges → (setRange m c x).1 = 0 →
    let b (i n : Nat) : Nat := x / 2 ^ i % 2 ^ n
    let d : Range := { baseg := b 0 44, limg := b 44 44, offg := BitVec.ofNat 44 (b 88 44), rlo := b 226 32, rhi := b 258 32,
                       sync := BitVec.ofNat 56 (b 290 56), sscope := BitVec.ofNat 3 (b 346 3), soff := b 349 40, r := b 389 1 == 1,
                       w := b 390 1 == 1, x := b 391 1 == 1, a := b 392 1 == 1, fmt := b 393 3, blk := b 396 2, sparse := b 398 3,
                       home := b 401 3, hdev := b 404 10, cache := b 414 2, key := b 416 12 }
    b 511 1 = 1 ∧ (d.w && d.x) = false ∧ d.baseg < d.limg ∧ d.rlo ≤ d.rhi ∧ d.rhi ≤ d.limg - d.baseg ∧
    (((∀ q ∈ (m.ctx c).ranges, q.limg ≤ d.baseg ∨ d.limg ≤ q.baseg) ∧ becomes m (setRange m c x).2 c [] d) ∨
      ∃ q ∈ (m.ctx c).ranges, q.cstate = 0 ∧
        { q with r := d.r, w := d.w, x := d.x, a := d.a, cache := d.cache, rlo := d.rlo, rhi := d.rhi, sync := d.sync,
                 sscope := d.sscope, gen := 0, cwm := 0, noffg := 0 } = d ∧
        becomes m (setRange m c x).2 c [q] { q with r := d.r, w := d.w, x := d.x, a := d.a, cache := d.cache, rlo := d.rlo,
                                                    rhi := d.rhi, sync := d.sync, sscope := d.sscope, gen := q.gen + 1 })) ∧
  (∀ (m : Mach) (c p pb : Nat), m.ctxs.has c = true → rangesApart (m.ctx c).ranges → (compactAt m c p pb).1.head? = some 0 →
    ∃ (r : Range) (t : Word), m.rangeAt c p = some r ∧ r.cstate = 0 ∧ m.moving < 16 ∧ pb % 4096 = 0 ∧
      (pb : Int) + ((r.limit : Int) - r.base) ≤ 2 ^ 52 ∧
      t ≠ 0 ∧ (compactAt m c p pb).1 = [0, t] ∧ (compactAt m c p pb).2.ticketN = t ∧ (m.ticketN.toNat + 1 < 2 ^ 32 → t = m.ticketN + 1) ∧
      becomes m (compactAt m c p pb).2 c [r]
        { r with noffg := BitVec.ofInt 44 (((pb : Int) - r.base) / 4096), cwm := r.base / 64, cstate := 1, gen := r.gen + 1 } ∧
      ∃ k ∈ (compactAt m c p pb).2.tickets, k.num = t ∧ k.kind = .move c r.base)

/-- R65, R66, R272, R276, R280 to R283: the stream words of a running stream where they meet no cause. After a word the stream goes on at
the next index or at the start of a loop that ends there; MJMP goes to its target; MEND ends the stream, or pauses a service stream; an
MWAIT whose phase has not completed stalls.
What MLDB loads is pinned: the slot's mode and format, and for each element of each filter column its code and the scale of its block, in
dense, sparse and paired storage. -/
def Obligations.StreamWords : Prop :=
  (∀ (a : Attr) (bs : List Byte) (b : BSlot), slotOf a bs = some b →
    let width := fmtWidth a.fmt
    let g := packBytes a.fmt a.sparse
    let group (i : Nat) : Nat := leNat ((bs.drop (i * g)).take g)
    let code (j k : Nat) : Nat := ((b.cols.getD j []).getD k (0, 0)).1
    let scale (e : Nat) : Int := ((bs.drop (slotBytes a.fmt a.sparse)).getD (e / blkLen a.blk) 0).toInt
    b.mode = a.sparse + 1 ∧ b.fmt = a.fmt ∧ b.cols.length = (if a.sparse = 5 then 256 else 128) ∧
    (∀ j k, j < b.cols.length → k < 96 → ((b.cols.getD j []).getD k (0, 0)).2 = scale (96 * j + k)) ∧
    (a.sparse = 0 → ∀ j k, j < 128 → k < 96 →
      code j k = leNat ((bs.drop (j * (96 * width / 8))).take (96 * width / 8)) / 2 ^ (width * k) % 2 ^ width) ∧
    (1 ≤ a.sparse → a.sparse ≤ 4 → ∀ j q p, j < 128 → q < 8 → p < 12 →
      code j (12 * q + p) = (spread a.fmt (groupEntries a.fmt (sparseN a.sparse) (group (8 * j + q)))).getD p 0) ∧
    (a.sparse = 5 → ∀ j q p, j < 128 → q < 8 → p < 12 → ∃ x y, pairedGroup a.fmt (group (8 * j + q)) = some (x, y) ∧
      code (2 * j) (12 * q + p) = (spread a.fmt x).getD p 0 ∧ code (2 * j + 1) (12 * q + p) = (spread a.fmt y).getD p 0)) ∧
  ∀ (k : Nat) (x : Stream) (s : State) (bslot : BitVec 8) (off : BitVec 40) (coff : BitVec 10) (acc : BitVec 2) (nb : BitVec 4)
    (count : BitVec 16) (tgt : BitVec 24), s.act = .stream k → s.m.streams.find k = some x →
    let runs (w : BitVec 64) (i : Instr) (o : Host.Outcome State Fault Refusal) : Prop := decodeStream w = .ok i ∧ exec i s = o
    let goes (m : Mach) (y : Stream) (i : Int) : Host.Outcome State Fault Refusal :=
      .next ⟨{ m with streams := m.streams.put k { y with idx := i, out := 0, got := false } }, .idle⟩
    let on (m : Mach) (y : Stream) : Host.Outcome State Fault Refusal :=
      match y.loops with
      | [] => goes m y (x.idx + 1)
      | (c, st, e) :: r =>
        if e ≠ x.idx then goes m y (x.idx + 1)
        else if c ≠ 1 then goes m { y with loops := (c - 1, st, e) :: r } st
        else .next ⟨{ m with streams := m.streams.put k { y with idx := (loopEnd x.idx r).1, loops := (loopEnd x.idx r).2, out := 0, got := false } }, .idle⟩
    let w4 : Nat := if acc = 0 then 4 else 2
    let units : Nat := if acc = 0 then 64 else 32
    let pitch : Nat := if x.cpitch = 0 then 128 * w4 else 64 * x.cpitch
    let tile : Nat := 512 * (x.cbase + coff.toNat)
    let to4 (f : BitVec 6) (c : BitVec 16) (o : BitVec 24) : BitVec 64 := f ++ c ++ 0#18 ++ o
    runs (0x00#6 ++ 0#58) .mnop (on s.m x) ∧
    (off.toNat % 64 = 0 → ∀ a vas bs b, bslot.toNat ≤ x.bcnt → mldbPlace s.m x (x.data + off.toNat) = .inl (a, vas) →
      (∀ va ∈ vas, a.origin ≤ va ∧ va < a.lim) → streamRead s.m x vas = .ok bs → slotOf a bs = some b →
      runs (0x01#6 ++ 0#2 ++ bslot ++ 0#8 ++ off) (.mldb bslot off) (on (setSlot s.m x.sp (x.bbase + bslot.toNat) b) x)) ∧
    (acc ≠ 3#2 → coff.toNat + units ≤ x.ccnt + 1 →
      runs (0x05#6 ++ 0#3 ++ acc ++ 0#18 ++ coff ++ 0#25) (.mclr acc coff)
        (on (s.m.modSp x.sp (fun p => { p with acc := p.acc.block tile (List.replicate (512 * units) 0) })) x) ∧
      (off.toNat % 64 = 0 → 128 * w4 ≤ pitch →
        (∀ va ∈ moutVas (x.data + off.toNat) pitch w4, moutDead s.m x (accCode acc) va = false ∧
          s.m.translate (x.who s.m) .write va ≠ .wait) →
        (putBytes s.m x (moutVas (x.data + off.toNat) pitch w4) ((s.m.spindle x.sp).acc.bytes tile (512 * units))).2 = none →
        runs (0x06#6 ++ coff ++ acc ++ 0#6 ++ off) (.mout coff acc off)
          (on (putBytes s.m x (moutVas (x.data + off.toNat) pitch w4) ((s.m.spindle x.sp).acc.bytes tile (512 * units))).1 x))) ∧
    (x.memb.getLsbD nb.toNat = true → runs (0x07#6 ++ nb ++ 0#54) (.marrive nb)
      (on (arriveAt s.m x.crew nb.toNat)
        { x with arrived := x.arrived.setIfInBounds nb.toNat (some ((s.m.crew x.crew).bar nb.toNat).p) })) ∧
    (nb.toNat < (s.m.crew x.crew).nbWin →
      (x.wc.toList.getD nb.toNat 0).toNat < (((s.m.crew x.crew).bar nb.toNat).p - x.p0.toList.getD nb.toNat 0).toNat →
      runs (0x08#6 ++ nb ++ 0#54) (.streamMwait nb)
        (on s.m { x with wc := x.wc.setIfInBounds nb.toNat (x.wc.toList.getD nb.toNat 0 + 1) })) ∧
    (nb.toNat < (s.m.crew x.crew).nbWin →
      (((s.m.crew x.crew).bar nb.toNat).p - x.p0.toList.getD nb.toNat 0).toNat ≤ (x.wc.toList.getD nb.toNat 0).toNat →
      runs (0x08#6 ++ nb ++ 0#54) (.streamMwait nb) (.next ⟨if x.got then s.m else
        { s.m with streams := s.m.streams.put k { x with out := 0, got := true } }, .idle⟩)) ∧
    (count ≠ 0 → 0 < tgt.toInt → x.loops.length < 4 → endsLoop s.m x (x.idx + tgt.toInt) = some true →
      runs (to4 0x09#6 count tgt) (.mloop count tgt)
        (on s.m { x with loops := (count.toNat, x.idx + 1, x.idx + tgt.toInt) :: x.loops })) ∧
    (tgt ≠ 0 → runs (to4 0x0A#6 0#16 tgt) (.mjmp tgt) (goes s.m x (x.idx + tgt.toInt))) ∧
    (x.seqNo < 4 → (s.m.gang x.gang).life ≠ .ended → (s.m.gang x.gang).q5.length < 16 → ∀ y : BitVec 64,
      y = BitVec.ofInt 32 x.idx ++ x.tag ++ BitVec.ofNat 8 x.seqNo ++ (if x.serv then 1#8 else 0#8) →
      runs (0x0B#6 ++ 0#58) .mend (.next ⟨(
        if x.serv then { s.m.post x.gang 5 y with streams := s.m.streams.put k { x with loops := [], waitQ := true, post := none } }
        else { s.m.post x.gang 5 y with streams := s.m.streams.drop k } : Mach).settle, .idle⟩))

/-- R267, R278, R279: the tile words. Where the window, the fragment (the latched one, else the one at aoff) and the slot fit, each
element of each tile takes C + S rounded once, the rest of the accumulator store keeps its bytes, and R latches the fragment. R51, R278: the sum over products is exact. In units
of 2^q, no finer than any product needs, it is the sum of the products. -/
def Obligations.TileWords : Prop :=
  (∀ (k : Nat) (x : Stream) (s : State) (r : Bool) (rnd acc : BitVec 2) (bslot : BitVec 8) (aoff coff : BitVec 10) (sp : BitVec 4)
    (fr : Frag), s.act = .stream k → s.m.streams.find k = some x → acc ≠ 3#2 → bslot.toNat ≤ x.bcnt →
    (x.latch = some fr ∨ x.latch = none ∧ ∃ a vas bs, fragPlace s.m x aoff = .inl (a, vas) ∧ streamRead s.m x vas = .ok bs ∧ fr = fragOf a bs) →
    let b := slotAt s.m x.sp (x.bbase + bslot.toNat)
    let w : Nat := if acc = 0 then 4 else 2
    let units : Nat := if acc = 0 then 64 else 32
    let f : Fmt := if acc = 0 then fp32 else if acc = 1 then bf16 else fp16
    let mode : RM := if rnd = 0 then .rne else if rnd = 1 then .rtz else if rnd = 2 then .rup else .rdn
    let base := 512 * (x.cbase + coff.toNat)
    let old := (s.m.spindle x.sp).acc
    let fits (tiles mode : Nat) : Prop := coff.toNat + tiles * units ≤ x.ccnt + 1 ∧ b.mode = mode ∧ b.fmt = fr.fmt
    let word (maj : BitVec 6) (c : BitVec 4) : BitVec 64 := maj ++ bb r ++ rnd ++ acc ++ bslot ++ aoff ++ coff ++ c ++ 0#21
    let adds (y : BitVec 64) (i : Instr) (tiles : Nat) : Prop := decodeStream y = .ok i ∧ ∃ new : Mem,
      exec i s = .next ⟨(let m := s.m.modSp x.sp (fun p => { p with acc := new, served := x.seqNo })
        { m with streams := m.streams.put k ({ x with latch := if r then some fr else none, out := 0, got := false }.advance none) }), .idle⟩ ∧
      (∀ t i j, t < tiles → i < 64 → j < 128 →
        new.nat (base + (t * 64 * 128 + 128 * i + j) * w) w =
          (sumRound f mode false [f.decode (old.nat (base + (t * 64 * 128 + 128 * i + j) * w) w),
            dotExact fr.fmt (fr.rows.getD i []) (b.cols.getD (tiles * j + t) [])] false).1 % 2 ^ (8 * w)) ∧
      (∀ a, a < base ∨ base + 512 * units * tiles ≤ a → new.get a = old.get a)
    (fits 1 1 → adds (word 0x02#6 0#4) (.mma r rnd acc bslot aoff coff) 1) ∧
    (sp.toNat < 4 → fits 1 (sp.toNat + 2) → adds (word 0x03#6 sp) (.mmas r rnd acc bslot aoff coff sp) 1) ∧
    (fits 2 6 → adds (word 0x04#6 0#4) (.mmap r rnd acc bslot aoff coff) 2)) ∧
  (∀ (fmt : Nat) (row col : List (Nat × Int)) (q : Int), q ≤ 0 → (∀ v ∈ List.zipWith (elemProd fmt) row col, q ≤ v.dy.e) →
    let d := (dotExact fmt row col).dy
    q ≤ d.e ∧ d.n * 2 ^ (d.e - q).toNat =
      ((List.zipWith (elemProd fmt) row col).map (fun v => v.dy.n * 2 ^ (v.dy.e - q).toNat)).sum)

/-- R67, R273, R274, R276, R279 to R283: a stream word that breaks a rule which shows before it reads or writes (ILLEGAL, WINDOW, a storage
or slot format, SHAPE, BARRIER, LOOP), or an MLDB at an address that no range covers, stops its stream with that code. The stream makes
its arrivals due, posts its status to q5 and gives up its sequencer; no byte and nothing of the arrays changes. An MOUT that meets a
fault at a byte stops with that fault's code, every byte of its tile below that one written and none from it on. -/
def Obligations.StreamStops : Prop :=
  ∀ (k : Nat) (x : Stream) (s : State) (i : Instr) (code : Nat), s.act = .stream k → s.m.streams.find k = some x →
    x.seqNo < 4 → s.m.gangs.has x.gang = true → (s.m.gang x.gang).life ≠ .ended → (s.m.gang x.gang).q5.length < 16 →
    s.m.popping x.gang 5 = [] →
    let stops (t : State) : Prop := t.act = .idle ∧ t.m.streams.find k = none ∧
      (∀ j, j ≠ k → t.m.streams.find j = s.m.streams.find j) ∧
      (t.m.gang x.gang).q5 = (s.m.gang x.gang).q5 ++
        [BitVec.ofInt 32 x.idx ++ x.tag ++ BitVec.ofNat 8 x.seqNo ++ BitVec.ofNat 8 code] ∧
      (s.m.crews.has x.crew = true → ∀ n < 16, (t.m.crew x.crew).bar n =
        if x.memb.getLsbD n = true ∧ x.arrived.toList.getD n none ≠ some ((s.m.crew x.crew).bar n).p
          then ((s.m.crew x.crew).bar n).arrive else (s.m.crew x.crew).bar n)
    let tile (b : BitVec 8) (acc : BitVec 2) (co : BitVec 10) (mode tiles : Nat) : Prop :=
      ((x.bcnt < b.toNat ∨ x.ccnt + 1 < co.toNat + tiles * tileUnits acc) ∧ code = 3) ∨
      (b.toNat ≤ x.bcnt ∧ co.toNat + tiles * tileUnits acc ≤ x.ccnt + 1 ∧ code = 4 ∧ ∃ fr, x.latch = some fr ∧
        ((slotAt s.m x.sp (x.bbase + b.toNat)).mode ≠ mode ∨ (slotAt s.m x.sp (x.bbase + b.toNat)).fmt ≠ fr.fmt))
    let w (acc : BitVec 2) : Nat := if acc = 0 then 4 else 2
    let pitch (acc : BitVec 2) : Nat := if x.cpitch = 0 then 128 * w acc else 64 * x.cpitch
    let dead (acc : BitVec 2) (va : Nat) : Prop := ∃ a, s.m.attrAt (x.who s.m) va = some a ∧
      ((a.fmt ≠ 0 ∧ a.fmt ≠ (if acc = 0 then 1 else if acc = 1 then 3 else 2)) ∨ a.blk = 3)
    (((∃ w, i = .illegalStreamWord w ∧ code = 2) ∨ (i = .mjmp 0 ∧ code = 2) ∨
      (∃ c o, i = .mloop c o ∧ (o.toInt ≤ 0 ∨ endsLoop s.m x (x.idx + o.toInt) = some false) ∧ code = 2) ∨
      (∃ c o, i = .mloop c o ∧ 0 < o.toInt ∧ endsLoop s.m x (x.idx + o.toInt) = some true ∧ 4 ≤ x.loops.length ∧ code = 10) ∨
      (∃ b o, i = .mldb b o ∧ ((x.bcnt < b.toNat ∧ code = 3) ∨
        (b.toNat ≤ x.bcnt ∧ ∃ a, s.m.attrAt (x.who s.m) (x.data + o.toNat) = some a ∧ (a.fmt ∉ [4, 5, 6] ∨ a.blk = 3) ∧ code = 4) ∨
        (b.toNat ≤ x.bcnt ∧ x.data + o.toNat < 0xFD * 2 ^ 48 ∧ s.m.rangeAt (s.m.engine x.crew x.sp).ctx (x.data + o.toNat) = none ∧ code = 6))) ∨
      (∃ r rnd acc b ao co, i = .mma r rnd acc b ao co ∧ tile b acc co 1 1) ∨
      (∃ r rnd acc b ao co sp, i = .mmas r rnd acc b ao co sp ∧ tile b acc co (sp.toNat + 2) 1) ∨
      (∃ r rnd acc b ao co, i = .mmap r rnd acc b ao co ∧ tile b acc co 6 2) ∨
      (∃ acc co, i = .mclr acc co ∧ x.ccnt + 1 < co.toNat + tileUnits acc ∧ code = 3) ∨
      (∃ acc co o, i = .mout co acc o ∧ ((x.ccnt + 1 < co.toNat + tileUnits acc ∧ code = 3) ∨
        (co.toNat + tileUnits acc ≤ x.ccnt + 1 ∧ (∃ va ∈ moutVas (x.data + o.toNat) (pitch acc) (w acc), dead acc va) ∧ code = 4) ∨
        (co.toNat + tileUnits acc ≤ x.ccnt + 1 ∧ (∀ va ∈ moutVas (x.data + o.toNat) (pitch acc) (w acc), ¬ dead acc va) ∧
          pitch acc < 128 * w acc ∧ code = 5))) ∨
      (∃ nb, i = .marrive nb ∧ x.memb.getLsbD nb.toNat = false ∧ code = 9) ∨
      (∃ nb, i = .streamMwait nb ∧ (s.m.crew x.crew).nbWin ≤ nb.toNat ∧ code = 9)) →
    ∃ t, exec i s = .next t ∧ stops t ∧ SameBytes s.m t.m ∧ t.m.spindles = s.m.spindles) ∧
    (∀ (co : BitVec 10) (acc : BitVec 2) (o : BitVec 40) (n va : Nat), i = .mout co acc o →
      co.toNat + tileUnits acc ≤ x.ccnt + 1 → 128 * w acc ≤ pitch acc →
      let vas := moutVas (x.data + o.toNat) (pitch acc) (w acc)
      let bs := (s.m.spindle x.sp).acc.bytes (512 * (x.cbase + co.toNat)) (512 * tileUnits acc)
      let below := putBytes s.m x (vas.take n) (bs.take n)
      (∀ a ∈ vas, ¬ dead acc a ∧ s.m.translate (x.who s.m) .write a ≠ .wait) → vas[n]? = some va → below.2 = none →
      ((∃ c y z, below.1.reach (x.who s.m) .write [va] none = .trap c y z ∧
          code = (if c = .accessTable then 7 else if c = .format then 4 else if c = .dataError then 8 else 6)) ∨
        (∃ l, below.1.reach (x.who s.m) .write [va] none = .ok [l] ∧ below.1.storeErr x.sp l = true ∧ code = 8)) →
      ∃ t, exec i s = .next t ∧ stops t ∧ SameBytes below.1 t.m)

/-- R24, R90, R98, R101, R114, R220, R222, R258, R324, R362: a long result that a link has not lost returns. Its registers take its value
in each of its threads and it is gone; an element that lies in two sectors is read whole at its home, past its spindle's L1 (R100); a load
that meets an uncorrectable error, in its L1 or where it goes, or a malformed group gives zeros, and its lanes owe a report; WAITC returns
when the word differs or pre-emption is requested, and in time whatever it reads, once its read may perform. A read that passes a copy in
its L1 leaves that copy as new as what it read (DEDUCED, log 115), and the rest of the L1 and every home as they were. ACQ reads at the home, and its
spindle's L1 keeps no line of its sector and none of a range that it covers, dirty ones written back: the model's choice (DEDUCED,
log 68), as R222 drops only the clean sectors of bound ranges; an error in what is written back
goes home with it (DESIGN CHOICE, log 104). -/
def Obligations.ResultsReturn : Prop :=
  (∀ (m : Mach) (sp : Nat) (ls : List Loc), let m' := m.l1Renew sp ls
    (∀ l ∈ ls, l.cache ≠ .l1l2 → m'.load sp { l with cache := .l1l2 } = m.load sp l) ∧
    (∀ l, l.cache ≠ .l1l2 → m'.load sp l = m.load sp l) ∧
    (∀ l', (∀ l ∈ ls, l.cache ≠ .l1l2 → ¬ (l.sto = l'.sto ∧ l.addr = l'.addr ∧ l.tag = l'.tag)) → m'.load sp l' = m.load sp l') ∧
    (∀ sp' l', sp' ≠ sp → m'.load sp' l' = m.load sp' l') ∧ (∀ l', m'.homeGet l' = m.homeGet l') ∧
    m' = { m with spindles := m'.spindles }) ∧
  ∀ (k : Nat) (r : Res) (s : State), s.m.results.find? (fun x => x.seq == k) = some r → r.out < 1000000 →
    let sp := (s.m.gang r.gang).sp
    let rest := s.m.results.filter (fun x => x.seq != k)
    let gives (xs : List Word) (m : Mach) : Mach := { m with results := rest }.onRun r.us (fun _ t => t.wrs r.dst xs)
    let fails (c : Cause) (va : Nat) (m : Mach) : Mach :=
      (gives (List.replicate r.n 0) m).onRun r.us (fun _ t => t.defer ⟨c, BitVec.ofNat 32 va, r.seq⟩)
    let returns (P : Mach) := Happens (.longResultReturn k) s (fun m => m = P)
    (∀ xs, r.src = .val xs → returns (gives xs s.m)) ∧
    (∀ ls cv, r.src = .load ls cv → s.m.readReady r.us r.gang k ls = true →
      let body := if cv.scaled then ls.dropLast else ls
      let m0 := if body.any (fun a => !sameSector (body.headD default) a) then s.m.l1Clean sp true (lineIn body) else s.m
      let m1 := m0.l1Renew sp ls
      ((∀ l ∈ ls, s.m.readErr sp l = false) → ∀ xs, cv.value (gotBytes m1 sp r.got ls) = some xs → returns (gives xs m1)) ∧
      ((∀ l ∈ ls, s.m.readErr sp l = false) → cv.value (gotBytes m1 sp r.got ls) = none → returns (fails .format r.va.toNat m1)) ∧
      (∀ l, ls.find? (s.m.readErr sp) = some l → returns (fails .dataError l.va s.m))) ∧
    (∀ ls x, r.src = .waitc ls x → (∀ l ∈ ls, s.m.readErr sp l = false) →
      let now := BitVec.ofNat 32 (leNat (ls.map (s.m.load sp)))
      (s.m.readReady r.us r.gang k ls = true → (now ≠ x ∨ ∃ u ∈ r.us, (s.m.thr u).preq = true) →
        returns (gives [now] (s.m.l1Renew sp ls))) ∧
      (65536 ≤ (s.m.clock - r.at').toNat → s.m.readReady r.us r.gang k ls = true → (∀ y ∈ s.m.results, y.seq = k → y = r) →
        Happens (.waitcTimeout k) s (fun m => m = gives [now] (s.m.l1Renew sp ls)))) ∧
    (∀ ls cov, r.src = .acq ls cov → s.m.readReady r.us r.gang k ls = true → (∀ l ∈ ls, s.m.homeErr l = false ∧ s.m.l1Bad sp l = false) →
      Happens (.longResultReturn k) s (fun m => ∃ m1 : Mach, m = { m1 with results := m1.results.filter (fun x => x.seq != k) }.onRun r.us
        (fun _ t => t.wrs r.dst [BitVec.ofNat 32 (leNat (ls.map m1.homeGet))]) ∧ m1.threads = s.m.threads ∧ m1.results = s.m.results ∧
        ∀ x ∈ (m1.spindle sp).l1, lineIn ls x = false ∧ lineBound (s.m.ctxOfGang r.gang) cov x = false)) ∧
    (∀ n c, r.src = .ring n → (s.m.gang r.gang).crew = some c → ((s.m.crew c).ring n).pub ≠ ((s.m.crew c).ring n).tak →
      firstRing s.m (some c) n = some r →
      let g := (s.m.crew c).ring n
      returns ((gives [g.tak, BitVec.ofNat 32 (g.base + g.tak.toNat % (max g.s 1) * g.z)] s.m).modCrew c
        (fun x => x.setRing n { x.ring n with tak := g.tak + 1 })))

/-- R16, R99, R213, R214, R223: a request that may perform does so at its target and is gone; an atomic reads and writes at the homes in
one step, after its spindle's L1 has let go of the sector, and its result takes the old value; REL writes its word at its home after the
dirty bytes of the ranges that it covers; ST.T into a block format writes its element's bits alone, encoded under the scale that it reads
(R50, R99, R100). A store that an uncorrectable error meets, in its L1 or at its home, writes nothing, and its lane owes a report (R324). That only a byte's sector is
tested then, whatever tag its unit has, is the model's choice (DEDUCED, log 24), and so is that an error
goes home with what L1 writes back (DESIGN CHOICE, log 104). R216: a router may merge two integer
requests, since one operation on the combined operand leaves at memory what the two in turn leave; the second request then keeps the
first's operand, from which its old value is worked out. -/
def Obligations.RequestsPerform : Prop :=
  (∀ (k : Nat) (q : Req) (s : State), s.m.reqs.find? (fun x => x.seq == k) = some q → reqReady s.m q = true → mergedInto s.m q = [] →
    (∀ p ∈ s.m.reqs, p.seq = k → p = q) → q.out < 1000000 →
    let rest := s.m.reqs.filter (fun p => p.seq != k && p.into != some k)
    let performs (m : Mach) := Happens (.memoryAccessPerform k) s (fun x => x = { m with reqs := rest })
    (∀ v mask, q.kind = .store v mask → (∀ l ∈ q.ls, s.m.storeErr q.sp l = false) →
      performs ((q.ls.zip (leBytes q.ls.length v)).foldl (fun x y => x.store q.sp y.1 y.2) s.m)) ∧
    (∀ fmt sub x n, q.kind = .typed fmt sub x → (fmt, n) ∈ [(4, 6), (5, 8), (6, 4)] → ∀ (body : List Loc) (l : Loc),
      q.ls = body ++ [l] → (∀ y ∈ q.ls, s.m.storeErr q.sp y = false) →
      let sc : Int := (q.got.getD (s.m.load q.sp l)).toInt
      let lim : Nat := if fmt = 5 then 127 else 7
      let k : Int := match fp32.decode x with
        | .nan _ => 0
        | .inf neg => if neg then -lim else lim
        | .fin neg a e => (if neg then -1 else 1) * ((min (quant .rne neg a e sc).1 lim : Nat) : Int)
      let code : Nat := if fmt = 4 then l6Encode (fp32.decode x) sc else (k % 2 ^ n).toNat
      let m1 := if body.any (fun a => !sameSector (body.headD default) a) then s.m.l1Clean q.sp true (lineIn body) else s.m
      let bits := List.zip (leBytes body.length (code % 2 ^ n * 2 ^ sub)) (leBytes body.length ((2 ^ n - 1) * 2 ^ sub))
      performs (((body.zip bits).filter (fun y => y.2.2 != 0)).foldl (fun x y => x.storeBits q.sp y.1 y.2.1 y.2.2) m1)) ∧
    ((∀ l ∈ q.ls, s.m.homeErr l = false ∧ s.m.l1Bad q.sp l = false) → q.kind.reads = true →
      let m1 := s.m.l1Clean q.sp true (lineIn q.ls)
      let old := leNat (q.ls.map m1.homeGet)
      performs { m1.homeSets q.ls (leBytes q.ls.length (q.kind.apply old)) with
        results := s.m.results.map (fun r => if r.src = .req k then { r with src := .val (q.kind.result old) } else r) }) ∧
    (∀ x cov, q.kind = .rel x cov → (∀ l ∈ q.ls, s.m.badAt l = false ∧ s.m.l1Bad q.sp l = false) → Happens (.memoryAccessPerform k) s (fun m =>
      m = { ((s.m.relL1 q.sp (s.m.ctxOfGang q.gang) cov).l1Clean q.sp true (lineIn q.ls)).homeSets q.ls (leBytes q.ls.length x) with
        reqs := rest } ∧ m.threads = s.m.threads ∧ ∀ y ∈ (m.spindle q.sp).l1, lineIn q.ls y = false ∧
        (y.dirty ≠ 0 → lineBound (s.m.ctxOfGang q.gang) cov y = false))) ∧
    (∀ l, l ∈ q.ls → s.m.storeErr q.sp l = true → (∀ l' ∈ q.ls, s.m.storeErr q.sp l' = true → l' = l) → (∃ v mask, q.kind = .store v mask) →
      Happens (.memoryAccessPerform k) s (fun m => m.reqs = rest ∧ SameBytes s.m m ∧ (s.m.threads.has q.u = true →
        (s.m.thr q.u).deferred = none → (m.thr q.u).deferred = some ⟨.dataError, BitVec.ofNat 32 l.va, k⟩)))) ∧
  ((∀ (w8 : Bool) (op old x y : Nat), op ≤ 7 → old < 2 ^ (if w8 then 64 else 32) → x < 2 ^ (if w8 then 64 else 32) →
    y < 2 ^ (if w8 then 64 else 32) → atomOp op w8 old (atomOp op w8 x y) = atomOp op w8 (atomOp op w8 old x) y) ∧
  ∀ (k l : Nat) (p q : Req) (s : State), s.m.reqs.find? (fun x => x.seq == k) = some p → s.m.reqs.find? (fun x => x.seq == l) = some q →
    merges s.m p q = true → ∀ (x y : Nat), p.kind.operand = some x → q.kind.operand = some y →
      Happens (.routerMerge k l) s (fun m => (∀ u, m.thr u = s.m.thr u) ∧ SameBytes s.m m ∧
        (∃ p' ∈ m.reqs, p' = { p with kind := p.kind.withOperand (p.kind.combine x y), own := p.own.or (some x) }) ∧
        (∃ q' ∈ m.reqs, q' = { q with into := some k, pre := x })))

/-- R212, R215, R217: what an atomic leaves and returns, for the old value that it finds. Integer operations wrap or compare by their
width and sign; floating-point ATOM and FRED operations round once to nearest even and keep subnormals, packed halves each alone, and
FRED returns nothing; ACAS writes when the old value is the expected one; CHUNK claims from its cell and keeps the rest of it. -/
def Obligations.AtomicOperations : Prop :=
  ∀ (old x y : BitVec 32) (old8 x8 y8 : BitVec 64) (cell : BitVec 128),
    let a4 (op : Nat) (z : BitVec 32) := (ReqK.atom op false x.toNat).apply old.toNat = z.toNat ∧
      (ReqK.atom op false x.toNat).result old.toNat = [old]
    let a8 (op : Nat) (z : BitVec 64) := (ReqK.atom op true x8.toNat).apply old8.toNat = z.toNat ∧
      (ReqK.atom op true x8.toNat).result old8.toNat = [old8.setWidth 32, (old8 >>> 32).setWidth 32]
    let flt (f : Fmt) (op a b : Nat) : Nat :=
      if op = 0 then (sumRound f .rne false [f.decode a, f.decode b] false).1 else (f.minmax (op == 2) a b).1
    let fred (op fmt : Nat) := (ReqK.fred op fmt x.toNat).apply old.toNat
    let halves (f : Fmt) (op : Nat) : Nat := flt f op (old.toNat % 2 ^ 16) (x.toNat % 2 ^ 16) +
      2 ^ 16 * flt f op (old.toNat / 2 ^ 16) (x.toNat / 2 ^ 16)
    (∀ op < 3, (ReqK.atom (10 + op) false x.toNat).apply old.toNat = flt fp32 op old.toNat x.toNat ∧
      (ReqK.atom (10 + op) false x.toNat).result old.toNat = [old] ∧
      fred op 0 = flt fp32 op old.toNat x.toNat ∧ fred op 1 = halves bf16 op ∧ fred op 2 = halves fp16 op ∧
      ∀ fmt, (ReqK.fred op fmt x.toNat).result old.toNat = []) ∧
    fred 0 3 = (old + x).toNat ∧ fred 1 3 = (if x.slt old then x else old).toNat ∧ fred 2 3 = (if old.slt x then x else old).toNat ∧
    a4 0 (old + x) ∧ a8 0 (old8 + x8) ∧ a4 1 (old &&& x) ∧ a8 1 (old8 &&& x8) ∧ a4 2 (old ||| x) ∧ a8 2 (old8 ||| x8) ∧
    a4 3 (old ^^^ x) ∧ a8 3 (old8 ^^^ x8) ∧ a4 4 (if x.slt old then x else old) ∧ a8 4 (if x8.slt old8 then x8 else old8) ∧
    a4 5 (if old.slt x then x else old) ∧ a8 5 (if old8.slt x8 then x8 else old8) ∧
    a4 6 (if x.ult old then x else old) ∧ a8 6 (if x8.ult old8 then x8 else old8) ∧
    a4 7 (if old.ult x then x else old) ∧ a8 7 (if old8.ult x8 then x8 else old8) ∧ a4 8 x ∧ a8 8 x8 ∧
    a4 9 (if x.ule old then 0 else old + 1) ∧ a8 9 (if x8.ule old8 then 0 else old8 + 1) ∧
    (ReqK.acas false x.toNat y.toNat).apply old.toNat = (if old = x then y else old).toNat ∧
    (ReqK.acas true x8.toNat y8.toNat).apply old8.toNat = (if old8 = x8 then y8 else old8).toNat ∧
    (ReqK.acas false x.toNat y.toNat).result old.toNat = [old] ∧
    (ReqK.acas true x8.toNat y8.toNat).result old8.toNat = [old8.setWidth 32, (old8 >>> 32).setWidth 32] ∧
    (let next := cell.setWidth 32
     let rem := if next.ult ((cell >>> 32).setWidth 32) then (cell >>> 32).setWidth 32 - next else 0#32
     let mn := max ((cell >>> 64).setWidth 16).toNat 1
     let dv := max ((cell >>> 80).setWidth 16).toNat 1
     let len := BitVec.ofNat 32 (if rem = 0 then 0 else min rem.toNat (max mn ((rem.toNat + dv - 1) / dv)))
     ReqK.chunk.result cell.toNat = [next, len] ∧
       ReqK.chunk.apply cell.toNat = ((cell >>> 32).setWidth 96 ++ (next + len) : BitVec 128).toNat)

/-- R109, R355, R362: the fetch agent delivers the 16 packets of a block to a spindle that asked for one of them, as their homes hold
them; and a request, or a load, that has been ready to perform at another device for 1,000,000 cycles (DEDUCED, log 114) is answered as an uncorrectable
error, and performs or returns no value afterwards. -/
def Obligations.FetchAndLinkSteps : Prop :=
  ∀ (die c blk sp a k : Nat) (bs : List Byte) (s : State),
    (s.m.spindles.has sp = true → dieOf sp = die → blk % 192 = 0 → (c, a) ∈ (s.m.spindle sp).imiss → a / 192 * 192 = blk → a % 12 = 0 →
      (∀ i < 16, s.m.fetchBytes ⟨c, none, die * 96, true⟩ (blk + 12 * i) 12 ≠ .wait) →
      s.m.fetchBytes ⟨c, none, die * 96, true⟩ a 12 = .ok bs → s.m.icacheAt sp c a = none →
      (∀ p ∈ s.m.spindles, ∀ x ∈ p.2.missOut, dieOf p.1 = die → x.1 = c → x.2.1 = blk → x.2.2 < 1000000) →
      Happens (.fetchAgentDelivery die c blk) s (fun m => m.icacheAt sp c a = some bs ∧ (c, a) ∉ (m.spindle sp).imiss ∧
        m.threads = s.m.threads ∧ SameBytes s.m m)) ∧
    (∀ q l, s.m.reqs.find? (fun x => x.seq == k) = some q → reqReady s.m q = true → mergedInto s.m q = [] →
      q.ls.find? (·.far) = some l → 1000000 ≤ q.out → s.m.threads.has q.u = true → (s.m.thr q.u).deferred = none →
      Happens (.linkRequestTimeout k) s (fun m => SameBytes s.m m ∧ (∀ p ∈ m.reqs, p.seq ≠ k) ∧
        (m.thr q.u).deferred = some ⟨.dataError, BitVec.ofNat 32 l.va, k⟩) ∧
      (s.m.l1Hit q.sp l = false → (∃ v mask, q.kind = .store v mask) → Happens (.memoryAccessPerform k) s (fun m =>
        SameBytes s.m m ∧ ∀ p ∈ m.reqs, p.seq ≠ k))) ∧
    (∀ r ls cv l, s.m.reqs.find? (fun x => x.seq == k) = none → s.m.results.find? (fun x => x.seq == k) = some r → r.src = .load ls cv →
      s.m.readReady r.us r.gang k ls = true → ls.find? (·.far) = some l → 1000000 ≤ r.out →
      Happens (.linkRequestTimeout k) s (fun m => m = (({ s.m with results := s.m.results.filter (fun x => x.seq != k) } : Mach).onRun r.us
        (fun _ t => t.wrs r.dst (List.replicate r.n 0))).onRun r.us (fun _ t => t.defer ⟨.dataError, BitVec.ofNat 32 l.va, r.seq⟩)) ∧
      (s.m.l1Hit (s.m.gang r.gang).sp l = false → Happens (.longResultReturn k) s (fun m => SameBytes s.m m ∧ ∀ u ∈ r.us,
        s.m.threads.has u = true → (m.thr u).v = ((s.m.thr u).wrs r.dst (List.replicate r.n 0)).v)))

/-- R126, R127, R153, R154, R155, R156, R164: ticks make threads due; a promotion of a due thread at a boundary splits its lowest promotable
frame and sends a request with an entry of the pool, a range at the point that its mode gives it; without such a frame the thread is due
no more, and without room a thread of a cycle-mode region waits for its next boundary. That the promotion takes place at once whatever
accesses of the parent are outstanding, and its fence (R226) once they have performed, is the model's choice (DEDUCED, log 46). -/
def Obligations.PromotionSteps : Prop :=
  ∀ (r u k : Nat) (s : State),
    let t := s.m.thr u
    let stands := s.m.threads.has u = true ∧ t.due = true ∧ t.tried = false ∧ t.stat = .run ∧ t.pos.slot = 0 ∧
      (s.m.gang t.gang).life = .live
    (s.m.regions.has r = true → (s.m.region r).rcb.det = false → s.m.clock.toNat % 2 ^ ((s.m.region r).rcb.hbexp + 8) = 0 →
      (s.m.region r).ticked ≠ s.m.clock →
      Happens (.heartbeatTick r) s (fun m => (m.region r).ticked = s.m.clock ∧ (∀ v, s.m.threads.has v = true →
        m.thr v = if (s.m.thr v).region = r ∧ (s.m.thr v).stat.live = true ∧ s.m.onSpindle v = true then { s.m.thr v with due := true }
          else s.m.thr v))) ∧
    (s.m.threads.has u = true → t.tick = true → t.stat.live = true →
      Happens (.logicalTick u) s (fun m => m.thr u = { t with tick := false, due := true } ∧ ∀ v, v ≠ u → m.thr v = s.m.thr v)) ∧
    (stands → (∀ i < t.frames.length, promotable t i = false) → Happens (.promotion u) s (fun m =>
      m.thr u = { t with due := false } ∧ (∀ v, v ≠ u → m.thr v = s.m.thr v) ∧ m.dies = s.m.dies)) ∧
    (stands → k < t.frames.length → t.frames.length = t.cells.length → promotable t k = true → (∀ i < k, promotable t i = false) →
      spawnFull s.m u = false → Happens (.promotion u) s (fun m =>
        let f := t.frames.getD k default
        let c := t.cells.getD k default
        ∃ q e, (m.die (s.m.dieOfThr u)).queue = (s.m.die (s.m.dieOfThr u)).queue ++ [q] ∧
          e ∈ freeEntries s.m t.region ∧ m.pools.at (s.m.poolOf t.region) = e :: s.m.pools.at (s.m.poolOf t.region) ∧ q.poolIdx = e ∧
          q.region = t.region ∧ q.entry = f.entry ∧ q.arg = f.arg ∧ q.kind = f.kind ∧ q.parent = u ∧ q.pslot = k ∧ q.grain = c.grain ∧
          (m.thr u).due = false ∧ (∀ v, v ≠ u → m.thr v = s.m.thr v) ∧
          match f.kind with
          | .point => (m.thr u).frames.getD k default = { f with state := .promoted } ∧
              ((m.thr u).cells.getD k default).npiece = 1 ∧ ((m.thr u).cells.getD k default).done = 0 ∧
              ((m.thr u).cells.getD k default).taken = 0
          | .range => q.hi = f.hi ∧ (m.thr u).frames.getD k default = { f with hi := q.lo } ∧ q.piece = c.npiece ∧
              ((m.thr u).cells.getD k default).npiece = c.npiece + 1 ∧
              (1 ≤ c.grain.toNat → let half := (f.hi.toNat - f.lo.toNat) / 2
                (s.m.detOf u = false → q.lo.toNat = f.lo.toNat + half / c.grain.toNat * c.grain.toNat) ∧
                (s.m.detOf u = true → ∃ j : Nat, q.lo.toNat = f.lo.toNat + c.grain.toNat * 2 ^ j ∧ c.grain.toNat * 2 ^ j ≤ half ∧
                  half < c.grain.toNat * 2 ^ (j + 1))))) ∧
    (stands → (∃ i < t.frames.length, promotable t i = true) → spawnFull s.m u = true → s.m.detOf u = false →
      Happens (.promotion u) s (fun m => m.thr u = { t with tried := true } ∧ m.dies = s.m.dies))

/-- R128, R158, R159, R226: the gang assembler takes its die's oldest request, releases a partial gang of a cycle-mode region after 256
cycles from the promotion of its oldest request (DESIGN CHOICE, log 107), and places a released gang on a spindle that fits, once its parents' accesses have performed: each request starts a thread.
R162, R163, R181, R322: an entry of the regrouping table of a cycle-mode region that is full or has waited 256 cycles becomes due, and so do,
packed by their keys, the entries of a crew at its crew-wide flush; an entry that became due in an earlier cycle leaves as a gang, once a
slot is free. That due entries leave in a later cycle is the model's choice (DEDUCED, logs 37 and 47). A timer trap becomes pending
when %wtime reaches %wtrap, which becomes all ones. -/
def Obligations.GangFormationSteps : Prop :=
  (∀ (die k sp : Nat) (s : State),
    (∀ q r, (s.m.die die).queue = q :: r → Happens (.gangAssemblerTake die) s (fun m =>
      (m.die die).queue = r ∧ (∃ h ∈ (m.die die).held, q ∈ h.reqs ∧ h.region = q.region ∧ h.entry = q.entry) ∧
      m.threads = s.m.threads ∧ SameBytes s.m m)) ∧
    (∀ h ∈ (s.m.die die).held, h.id = k → h.released = false → (s.m.region h.region).rcb.det = false →
      (∃ q ∈ h.reqs, 256 ≤ (s.m.clock - q.at').toNat) →
      Happens (.spawnGangTimeout die k) s (fun m => ∀ h' ∈ (m.die die).held, h'.id = k → h'.released = true)) ∧
    (∀ h, (s.m.die die).held.find? (fun h => h.id == k && h.released) = some h → spawnFits s.m h sp = true →
      parentsDone s.m h = true → (s.m.region h.region).live = true → h.reqs.length ≤ 32 →
      (∀ x ∈ s.m.threads, x.1 < s.m.nextId) → (∀ x ∈ s.m.gangs, x.1 < s.m.nextId) →
      Happens (.spawnGangPlace die k sp) s (fun m =>
        let g := s.m.nextId
        (m.gang g).crew = none ∧ (m.gang g).sp = sp ∧ (m.gang g).gangid = 0xFFFFFFFF ∧ (m.gang g).region = h.region ∧
        (∀ h' ∈ (m.die die).held, h'.id ≠ k) ∧
        ∀ i q, h.reqs[i]? = some q → (m.gang g).lanes.getD i none = some (g + 1 + i) ∧
          let t := m.thr (g + 1 + i)
          t.pos = ⟨q.entry, 0⟩ ∧ t.lane = i ∧ t.gang = g ∧ t.spawn = true ∧ t.rdPair 2 = q.arg ∧ t.rdPair 0 = t.fstk ∧
          t.tid = 0x80000000 + BitVec.ofNat 32 ((s.m.region q.region).spawns + i) ∧
          (∃ f, t.frames = [f] ∧ f.root = true ∧ f.state = .active ∧ f.kind = q.kind ∧ f.lo = q.lo ∧ f.hi = q.hi ∧ f.link = q.cellAddr ∧
            f.piece = q.piece) ∧ (∀ r : Reg, 4 ≤ r.val → t.rd r = 0) ∧ t.p = 0 ∧ t.h = false))) ∧
  (∀ (sp k g : Nat) (s : State),
    (∀ e c, (s.m.spindle sp).regroup = [e] → e.due = some c → c ≠ s.m.clock → gangsFit s.m (s.m.crew e.crew).region 1 sp = true →
      (s.m.crewGangs e.crew).length < 32 → e.us.length ≤ 32 → e.us.Nodup →
      (∀ u ∈ e.us, s.m.threads.has u = true) → (∀ x ∈ s.m.gangs, x.1 < s.m.nextId) →
      Happens (.regroupTimeout sp 0) s (fun m => (m.spindle sp).regroup = [] ∧ (m.gang s.m.nextId).crew = some e.crew ∧
        (m.gang s.m.nextId).sp = sp ∧ ∀ i u, e.us[i]? = some u → (m.gang s.m.nextId).lanes.getD i none = some u ∧
          (m.thr u).gang = s.m.nextId ∧ (m.thr u).lane = i ∧ (m.thr u).stat = .run ∧ (m.thr u).pos = (s.m.thr u).pos ∧
          (m.thr u).v = (s.m.thr u).v)) ∧
    ((s.m.region (s.m.crew k).region).rcb.det = true → (s.m.crew k).life = .live →
      (∃ e ∈ (s.m.spindle (s.m.crew k).sp).regroup, e.crew = k ∧ e.due = none) → (∀ u ∈ s.m.crewThreads k, s.m.flushable u = true) →
      Happens (.crewWideFlush k) s (fun m =>
        (∀ e ∈ (m.spindle (s.m.crew k).sp).regroup, e.crew = k →
          (e.due = some s.m.clock ∧ e.us.length ≤ 32) ∨ (e ∈ (s.m.spindle (s.m.crew k).sp).regroup ∧ e.due ≠ none)) ∧
        (∀ e ∈ (s.m.spindle (s.m.crew k).sp).regroup, e.crew = k → e.due = none → ∀ u ∈ e.us,
          ∃ e' ∈ (m.spindle (s.m.crew k).sp).regroup, e'.crew = k ∧ e'.key = e.key ∧ u ∈ e'.us ∧ e'.due = some s.m.clock))) ∧
    (let ripe (e : RgEntry) : Prop := e.due = none ∧ (s.m.region (s.m.crew e.crew).region).rcb.det = false ∧
        (32 ≤ e.us.length ∨ 256 ≤ (s.m.clock - e.since).toNat)
      ∀ e0 ∈ (s.m.spindle sp).regroup, ripe e0 → ∃ m, markDue s.m sp = some m ∧ m.threads = s.m.threads ∧ SameBytes s.m m ∧
        ∀ (i : Nat) (e : RgEntry), (s.m.spindle sp).regroup[i]? = some e →
          (ripe e → (m.spindle sp).regroup[i]? = some { e with due := some s.m.clock }) ∧
          (¬ ripe e → (m.spindle sp).regroup[i]? = some e)) ∧
    (s.m.gangs.has g = true → (s.m.gang g).life = .live → (s.m.gang g).wtrap.toNat ≤ (s.m.gang g).wtime.toNat →
      Happens (.timerTrap g) s (fun m => m.gang g = { s.m.gang g with tpend := true, wtrap := BitVec.allOnes 64 } ∧
        (∀ j, j ≠ g → m.gang j = s.m.gang j) ∧ m.threads = s.m.threads ∧ SameBytes s.m m)))

/-- R205, R206: the planer moves one block of a moving range of this device, once no access and no copy segment still reaches it: the bytes
read at the new place as they read at the old, the mark passes the block, and after the last block the range is idle under its new
offset and its ticket is done. That only the old place is tested for errors, and the move goes on with one at the destination, is the
model's choice (DESIGN CHOICE, log 94). -/
def Obligations.PlanerMovesABlock : Prop :=
  ∀ (k c : Nat) (r : Range) (s : State), (movingRanges s.m)[k]? = some (c, r) → s.m.memWf → rangesApart (s.m.ctx c).ranges →
    (s.m.ctxs.map (·.1)).Nodup → (r.home ≠ 5 ∨ r.hdev = (s.m.ctx c).rank) → blockBusy s.m c r = false → r.cwm * 64 < r.limit →
    (∀ y ∈ s.m.planOut, y.1 = c → y.2.1 = r.base → y.2.2 < 1000000) →
    let src := paOf (r.cwm * 64) r.offg
    let dst := paOf (r.cwm * 64) r.noffg
    0 ≤ (r.cwm * 64 : Int) + r.offg.toInt * 4096 → 0 ≤ (r.cwm * 64 : Int) + r.noffg.toInt * 4096 →
    (oldBlock s.m c r).any s.m.homeErr = false →
    (∀ p ∈ s.m.spindles, ∀ x ∈ p.2.l1, x.loc.addr / 64 ≠ src / 64 ∧ x.loc.addr / 64 ≠ dst / 64) →
    Happens (.planerBlockMove k) s (fun m =>
      (∀ i l, i < 64 → l.sto = .dram → l.addr = src + i → s.m.treeAt (src + i) = none → s.m.treeAt (dst + i) = none →
        (s.m.owner.find ((src + i) / 64) = none ∨ s.m.owner.find ((src + i) / 64) = some l.tag) →
        m.homeGet { l with addr := dst + i } = s.m.homeGet l) ∧
      (if (r.cwm + 1) * 64 < r.limit then { r with cwm := r.cwm + 1 } ∈ (m.ctx c).ranges
       else { r with cwm := r.cwm + 1, offg := r.noffg, noffg := 0, cstate := 0, gen := r.gen + 1 } ∈ (m.ctx c).ranges ∧
         ∀ t ∈ m.tickets, t.kind = .move c r.base → t.frozen = true) ∧
      m.threads = s.m.threads ∧ m.host = s.m.host ∧ m.csm = s.m.csm)

/-- R50, R195, R243, R246, R250, R251, R253 to R255, R260: a copy starts with a free landing slot behind no earlier overlapping one, and with
G = 1 with its ring stage. Where the segments of its next byte are begun, or begin without a fault, that byte of a CPY or CPYT goes from
its source to its destination, and of a CPYQ a block's scale byte lands first and then its codes; the watermark passes it. With the
last byte the copy is gone. Its completion actions: the L1 of its spindle keeps no sector that it wrote; unless a resumed copy has made
them already, its stage is published and its barrier arrival made; and each of its gangs has a status word. A fault as segments begin,
an access that a table denies or an uncorrectable error freezes it with its code and the same actions; a registered copy that meets
RESIDENCY pauses and posts one fault record. What a copy waits for under its record (DEDUCED, log 16), that a write tests a sector for errors
whatever tag its unit has (DEDUCED, log 24) and how the segments of a CPYQ begin (DEDUCED, log 85) are the model's choices. R246: a crew copy takes one slice of each gang, and goes to the gangs that supplied them. -/
def Obligations.CopySteps : Prop :=
  (∀ (k : Nat) (c : Copy) (s : State), s.m.copies.find k = some c →
    let rk := c.cw.toNat / 2 ^ 22 % 8
    let r := (s.m.crew c.crew).ring rk
    let begins (kind : CKind) (sl : Nat) (st : Option Word) : Copy :=
      { c with started := true, slot := some sl, kind := kind, base := kind.base, hi := kind.base + kind.len, wm := kind.base, stage := st, out := 0 }
    let free (kind : CKind) : Prop := earlierOverlap s.m k c.crew c.sp kind.base (kind.base + kind.len) = false ∧ (slotsUsed s.m c.sp).length < 32
    (c.started = false → c.cw.getLsbD 21 = false → free c.kind → Happens (.copyStart k) s (fun m => ∃ sl, sl < 32 ∧ sl ∉ slotsUsed s.m c.sp ∧
      m.copies.find k = some (begins c.kind sl none) ∧ (∀ j, j ≠ k → m.copies.find j = s.m.copies.find j) ∧ SameBytes s.m m)) ∧
    (∀ kind, kind = c.kind.shift (localVa (r.stage r.res)) → c.started = false → c.cw.getLsbD 21 = true → r.res ≠ r.fre + BitVec.ofNat 32 r.s →
      stageBefore s.m k c = false → free kind → kind.overlaps = false → dstDead s.m (s.m.engine c.crew c.sp) kind = false →
      s.m.crews.has c.crew = true → Happens (.copyStart k) s (fun m => ∃ sl, sl < 32 ∧ sl ∉ slotsUsed s.m c.sp ∧
        m.copies.find k = some (begins kind sl (some r.res)) ∧ (m.crew c.crew).ring rk = { r with res := r.res + 1 } ∧ SameBytes s.m m)) ∧
    (c.started = true → c.frozen = none → c.done < c.total → c.out < 1000000 →
      let w := s.m.engine c.crew c.sp
      let acts (m0 : Mach) (wm code : Nat) (m : Mach) : Prop := SameBytes (doneL1 m0 c.crew c.sp c.kind.spans) m ∧
        (c.gangs.Nodup → ∀ g ∈ c.gangs, s.m.gangs.has g = true → (s.m.gang g).life ≠ .ended → s.m.popping g 1 = [] →
          (m.gang g).q1 = (s.m.gang g).q1 ++ [statusWord (wm - c.base) (c.cw.toNat % 2 ^ 16) false (c.slot.getD 0) code]) ∧
        (s.m.crews.has c.crew = true → let x := s.m.crew c.crew
          (∀ n < 16, (m.crew c.crew).bar n =
            if c.acted = false ∧ c.cw.getLsbD 16 = true ∧ c.cw.toNat / 2 ^ 17 % 16 = n then (x.bar n).arrive else x.bar n) ∧
          (∀ n < 8, (m.crew c.crew).ring n = match c.stage with
            | some q => if c.acted = false ∧ rk = n then (x.ring n).publish q else x.ring n
            | none => x.ring n))
      let freezes (y : Copy) (code : Nat) : Prop := Happens (.copyLand k 1) s (fun m => acts s.m c.wm code m ∧ m.copies.find k =
        some { y with acted := true, frozen := some code, paused := none, gangs := [], ssrc := [], sdst := [] })
      let lands (y : Copy) (put : Mach) : Prop := Happens (.copyLand k 1) s (fun m =>
        if c.done + 1 < c.total then
          m = { put with copies := s.m.copies.put k { y with done := c.done + 1, wm := (c.kind.at' (c.done + 1)).2, out := 0 } }
        else m.copies.find k = none ∧ acts put c.hi 0 m)
      let goes (srcs dsts : List Nat) (held : Bool) (y : Copy) : Prop := (held = true ∧ y = c) ∨
        (held = false ∧ (∃ ls, segCheck s.m w srcs dsts = .ok ls) ∧
          y = { c with paused := none, segNo := c.segNo + 1, ssrc := segsOf s.m w srcs, sdst := segsOf s.m w dsts })
      let fails (srcs dsts : List Nat) (held : Bool) : Prop := ∀ cause x va, held = false → segCheck s.m w srcs dsts = .trap cause x va →
        (¬ (c.regd = true ∧ cause = .residency) → freezes c (if cause = .accessTable then 5 else 1)) ∧
        (c.regd = true → cause = .residency → c.paused = none → Happens (.copyLand k 1) s (fun m =>
          m.copies.find k = some { c with paused := some s.m.subs } ∧ m.subs = s.m.subs + 1 ∧ m.threads = s.m.threads ∧
          ∃ e, m.faults = e :: s.m.faults ∧ e.sub = s.m.subs ∧ e.resumed = false ∧ leNat (e.bytes.take 8) = va % 2 ^ 56)) ∧
        (c.regd = true → cause = .residency → c.paused ≠ none → s.act = .idle → exec (.copyLand k 1) s = .refused .notEnabled)
      let admits (ss ds : List Loc) : Prop := (∀ l ∈ ss, segAdmits s.m w .read l = true) ∧ ∀ l ∈ ds, segAdmits s.m w .write l = true
      let good (ss ds : List Loc) : Prop := (∀ l ∈ ss, s.m.homeErr l = false) ∧ ∀ l ∈ ds, s.m.badAt l = false
      let meets (y : Copy) (ss ds : List Loc) : Prop := (¬ admits ss ds → freezes y 5) ∧ (admits ss ds → ¬ good ss ds → freezes y 2)
      ((∀ a f d b l e h n, c.kind ≠ .quant a f d b l e h n) →
        let va := c.kind.at' c.done
        let seg := segIndexes c (segOf s.m w va.1) (segOf s.m w va.2) c.done
        let is := if seg = [] then [c.done] else seg
        let srcs := is.map (fun i => (c.kind.at' i).1)
        let dsts := is.map (fun i => (c.kind.at' i).2)
        let held := segsHold c [va.1] [va.2]
        fails srcs dsts held ∧ ∀ y, goes srcs dsts held y →
          (∀ src dst, segLocs s.m w .read y.ssrc [va.1] = some [src] → segLocs s.m w .write y.sdst [va.2] = some [dst] →
            meets y [src] [dst] ∧ (admits [src] [dst] → good [src] [dst] → lands y (s.m.homeSet dst (s.m.homeGet src)))) ∧
          ((segLocs s.m w .read y.ssrc [va.1] = none ∨ segLocs s.m w .write y.sdst [va.2] = none) →
            (segFrozen y.ssrc va.1 = true ∨ segFrozen y.sdst va.2 = true) → freezes y 2)) ∧
      (∀ src f dst sc lim fmt blk n, c.kind = .quant src f dst sc lim fmt blk n →
        let q : Quant := ⟨src, f, dst, sc, lim, fmt, blk, n / max blk 1⟩
        let b := c.done / max q.codeBytes 1
        let bs := q.segment s.m w b
        let srcs := bs.flatMap q.srcs
        let dsts := bs.flatMap (fun x => q.codes x ++ [sc + x])
        let held := segsHold c (q.srcs b) (q.codes b ++ [sc + b])
        (q.inside b = false → freezes c 1) ∧
        (q.inside b = true → fails srcs dsts held ∧ ∀ y, goes srcs dsts held y →
          (c.buf = [] → ∀ ss l, segLocs s.m w .read y.ssrc (q.srcs b) = some ss → segLoc s.m w .write y.sdst (sc + b) = some l →
            meets y ss [l] ∧ (admits ss [l] → good ss [l] →
              let vs := blockVals f (s.m.homeGets ss) blk
              let z : Copy := { y with buf := leBytes q.codeBytes (packCodes (fmtWidth fmt) (vs.map (blockCode fmt (blockScale fmt vs)))) }
              Happens (.copyLand k 1) s (fun m => m = { s.m.homeSet l (BitVec.ofInt 8 (blockScale fmt vs)) with copies := s.m.copies.put k z }))) ∧
          (∀ x bytes d, c.buf = x :: bytes → segLoc s.m w .write y.sdst (dst + c.done) = some d →
            meets y [] [d] ∧ (admits [] [d] → good [] [d] → lands { y with buf := bytes } (s.m.homeSet d x))))))) ∧
  (∀ (fmt : Nat) (vs : List FVal), fmt ∈ [4, 5, 6] →
    let top := if fmt = 5 then 6 else if fmt = 6 then 2 else 3
    ((∀ neg a e, .fin neg a e ∈ vs → a = 0) → blockScale fmt vs = 0) ∧
    (∀ L : Int, (∃ neg a e, .fin neg a e ∈ vs ∧ a ≠ 0 ∧ Nat.log2 a + e = L) → (∀ neg a e, .fin neg a e ∈ vs → a ≠ 0 → Nat.log2 a + e ≤ L) →
      blockScale fmt vs = max (-128) (min 127 (L - top))) ∧
    (∀ (sc : Int) neg a e, fmt ≠ 4 → let y : Int := (min (quant .rne neg a e sc).1 (if fmt = 5 then 127 else 7) : Nat)
      (blockCode fmt sc (.fin neg a e) : Int) = (if neg then -y else y) % 2 ^ (if fmt = 5 then 8 else 4)) ∧
    ∀ (sc : Int) x, blockCode fmt sc (.nan x) = if fmt = 4 then 0x20 else 0) ∧
  (∀ (g : Nat) (x : Slice) (pre : List (List Slice)), (∀ f ∈ pre, ∃ y ∈ f, y.gang = g) → joinForming g x pre = pre ++ [[x]] ∧
    ∀ f post, (∀ y ∈ f, y.gang ≠ g) → joinForming g x (pre ++ f :: post) = pre ++ (f ++ [x]) :: post) ∧
  (∀ (pre post : List Slice) (x : Slice) (i : Nat), i < x.len →
    (CKind.bytes (pre ++ x :: post)).at' ((pre.map (·.len)).sum + i) = (x.src + i, x.dst + i)) ∧
  (∀ (m : Mach) (p : Push) (x : Slice) (r : List Slice), p.k = .cpy (x :: r) → (∀ y ∈ r, y.cw = x.cw) →
    (∀ i a b, (x :: r)[i]? = some a → (x :: r)[i + 1]? = some b → b.dst = a.dst + a.len) → cwBad x.cw = false → x.cw.getLsbD 21 = false →
    let kind := CKind.bytes (x :: r)
    kind.overlaps = false → srcDead m (m.engine p.crew p.sp) kind = false → dstDead m (m.engine p.crew p.sp) kind = false → kind.total ≠ 0 →
    ∃ c, (acceptPush m p).copies.find m.nextId = some c ∧ c.crew = p.crew ∧ c.sp = p.sp ∧ c.gangs = p.by'.map (·.1) ∧ c.kind = kind ∧
      c.cw = x.cw ∧ c.base = x.dst ∧ c.wm = x.dst ∧ c.hi = x.dst + kind.total ∧ c.total = kind.total ∧ c.started = false ∧ c.acted = false)

/-- R275, R287 to R290, R292, R294, R295, R297: an index job starts like a copy. Where it holds an engine or finds one free, which it then
keeps to its end or suspension (the model's choice, DEDUCED, log 95: no rule says that it keeps the engine between elements), it performs
its next element: a gather, also through a page's pointer, lands the row, or zeros for a null, and the watermark passes it; a pooled
gather takes the row into the sum of its bag, which the bag's last element lands; a scatter moves its row to the table; a scatter-add adds
one word, each word of an element under the one index that the element has read; a null moves nothing. An element that meets a cause
suspends its job with that cause's code: the engine is free, the watermark stays, the cursor record lies at CUR and the status word is in
q3; where the record cannot be written the job ends with X set. A service stream that waits takes its next data base from q4, once what
its gang accessed before the push has performed. -/
def Obligations.IndexSteps : Prop :=
  ∀ (k : Nat) (s : State),
    (∀ j, s.m.jobs.find k = some j →
      (j.started = false → earlierOverlap s.m k j.crew j.sp j.d.data j.d.hi = false → (slotsUsed s.m j.sp).length < 32 →
        Happens (.indexJobStart k) s (fun m => ∃ sl, sl < 32 ∧ sl ∉ slotsUsed s.m j.sp ∧
          m.jobs.find k = some { j with started := true, slot := some sl, out := 0 } ∧ SameBytes s.m m)) ∧
      (j.started = true → j.susp = none → j.elem < j.d.count → j.out < 1000000 → engineFree s.m j = true → ∀ (ix pt src dst : List Loc),
        let w := s.m.engine j.crew j.sp
        let kind := j.d.kind
        let n := if j.d.rowb = 0 then 65536 else j.d.rowb
        let null := 2 ^ 32 - 1
        let x := leNat (s.m.homeGets ix)
        let ptr := leNat (s.m.homeGets pt)
        let ia := j.d.idx + 4 * j.elem
        let mine := j.d.data + j.elem * n
        let row := if kind = 4 then ptr else j.d.table + x * j.d.tstride
        let got := s.m.homeGets src
        let add (a b : Nat) : Nat :=
          if j.d.ef then (a + b) % 2 ^ 32 else (sumRound fp32 .rne false [fp32.decode a, fp32.decode b] false).1
        let put (y : Job) (m : Mach) : Mach := { m with jobs := s.m.jobs.put k { y with out := 0, eng := true } }
        let next : Job := { j with elem := j.elem + 1, rowoff := 0, ex := none }
        let more := j.elem + 1 < j.d.count
        let reads (va l : Nat) (ls : List Loc) : Prop := engAcc s.m w .read (span va l) = .ok ls
        let writes (va : Nat) (ls : List Loc) : Prop := engAcc s.m w .write (span va n) = .ok ls
        let lands (a : Nat) (bs : List Byte) (y : Job) : Prop :=
          Happens (.indexElement k) s (fun m => m = put { y with wm := max j.wm (a + n) } (s.m.homeSets dst bs))
        let good : Prop := reads ia 4 ix ∧ x < j.d.nrows ∧ x ≠ null ∧
          (kind = 4 → reads (j.d.table + 8 * x) 8 pt ∧ ptr ≠ 0 ∧ ptr % 4 = 0)
        let isNull : Prop := reads ia 4 ix ∧
          (x = null ∨ kind = 4 ∧ x < j.d.nrows ∧ reads (j.d.table + 8 * x) 8 pt ∧ ptr = 0)
        let bag (p : Option (List Nat)) : Prop :=
          (j.bagPos + 1 < j.d.bag → Happens (.indexElement k) s (fun m => ∃ e, m =
            put { j with elem := j.elem + 1, bagPos := j.bagPos + 1, pool := p, ex := e } s.m)) ∧
          (j.bagPos + 1 = j.d.bag → writes (j.d.data + j.elem / j.d.bag * n) dst →
            lands (j.d.data + j.elem / j.d.bag * n) ((p.map (·.flatMap (leBytes 4))).getD (List.replicate n 0))
              { j with elem := j.elem + 1, bagPos := 0, pool := none, ex := none })
        let words : List Nat := (List.range (n / 4)).map (fun i => leNat ((got.drop (4 * i)).take 4))
        let x3 := if j.rowoff = 0 then x else j.ex.getD x
        let hasIndex : Prop := (j.rowoff = 0 ∨ j.ex = none) → reads ia 4 ix
        let to3 := j.d.table + x3 * j.d.tstride + j.rowoff
        let adds (y : Job) : Prop := Happens (.indexElement k) s (fun m =>
          m = put y (s.m.homeSets dst (leBytes 4 (add (leNat (s.m.homeGets dst)) (leNat got)))))
        let first := if kind = 1 then j.elem - j.bagPos else j.elem
        let suspends (code fa : Nat) : Prop :=
          (s.m.gang j.gang).life ≠ .ended → s.m.popping j.gang 3 = [] → s.m.gangs.has j.gang = true →
          let told (m : Mach) (bad : Bool) : Prop := (m.gang j.gang).q3 = (s.m.gang j.gang).q3 ++
            [statusWord first (j.cw.toNat % 2 ^ 16) bad (j.slot.getD 0) code]
          (∀ rec, engAcc s.m w .write (span j.cur0 128) = .ok rec → Happens (.indexElement k) s (fun m => ∃ (xv y : Nat),
            (reads ia 4 ix → (kind = 1 → j.bagPos = 0) → (kind = 3 → j.rowoff = 0) → xv = x) ∧
            SameBytes (doneL1 (s.m.homeSets rec (leBytes 64 (first % 2 ^ 32 + j.rowoff * 2 ^ 32 + xv % 2 ^ 32 * 2 ^ 64 + code * 2 ^ 96 +
              j.cw.toNat % 2 ^ 16 * 2 ^ 112 + j.slot.getD 0 * 2 ^ 128 + fa % 2 ^ 56 * 2 ^ 136) ++ j.raw.take 60 ++
              leBytes 4 j.cw.toNat)) j.crew j.sp (j.d.spans j.cur0)) m ∧
            m.jobs.find k = some { j with elem := first, bagPos := 0, pool := none, ex := none, eng := false, susp := some code,
                                          acted := true, stamp := y } ∧ told m false)) ∧
          (∀ c a, engAcc s.m w .write (span j.cur0 128) = .bad c a → Happens (.indexElement k) s (fun m =>
            m.jobs.find k = none ∧ SameBytes (doneL1 s.m j.crew j.sp (j.d.spans j.cur0)) m ∧ told m true))
        (j.rowoff = 0 → more →
          (kind = 0 ∨ kind = 4 → writes mine dst →
            (good → reads row n src → lands mine got next) ∧ (isNull → lands mine (List.replicate n 0) next)) ∧
          (kind = 1 → (good → reads row n src → bag (some (match j.pool with
              | none => words
              | some acc => List.zipWith add acc words))) ∧ (isNull → bag j.pool)) ∧
          (kind = 2 → (good → reads mine n src → writes row dst →
              Happens (.indexElement k) s (fun m => m = put next (s.m.homeSets dst got))) ∧
            (isNull → Happens (.indexElement k) s (fun m => m = put next s.m)))) ∧
        (kind = 3 → j.rowoff < n → hasIndex → x3 < j.d.nrows → x3 ≠ null → reads (mine + j.rowoff) 4 src →
          engAcc s.m w .atomic (span to3 4) = .ok dst →
          (j.rowoff + 4 < n → adds { j with rowoff := j.rowoff + 4, ex := some x3 }) ∧ (n ≤ j.rowoff + 4 → more → adds next)) ∧
        (kind = 3 → j.rowoff = 0 → more → isNull → Happens (.indexElement k) s (fun m => m = put next s.m)) ∧
        (kind < 5 → ∀ code fa,
          (j.rowoff = 0 → engAcc s.m w .read (span ia 4) = .bad code fa → suspends code fa) ∧
          (j.rowoff = 0 → reads ia 4 ix → j.d.nrows ≤ x → x ≠ null → suspends 1 ia) ∧
          (kind = 4 → j.rowoff = 0 → reads ia 4 ix → x < j.d.nrows → x ≠ null →
            (engAcc s.m w .read (span (j.d.table + 8 * x) 8) = .bad code fa → suspends code fa) ∧
            (reads (j.d.table + 8 * x) 8 pt → ptr % 4 ≠ 0 → suspends 1 ia)) ∧
          (kind = 0 ∨ kind = 1 ∨ kind = 4 → j.rowoff = 0 → good →
            (engAcc s.m w .read (span row n) = .bad code fa → suspends code fa) ∧
            (kind ≠ 1 → reads row n src → engAcc s.m w .write (span mine n) = .bad code fa → suspends code fa)) ∧
          (kind = 2 → j.rowoff = 0 → good →
            (engAcc s.m w .read (span mine n) = .bad code fa → suspends code fa) ∧
            (reads mine n src → engAcc s.m w .write (span row n) = .bad code fa → suspends code fa)) ∧
          (kind = 3 → j.rowoff < n → hasIndex → x3 < j.d.nrows → x3 ≠ null →
            (engAcc s.m w .read (span (mine + j.rowoff) 4) = .bad code fa → suspends code fa) ∧
            (reads (mine + j.rowoff) 4 src → engAcc s.m w .atomic (span to3 4) = .bad code fa → suspends code fa))))) ∧
    (∀ x e r, s.m.streams.find k = some x → x.waitQ = true → x.post = none → (s.m.gang x.gang).life ≠ .ended →
      s.m.gangs.has x.gang = true → (s.m.gang x.gang).q4 = e :: r →
      gangBusyBefore s.m x.gang ((s.m.gang x.gang).q4at.headD 0) = false →
      (e.getLsbD 63 = false → e.toNat % 64 = 0 → Happens (.serviceRestart k) s (fun m =>
        m.streams.find k = some { x with data := e.toNat, idx := 0, waitQ := false, got := false, out := 0 } ∧ (m.gang x.gang).q4 = r ∧ SameBytes s.m m)) ∧
      (e.getLsbD 63 = true → (s.m.gang x.gang).q5.length < 16 → Happens (.serviceRestart k) s (fun m =>
        m.streams.find k = none ∧ (m.gang x.gang).q4 = r ∧ SameBytes s.m m)))

/-- R113, R309, R326 to R328, R331: a spawn gang whose pre-emption was requested is saved at save points, or past its deadline, once its
results have returned; a crew, and every crew of a co-resident region together, is saved with its gangs in the same two cases, and past
the deadline a long result that a watermark holds is cancelled into its gang's replay list with F = 0. A restored gang stands on its
spindle with %preq 0; a restored crew stands there with its gangs under its barriers, rings and segments, a spindle-bound one on its own
spindle alone, and its entries of the regrouping table return with
their age (DESIGN CHOICE, log 81); the crews of a co-resident region are restored together. Registers are
kept. -/
def Obligations.SaveSteps : Prop :=
  ∀ (g k q sp : Nat) (s : State),
    let x := s.m.gang g
    let c := s.m.crew k
    let gs := s.m.crewGangs k
    let spawn := s.m.gangs.has g = true ∧ x.crew = none
    let quiet (gs : List Nat) := ∀ r ∈ s.m.results, r.gang ∉ gs
    let kept (m : Mach) := ∀ u, SameRegs (s.m.thr u) (m.thr u) ∧ SameTrap (s.m.thr u) (m.thr u)
    let late (reg : Nat) (capped : Bool) (c0 : BitVec 64) : Prop :=
      (if capped = true then min (s.m.region reg).rcb.pdead 10000 else (s.m.region reg).rcb.pdead) ≤ (s.m.clock - c0).toNat
    let atPoints (j : Nat) : Prop := ∀ u ∈ s.m.liveThreads j, s.m.atSavePoint u = true
    let saved (m : Mach) (k : Nat) : Prop := (m.crew k).life = .saved ∧ (m.crew k).bound = s.m.boundCrew k ∧
      ∀ j ∈ s.m.crewGangs k, (m.gang j).life = .saved
    let crew := s.m.crews.has k = true ∧ c.life = .live ∧ (s.m.region c.region).rcb.cores = false
    let live := (s.m.regionCrews q).filter (fun k => (s.m.crew k).life == .live)
    let region := (s.m.region q).rcb.cores = true ∧ live ≠ [] ∧ (s.m.crews.map (·.1)).Nodup
    let held (r : Res) : Prop := r.src.locs ≠ [] ∧ s.m.heldAt (s.m.gang r.gang).crew (vasOf r.src.locs) = true
    let cancelled (m : Mach) (r : Res) : Prop := r ∉ m.results ∧ ∃ e ∈ (m.gang r.gang).replay, e.u = r.us.headD 0 ∧ e.va = r.va ∧
      e.reg = r.dst ∧ e.word = r.word ∧ e.f = false
    (spawn → x.life = .live → x.preqAt ≠ none → atPoints g → quiet [g] →
      Happens (.contextSave (.gang g)) s (fun m => (m.gang g).life = .saved ∧ kept m ∧ (m.gang g).masks = x.masks ∧
        (m.gang g).wtime = x.wtime ∧ ∀ u ∈ s.m.liveThreads g, (s.m.thr u).stat = .yieldWait → (m.thr u).stat = .run)) ∧
    (spawn → x.life = .live → ∀ c0, x.preqAt = some c0 → late x.region x.capped c0 → quiet [g] →
      Happens (.forcedSave (.gang g)) s (fun m => (m.gang g).life = .saved ∧ kept m)) ∧
    (crew → c.preqAt ≠ none → (∀ j ∈ gs, atPoints j) → quiet gs →
      Happens (.contextSave (.crew k)) s (fun m => saved m k ∧ kept m)) ∧
    (crew → ∀ c0, c.preqAt = some c0 → late c.region c.capped c0 → (∀ r ∈ s.m.results, r.gang ∈ gs → held r) →
      Happens (.forcedSave (.crew k)) s (fun m => saved m k ∧ kept m ∧ ∀ r ∈ s.m.results, r.gang ∈ gs → cancelled m r)) ∧
    (region → (∀ k ∈ live, (s.m.crew k).preqAt ≠ none ∧ (∀ j ∈ s.m.crewGangs k, atPoints j) ∧ quiet (s.m.crewGangs k)) →
      Happens (.contextSave (.region q)) s (fun m => (∀ k ∈ live, (m.crew k).life = .saved ∧ ∀ j ∈ s.m.crewGangs k, (m.gang j).life = .saved) ∧
        kept m)) ∧
    (region → (∃ k ∈ live, ∃ c0, (s.m.crew k).preqAt = some c0 ∧ late (s.m.crew k).region (s.m.crew k).capped c0) →
      (∀ k ∈ live, ∀ r ∈ s.m.results, r.gang ∈ s.m.crewGangs k → held r) →
      Happens (.forcedSave (.region q)) s (fun m => (∀ k ∈ live, ((m.crew k).life = .saved ∧ ∀ j ∈ s.m.crewGangs k, (m.gang j).life = .saved) ∧
        ∀ r ∈ s.m.results, r.gang ∈ s.m.crewGangs k → cancelled m r) ∧ kept m)) ∧
    (spawn → x.life = .saved → mayRestore s.m x.region 1 sp = true → x.replay = [] →
      Happens (.contextRestore (.gang g) sp) s (fun m => (m.gang g).life = .live ∧ (m.gang g).sp = sp ∧ (m.gang g).wtime = x.wtime ∧
        (m.gang g).preqAt = none ∧ kept m ∧ ∀ u, s.m.threads.has u = true → (s.m.thr u).gang = g → (m.thr u).preq = false)) ∧
    (crewReturns s.m k sp = true → c.bound = true → sp = c.sp) ∧
    (s.m.crews.has k = true → c.life = .saved → (s.m.region c.region).rcb.cores = false → crewReturns s.m k sp = true →
      (∀ j ∈ gs, (s.m.gang j).replay = []) → Happens (.contextRestore (.crew k) sp) s (fun m =>
        (m.crew k).life = .live ∧ (m.crew k).sp = sp ∧ (m.crew k).preqAt = none ∧ (m.crew k).bars = c.bars ∧ (m.crew k).rings = c.rings ∧
        (m.crew k).segs = c.segs ∧ (m.crew k).crewid = c.crewid ∧ kept m ∧
        (∀ j ∈ gs, (m.gang j).life = .live ∧ (m.gang j).sp = sp ∧ (m.gang j).masks = (s.m.gang j).masks ∧ (m.gang j).wtime = (s.m.gang j).wtime) ∧
        (∀ u, s.m.threads.has u = true → (s.m.thr u).gang ∈ gs ∨ (∃ e ∈ c.table, u ∈ e.us) → (m.thr u).preq = false) ∧
        (m.spindle sp).regroup = (s.m.spindle sp).regroup ++ c.table)) ∧
    (∀ t, exec (.contextRestore (.region q) sp) s = .next t → (s.m.crews.map (·.1)).Nodup → (s.m.gangs.map (·.1)).Nodup →
      (s.m.region q).rcb.cores = true ∧ live = [] ∧ ∀ k ∈ s.m.regionCrews q, (s.m.crew k).life = .saved →
        (t.m.crew k).life = .live ∧ ∀ j ∈ s.m.crewGangs k, (t.m.gang j).life = .live ∧ (t.m.gang j).sp = (t.m.crew k).sp)

/-- R13, R302, R303, R304, R305, R307 to R310, R340: a queue's next record, where the planer moves no block that admission reaches, is
admitted or refused and its consumer index moves on. The first check of R307 that fails gives the status; a refused record starts nothing
and has its status in its STATUS byte and its completion word; an admitted one creates a region of its record with what it inherits. The
next crew of a region takes its place and its threads start; a region that nothing works for completes, and its completion word takes
status 0 and the cause that ended its domain, after what its context has dirty in every L1 (DEDUCED, log 35); a context's balance accrues. That the crew-local memory of a placed crew is empty, so that
every byte of it reads 0 (DESIGN CHOICE, log 2), that a record or root RCB that cannot be read is refused with ACCESS and that the
scheduler's writes go to the homes of their bytes (DEDUCED, log 21) are the model's choices. -/
def Obligations.SchedulerSteps : Prop :=
  (∀ (m : Mach) (c addr paddr : Nat) (x pr : Rcb) (pool : Option Pool) (parent : Option Nat),
    let r := x.inherit pr pool paddr c
    let a := admitRegion m c addr x pr pool paddr parent
    let told := m.schedWrite c (addr + 43) [BitVec.ofNat 8 a.1]
    let o (i : Nat) := x.ovr.getLsbD i
    let kern := (m.ctx c).kerns.find? (fun k => k.entry == r.entry.toNat)
    let cap (k : Kern) : Nat × Nat :=
      let slots := min 64 (393216 / (max k.need 1 * 128))
      let per := min (slots / r.gangs) (min (if k.loc = 0 then 64 else 786432 / k.loc) (if k.nbar = 0 then 64 else 128 / k.nbar))
      (per, min (per * r.spbud) (r.gbud / r.gangs))
    let pages : Prop := m.spanRW c addr 128 = true ∧ (r.compl ≠ 0 → m.spanRW c r.compl.toNat 8 = true) ∧
      ∀ p, r.poolUsed pool kern = some p → m.spanRW c p.base.toNat ((p.crew + p.n) * (1024 * p.stk + 160 * p.f)) = true
    let f (i n : Nat) : Nat := r.sig.toNat / 2 ^ i % 2 ^ n
    let sigOk (k : Kern) : Prop := f 49 7 = 0 ∧ f 40 2 = 0 ∧ f 0 8 = 0 ∧ f 48 1 = r.det.toNat ∧ f 44 4 = (if r.det = true then r.lpexp else 0) ∧
      f 42 2 = k.level ∧ f 16 24 = k.trans ∧ f 8 8 = k.cls
    let budget (k : Kern) : Prop := r.resv = false ∧ r.hbexp ≤ 12 ∧ r.lpexp ≤ 10 ∧ r.pdead ≤ 50000 ∧ 1 ≤ r.gangs ∧ r.gangs ≤ 32 ∧ 1 ≤ r.crews ∧
      1 ≤ r.spbud ∧ r.spbud ≤ 384 ∧ 1 ≤ r.gbud ∧ r.gbud ≤ 24576 ∧ r.cls ≤ 3 ∧ r.compl.toNat % 8 = 0 ∧ r.spbud ≤ pr.spbud ∧ r.gbud ≤ pr.gbud ∧
      pr.cls ≤ r.cls ∧ (o 8 = true → 1 ≤ r.stksz ∧ r.pool.toNat % 4096 = 0) ∧
      (o 8 = false → ∃ p, pool = some p ∧ 8 * (r.fslots + 1) ≤ p.f) ∧ (cap k).1 ≠ 0
    (r.spbud = (if o 0 then x.spbud else pr.spbud) ∧ r.gbud = (if o 0 then x.gbud else pr.gbud) ∧ r.cls = (if o 1 then x.cls else pr.cls) ∧
      r.fdom = (if o 2 then x.fdom else pr.fdom) ∧ r.det = (pr.det || if o 3 then x.det else pr.det) ∧
      r.hbexp = (if o 4 then x.hbexp else pr.hbexp) ∧ r.lpexp = (if o 5 then x.lpexp else pr.lpexp) ∧
      r.pdead = (if o 6 then x.pdead else pr.pdead) ∧ r.fslots = (if o 7 then x.fslots else pr.fslots)) ∧
    (¬ pages → a.1 = 0x47) ∧ (pages → f 56 8 ≠ 2 → a.1 = 0x40) ∧ (pages → f 56 8 = 2 → (kern = none → a.1 = 0x44) ∧ ∀ k, kern = some k →
      let gone := ((m.ctx c).objs.at k.obj).unloading
      let floor : Prop := 1 < k.cls ∨ (k.cls = 0 ∧ 16 < r.gangs)
      (gone = true → a.1 = 0x45) ∧ (gone = false → (¬ sigOk k → a.1 = 0x46) ∧ (sigOk k → (floor → a.1 = 0x41) ∧ (¬ floor →
        (¬ budget k → a.1 = 0x43) ∧ (budget k → a.1 = if r.cores = true ∧ (cap k).2 < r.crews then 0x42 else 0))))) ∧
    (a.1 ≠ 0 → a.2 = complete told c r.compl a.1 0 ∧ a.2.regions = m.regions) ∧
    (a.1 = 0 → SameBytes ((told.schedWrite c (addr + 41) (leBytes 2 c)).schedWrite c (addr + 60) (leBytes 7 paddr)) a.2 ∧
      (∀ n, n ≠ m.nextId → a.2.regions.find n = m.regions.find n) ∧ ∃ y k p, a.2.regions.find m.nextId = some y ∧ kern = some k ∧
        r.poolUsed pool kern = some p ∧ y.rcb = r ∧ y.ctx = c ∧ y.addr = addr ∧ y.parent = parent ∧ y.crewsLeft = r.crews ∧ y.placed = 0 ∧
        y.live = true ∧ y.cause = 0 ∧ y.need = k.need ∧ y.loc = k.loc ∧ y.nbar = k.nbar ∧ y.kcls = k.cls ∧ y.poolOwn = o 8 ∧
        y.poolF = p.f ∧ y.poolCrew = p.crew ∧ y.ticked = m.clock)) ∧
  (∀ (m : Mach) (c : Nat) (compl : BitVec 56) (status cause : Nat) (at' : List Loc), (compl = 0 → complete m c compl status cause = m) ∧
    (compl ≠ 0 → m.dram.wf = true → at'.length = 8 → (at'.map (·.addr)).Nodup → (∀ j < 8, ∃ l, at'[j]? = some l ∧
      m.translate ⟨c, none, 0, false⟩ .write (compl.toNat + j) = .ok l true) →
      (∀ l ∈ at', l.sto = .dram ∧ m.treeAt l.addr = none ∧ ∀ l' ∈ at', l.addr / 64 = l'.addr / 64 → l.tag = l'.tag) →
      (complete m c compl status cause).homeGets at' = leBytes 8 (status + cause * 2 ^ 8))) ∧
  ∀ (q r sp c : Nat) (s : State),
    let h := s.m.queue q
    let R := s.m.region r
    (q < 4096 → s.m.host.wf = true → h.en = true → h.cons ≠ h.prod → (∀ y ∈ s.m.queueOut, y.1 = q → y.2.1 = 0 → y.2.2 < 1000000) →
      ((h.prod - h.cons).toNat ≤ 2 ^ h.logn → s.m.moves h.ctx (h.slot h.cons) 128 = false → s.m.moves h.ctx h.root 128 = false →
        let reads (va : Nat) := s.m.engRead ⟨h.ctx, none, 0, false⟩ va 128
        let rec' (bs : List Byte) := Rcb.parse (leNat bs)
        let at' := h.slot h.cons
        let next (m : Mach) : Prop := Happens (.recordAdmission q) s (fun m1 => m1 = m.setQueue q 4 (leBytes 4 (h.cons + 1).toNat) ∧
          (m1.queue q).cons = h.cons + 1)
        (reads at' = none → next (s.m.schedWrite h.ctx (at' + 43) [0x47])) ∧
        (∀ bs, reads at' = some bs → complMoves s.m h.ctx (rec' bs).compl = false →
          (reads h.root = none → next (complete (s.m.schedWrite h.ctx (at' + 43) [0x47]) h.ctx (rec' bs).compl 0x47 0)) ∧
          (∀ rs, reads h.root = some rs →
            next (admitRegion s.m h.ctx at' (rec' bs) (rec' rs) (rootPool s.m h.ctx (rec' rs)) h.root none).2))) ∧
      (2 ^ h.logn < (h.prod - h.cons).toNat → Happens (.recordAdmission q) s (fun m => (m.queue q).en = false ∧
        (m.queue q).cons = h.cons ∧ m.regions = s.m.regions))) ∧
    (R.rcb.cores = false → mayPlace s.m r sp = true → (∀ x ∈ s.m.threads, x.1 < s.m.nextId) → (∀ x ∈ s.m.gangs, x.1 < s.m.nextId) →
      Happens (.crewPlace r sp) s (fun m =>
        let k := s.m.nextId
        (m.region r).placed = R.placed + 1 ∧ (m.crew k).life = .live ∧ (m.crew k).sp = sp ∧ (m.crew k).region = r ∧
        (m.crew k).crewid = BitVec.ofNat 32 R.placed ∧ (m.crew k).loc = [] ∧
        ∀ i l, i < R.rcb.gangs → l < 32 → (m.gang (k + 1 + i)).crew = some k ∧ (m.gang (k + 1 + i)).gangid = BitVec.ofNat 32 i ∧
          ∃ u, (m.gang (k + 1 + i)).lanes.getD l none = some u ∧
            let t := m.thr u
            t.gang = k + 1 + i ∧ t.lane = l ∧ t.region = r ∧ t.pos = ⟨R.rcb.entry, 0⟩ ∧ t.rdPair 0 = t.fstk ∧
            t.tid = BitVec.ofNat 32 (R.placed * R.rcb.gangs * 32 + 32 * i + l) ∧ t.spawn = false ∧ t.frames = [] ∧ t.p = 0 ∧ t.h = false ∧
            (∀ (n : Nat) (w : Word), R.rcb.args.toList[n]? = some w → t.rd (Fin.ofNat 64 (2 + n)) = w) ∧
            ∀ x : Reg, 10 ≤ x.val → t.rd x = 0)) ∧
    (s.m.regions.has r = true → regionBusy s.m r = false → complMoves s.m R.ctx R.rcb.compl = false → Happens (.regionComplete r) s (fun m =>
      (∀ sp' l, (∀ k, l.sto = .crew k → (s.m.crew k).region ≠ r) → m.load sp' l = (complete s.m R.ctx R.rcb.compl 0 R.cause).load sp' l) ∧
      m.regions.find r = none ∧ (∀ j, j ≠ r → m.regions.find j = s.m.regions.find j) ∧ (∀ x ∈ m.threads, x.2.region ≠ r) ∧
      ∀ x ∈ m.gangs, x.2.region ≠ r)) ∧
    (s.m.ctxs.has c = true → (s.m.ctx c).accrued ≠ s.m.clock → Happens (.tokenAccrual c) s (fun m =>
      (m.ctx c).accrued = (s.m.ctx c).accrued + 1 ∧
      (m.ctx c).bal = min ((s.m.ctx c).bal - 64 * spindlesHeld s.m c + ((s.m.ctx c).tok.toNat / 2 ^ 8 % 2 ^ 16 : Nat))
        (65536 * ((s.m.ctx c).tok.toNat / 2 ^ 44 % 2 ^ 20 : Nat)) ∧
      (∀ j, j ≠ c → m.ctx j = s.m.ctx j) ∧ m.threads = s.m.threads))

/-- R233, R234, R304, R357, R358, R365, R366: what the host does to a device that is up. Window accesses perform whole where they lie in
the grant of their function's context; that they read all ones and write nothing elsewhere, as those of a function without a context
do, and where in host memory a window's byte lies, is the model's choice (DEDUCED, log 54), and so is what
BAR2 reads of DRAM and of the CSM see (DEDUCED, log 55). Registers take their RW bits from the physical function alone; the
capability registers read as their fields say for every function. -/
def Obligations.HostSteps : Prop :=
  ∀ (x : HostAccess) (fn off : Nat) (v : BitVec 64) (s : State), s.m.power = .up → x.fn ≤ 512 → fn ≤ 512 →
    let told (bs : List Byte) (m : Mach) := m = { s.m with hostOut := bs :: s.m.hostOut }
    let far := if x.write then x.data.length else x.len
    (∀ a, (∃ c, s.m.funcCtx x.fn = some c ∧ a = 4096 * (s.m.ctx c).hwb + x.off ∧
        x.off + far ≤ 4096 * (s.m.ctx c).hwl ∧ a + far ≤ 2 ^ 21) →
      (x.write = false → Happens (.hostWindowAccess x) s (told (s.m.host.bytes a x.len))) ∧
      (x.write = true → 131072 ≤ a → s.m.host.wf = true → Happens (.hostWindowAccess x) s (fun m =>
        m = { s.m with host := m.host } ∧ (∀ i b, x.data[i]? = some b → m.host.get (a + i) = b) ∧
        ∀ y, y < a ∨ a + x.data.length ≤ y → m.host.get y = s.m.host.get y))) ∧
    (∀ c, s.m.funcCtx x.fn = some c → 4096 * (s.m.ctx c).hwl < x.off + far →
      (x.write = false → Happens (.hostWindowAccess x) s (told (List.replicate x.len 0xFF))) ∧
      (x.write = true → Happens (.hostWindowAccess x) s (fun m => m = s.m))) ∧
    (s.m.funcCtx x.fn = none → x.write = false →
      Happens (.hostWindowAccess x) s (told (List.replicate x.len 0xFF)) ∧ Happens (.hostBar2Access x) s (told (List.replicate x.len 0xFF))) ∧
    (s.m.funcCtx x.fn = none → x.write = true →
      Happens (.hostWindowAccess x) s (fun m => m = s.m) ∧ Happens (.hostBar2Access x) s (fun m => m = s.m)) ∧
    (∀ c ls, s.m.funcCtx x.fn = some c → (x.write = false → s.m.reach ⟨c, none, 0, false⟩ .read (span x.off x.len) none = .ok ls →
        (∀ l ∈ ls, ioErr s.m l = false) → Happens (.hostBar2Access x) s (told (ls.map (ioGet s.m)))) ∧
      (x.write = true → s.m.reach ⟨c, none, 0, false⟩ .write (span x.off x.data.length) none = .ok ls → (∀ l ∈ ls, s.m.badAt l = false) →
        (∀ l ∈ ls, l.sto ≠ .host) → Happens (.hostBar2Access x) s (fun m => m = s.m.homeSets ls x.data))) ∧
    regRead s.m fn 0 = some (s.m.answer [0, 2, 12, 16, 64, 96, 4, 2]) ∧
    regRead s.m fn 8 = some (s.m.answer [0, 16, 0, 16, 0, 12, 128, 1]) ∧
    (off % 8 = 0 → fn ≠ 0 → Happens (.registerWrite fn off v) s (fun m => m = s.m)) ∧
    (∀ c i, c < 4096 → i < 2 → s.m.ctxs.has c = true →
      let part (old mask : BitVec 128) (new : BitVec 128) : Prop := ∀ b, b < 128 →
        new.getLsbD b = if mask.getLsbD b && (b / 64 == i) then v.getLsbD (b % 64) else old.getLsbD b
      Happens (.registerWrite 0 (0x10000 + 16 * c + 8 * i) v) s (fun m => m.threads = s.m.threads ∧
        part (s.m.ctx c).tok 0xFFFFFFFFFFFFFF00 (m.ctx c).tok) ∧
      Happens (.registerWrite 0 (0x20000 + 16 * c + 8 * i) v) s (fun m => m.threads = s.m.threads ∧
        part (s.m.ctx c).trapE 0x0FFFFFFFFFFFFFFF01FFFFFFFFFFFFFF (m.ctx c).trapE)) ∧
    Happens (.registerWrite 0 0x100 v) s (fun m => m = { s.m with loader := { s.m.loader with prod := v.setWidth 32 } }) ∧
    Happens (.registerWrite 0 0x158 v) s (fun m => m = { s.m with mgmt := { s.m.mgmt with ring := (v.setWidth 56).toNat } })

/-- R3, R324, R325, R334, R362, R371 to R374: power, cooling, links, soft errors, reset of a function, and reports. The dies are the four C-dies
and the H-die. -/
def Obligations.PackageSteps : Prop :=
  ∀ (image die temp port vf ctx u : Nat) (ports : BitVec 12) (trained : Option (BitVec 12)) (on : Bool) (nonce : BitVec 256) (site : SramSite) (s : State),
    (s.m.power = .off → (Config.fwSigned image = true → Config.fuseRollback ≤ Config.fwVersion image →
        Happens (.powerOn image (some ports)) s (fun m => m = { s.m with power := .up, links := ports, fwImage := image, untold := ~~~ports }) ∧
        Happens (.powerOn image none) s (fun m => m = { s.m with power := .untrained, fwImage := image })) ∧
      ((Config.fwSigned image = false ∨ Config.fwVersion image < Config.fuseRollback) →
        Happens (.powerOn image trained) s (fun m => m = { s.m with power := .refused }))) ∧
    (s.m.power = .up →
      Happens (.powerThrottle on) s (fun m => m = { s.m with throttled := on }) ∧
      Happens (.sramError site true) s (fun m => m = s.m) ∧ Happens (.sramError .cleanCache false) s (fun m => m = s.m) ∧
      Happens (.sramError (.csm ctx) false) s (fun m => m = { s.m with bad := (.csm, ctx / 32) :: s.m.bad }) ∧
      (∀ sp pa, (∃ x ∈ (s.m.spindle sp).l1, x.dirty ≠ 0 ∧ x.loc.sto = .dram ∧ x.loc.addr / 32 = pa / 32) →
        Happens (.sramError (.dirtyL1 sp none pa) false) s (fun m => m = s.m.modSp sp (fun x => { x with bad := (.dram, pa / 32) :: x.bad }) ∧
          ∀ l, l.sto = .dram → l.addr / 32 = pa / 32 → (∀ sp', sp' ≠ sp → m.readErr sp' l = s.m.readErr sp' l) ∧
            ((∃ x ∈ (s.m.spindle sp).l1, x.dirty ≠ 0 ∧ sameSector x.loc l = true) → m.readErr sp l = true))) ∧
      (∀ pa, (∃ x ∈ s.m.l2, x.1 / 32 = pa / 32) → Happens (.sramError (.dirtyL2 pa) false) s (fun m =>
        m = { s.m with bad := (.dram, pa / 32) :: s.m.bad } ∧ ∀ l, l.sto = .dram → l.addr / 32 = pa / 32 → m.homeErr l = true)) ∧
      (s.m.threads.has u = true → (s.m.thr u).stat.live = true → s.m.threads.find u = some (s.m.thr u) →
        (s.m.region (s.m.thr u).region).live = true → s.m.regions.has (s.m.thr u).region = true →
        Happens (.sramError (.registers u) false) s (fun m => (m.thr u).stat = .exited ∧ (m.region (s.m.thr u).region).live = false ∧
          (m.region (s.m.thr u).region).cause = 0x0A)) ∧
      (port < 12 → s.m.links.getLsbD port = true → Happens (.linkCrcError port) s (fun m => m = { s.m with replays := s.m.replays + 1 })) ∧
      (die < 5 → 105 ≤ temp → Happens (.thermalThrottle die temp) s (fun m => (m.die die).hot = true ∧ m.threads = s.m.threads ∧
        SameBytes s.m m)) ∧
      ((s.m.die die).hot = true → temp < 100 → Happens (.thermalRecovery die temp) s (fun m => (m.die die).hot = false ∧
        m.threads = s.m.threads ∧ SameBytes s.m m)) ∧
      (die < 5 → 115 ≤ temp → Happens (.thermalShutdown die temp) s (fun m => m.power = .shut ∧ m.links = 0)) ∧
      (1 ≤ vf → vf ≤ 512 → Happens (.functionLevelReset vf) s (fun m => (m.flr.at vf).getLsbD 0 = true ∧
        ∀ c R, s.m.ctxs.has c = true → (s.m.ctx c).func = vf → s.m.regions.has R = true → (s.m.region R).ctx = c →
          (m.region R).live = false)) ∧
      (ctx = 0xFFFF ∨ s.m.ctxs.has ctx = true → Happens (.attestationRequest ctx nonce) s (fun m => ∃ rep,
        m = { s.m with hostOut := rep :: s.m.hostOut } ∧ rep.length = 192 + 49856 ∧
          leNat ((rep.drop 4).take 8) = Config.devid.toNat ∧ leNat ((rep.drop 144).take 32) = nonce.toNat)))

/-- R67, R332, R344, R345, R351 to R354: the loader's operations, where their checks pass. A load places its sections, relocated, enters its
symbols, kernels and object under a new handle, its mstream sections (kind 3) as streams; an unload of an object that nothing uses first marks it as unloading, then takes them away
again (DEDUCED, log 63), and a forced unload marks the lanes that fetch from it next, which trap with CODE_GONE at their first issue. Each
command that ends has its STATUS, a load's handle and its completion word written, and the consumer index moves on. IMAGE is read at its
physical address (DEDUCED, log 56). R143, R352: what a relocation puts into its section;
that a PKT24 whose target is no packet start does not fit is the model's choice (DESIGN CHOICE, log 103). -/
def Obligations.LoaderSteps : Prop :=
  (∀ (m : Mach) (gang : Nat) (us : List Nat), us.any m.heldDet = false → us.any m.fenced = false → (∃ u ∈ us, (m.thr u).gone = true) →
    lookFor m gang us = .go m [] ((us.filter (fun u => (m.thr u).gone)).map (fun u => (u, { cause := .codeGone, info := 0 }))) []) ∧
  (∀ (c : Cmd) (s : State), s.m.nextCmd 0 = some c → c.resv = false → c.compl % 8 = 0 → s.m.ctxs.has c.ctx = true →
    let ctx := s.m.ctx c.ctx
    let h := (newHandle s.m c.ctx).1
    let at' := s.m.loader.ring + 64 * (s.m.loader.cons.toNat % 2 ^ s.m.loader.logn)
    let answered (m0 : Mach) (hd : Nat) : Mach :=
      let m1 := m0.physWrite (at' + 21) [0]
      { (if c.op ≤ 1 then m1.physWrite (at' + 24) (leBytes 2 hd) else m1).physWrite c.compl (leBytes 8 (hd * 2 ^ 16)) with
        loader := { s.m.loader with cons := s.m.loader.cons + 1 } }
    let loads (repl : Bool) (i : Instr) : Prop := ∀ x tab ss, Image.parse (s.m.physRead c.image c.isize) = some x → c.cbase % 768 = 0 →
      c.dbase % 4096 = 0 → x.gen = 2 → (∀ k ∈ x.kerns, k.cls ≤ 1) → (∀ y ∈ x.secs, secCovered s.m c y = true) →
      x.enter c h repl ctx.syms = some tab → (∀ y ∈ x.syms, y.bind = 3 → x.target c h tab y ≠ none) →
      (∀ r ∈ x.rels, x.target c h tab (x.syms.getD r.sym default) ≠ none) →
      x.link c (s.m.physRead c.image c.isize) (x.target c h tab) = some ss →
      let placed (k j : Nat) (b : Byte) (l : Loc) : Prop := ∃ y bs, x.secs[k]? = some y ∧ ss[k]? = some bs ∧ bs[j]? = some b ∧
        loadLoc s.m c.ctx (c.secAt y + j) = some l
      Happens i s (fun m => ∃ m0 : Mach, m = answered m0 h ∧ m0.threads = s.m.threads ∧ (m0.ctx c.ctx).syms = tab ∧
        (m0.ctx c.ctx).kerns = ctx.kerns ++ x.kernels c h ∧ (m0.ctx c.ctx).ranges = ctx.ranges ∧
        (∃ o, (m0.ctx c.ctx).objs.find h = some o ∧ o.image = s.m.physRead c.image c.isize ∧
          o.secs = x.secs.map (fun y => (c.secAt y, c.secAt y + y.size)) ∧
          o.streams = (x.secs.filter (fun y => y.kind == 3)).map (fun y => (c.secAt y, c.secAt y + y.size)) ∧ ∀ n, n ≠ h → (m0.ctx c.ctx).objs.find n = ctx.objs.find n) ∧
        (s.m.memWf → (∀ k j b l, placed k j b l → l.sto = .dram → s.m.treeAt l.addr = none) →
          (∀ k j b l k' j' b' l', placed k j b l → placed k' j' b' l' → (k, j) ≠ (k', j') →
            l.sto ≠ l'.sto ∨ (l.addr ≠ l'.addr ∧ (l.addr / 64 = l'.addr / 64 → l.tag = l'.tag))) →
          ∀ k j b l, placed k j b l → m0.homeGet l = b))
    let gone (m : Mach) : Prop := (m.ctx c.ctx).objs.find c.handle = none ∧
      (∀ y ∈ (m.ctx c.ctx).syms, y.obj ≠ c.handle) ∧ (∀ y ∈ (m.ctx c.ctx).kerns, y.obj ≠ c.handle) ∧
      (∀ n, n ≠ c.handle → (m.ctx c.ctx).objs.find n = ctx.objs.find n)
    (c.op = 0 → loads false .load) ∧ (c.op = 1 → loads true .loadWithOverride) ∧
    (∀ o, ctx.objs.find c.handle = some o →
      let begins (m : Mach) : Prop := m = s.m.modCtx c.ctx (fun x => { x with objs := x.objs.put c.handle { o with unloading := true } })
      (o.unloading = false → objUsed ctx c.handle = false → c.op = 2 → objEntered s.m c.ctx o = false → objHeld s.m c.ctx o = false →
        Happens .unload s begins) ∧
      (o.unloading = false → objUsed ctx c.handle = false → c.op = 3 → Happens .forcedUnload s begins) ∧
      (o.unloading = true → c.op = 2 → Happens .unload s (fun m => ∃ m0, m = answered m0 c.handle ∧ gone m0 ∧ m0.threads = s.m.threads)) ∧
      (o.unloading = true → c.op = 3 → Happens .forcedUnload s (fun m => ∃ m0, m = answered m0 c.handle ∧ gone m0 ∧
        ∀ u a, s.m.threads.has u = true → s.m.ctxOf u = c.ctx → s.m.onSpindle u = true → s.m.nextFetch (s.m.thr u) = some a → o.has a = true →
          m0.thr u = { s.m.thr u with gone := true })))) ∧
  (∀ (k secAddr o : Nat) (v : Int) (bs bs' : List Byte), applyRel k secAddr o v bs = some bs' →
    let x : Nat := (v % 2 ^ 64).toNat
    let word (l : List Byte) (p : Nat) : Nat := leNat ((l.drop p).take 4)
    let n := if 3 ≤ k then 8 else 4
    o + n ≤ bs.length →
    bs'.length = bs.length ∧ (∀ p, p < o ∨ o + n ≤ p → bs'[p]? = bs[p]?) ∧
    (k = 0 → ∃ q : Int, v = ((secAddr + o) / 12 * 12 : Nat) + 12 * q ∧ -2 ^ 23 ≤ q ∧ q < 2 ^ 23 ∧
      word bs' o = word bs o / 2 ^ 24 * 2 ^ 24 + (q % 2 ^ 24).toNat) ∧
    (k = 1 → word bs' o = x % 2 ^ 32) ∧ (k = 2 → word bs' o = x / 2 ^ 32) ∧
    (∀ y, (k = 3 ∧ y = x % 2 ^ 32) ∨ (k = 4 ∧ y = x / 2 ^ 32) →
      word bs' o = word bs o / 2 ^ 18 * 2 ^ 18 + y % 2 ^ 14 ∧ word bs' (o + 4) = word bs (o + 4) / 2 ^ 18 * 2 ^ 18 + y / 2 ^ 14))

/-- R313, R321, R333, R359 to R361, R363, R366, R369: the management operations, where their checks pass. IMAGE is read at its physical
address, and the ring's records and completion words lie there too (DEDUCED, log 56). A SETACC that replaces or removes an entry, which accesses
checked under it have left, changes that entry alone; before that it waits. RESUME also lets a copy that waits under the record go on
(R254) (DEDUCED, log 16). -/
def Obligations.ManagementSteps : Prop :=
  ∀ (c : Cmd) (s : State), s.m.nextCmd 1 = some c → c.resv = false → c.compl % 8 = 0 →
    let does (op : Nat) (i : Instr) (P : Mach → Prop) : Prop := c.op = op → Happens i s (fun m => m.mgmt.cons = s.m.mgmt.cons + 1 ∧
      m.msix = s.m.msix + 1 ∧ P m)
    (∀ x r n, c.ctx < 4096 → s.m.ctxs.has c.ctx = false → Ctx.parse (s.m.physNat c.image 64) = some x → groupOf s.m x.group = some (r, n) →
      does 0 .create (fun m => m.ctxs.find c.ctx =
        some { x with rank := r, ranks := n, keys := [(0, Config.freshKey s.m.created)], accrued := s.m.clock })) ∧
    (c.ctx < 4096 → (∀ y ∈ s.m.regions, y.2.ctx ≠ c.ctx) → does 1 .destroy (fun m => m.ctxs.has c.ctx = false ∧
      ∀ j, j ≠ c.ctx → m.ctxs.find j = s.m.ctxs.find j)) ∧
    (∀ e, c.ctx < 4096 → c.handle < 5 → Acc.parse (s.m.physNat c.image 16) = some e → e.ctx = c.ctx →
      (∀ a ∈ s.m.access.at c.handle, ¬ (a.ctx = c.ctx ∧ a.baseg = e.baseg)) →
      ((e.r = true ∨ e.w = true) → (s.m.access.at c.handle).length < 2048 →
        does 2 .setacc (fun m => m.access.at c.handle = s.m.access.at c.handle ++ [e] ∧ ∀ t, t ≠ c.handle → m.access.at t = s.m.access.at t)) ∧
      (e.r = false → e.w = false → (s.m.access.at c.handle).length ≤ 2048 →
        does 2 .setacc (fun m => m.access.at c.handle = s.m.access.at c.handle))) ∧
    (∀ e old, c.ctx < 4096 → c.handle < 5 → c.op = 2 → Acc.parse (s.m.physNat c.image 16) = some e → e.ctx = c.ctx →
      (s.m.access.at c.handle).find? (fun a => a.ctx == c.ctx && a.baseg == e.baseg) = some old →
      (s.m.access.at c.handle).length ≤ 2048 →
      let rest := (s.m.access.at c.handle).filter (fun a => !(a.ctx == c.ctx && a.baseg == e.baseg))
      (accBusy s.m old c.handle = false → does 2 .setacc (fun m =>
        m.access.at c.handle = (if e.r || e.w then rest ++ [e] else rest) ∧ ∀ t, t ≠ c.handle → m.access.at t = s.m.access.at t)) ∧
      (accBusy s.m old c.handle = true → s.act = .idle → exec .setacc s = .refused .notEnabled)) ∧
    (∀ k, c.ctx < 4096 → c.handle < 4096 → s.m.ctxs.has c.ctx = true → leNat ((s.m.physRead c.image 96).drop 80) = 0 →
      Config.unwrapKey (s.m.physRead c.image 96) = some k →
      does 3 .installKey (fun m => (m.ctx c.ctx).keys.find c.handle = some k ∧
        ∀ n, n ≠ c.handle → (m.ctx c.ctx).keys.find n = (s.m.ctx c.ctx).keys.find n)) ∧
    (∀ rec', s.m.faults.find? (fun x => x.num == BitVec.ofNat 16 c.handle) = some rec' →
      s.m.faults.filter (fun x => x.sub == rec'.sub) = [rec'] →
      does 4 .resume (fun m => ∀ u cause va, s.m.threads.find u = some (s.m.thr u) → (s.m.thr u).stat = .subgang rec'.sub cause va →
        (m.thr u).stat = .run ∧ (m.thr u).pos = (s.m.thr u).pos ∧ SameRegs (s.m.thr u) (m.thr u)) ∧
      does 4 .resume (fun m => ∀ n y, s.m.copies.find n = some y →
        m.copies.find n = some (if y.paused = some rec'.sub then { y with paused := none } else y))) ∧
    (c.ctx < 4096 → does 5 .kill (fun m => ∀ R, s.m.regions.has R = true → (s.m.region R).ctx = c.ctx →
      (s.m.region R).rcb.fdom = c.handle → (s.m.region R).live = true → (m.region R).live = false ∧ (m.region R).cause = 0x16)) ∧
    (c.handle ≤ 96 → does 6 .setgale (fun m => m.gale = c.handle ∧ m.threads = s.m.threads))

/-- R62, R64, R95, R314, R317, R318: the lanes that meet a cause leave the run, each with its trap, and the word has no effect for them.
An encoding that is no instruction traps every lane with ILLEGAL and the word itself; the words of major 0x38 without system privilege,
and ERET outside handler mode, with PRIV and the word; an access with the cause that its checks found. R25, R27, R63: a pending register
that the word reads or writes traps with HAZARD and the lowest such register, in the last word of a group too, unless the group stalls for
the other lanes of its run. That v2:v3 count where a word writes them without naming them is the model's choice (DESIGN CHOICE, log 83). -/
def Obligations.WordsMeetTheirCauses : Prop :=
  (∀ (w : Word) (s : State) (g : Group), s.act = .group g →
    exec (.illegalEncoding w) s = did (hdrOf w) (g.left (fun _ => { cause := .illegal, info := w })) s.m) ∧
  (∀ (i : Instr) (h : Hdr) (w : Word) (s : State) (g : Group), s.act = .group g → Instr.hdr i = some h → encodeWord i = some w →
    (∀ u ∈ g.run, ∀ r ∈ g.pre.touches u i, (g.pre.thr u).isPend r = false) →
    (Instr.inMajors i 0x38 0x38 → (∀ u ∈ g.run, g.pre.privOf u = false) →
      exec i s = did h (g.left (fun _ => { cause := .priv, info := w })) s.m) ∧
    (i = .eret h → (∀ u ∈ g.run, (g.pre.thr u).h = false) →
      exec i s = did h (g.left (fun _ => { cause := .priv, info := w })) s.m) ∧
    (Instr.inMajors i 0x20 0x2F → (∀ u ∈ g.run, g.pre.detOf u = false) →
      ∀ (c : Nat → Cause) (x va : Nat → Nat), (∀ u ∈ g.run, memReach i g u = .trap (c u) (x u) (va u)) →
        exec i s = did h (g.left (fun u => { cause := c u, info := BitVec.ofNat 32 (x u), va := BitVec.ofNat 64 (va u) }))
          s.m.nextWord)) ∧
  (∀ (i : Instr) (h : Hdr) (w : Word) (s t : State) (g : Group) (u : Nat) (r : Reg), s.act = .group g → Instr.hdr i = some h →
    encodeWord i = some w → exec i s = .next t → u ∈ g.run → r ∈ g.pre.touches u i → (g.pre.thr u).isPend r = true →
    (∀ r' ∈ g.pre.touches u i, (g.pre.thr u).isPend r' = true → r.val ≤ r'.val) →
      ∃ g', u ∉ g'.run ∧ (u, { cause := .hazard, info := BitVec.ofNat 32 r.val }) ∈ g'.traps ∧ g'.pos = g.pos ∧ g'.slot = g.slot ∧
        ((∃ m, t = finishWord h g' m) ∨ g'.run ≠ [] ∧ ∃ st, t = stallGroup st g')) ∧
  (∀ (m : Mach) (u : Nat) (h : Hdr) (a r : Reg) (off : BitVec 18),
    (∀ i, r ∈ Instr.regs i → r ∈ m.touches u i) ∧
    (r = 2 ∨ r = 3 → r ∈ m.touches u (.forkr h a off) ∧
      ((m.regionOf u).frameSlots - 4 ≤ (m.thr u).frames.length → r ∈ m.touches u (.fork h a off)) ∧
      ((m.thr u).depth.toNat ≤ (m.thr u).mark.toNat → ∀ f, (m.thr u).frames.getLast? = some f →
        (f.kind ≠ .range → f.state = .latent → r ∈ m.touches u (.join h)) ∧
        (f.kind = .range → f.state = .active → f.lo = f.hi → ((m.thr u).cell ((m.thr u).frames.length - 1)).nextPiece = none →
          f.root = false → r ∈ m.touches u (.endp h a)))))

/-- R315, R317, R320, R321, R333: how a lane that met a cause leaves a group that ends. Where its results have returned and it owes no
report, a Handler cause with a handler, outside handler mode unless it is TIMER, enters the handler: the trap registers take the cause,
the position and the information, H becomes 1 and the pc HVEC, and no other register changes. A System cause parks it with its
registers, trap registers among them, as they were. A Fatal cause, no handler, or a cause in handler mode other than TIMER removes the fault
domain. The codes and routes are those of the table of R314. -/
def Obligations.TrapsAreTaken : Prop :=
  (∀ c : Cause, ∃ n r, c.code = n ∧ (c ≠ .killed → c.route = r) ∧ (c, n, r) ∈ [(Cause.illegal, 0x01, Route.handler), (.hazard, 0x02, .handler),
    (.packet, 0x03, .handler), (.priv, 0x04, .handler), (.align, 0x05, .handler), (.rangeMiss, 0x06, .handler), (.rangePerm, 0x07, .handler),
    (.residency, 0x08, .system), (.format, 0x09, .handler), (.dataError, 0x0A, .handler), (.accessTable, 0x0B, .fatal),
    (.determ, 0x0C, .handler), (.user, 0x0D, .handler), (.frame, 0x0E, .handler), (.queue, 0x0F, .handler), (.barrier, 0x10, .handler),
    (.sigclass, 0x11, .handler), (.wmFrozen, 0x12, .handler), (.timer, 0x13, .handler), (.codeGone, 0x14, .fatal), (.grid, 0x15, .handler),
    (.killed, 0x16, .fatal), (.watch, 0x17, .system)]) ∧
  ∀ (g : Group) (m : Mach) (u : Nat) (tr : Trap), m.threads.has u = true → g.trapOf u = some tr →
    let t := m.thr u
    let e := closeGroup g m
    let t' := e.thr u
    let back := resumeWord g.pos g.slot tr
    let hv := (m.ctx (m.ctxOfRegion t.region)).hvec
    let saved := t'.trapc = BitVec.ofNat 32 tr.cause.code ∧ t'.trapa = back ∧ t'.trapi = tr.info
    let owesNothing := m.waiting u = false ∧ (tr.d = false → t.deferred = none)
    (tr.res = .group → tr.d = false → back = (0#6 ++ g.pos.slot ++ g.pos.pkt : BitVec 64)) ∧
    (tr.res = .after → tr.d = false → g.slot < 2 → back = (0#6 ++ BitVec.ofNat 2 (g.slot + 1) ++ g.pos.pkt : BitVec 64)) ∧
    (tr.res = .after → tr.d = false → g.slot = 2 → back = (0#8 ++ (g.pos.pkt + 12) : BitVec 64)) ∧
    (tr.cause.route = .handler → hv ≠ 0 → (t.h = false ∨ tr.cause = .timer) → owesNothing →
      saved ∧ t'.h = true ∧ t'.pos = ⟨hv, 0⟩ ∧ t'.stat = .run ∧ t'.pend = 0 ∧ SameRegs t t') ∧
    (tr.cause.route = .system → SameTrap t t' ∧ t'.stat = .subgang m.subs tr.cause tr.va ∧ e.subs = m.subs + 1 ∧ SameRegs t t') ∧
    (tr.cause.route = .fatal ∨ (tr.cause.route = .handler ∧ (hv = 0 ∨ (t.h = true ∧ tr.cause ≠ .timer))) → owesNothing →
      ∃ x, removeFor e u = some x ∧ ∀ r y, e.regions.find r = some y → y.live = true → y.ctx = e.ctxOf u →
        y.rcb.fdom = (e.regionOf u).rcb.fdom → (x.region r).live = false ∧ (x.region r).cause = tr.cause.code ∧
          ∀ v, x.threads.has v = true → (x.thr v).region = r → (x.thr v).stat = .exited)

/-- R92, R95, R189, R191: the checks of an access. A misaligned access traps with ALIGN and its address. One that goes on has every byte
translated and admitted, none of a dead format, none watched, none behind a frozen watermark. A global byte translates only inside a
range of its context that permits the access and holds the byte's granule; where it lies follows the range's offset, which while the
range moves is the new one below the block that moves and the old one above it; at that block itself nothing translates, but for the rest of
an element that a scatter-add has begun, which the model completes under the old one (DEDUCED, log 53). An address that no range
covers misses. -/
def Obligations.AccessChecks : Prop :=
  (∀ (m : Mach) (u : Nat) (k : AKind) (va : BitVec 64) (n al : Nat),
    (va.toNat % al ≠ 0 → accessAt m u k va n al = .trap .align (va.toNat % 2 ^ 32) va.toNat) ∧
    (∀ ls, accessAt m u k va n al = .ok ls → va.toNat % al = 0 ∧ ls.length = n ∧
      (∀ j < n, ∃ l, ls[j]? = some l ∧ m.translate (m.who u) k (va.toNat + j) = .ok l true ∧ m.fmtDead (m.who u) (va.toNat + j) = false ∧
        (k ≠ .fetch → (m.ctx (m.ctxOf u)).watched (va.toNat + j) = false)) ∧
      (k ≠ .fetch → m.frozenAt (m.gangOf u).crew (span va.toNat n) = none))) ∧
  (∀ (m : Mach) (w : Who) (k : AKind) (va : Nat), va < 0xFD * 2 ^ 48 →
    ((∀ r ∈ (m.ctx w.ctx).ranges, ¬ (r.baseg * 4096 ≤ va ∧ va < r.limg * 4096)) → m.translate w k va = .bad 2 .rangeMiss) ∧
    (∀ l adm, m.translate w k va = .ok l adm → ∃ r ∈ (m.ctx w.ctx).ranges, r.baseg * 4096 ≤ va ∧ va < r.limg * 4096 ∧
      (k = .read → r.r = true) ∧ (k = .write → r.w = true) ∧ (k = .atomic → r.r = true ∧ r.w = true ∧ r.a = true) ∧
      (k = .fetch → r.x = true) ∧ r.rlo ≤ va / 4096 - r.baseg ∧ va / 4096 - r.baseg < r.rhi ∧ l.va = va ∧
      ∃ off : BitVec 44, l.addr = ((va : Int) + off.toInt * 4096).toNat ∧
        ((r.cstate = 0 ∧ off = r.offg) ∨ (r.cstate ≠ 0 ∧ va / 64 < r.cwm ∧ off = r.noffg) ∨
          (r.cstate ≠ 0 ∧ r.cwm < va / 64 ∧ off = r.offg) ∨
          (r.cstate ≠ 0 ∧ r.cstate ≠ 2 ∧ m.whole = true ∧ va / 64 = r.cwm ∧ off = r.offg))))

/-- Frame of the words of majors 0x05 to 0x19 but REGROUP (R11, R12, R23, R24, R38). ALU and FPU words change their destination registers
or their destination predicate, in the lanes of their run, and nothing else of any register; a lane that meets no cause keeps its trap
registers and its mode, and its %fstat, into which only floating-point words may raise flags. SFU and cross-lane words change no
register as they issue. No byte of memory changes. -/
def Obligations.RegisterWordsChangeOnlyTheirDestinations : Prop :=
  ∀ (i : Instr) (s t : State) (g : Group), s.act = .group g → exec i s = .next t →
    (Instr.inMajors i 0x05 0x16 → OnlyThreads s.m t.m ∧ SameBytes s.m t.m ∧ ∀ u,
      let a := s.m.thr u
      let b := t.m.thr u
      (∀ r, r ∉ Instr.dests i → b.rd r = a.rd r) ∧ (∀ q, some q ≠ Instr.predDest i → b.rdP q = a.rdP q) ∧ (u ∉ g.run → SameRegs a b) ∧
      b.lnk = a.lnk ∧ b.fmode = a.fmode ∧ b.tid = a.tid ∧ b.fstk = a.fstk ∧ b.frames = a.frames ∧ b.cells = a.cells ∧ b.depth = a.depth ∧
      (Clear i g → Calm g u a → SameTrap a b ∧ a.fstat &&& b.fstat = a.fstat ∧
        (Instr.inMajors i 0x05 0x11 → g.flags = [] → b.fstat = a.fstat))) ∧
    (Instr.inMajors i 0x17 0x19 → (∀ h a, i ≠ .regroup h a) → OnlyAccesses s.m t.m ∧ SameBytes s.m t.m ∧
      ∀ u, SameRegs (s.m.thr u) (t.m.thr u) ∧ (Clear i g → Calm g u (s.m.thr u) → SameTrap (s.m.thr u) (t.m.thr u)))

/-- Frame of the memory words (R16, R23, R24, R94, R213). As it issues, a word of majors 0x20 to 0x30 other than FENCE and the atomics
changes no register and no byte, and sends accesses only; a group that stalls leaves the machine before the group. An atomic of majors
0x2E and 0x2F lets its spindle's L1 write back and drop the sectors of its lanes' accesses (R213), and changes no register and no byte
outside them. When a store or read-modify-write performs, main memory being canonical, only the bytes of the request change: every other
byte that a load reaches reads as before, for an atomic outside the sectors that leave the L1, and at its home also inside them where the
L1 holds nothing dirty there. Another byte of a written 64-byte data unit is meant under the tag of what is written, since R368 lets a
write take the unit to its own tag. -/
def Obligations.StoresChangeOnlyTheirBytes : Prop :=
  (∀ (i : Instr) (s t : State) (g : Group), s.act = .group g → exec i s = .next t → Instr.inMajors i 0x20 0x30 →
    ¬ Instr.inMajors i 0x2E 0x2F → (∀ h sc, i ≠ .fence h sc) →
    ∃ b, (b = s.m ∨ b = g.pre) ∧ OnlyAccesses b t.m ∧ SameBytes b t.m ∧ ∀ u, SameRegs (b.thr u) (t.m.thr u) ∧
      (Clear i g → (∀ v ∈ g.run, chkMem i g v = none) → Calm g u (b.thr u) → SameTrap (b.thr u) (t.m.thr u))) ∧
  (∀ (i : Instr) (s t : State) (g : Group), s.act = .group g → exec i s = .next t → Instr.inMajors i 0x2E 0x2F → s.m.dram.wf = true →
    ∃ b, (b = s.m ∨ b = g.pre) ∧ (∀ u, SameRegs (b.thr u) (t.m.thr u) ∧
      (Clear i g → (∀ v ∈ g.run, chkMem i g v = none) → Calm g u (b.thr u) → SameTrap (b.thr u) (t.m.thr u))) ∧
      ∀ sp l', (∀ u ∈ g.run, ∀ l ∈ (memReach i g u).locs, sameSector l l' = false) →
        (∀ x ∈ (s.m.spindle (s.m.gang g.gang).sp).l1, x.dirty ≠ 0 → x.loc.sto = .dram → l'.sto = .dram → x.loc.addr / 64 = l'.addr / 64 →
          x.loc.tag = l'.tag) → t.m.load sp l' = b.load sp l') ∧
  (∀ (k : Nat) (q : Req) (s t : State), s.m.reqs.find? (fun x => x.seq == k) = some q → exec (.memoryAccessPerform k) s = .next t →
    s.m.dram.wf = true →
    let other (l' : Loc) : Prop := (∀ l ∈ q.ls, l.sto = l'.sto → l.addr ≠ l'.addr) ∧
      ∀ l ∈ q.ls, l.sto = .dram → l'.sto = .dram → l.addr / 64 = l'.addr / 64 → l.tag = l'.tag
    let dirty (x : Line) : Prop := ∃ p ∈ q :: mergedInto s.m q, x ∈ (s.m.spindle p.sp).l1 ∧ lineIn q.ls x = true ∧ x.dirty ≠ 0
    ((∃ v mask, q.kind = .store v mask) ∨ q.kind.reads = true) →
    (∀ u, SameRegs (s.m.thr u) (t.m.thr u)) ∧
    (∀ l', other l' → (∃ v mask, q.kind = .store v mask) → ∀ sp, t.m.load sp l' = s.m.load sp l') ∧
    (∀ l', other l' → q.kind.reads = true →
      ((∀ l ∈ q.ls, sameSector l l' = false) → (∀ x, dirty x → x.loc.sto = .dram → l'.sto = .dram → x.loc.addr / 64 = l'.addr / 64 →
        x.loc.tag = l'.tag) → ∀ sp, t.m.load sp l' = s.m.load sp l') ∧
      ((∀ x, ¬ dirty x) → t.m.homeGet l' = s.m.homeGet l')))

/-- A step runs the decoded instruction (R18, R20, R21, R62, R272). While a group issues, a step is exec of the instruction that the next
word decodes to, or of the trap of an encoding that is none. A gang that takes an issue opportunity opens a group whose words are those
of the packet that the instruction cache holds at the pc of its run, from the pc's slot to the first word with C = 0, and the step is
exec of the first. A sequencer's step is exec of the word that it fetches, on a machine to which a link that has not delivered for
1,000,000 cycles delivers no more (R362) (DEDUCED, log 114). -/
def Obligations.AStepRunsTheDecodedInstruction : Prop :=
  (∀ (m : Mach) (g : Group) (w : Word) (r : List Word), g.rest = w :: r →
    (∀ i, decodeWord w = .ok i → step ⟨m, .group g⟩ = exec i ⟨m, .group g⟩) ∧
    (∀ e, decodeWord w = .error e → step ⟨m, .group g⟩ = exec (.illegalEncoding w) ⟨m, .group g⟩)) ∧
  (∀ (m : Mach) (r : List Turn) (k : Nat), m.power = .up → owed { m with lost := false } = none →
    let m' := { m with turns := r, lost := false }
    (m.turns = .issue k :: r → m'.mayIssue k = true → ∀ (x : Group) (w : Word) (ws : List Word) (i : Instr) (t : State),
      (issueTurn m' k).act = .group x → x.rest = w :: ws → decodeWord w = .ok i → exec i (issueTurn m' k) = .next t →
      step ⟨m, .idle⟩ = .next t) ∧
    (m.turns = .seq k :: r → ∀ (y : Stream) (bs : List Byte) (i : Instr) (t : State), m.streams.find k = some y →
      y.waitQ = false → y.post = none → tileWaits m' y = false → streamFetch (if y.got then m' else m'.after y.out) y y.idx = .ok bs →
      decodeStream (BitVec.ofNat 64 (leNat bs)) = .ok i → exec i ⟨m'.after y.out, .stream k⟩ = .next t → step ⟨m, .idle⟩ = .next t)) ∧
  (∀ (m : Mach) (k : Nat) (us : List Nat) (x : Group), (∀ u ∈ us, (m.thr u).pos = (m.thr (us.headD 0)).pos) →
    (openRun m k us).act = .group x →
    let q := (m.thr (us.headD 0)).pos
    x.gang = k ∧ x.pos = q ∧ x.slot = q.slot.toNat ∧ x.run ≠ [] ∧
      ∃ bs, m.icacheAt (m.gang k).sp (m.ctxOfGang k) q.pkt.toNat = some bs ∧ x.rest = chainOf ((packetWords bs).drop q.slot.toNat))

/-- The decoder reads the words that the spec writes out in its examples, and refuses two that it calls no instruction. -/
def Obligations.DecodingIsRight : Prop :=
  let h : Hdr := ⟨false, false⟩
  let sw : Hdr := ⟨false, true⟩
  let fm : FMod := ⟨false, false, 0⟩
  decodeWord 0x00000000 = .ok (.nop h) ∧ decodeWord 0x852CA300 = .ok (.add ⟨true, false⟩ 11 10 12) ∧
  decodeWord 0x0551558E = .ok (.addmin h 20 21 22) ∧ decodeWord 0x07483100 = .ok (.cmp h 2 2 3 4) ∧
  decodeWord 0x0729C001 = .ok (.plog h 1 2 3 8) ∧ decodeWord 0x0C146407 = .ok (.shri h 5 6 7) ∧
  decodeWord 0x1244D340 = .ok (.fadd h 17 13 13 fm) ∧ decodeWord 0x14187108 = .ok (.fcvtIF h 6 7 ⟨false, false, 2⟩) ∧
  decodeWord 0x1630D38B = .ok (.fdot2 h 12 13 14 ⟨false, false, true, false⟩) ∧ decodeWord 0x17209200 = .ok (.rsq h 8 9 false false) ∧
  decodeWord 0x182CA101 = .ok (.xshufi h 11 10 4 false) ∧ decodeWord 0x24284010 = .ok (.ldW h 10 4 0x010) ∧
  decodeWord 0x2B188FF8 = .ok (.stD h 6 8 0xFF8) ∧ decodeWord 0x6730E005 = .ok (.ldT sw 12 14 5) ∧
  decodeWord 0x01B3FFFF = .ok (.bra h 11 0 0x3FFFF) ∧ decodeWord 0x1F23FFFE = .ok (.dbnz h 8 0x3FFFE) ∧
  decodeWord 0x000048C5 = .ok (.entry h 0x123) ∧ decodeWord 0x031048C2 = .ok (.calli h 0x123 4) ∧
  decodeWord 0x43508008 = .ok (.movs sw 20 8) ∧ decodeWord 0x402862C4 = .ok (.waitc sw 10 6 11) ∧
  decodeWord 0x04180007 = .ok (.fork h 6 7) ∧ decodeWord 0x1C300000 = .ok (.rstep h 12) ∧ decodeWord 0x1D100001 = .ok (.rjoin h 4) ∧
  decodeWord 0x1D00A002 = .ok (.endp h 10) ∧ decodeWord 0x1E100002 = .ok (.forkr h 4 2) ∧
  decodeWord 0x6E284009 = .ok (.acas sw 10 4 false 1) ∧ decodeWord 0x2F284018 = .ok (.fred h 10 4 0 0 3) ∧
  decodeWord 0x76284000 = .ok (.chunk sw 10 4) ∧ decodeWord 0x30A04183 = .ok (.cflush h 5 4 6) ∧
  decodeWord 0x37284000 = .ok (.rsplit h 10 4) ∧ decodeWord 0x37304103 = .ok (.rquery h 12 4 4) ∧
  decodeWord 0x38284201 = .ok (.rinv h 10 4 8) ∧ decodeWord 0x3828B002 = .ok (.rwait h 10 11) ∧
  decodeStream 0x0A20A00004000000 = .ok (.mma true 0 1 5 0 2) ∧
  decodeWord 0xFFFFFFFF = .error .permanentlyIllegal ∧ decodeWord 0x39000000 = .error .reservedMajor

/-- R54 to R67: encode and decode agree, both ways. A well-formed instruction is what its word, and its bytes at the head of any bytes,
decode to; and a word that decodes to an instruction is the word of that instruction, which is well-formed, so that no two words mean
the same and no bit is dropped. R62: a major that no format assigns is refused. -/
def Obligations.EncodeAndDecodeAgree : Prop :=
  (∀ (i : Instr) (w : Word) (r : List Byte), i.wellFormed = true → encodeWord i = some w → i ≠ .illegalEncoding w →
    decodeWord w = .ok i ∧ issueOf w = i ∧ ∃ bs, encode i = some bs ∧ bs.length = 4 ∧ decodeBytes (bs ++ r) = .ok (i, r)) ∧
  (∀ (i : Instr) (w : BitVec 64) (r : List Byte), i.wellFormed = true → encodeStream i = some w → i ≠ .illegalStreamWord w →
    decodeStream w = .ok i ∧ streamIssueOf w = i ∧ ∃ bs, encode i = some bs ∧ bs.length = 8 ∧ decodeStreamBytes (bs ++ r) = .ok (i, r)) ∧
  (∀ (i : Instr) (w : Word), decodeWord w = .ok i → i.wellFormed = true ∧ encodeWord i = some w) ∧
  (∀ (i : Instr) (w : BitVec 64), decodeStream w = .ok i → i.wellFormed = true ∧ encodeStream i = some w) ∧
  (∀ (w : Word), (majorOf w = 0x1A#6 ∨ majorOf w = 0x1B#6 ∨ (0x39 ≤ (majorOf w).toNat ∧ (majorOf w).toNat ≤ 0x3F)) →
    issueOf w = .illegalEncoding w)

/-- R15, R304, R310, R313, R358, R371: the machine right after reset. Nothing executes and nothing is listed; no context, region, crew,
gang or thread exists; %clock and the ring heads are 0; the device waits for power-on. That power is off, that every byte reads 0 and
that caches hold nothing are the model's choices (DESIGN CHOICE, logs 2 to 4). Its memories are canonical and its group is shaped. -/
def Obligations.ResetState : Prop :=
  let m := State.reset.m
  State.reset.act = .idle ∧ m.clock = 0 ∧ m.power = .off ∧ m.gale = 0 ∧ m.ticketN = 0 ∧ m.subs = 0 ∧
    m.loader = ⟨0, 0, 0, 0, false, false, 0, 0⟩ ∧ m.mgmt = ⟨0, 0, 0, 0, false, false, 0, 0⟩ ∧ m.faultQ = ⟨0, 0, 0, 0, false, false, 0, 0⟩ ∧
    (∀ k, m.threads.has k = false ∧ m.gangs.has k = false ∧ m.crews.has k = false ∧ m.regions.has k = false ∧ m.ctxs.has k = false) ∧
    (∀ sp l, m.load sp l = 0) ∧ m.memWf ∧ State.reset.shaped

/-- R8, R207, R210: storage. A byte written reads back, and no other address of its memory changes; a byte stored at its home, with no L1
holding it, is what a load of any spindle without that byte in its L1 then reads, and a load of the storing spindle always reads what
it stored. Every operation on storage keeps every memory canonical, so that equal memories are equal data. -/
def Obligations.StorageLaws : Prop :=
  (∀ (x : Mem) (a b : Nat) (v : Byte), x.wf = true → (x.set a v).wf = true ∧ (x.set a v).get a = v ∧
    (b ≠ a → (x.set a v).get b = x.get b)) ∧
  (∀ (x y : Mem), x.wf = true → y.wf = true → (∀ a, x.get a = y.get a) → x = y) ∧
  (∀ (x : Mem) (a b : Nat) (bs : List Byte), x.wf = true → (x.setBytes a bs).wf = true ∧ x.setBytes a bs = x.block a bs ∧
    (∀ (j : Nat) (h : j < bs.length), (x.setBytes a bs).get (a + j) = bs[j]) ∧
    (b < a ∨ a + bs.length ≤ b → (x.setBytes a bs).get b = x.get b)) ∧
  (∀ (m : Mach) (sp : Nat) (l : Loc) (v : Byte), m.memWf →
    (l.sto = .dram → m.treeAt l.addr = none) → (l.sto = .host → headByte l.addr = false) →
    (∀ k, l.sto = .crew k → m.crews.has k = true) →
    (m.store sp l v).load sp l = v ∧ (m.homeSet l v).homeGet l = v ∧
    (m.l1Find sp l = none → ∀ sp', m.l1Find sp' l = none → (m.store sp l v).load sp' l = v)) ∧
  (∀ (m : Mach) (sp pa : Nat) (d : Bool) (p : Line → Bool) (l : Loc) (v : Byte) (ls : List Loc) (bs : List Byte), m.memWf →
    (m.homeSet l v).memWf ∧ (m.homeSets ls bs).memWf ∧ (m.store sp l v).memWf ∧ (m.l1Clean sp d p).memWf ∧ (m.l1Drop sp p).memWf ∧
      (m.l2Clean pa).memWf ∧ (m.physWrite pa bs).memWf)

/-- R18, R20, R22, R24, R38, R164: how a group ends. While a word carries C the next one is due; after the last, a lane of the run that
met no cause and that no word holds stands at its taken transfer, or at the next word of its packet, or at the next packet; it runs on,
unless a word carried S and a result is outstanding, when it is parked; %fstat has gained the flags that the group raised (as the group
ends: the model's choice, DESIGN CHOICE, log 79), and its count of retired packets has risen by one if the packet is done and no handler ran
it (at the end of its last group: the model's choice, DESIGN CHOICE, log 78). Nothing else of the machine changes. -/
def Obligations.GroupsEnd : Prop :=
  (∀ (h : Hdr) (g : Group) (m : Mach), (h.c = true → finishWord h g m =
      ⟨m, .group { g with sw := g.sw || h.s, slot := g.slot + 1, rest := g.rest.tail }⟩) ∧
    (h.c = false → finishWord h g m = ⟨closeGroup { g with sw := g.sw || h.s } m, .idle⟩)) ∧
  (∀ (g : Group) (m : Mach), OnlyThreads m (closeGroup g m) ∧ SameBytes m (closeGroup g m) ∧
    (∀ u, SameRegs (m.thr u) ((closeGroup g m).thr u)) ∧
    ∀ u, m.threads.has u = true → u ∈ g.run → u ∉ g.held → Calm g u (m.thr u) →
      let t := m.thr u
      let t' := (closeGroup g m).thr u
      let done := g.slot = 2 ∨ (g.xferOf u).isSome = true
      (∀ p, g.xferOf u = some p → t'.pos = p) ∧
      (g.xferOf u = none → g.slot < 2 → t'.pos = ⟨g.pos.pkt, BitVec.ofNat 2 (g.slot + 1)⟩) ∧
      (g.xferOf u = none → 2 ≤ g.slot → t'.pos = ⟨g.pos.pkt + 12, 0⟩) ∧
      (g.sw = false → t'.stat = .run ∧ t'.pend = t.pend) ∧
      (g.sw = true → m.waiting u = true → t'.stat = .parked ∧ t'.pend = t.pend) ∧
      (∀ n : Nat, n < 5 → (t'.fstat.getLsbD n = true ↔ t.fstat.getLsbD n = true ∨ ∃ f, (u, f) ∈ g.flags ∧ f.getLsbD n = true)) ∧
      (done → (g.pre.thr u).h = false → t'.retired = t.retired + 1) ∧ (¬ done ∨ (g.pre.thr u).h = true → t'.retired = t.retired) ∧
      SameTrap t t')

/-- R18, R20, R21: every step keeps the shape of the group that issues: its words stay one chain inside a packet of three. -/
def Obligations.StepKeepsTheGroupShaped : Prop :=
  ∀ (s s' : State), s.shaped → step s = .next s' → s'.shaped

/-- Every step of the machine keeps every memory in its canonical form (DESIGN CHOICE, log 2): main memory, the shared store of each C-die, the host
window, the other devices of the group, crew-local memories and accumulator stores. -/
def Obligations.StepKeepsMemoryCanonical : Prop :=
  ∀ (s s' : State), s.m.memWf → step s = .next s' → s'.m.memWf

end
end

