-- ==== Sys2Proof/Laws/Engine.lean ====
section
/-! SUPPORT. What taking accesses back changes (R16, R327, R375). -/

namespace Sys2Proof.Machine

/-- Nothing has changed but threads, gangs, and the accesses and commands on their way. -/
def OnlyTaken (m m' : Mach) : Prop :=
  m' = { m with threads := m'.threads, gangs := m'.gangs, results := m'.results, reqs := m'.reqs, pushes := m'.pushes }
theorem OnlyTaken.refl (m : Mach) : OnlyTaken m m := rfl
theorem OnlyTaken.trans {a b c : Mach} (h : OnlyTaken a b) (k : OnlyTaken b c) : OnlyTaken a c := by
  unfold OnlyTaken at *; rw [k, h]
theorem OnlyTaken.foldl {α : Type} {f : Mach → α → Mach} (hf : ∀ m a, OnlyTaken m (f m a)) (m : Mach) (l : List α) :
    OnlyTaken m (l.foldl f m) := by
  induction l generalizing m with
  | nil => exact .refl m
  | cons a r ih => exact (hf m a).trans (ih _)
/-- Such a change leaves every byte. -/
theorem OnlyTaken.bytes {a b : Mach} (h : OnlyTaken a b) : SameBytes a b := by
  intro sp l; rw [h]; rfl
/-- Taking accesses back is such a change, and so is abandoning those that a mark holds. -/
theorem takeBack_only (m : Mach) (ns : List Nat) : OnlyTaken m (takeBack m ns) := by
  unfold takeBack
  refine OnlyTaken.trans (b := dropTaken m ns) rfl (OnlyTaken.trans (OnlyTaken.foldl (fun x r => ?_) _ _) (OnlyTaken.foldl (fun x r => ?_) _ _))
  · rfl
  · rfl
theorem abandon_only (m : Mach) (crew slot : Nat) (k : Mark) : OnlyTaken m (abandon m crew slot k) := by
  unfold abandon
  exact (takeBack_only m _).trans (OnlyTaken.foldl (fun x i => by rfl) _ _)
theorem abandonAfter_only {m m' : Mach} {u : Nat} (h : abandonAfter m u = some m') : OnlyTaken m m' := by
  unfold abandonAfter at h
  simp only at h
  split at h
  · cases h
  · split at h
    · cases h
    · cases h; exact takeBack_only m _

end Sys2Proof.Machine
end

