-- ==== Sys2Proof/Laws/State.lean ====
section
/-! SUPPORT. What each update of the state leaves of each field: one lemma per field and update, so that no proof unfolds a record
update. -/

namespace Sys2Proof.Machine

/-! ### mapThr -/

@[simp] theorem mapThr_clock (m : Mach) (f : Nat → Thread → Thread) : (m.mapThr f).clock = m.clock := rfl
@[simp] theorem mapThr_dram (m : Mach) (f : Nat → Thread → Thread) : (m.mapThr f).dram = m.dram := rfl
@[simp] theorem mapThr_l2 (m : Mach) (f : Nat → Thread → Thread) : (m.mapThr f).l2 = m.l2 := rfl
@[simp] theorem mapThr_owner (m : Mach) (f : Nat → Thread → Thread) : (m.mapThr f).owner = m.owner := rfl
@[simp] theorem mapThr_csm (m : Mach) (f : Nat → Thread → Thread) : (m.mapThr f).csm = m.csm := rfl
@[simp] theorem mapThr_host (m : Mach) (f : Nat → Thread → Thread) : (m.mapThr f).host = m.host := rfl
@[simp] theorem mapThr_remote (m : Mach) (f : Nat → Thread → Thread) : (m.mapThr f).remote = m.remote := rfl
@[simp] theorem mapThr_remoteAcc (m : Mach) (f : Nat → Thread → Thread) : (m.mapThr f).remoteAcc = m.remoteAcc := rfl
@[simp] theorem mapThr_lost (m : Mach) (f : Nat → Thread → Thread) : (m.mapThr f).lost = m.lost := rfl
@[simp] theorem mapThr_whole (m : Mach) (f : Nat → Thread → Thread) : (m.mapThr f).whole = m.whole := rfl
@[simp] theorem mapThr_bad (m : Mach) (f : Nat → Thread → Thread) : (m.mapThr f).bad = m.bad := rfl
@[simp] theorem mapThr_ctxs (m : Mach) (f : Nat → Thread → Thread) : (m.mapThr f).ctxs = m.ctxs := rfl
@[simp] theorem mapThr_regions (m : Mach) (f : Nat → Thread → Thread) : (m.mapThr f).regions = m.regions := rfl
@[simp] theorem mapThr_crews (m : Mach) (f : Nat → Thread → Thread) : (m.mapThr f).crews = m.crews := rfl
@[simp] theorem mapThr_gangs (m : Mach) (f : Nat → Thread → Thread) : (m.mapThr f).gangs = m.gangs := rfl
@[simp] theorem mapThr_threads (m : Mach) (f : Nat → Thread → Thread) : (m.mapThr f).threads = m.threads.mapV f := rfl
@[simp] theorem mapThr_spindles (m : Mach) (f : Nat → Thread → Thread) : (m.mapThr f).spindles = m.spindles := rfl
@[simp] theorem mapThr_dies (m : Mach) (f : Nat → Thread → Thread) : (m.mapThr f).dies = m.dies := rfl
@[simp] theorem mapThr_pools (m : Mach) (f : Nat → Thread → Thread) : (m.mapThr f).pools = m.pools := rfl
@[simp] theorem mapThr_results (m : Mach) (f : Nat → Thread → Thread) : (m.mapThr f).results = m.results := rfl
@[simp] theorem mapThr_reqs (m : Mach) (f : Nat → Thread → Thread) : (m.mapThr f).reqs = m.reqs := rfl
@[simp] theorem mapThr_seq (m : Mach) (f : Nat → Thread → Thread) : (m.mapThr f).seq = m.seq := rfl
@[simp] theorem mapThr_wordNo (m : Mach) (f : Nat → Thread → Thread) : (m.mapThr f).wordNo = m.wordNo := rfl
@[simp] theorem mapThr_pushes (m : Mach) (f : Nat → Thread → Thread) : (m.mapThr f).pushes = m.pushes := rfl
@[simp] theorem mapThr_copies (m : Mach) (f : Nat → Thread → Thread) : (m.mapThr f).copies = m.copies := rfl
@[simp] theorem mapThr_jobs (m : Mach) (f : Nat → Thread → Thread) : (m.mapThr f).jobs = m.jobs := rfl
@[simp] theorem mapThr_streams (m : Mach) (f : Nat → Thread → Thread) : (m.mapThr f).streams = m.streams := rfl
@[simp] theorem mapThr_nextId (m : Mach) (f : Nat → Thread → Thread) : (m.mapThr f).nextId = m.nextId := rfl
@[simp] theorem mapThr_tickets (m : Mach) (f : Nat → Thread → Thread) : (m.mapThr f).tickets = m.tickets := rfl
@[simp] theorem mapThr_ticketN (m : Mach) (f : Nat → Thread → Thread) : (m.mapThr f).ticketN = m.ticketN := rfl
@[simp] theorem mapThr_codePas (m : Mach) (f : Nat → Thread → Thread) : (m.mapThr f).codePas = m.codePas := rfl
@[simp] theorem mapThr_tainted (m : Mach) (f : Nat → Thread → Thread) : (m.mapThr f).tainted = m.tainted := rfl
@[simp] theorem mapThr_access (m : Mach) (f : Nat → Thread → Thread) : (m.mapThr f).access = m.access := rfl
@[simp] theorem mapThr_gale (m : Mach) (f : Nat → Thread → Thread) : (m.mapThr f).gale = m.gale := rfl
@[simp] theorem mapThr_loader (m : Mach) (f : Nat → Thread → Thread) : (m.mapThr f).loader = m.loader := rfl
@[simp] theorem mapThr_mgmt (m : Mach) (f : Nat → Thread → Thread) : (m.mapThr f).mgmt = m.mgmt := rfl
@[simp] theorem mapThr_faultQ (m : Mach) (f : Nat → Thread → Thread) : (m.mapThr f).faultQ = m.faultQ := rfl
@[simp] theorem mapThr_faults (m : Mach) (f : Nat → Thread → Thread) : (m.mapThr f).faults = m.faults := rfl
@[simp] theorem mapThr_faultN (m : Mach) (f : Nat → Thread → Thread) : (m.mapThr f).faultN = m.faultN := rfl
@[simp] theorem mapThr_subs (m : Mach) (f : Nat → Thread → Thread) : (m.mapThr f).subs = m.subs := rfl
@[simp] theorem mapThr_subsPosted (m : Mach) (f : Nat → Thread → Thread) : (m.mapThr f).subsPosted = m.subsPosted := rfl
@[simp] theorem mapThr_msix (m : Mach) (f : Nat → Thread → Thread) : (m.mapThr f).msix = m.msix := rfl
@[simp] theorem mapThr_flr (m : Mach) (f : Nat → Thread → Thread) : (m.mapThr f).flr = m.flr := rfl
@[simp] theorem mapThr_power (m : Mach) (f : Nat → Thread → Thread) : (m.mapThr f).power = m.power := rfl
@[simp] theorem mapThr_fwImage (m : Mach) (f : Nat → Thread → Thread) : (m.mapThr f).fwImage = m.fwImage := rfl
@[simp] theorem mapThr_links (m : Mach) (f : Nat → Thread → Thread) : (m.mapThr f).links = m.links := rfl
@[simp] theorem mapThr_untold (m : Mach) (f : Nat → Thread → Thread) : (m.mapThr f).untold = m.untold := rfl
@[simp] theorem mapThr_queueOut (m : Mach) (f : Nat → Thread → Thread) : (m.mapThr f).queueOut = m.queueOut := rfl
@[simp] theorem mapThr_planOut (m : Mach) (f : Nat → Thread → Thread) : (m.mapThr f).planOut = m.planOut := rfl
@[simp] theorem mapThr_recs (m : Mach) (f : Nat → Thread → Thread) : (m.mapThr f).recs = m.recs := rfl
@[simp] theorem mapThr_replays (m : Mach) (f : Nat → Thread → Thread) : (m.mapThr f).replays = m.replays := rfl
@[simp] theorem mapThr_throttled (m : Mach) (f : Nat → Thread → Thread) : (m.mapThr f).throttled = m.throttled := rfl
@[simp] theorem mapThr_hostOut (m : Mach) (f : Nat → Thread → Thread) : (m.mapThr f).hostOut = m.hostOut := rfl
@[simp] theorem mapThr_turns (m : Mach) (f : Nat → Thread → Thread) : (m.mapThr f).turns = m.turns := rfl
@[simp] theorem mapThr_pickN (m : Mach) (f : Nat → Thread → Thread) : (m.mapThr f).pickN = m.pickN := rfl
@[simp] theorem mapThr_freeN (m : Mach) (f : Nat → Thread → Thread) : (m.mapThr f).freeN = m.freeN := rfl
@[simp] theorem mapThr_created (m : Mach) (f : Nat → Thread → Thread) : (m.mapThr f).created = m.created := rfl

/-! ### onRun -/

@[simp] theorem onRun_clock (m : Mach) (us : List Nat) (f : Nat → Thread → Thread) : (m.onRun us f).clock = m.clock := rfl
@[simp] theorem onRun_dram (m : Mach) (us : List Nat) (f : Nat → Thread → Thread) : (m.onRun us f).dram = m.dram := rfl
@[simp] theorem onRun_l2 (m : Mach) (us : List Nat) (f : Nat → Thread → Thread) : (m.onRun us f).l2 = m.l2 := rfl
@[simp] theorem onRun_owner (m : Mach) (us : List Nat) (f : Nat → Thread → Thread) : (m.onRun us f).owner = m.owner := rfl
@[simp] theorem onRun_csm (m : Mach) (us : List Nat) (f : Nat → Thread → Thread) : (m.onRun us f).csm = m.csm := rfl
@[simp] theorem onRun_host (m : Mach) (us : List Nat) (f : Nat → Thread → Thread) : (m.onRun us f).host = m.host := rfl
@[simp] theorem onRun_remote (m : Mach) (us : List Nat) (f : Nat → Thread → Thread) : (m.onRun us f).remote = m.remote := rfl
@[simp] theorem onRun_remoteAcc (m : Mach) (us : List Nat) (f : Nat → Thread → Thread) : (m.onRun us f).remoteAcc = m.remoteAcc := rfl
@[simp] theorem onRun_lost (m : Mach) (us : List Nat) (f : Nat → Thread → Thread) : (m.onRun us f).lost = m.lost := rfl
@[simp] theorem onRun_whole (m : Mach) (us : List Nat) (f : Nat → Thread → Thread) : (m.onRun us f).whole = m.whole := rfl
@[simp] theorem onRun_bad (m : Mach) (us : List Nat) (f : Nat → Thread → Thread) : (m.onRun us f).bad = m.bad := rfl
@[simp] theorem onRun_ctxs (m : Mach) (us : List Nat) (f : Nat → Thread → Thread) : (m.onRun us f).ctxs = m.ctxs := rfl
@[simp] theorem onRun_regions (m : Mach) (us : List Nat) (f : Nat → Thread → Thread) : (m.onRun us f).regions = m.regions := rfl
@[simp] theorem onRun_crews (m : Mach) (us : List Nat) (f : Nat → Thread → Thread) : (m.onRun us f).crews = m.crews := rfl
@[simp] theorem onRun_gangs (m : Mach) (us : List Nat) (f : Nat → Thread → Thread) : (m.onRun us f).gangs = m.gangs := rfl
@[simp] theorem onRun_threads (m : Mach) (us : List Nat) (f : Nat → Thread → Thread) : (m.onRun us f).threads = m.threads.mapV (fun u t => if us.contains u then f u t else t) := rfl
@[simp] theorem onRun_spindles (m : Mach) (us : List Nat) (f : Nat → Thread → Thread) : (m.onRun us f).spindles = m.spindles := rfl
@[simp] theorem onRun_dies (m : Mach) (us : List Nat) (f : Nat → Thread → Thread) : (m.onRun us f).dies = m.dies := rfl
@[simp] theorem onRun_pools (m : Mach) (us : List Nat) (f : Nat → Thread → Thread) : (m.onRun us f).pools = m.pools := rfl
@[simp] theorem onRun_results (m : Mach) (us : List Nat) (f : Nat → Thread → Thread) : (m.onRun us f).results = m.results := rfl
@[simp] theorem onRun_reqs (m : Mach) (us : List Nat) (f : Nat → Thread → Thread) : (m.onRun us f).reqs = m.reqs := rfl
@[simp] theorem onRun_seq (m : Mach) (us : List Nat) (f : Nat → Thread → Thread) : (m.onRun us f).seq = m.seq := rfl
@[simp] theorem onRun_wordNo (m : Mach) (us : List Nat) (f : Nat → Thread → Thread) : (m.onRun us f).wordNo = m.wordNo := rfl
@[simp] theorem onRun_pushes (m : Mach) (us : List Nat) (f : Nat → Thread → Thread) : (m.onRun us f).pushes = m.pushes := rfl
@[simp] theorem onRun_copies (m : Mach) (us : List Nat) (f : Nat → Thread → Thread) : (m.onRun us f).copies = m.copies := rfl
@[simp] theorem onRun_jobs (m : Mach) (us : List Nat) (f : Nat → Thread → Thread) : (m.onRun us f).jobs = m.jobs := rfl
@[simp] theorem onRun_streams (m : Mach) (us : List Nat) (f : Nat → Thread → Thread) : (m.onRun us f).streams = m.streams := rfl
@[simp] theorem onRun_nextId (m : Mach) (us : List Nat) (f : Nat → Thread → Thread) : (m.onRun us f).nextId = m.nextId := rfl
@[simp] theorem onRun_tickets (m : Mach) (us : List Nat) (f : Nat → Thread → Thread) : (m.onRun us f).tickets = m.tickets := rfl
@[simp] theorem onRun_ticketN (m : Mach) (us : List Nat) (f : Nat → Thread → Thread) : (m.onRun us f).ticketN = m.ticketN := rfl
@[simp] theorem onRun_codePas (m : Mach) (us : List Nat) (f : Nat → Thread → Thread) : (m.onRun us f).codePas = m.codePas := rfl
@[simp] theorem onRun_tainted (m : Mach) (us : List Nat) (f : Nat → Thread → Thread) : (m.onRun us f).tainted = m.tainted := rfl
@[simp] theorem onRun_access (m : Mach) (us : List Nat) (f : Nat → Thread → Thread) : (m.onRun us f).access = m.access := rfl
@[simp] theorem onRun_gale (m : Mach) (us : List Nat) (f : Nat → Thread → Thread) : (m.onRun us f).gale = m.gale := rfl
@[simp] theorem onRun_loader (m : Mach) (us : List Nat) (f : Nat → Thread → Thread) : (m.onRun us f).loader = m.loader := rfl
@[simp] theorem onRun_mgmt (m : Mach) (us : List Nat) (f : Nat → Thread → Thread) : (m.onRun us f).mgmt = m.mgmt := rfl
@[simp] theorem onRun_faultQ (m : Mach) (us : List Nat) (f : Nat → Thread → Thread) : (m.onRun us f).faultQ = m.faultQ := rfl
@[simp] theorem onRun_faults (m : Mach) (us : List Nat) (f : Nat → Thread → Thread) : (m.onRun us f).faults = m.faults := rfl
@[simp] theorem onRun_faultN (m : Mach) (us : List Nat) (f : Nat → Thread → Thread) : (m.onRun us f).faultN = m.faultN := rfl
@[simp] theorem onRun_subs (m : Mach) (us : List Nat) (f : Nat → Thread → Thread) : (m.onRun us f).subs = m.subs := rfl
@[simp] theorem onRun_subsPosted (m : Mach) (us : List Nat) (f : Nat → Thread → Thread) : (m.onRun us f).subsPosted = m.subsPosted := rfl
@[simp] theorem onRun_msix (m : Mach) (us : List Nat) (f : Nat → Thread → Thread) : (m.onRun us f).msix = m.msix := rfl
@[simp] theorem onRun_flr (m : Mach) (us : List Nat) (f : Nat → Thread → Thread) : (m.onRun us f).flr = m.flr := rfl
@[simp] theorem onRun_power (m : Mach) (us : List Nat) (f : Nat → Thread → Thread) : (m.onRun us f).power = m.power := rfl
@[simp] theorem onRun_fwImage (m : Mach) (us : List Nat) (f : Nat → Thread → Thread) : (m.onRun us f).fwImage = m.fwImage := rfl
@[simp] theorem onRun_links (m : Mach) (us : List Nat) (f : Nat → Thread → Thread) : (m.onRun us f).links = m.links := rfl
@[simp] theorem onRun_untold (m : Mach) (us : List Nat) (f : Nat → Thread → Thread) : (m.onRun us f).untold = m.untold := rfl
@[simp] theorem onRun_queueOut (m : Mach) (us : List Nat) (f : Nat → Thread → Thread) : (m.onRun us f).queueOut = m.queueOut := rfl
@[simp] theorem onRun_planOut (m : Mach) (us : List Nat) (f : Nat → Thread → Thread) : (m.onRun us f).planOut = m.planOut := rfl
@[simp] theorem onRun_recs (m : Mach) (us : List Nat) (f : Nat → Thread → Thread) : (m.onRun us f).recs = m.recs := rfl
@[simp] theorem onRun_replays (m : Mach) (us : List Nat) (f : Nat → Thread → Thread) : (m.onRun us f).replays = m.replays := rfl
@[simp] theorem onRun_throttled (m : Mach) (us : List Nat) (f : Nat → Thread → Thread) : (m.onRun us f).throttled = m.throttled := rfl
@[simp] theorem onRun_hostOut (m : Mach) (us : List Nat) (f : Nat → Thread → Thread) : (m.onRun us f).hostOut = m.hostOut := rfl
@[simp] theorem onRun_turns (m : Mach) (us : List Nat) (f : Nat → Thread → Thread) : (m.onRun us f).turns = m.turns := rfl
@[simp] theorem onRun_pickN (m : Mach) (us : List Nat) (f : Nat → Thread → Thread) : (m.onRun us f).pickN = m.pickN := rfl
@[simp] theorem onRun_freeN (m : Mach) (us : List Nat) (f : Nat → Thread → Thread) : (m.onRun us f).freeN = m.freeN := rfl
@[simp] theorem onRun_created (m : Mach) (us : List Nat) (f : Nat → Thread → Thread) : (m.onRun us f).created = m.created := rfl

/-! ### setThr -/

@[simp] theorem setThr_clock (m : Mach) (u : Nat) (t : Thread) : (m.setThr u t).clock = m.clock := rfl
@[simp] theorem setThr_dram (m : Mach) (u : Nat) (t : Thread) : (m.setThr u t).dram = m.dram := rfl
@[simp] theorem setThr_l2 (m : Mach) (u : Nat) (t : Thread) : (m.setThr u t).l2 = m.l2 := rfl
@[simp] theorem setThr_owner (m : Mach) (u : Nat) (t : Thread) : (m.setThr u t).owner = m.owner := rfl
@[simp] theorem setThr_csm (m : Mach) (u : Nat) (t : Thread) : (m.setThr u t).csm = m.csm := rfl
@[simp] theorem setThr_host (m : Mach) (u : Nat) (t : Thread) : (m.setThr u t).host = m.host := rfl
@[simp] theorem setThr_remote (m : Mach) (u : Nat) (t : Thread) : (m.setThr u t).remote = m.remote := rfl
@[simp] theorem setThr_remoteAcc (m : Mach) (u : Nat) (t : Thread) : (m.setThr u t).remoteAcc = m.remoteAcc := rfl
@[simp] theorem setThr_lost (m : Mach) (u : Nat) (t : Thread) : (m.setThr u t).lost = m.lost := rfl
@[simp] theorem setThr_whole (m : Mach) (u : Nat) (t : Thread) : (m.setThr u t).whole = m.whole := rfl
@[simp] theorem setThr_bad (m : Mach) (u : Nat) (t : Thread) : (m.setThr u t).bad = m.bad := rfl
@[simp] theorem setThr_ctxs (m : Mach) (u : Nat) (t : Thread) : (m.setThr u t).ctxs = m.ctxs := rfl
@[simp] theorem setThr_regions (m : Mach) (u : Nat) (t : Thread) : (m.setThr u t).regions = m.regions := rfl
@[simp] theorem setThr_crews (m : Mach) (u : Nat) (t : Thread) : (m.setThr u t).crews = m.crews := rfl
@[simp] theorem setThr_gangs (m : Mach) (u : Nat) (t : Thread) : (m.setThr u t).gangs = m.gangs := rfl
@[simp] theorem setThr_threads (m : Mach) (u : Nat) (t : Thread) : (m.setThr u t).threads = m.threads.put u t := rfl
@[simp] theorem setThr_spindles (m : Mach) (u : Nat) (t : Thread) : (m.setThr u t).spindles = m.spindles := rfl
@[simp] theorem setThr_dies (m : Mach) (u : Nat) (t : Thread) : (m.setThr u t).dies = m.dies := rfl
@[simp] theorem setThr_pools (m : Mach) (u : Nat) (t : Thread) : (m.setThr u t).pools = m.pools := rfl
@[simp] theorem setThr_results (m : Mach) (u : Nat) (t : Thread) : (m.setThr u t).results = m.results := rfl
@[simp] theorem setThr_reqs (m : Mach) (u : Nat) (t : Thread) : (m.setThr u t).reqs = m.reqs := rfl
@[simp] theorem setThr_seq (m : Mach) (u : Nat) (t : Thread) : (m.setThr u t).seq = m.seq := rfl
@[simp] theorem setThr_wordNo (m : Mach) (u : Nat) (t : Thread) : (m.setThr u t).wordNo = m.wordNo := rfl
@[simp] theorem setThr_pushes (m : Mach) (u : Nat) (t : Thread) : (m.setThr u t).pushes = m.pushes := rfl
@[simp] theorem setThr_copies (m : Mach) (u : Nat) (t : Thread) : (m.setThr u t).copies = m.copies := rfl
@[simp] theorem setThr_jobs (m : Mach) (u : Nat) (t : Thread) : (m.setThr u t).jobs = m.jobs := rfl
@[simp] theorem setThr_streams (m : Mach) (u : Nat) (t : Thread) : (m.setThr u t).streams = m.streams := rfl
@[simp] theorem setThr_nextId (m : Mach) (u : Nat) (t : Thread) : (m.setThr u t).nextId = m.nextId := rfl
@[simp] theorem setThr_tickets (m : Mach) (u : Nat) (t : Thread) : (m.setThr u t).tickets = m.tickets := rfl
@[simp] theorem setThr_ticketN (m : Mach) (u : Nat) (t : Thread) : (m.setThr u t).ticketN = m.ticketN := rfl
@[simp] theorem setThr_codePas (m : Mach) (u : Nat) (t : Thread) : (m.setThr u t).codePas = m.codePas := rfl
@[simp] theorem setThr_tainted (m : Mach) (u : Nat) (t : Thread) : (m.setThr u t).tainted = m.tainted := rfl
@[simp] theorem setThr_access (m : Mach) (u : Nat) (t : Thread) : (m.setThr u t).access = m.access := rfl
@[simp] theorem setThr_gale (m : Mach) (u : Nat) (t : Thread) : (m.setThr u t).gale = m.gale := rfl
@[simp] theorem setThr_loader (m : Mach) (u : Nat) (t : Thread) : (m.setThr u t).loader = m.loader := rfl
@[simp] theorem setThr_mgmt (m : Mach) (u : Nat) (t : Thread) : (m.setThr u t).mgmt = m.mgmt := rfl
@[simp] theorem setThr_faultQ (m : Mach) (u : Nat) (t : Thread) : (m.setThr u t).faultQ = m.faultQ := rfl
@[simp] theorem setThr_faults (m : Mach) (u : Nat) (t : Thread) : (m.setThr u t).faults = m.faults := rfl
@[simp] theorem setThr_faultN (m : Mach) (u : Nat) (t : Thread) : (m.setThr u t).faultN = m.faultN := rfl
@[simp] theorem setThr_subs (m : Mach) (u : Nat) (t : Thread) : (m.setThr u t).subs = m.subs := rfl
@[simp] theorem setThr_subsPosted (m : Mach) (u : Nat) (t : Thread) : (m.setThr u t).subsPosted = m.subsPosted := rfl
@[simp] theorem setThr_msix (m : Mach) (u : Nat) (t : Thread) : (m.setThr u t).msix = m.msix := rfl
@[simp] theorem setThr_flr (m : Mach) (u : Nat) (t : Thread) : (m.setThr u t).flr = m.flr := rfl
@[simp] theorem setThr_power (m : Mach) (u : Nat) (t : Thread) : (m.setThr u t).power = m.power := rfl
@[simp] theorem setThr_fwImage (m : Mach) (u : Nat) (t : Thread) : (m.setThr u t).fwImage = m.fwImage := rfl
@[simp] theorem setThr_links (m : Mach) (u : Nat) (t : Thread) : (m.setThr u t).links = m.links := rfl
@[simp] theorem setThr_untold (m : Mach) (u : Nat) (t : Thread) : (m.setThr u t).untold = m.untold := rfl
@[simp] theorem setThr_queueOut (m : Mach) (u : Nat) (t : Thread) : (m.setThr u t).queueOut = m.queueOut := rfl
@[simp] theorem setThr_planOut (m : Mach) (u : Nat) (t : Thread) : (m.setThr u t).planOut = m.planOut := rfl
@[simp] theorem setThr_recs (m : Mach) (u : Nat) (t : Thread) : (m.setThr u t).recs = m.recs := rfl
@[simp] theorem setThr_replays (m : Mach) (u : Nat) (t : Thread) : (m.setThr u t).replays = m.replays := rfl
@[simp] theorem setThr_throttled (m : Mach) (u : Nat) (t : Thread) : (m.setThr u t).throttled = m.throttled := rfl
@[simp] theorem setThr_hostOut (m : Mach) (u : Nat) (t : Thread) : (m.setThr u t).hostOut = m.hostOut := rfl
@[simp] theorem setThr_turns (m : Mach) (u : Nat) (t : Thread) : (m.setThr u t).turns = m.turns := rfl
@[simp] theorem setThr_pickN (m : Mach) (u : Nat) (t : Thread) : (m.setThr u t).pickN = m.pickN := rfl
@[simp] theorem setThr_freeN (m : Mach) (u : Nat) (t : Thread) : (m.setThr u t).freeN = m.freeN := rfl
@[simp] theorem setThr_created (m : Mach) (u : Nat) (t : Thread) : (m.setThr u t).created = m.created := rfl

/-! ### modThr -/

@[simp] theorem modThr_clock (m : Mach) (u : Nat) (f : Thread → Thread) : (m.modThr u f).clock = m.clock := rfl
@[simp] theorem modThr_dram (m : Mach) (u : Nat) (f : Thread → Thread) : (m.modThr u f).dram = m.dram := rfl
@[simp] theorem modThr_l2 (m : Mach) (u : Nat) (f : Thread → Thread) : (m.modThr u f).l2 = m.l2 := rfl
@[simp] theorem modThr_owner (m : Mach) (u : Nat) (f : Thread → Thread) : (m.modThr u f).owner = m.owner := rfl
@[simp] theorem modThr_csm (m : Mach) (u : Nat) (f : Thread → Thread) : (m.modThr u f).csm = m.csm := rfl
@[simp] theorem modThr_host (m : Mach) (u : Nat) (f : Thread → Thread) : (m.modThr u f).host = m.host := rfl
@[simp] theorem modThr_remote (m : Mach) (u : Nat) (f : Thread → Thread) : (m.modThr u f).remote = m.remote := rfl
@[simp] theorem modThr_remoteAcc (m : Mach) (u : Nat) (f : Thread → Thread) : (m.modThr u f).remoteAcc = m.remoteAcc := rfl
@[simp] theorem modThr_lost (m : Mach) (u : Nat) (f : Thread → Thread) : (m.modThr u f).lost = m.lost := rfl
@[simp] theorem modThr_whole (m : Mach) (u : Nat) (f : Thread → Thread) : (m.modThr u f).whole = m.whole := rfl
@[simp] theorem modThr_bad (m : Mach) (u : Nat) (f : Thread → Thread) : (m.modThr u f).bad = m.bad := rfl
@[simp] theorem modThr_ctxs (m : Mach) (u : Nat) (f : Thread → Thread) : (m.modThr u f).ctxs = m.ctxs := rfl
@[simp] theorem modThr_regions (m : Mach) (u : Nat) (f : Thread → Thread) : (m.modThr u f).regions = m.regions := rfl
@[simp] theorem modThr_crews (m : Mach) (u : Nat) (f : Thread → Thread) : (m.modThr u f).crews = m.crews := rfl
@[simp] theorem modThr_gangs (m : Mach) (u : Nat) (f : Thread → Thread) : (m.modThr u f).gangs = m.gangs := rfl
@[simp] theorem modThr_threads (m : Mach) (u : Nat) (f : Thread → Thread) : (m.modThr u f).threads = m.threads.mod u f := rfl
@[simp] theorem modThr_spindles (m : Mach) (u : Nat) (f : Thread → Thread) : (m.modThr u f).spindles = m.spindles := rfl
@[simp] theorem modThr_dies (m : Mach) (u : Nat) (f : Thread → Thread) : (m.modThr u f).dies = m.dies := rfl
@[simp] theorem modThr_pools (m : Mach) (u : Nat) (f : Thread → Thread) : (m.modThr u f).pools = m.pools := rfl
@[simp] theorem modThr_results (m : Mach) (u : Nat) (f : Thread → Thread) : (m.modThr u f).results = m.results := rfl
@[simp] theorem modThr_reqs (m : Mach) (u : Nat) (f : Thread → Thread) : (m.modThr u f).reqs = m.reqs := rfl
@[simp] theorem modThr_seq (m : Mach) (u : Nat) (f : Thread → Thread) : (m.modThr u f).seq = m.seq := rfl
@[simp] theorem modThr_wordNo (m : Mach) (u : Nat) (f : Thread → Thread) : (m.modThr u f).wordNo = m.wordNo := rfl
@[simp] theorem modThr_pushes (m : Mach) (u : Nat) (f : Thread → Thread) : (m.modThr u f).pushes = m.pushes := rfl
@[simp] theorem modThr_copies (m : Mach) (u : Nat) (f : Thread → Thread) : (m.modThr u f).copies = m.copies := rfl
@[simp] theorem modThr_jobs (m : Mach) (u : Nat) (f : Thread → Thread) : (m.modThr u f).jobs = m.jobs := rfl
@[simp] theorem modThr_streams (m : Mach) (u : Nat) (f : Thread → Thread) : (m.modThr u f).streams = m.streams := rfl
@[simp] theorem modThr_nextId (m : Mach) (u : Nat) (f : Thread → Thread) : (m.modThr u f).nextId = m.nextId := rfl
@[simp] theorem modThr_tickets (m : Mach) (u : Nat) (f : Thread → Thread) : (m.modThr u f).tickets = m.tickets := rfl
@[simp] theorem modThr_ticketN (m : Mach) (u : Nat) (f : Thread → Thread) : (m.modThr u f).ticketN = m.ticketN := rfl
@[simp] theorem modThr_codePas (m : Mach) (u : Nat) (f : Thread → Thread) : (m.modThr u f).codePas = m.codePas := rfl
@[simp] theorem modThr_tainted (m : Mach) (u : Nat) (f : Thread → Thread) : (m.modThr u f).tainted = m.tainted := rfl
@[simp] theorem modThr_access (m : Mach) (u : Nat) (f : Thread → Thread) : (m.modThr u f).access = m.access := rfl
@[simp] theorem modThr_gale (m : Mach) (u : Nat) (f : Thread → Thread) : (m.modThr u f).gale = m.gale := rfl
@[simp] theorem modThr_loader (m : Mach) (u : Nat) (f : Thread → Thread) : (m.modThr u f).loader = m.loader := rfl
@[simp] theorem modThr_mgmt (m : Mach) (u : Nat) (f : Thread → Thread) : (m.modThr u f).mgmt = m.mgmt := rfl
@[simp] theorem modThr_faultQ (m : Mach) (u : Nat) (f : Thread → Thread) : (m.modThr u f).faultQ = m.faultQ := rfl
@[simp] theorem modThr_faults (m : Mach) (u : Nat) (f : Thread → Thread) : (m.modThr u f).faults = m.faults := rfl
@[simp] theorem modThr_faultN (m : Mach) (u : Nat) (f : Thread → Thread) : (m.modThr u f).faultN = m.faultN := rfl
@[simp] theorem modThr_subs (m : Mach) (u : Nat) (f : Thread → Thread) : (m.modThr u f).subs = m.subs := rfl
@[simp] theorem modThr_subsPosted (m : Mach) (u : Nat) (f : Thread → Thread) : (m.modThr u f).subsPosted = m.subsPosted := rfl
@[simp] theorem modThr_msix (m : Mach) (u : Nat) (f : Thread → Thread) : (m.modThr u f).msix = m.msix := rfl
@[simp] theorem modThr_flr (m : Mach) (u : Nat) (f : Thread → Thread) : (m.modThr u f).flr = m.flr := rfl
@[simp] theorem modThr_power (m : Mach) (u : Nat) (f : Thread → Thread) : (m.modThr u f).power = m.power := rfl
@[simp] theorem modThr_fwImage (m : Mach) (u : Nat) (f : Thread → Thread) : (m.modThr u f).fwImage = m.fwImage := rfl
@[simp] theorem modThr_links (m : Mach) (u : Nat) (f : Thread → Thread) : (m.modThr u f).links = m.links := rfl
@[simp] theorem modThr_untold (m : Mach) (u : Nat) (f : Thread → Thread) : (m.modThr u f).untold = m.untold := rfl
@[simp] theorem modThr_queueOut (m : Mach) (u : Nat) (f : Thread → Thread) : (m.modThr u f).queueOut = m.queueOut := rfl
@[simp] theorem modThr_planOut (m : Mach) (u : Nat) (f : Thread → Thread) : (m.modThr u f).planOut = m.planOut := rfl
@[simp] theorem modThr_recs (m : Mach) (u : Nat) (f : Thread → Thread) : (m.modThr u f).recs = m.recs := rfl
@[simp] theorem modThr_replays (m : Mach) (u : Nat) (f : Thread → Thread) : (m.modThr u f).replays = m.replays := rfl
@[simp] theorem modThr_throttled (m : Mach) (u : Nat) (f : Thread → Thread) : (m.modThr u f).throttled = m.throttled := rfl
@[simp] theorem modThr_hostOut (m : Mach) (u : Nat) (f : Thread → Thread) : (m.modThr u f).hostOut = m.hostOut := rfl
@[simp] theorem modThr_turns (m : Mach) (u : Nat) (f : Thread → Thread) : (m.modThr u f).turns = m.turns := rfl
@[simp] theorem modThr_pickN (m : Mach) (u : Nat) (f : Thread → Thread) : (m.modThr u f).pickN = m.pickN := rfl
@[simp] theorem modThr_freeN (m : Mach) (u : Nat) (f : Thread → Thread) : (m.modThr u f).freeN = m.freeN := rfl
@[simp] theorem modThr_created (m : Mach) (u : Nat) (f : Thread → Thread) : (m.modThr u f).created = m.created := rfl

/-! ### setGang -/

@[simp] theorem setGang_clock (m : Mach) (k : Nat) (x : Gang) : (m.setGang k x).clock = m.clock := rfl
@[simp] theorem setGang_dram (m : Mach) (k : Nat) (x : Gang) : (m.setGang k x).dram = m.dram := rfl
@[simp] theorem setGang_l2 (m : Mach) (k : Nat) (x : Gang) : (m.setGang k x).l2 = m.l2 := rfl
@[simp] theorem setGang_owner (m : Mach) (k : Nat) (x : Gang) : (m.setGang k x).owner = m.owner := rfl
@[simp] theorem setGang_csm (m : Mach) (k : Nat) (x : Gang) : (m.setGang k x).csm = m.csm := rfl
@[simp] theorem setGang_host (m : Mach) (k : Nat) (x : Gang) : (m.setGang k x).host = m.host := rfl
@[simp] theorem setGang_remote (m : Mach) (k : Nat) (x : Gang) : (m.setGang k x).remote = m.remote := rfl
@[simp] theorem setGang_remoteAcc (m : Mach) (k : Nat) (x : Gang) : (m.setGang k x).remoteAcc = m.remoteAcc := rfl
@[simp] theorem setGang_lost (m : Mach) (k : Nat) (x : Gang) : (m.setGang k x).lost = m.lost := rfl
@[simp] theorem setGang_whole (m : Mach) (k : Nat) (x : Gang) : (m.setGang k x).whole = m.whole := rfl
@[simp] theorem setGang_bad (m : Mach) (k : Nat) (x : Gang) : (m.setGang k x).bad = m.bad := rfl
@[simp] theorem setGang_ctxs (m : Mach) (k : Nat) (x : Gang) : (m.setGang k x).ctxs = m.ctxs := rfl
@[simp] theorem setGang_regions (m : Mach) (k : Nat) (x : Gang) : (m.setGang k x).regions = m.regions := rfl
@[simp] theorem setGang_crews (m : Mach) (k : Nat) (x : Gang) : (m.setGang k x).crews = m.crews := rfl
@[simp] theorem setGang_gangs (m : Mach) (k : Nat) (x : Gang) : (m.setGang k x).gangs = m.gangs.put k x := rfl
@[simp] theorem setGang_threads (m : Mach) (k : Nat) (x : Gang) : (m.setGang k x).threads = m.threads := rfl
@[simp] theorem setGang_spindles (m : Mach) (k : Nat) (x : Gang) : (m.setGang k x).spindles = m.spindles := rfl
@[simp] theorem setGang_dies (m : Mach) (k : Nat) (x : Gang) : (m.setGang k x).dies = m.dies := rfl
@[simp] theorem setGang_pools (m : Mach) (k : Nat) (x : Gang) : (m.setGang k x).pools = m.pools := rfl
@[simp] theorem setGang_results (m : Mach) (k : Nat) (x : Gang) : (m.setGang k x).results = m.results := rfl
@[simp] theorem setGang_reqs (m : Mach) (k : Nat) (x : Gang) : (m.setGang k x).reqs = m.reqs := rfl
@[simp] theorem setGang_seq (m : Mach) (k : Nat) (x : Gang) : (m.setGang k x).seq = m.seq := rfl
@[simp] theorem setGang_wordNo (m : Mach) (k : Nat) (x : Gang) : (m.setGang k x).wordNo = m.wordNo := rfl
@[simp] theorem setGang_pushes (m : Mach) (k : Nat) (x : Gang) : (m.setGang k x).pushes = m.pushes := rfl
@[simp] theorem setGang_copies (m : Mach) (k : Nat) (x : Gang) : (m.setGang k x).copies = m.copies := rfl
@[simp] theorem setGang_jobs (m : Mach) (k : Nat) (x : Gang) : (m.setGang k x).jobs = m.jobs := rfl
@[simp] theorem setGang_streams (m : Mach) (k : Nat) (x : Gang) : (m.setGang k x).streams = m.streams := rfl
@[simp] theorem setGang_nextId (m : Mach) (k : Nat) (x : Gang) : (m.setGang k x).nextId = m.nextId := rfl
@[simp] theorem setGang_tickets (m : Mach) (k : Nat) (x : Gang) : (m.setGang k x).tickets = m.tickets := rfl
@[simp] theorem setGang_ticketN (m : Mach) (k : Nat) (x : Gang) : (m.setGang k x).ticketN = m.ticketN := rfl
@[simp] theorem setGang_codePas (m : Mach) (k : Nat) (x : Gang) : (m.setGang k x).codePas = m.codePas := rfl
@[simp] theorem setGang_tainted (m : Mach) (k : Nat) (x : Gang) : (m.setGang k x).tainted = m.tainted := rfl
@[simp] theorem setGang_access (m : Mach) (k : Nat) (x : Gang) : (m.setGang k x).access = m.access := rfl
@[simp] theorem setGang_gale (m : Mach) (k : Nat) (x : Gang) : (m.setGang k x).gale = m.gale := rfl
@[simp] theorem setGang_loader (m : Mach) (k : Nat) (x : Gang) : (m.setGang k x).loader = m.loader := rfl
@[simp] theorem setGang_mgmt (m : Mach) (k : Nat) (x : Gang) : (m.setGang k x).mgmt = m.mgmt := rfl
@[simp] theorem setGang_faultQ (m : Mach) (k : Nat) (x : Gang) : (m.setGang k x).faultQ = m.faultQ := rfl
@[simp] theorem setGang_faults (m : Mach) (k : Nat) (x : Gang) : (m.setGang k x).faults = m.faults := rfl
@[simp] theorem setGang_faultN (m : Mach) (k : Nat) (x : Gang) : (m.setGang k x).faultN = m.faultN := rfl
@[simp] theorem setGang_subs (m : Mach) (k : Nat) (x : Gang) : (m.setGang k x).subs = m.subs := rfl
@[simp] theorem setGang_subsPosted (m : Mach) (k : Nat) (x : Gang) : (m.setGang k x).subsPosted = m.subsPosted := rfl
@[simp] theorem setGang_msix (m : Mach) (k : Nat) (x : Gang) : (m.setGang k x).msix = m.msix := rfl
@[simp] theorem setGang_flr (m : Mach) (k : Nat) (x : Gang) : (m.setGang k x).flr = m.flr := rfl
@[simp] theorem setGang_power (m : Mach) (k : Nat) (x : Gang) : (m.setGang k x).power = m.power := rfl
@[simp] theorem setGang_fwImage (m : Mach) (k : Nat) (x : Gang) : (m.setGang k x).fwImage = m.fwImage := rfl
@[simp] theorem setGang_links (m : Mach) (k : Nat) (x : Gang) : (m.setGang k x).links = m.links := rfl
@[simp] theorem setGang_untold (m : Mach) (k : Nat) (x : Gang) : (m.setGang k x).untold = m.untold := rfl
@[simp] theorem setGang_queueOut (m : Mach) (k : Nat) (x : Gang) : (m.setGang k x).queueOut = m.queueOut := rfl
@[simp] theorem setGang_planOut (m : Mach) (k : Nat) (x : Gang) : (m.setGang k x).planOut = m.planOut := rfl
@[simp] theorem setGang_recs (m : Mach) (k : Nat) (x : Gang) : (m.setGang k x).recs = m.recs := rfl
@[simp] theorem setGang_replays (m : Mach) (k : Nat) (x : Gang) : (m.setGang k x).replays = m.replays := rfl
@[simp] theorem setGang_throttled (m : Mach) (k : Nat) (x : Gang) : (m.setGang k x).throttled = m.throttled := rfl
@[simp] theorem setGang_hostOut (m : Mach) (k : Nat) (x : Gang) : (m.setGang k x).hostOut = m.hostOut := rfl
@[simp] theorem setGang_turns (m : Mach) (k : Nat) (x : Gang) : (m.setGang k x).turns = m.turns := rfl
@[simp] theorem setGang_pickN (m : Mach) (k : Nat) (x : Gang) : (m.setGang k x).pickN = m.pickN := rfl
@[simp] theorem setGang_freeN (m : Mach) (k : Nat) (x : Gang) : (m.setGang k x).freeN = m.freeN := rfl
@[simp] theorem setGang_created (m : Mach) (k : Nat) (x : Gang) : (m.setGang k x).created = m.created := rfl

/-! ### modGang -/

@[simp] theorem modGang_clock (m : Mach) (k : Nat) (f : Gang → Gang) : (m.modGang k f).clock = m.clock := rfl
@[simp] theorem modGang_dram (m : Mach) (k : Nat) (f : Gang → Gang) : (m.modGang k f).dram = m.dram := rfl
@[simp] theorem modGang_l2 (m : Mach) (k : Nat) (f : Gang → Gang) : (m.modGang k f).l2 = m.l2 := rfl
@[simp] theorem modGang_owner (m : Mach) (k : Nat) (f : Gang → Gang) : (m.modGang k f).owner = m.owner := rfl
@[simp] theorem modGang_csm (m : Mach) (k : Nat) (f : Gang → Gang) : (m.modGang k f).csm = m.csm := rfl
@[simp] theorem modGang_host (m : Mach) (k : Nat) (f : Gang → Gang) : (m.modGang k f).host = m.host := rfl
@[simp] theorem modGang_remote (m : Mach) (k : Nat) (f : Gang → Gang) : (m.modGang k f).remote = m.remote := rfl
@[simp] theorem modGang_remoteAcc (m : Mach) (k : Nat) (f : Gang → Gang) : (m.modGang k f).remoteAcc = m.remoteAcc := rfl
@[simp] theorem modGang_lost (m : Mach) (k : Nat) (f : Gang → Gang) : (m.modGang k f).lost = m.lost := rfl
@[simp] theorem modGang_whole (m : Mach) (k : Nat) (f : Gang → Gang) : (m.modGang k f).whole = m.whole := rfl
@[simp] theorem modGang_bad (m : Mach) (k : Nat) (f : Gang → Gang) : (m.modGang k f).bad = m.bad := rfl
@[simp] theorem modGang_ctxs (m : Mach) (k : Nat) (f : Gang → Gang) : (m.modGang k f).ctxs = m.ctxs := rfl
@[simp] theorem modGang_regions (m : Mach) (k : Nat) (f : Gang → Gang) : (m.modGang k f).regions = m.regions := rfl
@[simp] theorem modGang_crews (m : Mach) (k : Nat) (f : Gang → Gang) : (m.modGang k f).crews = m.crews := rfl
@[simp] theorem modGang_gangs (m : Mach) (k : Nat) (f : Gang → Gang) : (m.modGang k f).gangs = m.gangs.mod k f := rfl
@[simp] theorem modGang_threads (m : Mach) (k : Nat) (f : Gang → Gang) : (m.modGang k f).threads = m.threads := rfl
@[simp] theorem modGang_spindles (m : Mach) (k : Nat) (f : Gang → Gang) : (m.modGang k f).spindles = m.spindles := rfl
@[simp] theorem modGang_dies (m : Mach) (k : Nat) (f : Gang → Gang) : (m.modGang k f).dies = m.dies := rfl
@[simp] theorem modGang_pools (m : Mach) (k : Nat) (f : Gang → Gang) : (m.modGang k f).pools = m.pools := rfl
@[simp] theorem modGang_results (m : Mach) (k : Nat) (f : Gang → Gang) : (m.modGang k f).results = m.results := rfl
@[simp] theorem modGang_reqs (m : Mach) (k : Nat) (f : Gang → Gang) : (m.modGang k f).reqs = m.reqs := rfl
@[simp] theorem modGang_seq (m : Mach) (k : Nat) (f : Gang → Gang) : (m.modGang k f).seq = m.seq := rfl
@[simp] theorem modGang_wordNo (m : Mach) (k : Nat) (f : Gang → Gang) : (m.modGang k f).wordNo = m.wordNo := rfl
@[simp] theorem modGang_pushes (m : Mach) (k : Nat) (f : Gang → Gang) : (m.modGang k f).pushes = m.pushes := rfl
@[simp] theorem modGang_copies (m : Mach) (k : Nat) (f : Gang → Gang) : (m.modGang k f).copies = m.copies := rfl
@[simp] theorem modGang_jobs (m : Mach) (k : Nat) (f : Gang → Gang) : (m.modGang k f).jobs = m.jobs := rfl
@[simp] theorem modGang_streams (m : Mach) (k : Nat) (f : Gang → Gang) : (m.modGang k f).streams = m.streams := rfl
@[simp] theorem modGang_nextId (m : Mach) (k : Nat) (f : Gang → Gang) : (m.modGang k f).nextId = m.nextId := rfl
@[simp] theorem modGang_tickets (m : Mach) (k : Nat) (f : Gang → Gang) : (m.modGang k f).tickets = m.tickets := rfl
@[simp] theorem modGang_ticketN (m : Mach) (k : Nat) (f : Gang → Gang) : (m.modGang k f).ticketN = m.ticketN := rfl
@[simp] theorem modGang_codePas (m : Mach) (k : Nat) (f : Gang → Gang) : (m.modGang k f).codePas = m.codePas := rfl
@[simp] theorem modGang_tainted (m : Mach) (k : Nat) (f : Gang → Gang) : (m.modGang k f).tainted = m.tainted := rfl
@[simp] theorem modGang_access (m : Mach) (k : Nat) (f : Gang → Gang) : (m.modGang k f).access = m.access := rfl
@[simp] theorem modGang_gale (m : Mach) (k : Nat) (f : Gang → Gang) : (m.modGang k f).gale = m.gale := rfl
@[simp] theorem modGang_loader (m : Mach) (k : Nat) (f : Gang → Gang) : (m.modGang k f).loader = m.loader := rfl
@[simp] theorem modGang_mgmt (m : Mach) (k : Nat) (f : Gang → Gang) : (m.modGang k f).mgmt = m.mgmt := rfl
@[simp] theorem modGang_faultQ (m : Mach) (k : Nat) (f : Gang → Gang) : (m.modGang k f).faultQ = m.faultQ := rfl
@[simp] theorem modGang_faults (m : Mach) (k : Nat) (f : Gang → Gang) : (m.modGang k f).faults = m.faults := rfl
@[simp] theorem modGang_faultN (m : Mach) (k : Nat) (f : Gang → Gang) : (m.modGang k f).faultN = m.faultN := rfl
@[simp] theorem modGang_subs (m : Mach) (k : Nat) (f : Gang → Gang) : (m.modGang k f).subs = m.subs := rfl
@[simp] theorem modGang_subsPosted (m : Mach) (k : Nat) (f : Gang → Gang) : (m.modGang k f).subsPosted = m.subsPosted := rfl
@[simp] theorem modGang_msix (m : Mach) (k : Nat) (f : Gang → Gang) : (m.modGang k f).msix = m.msix := rfl
@[simp] theorem modGang_flr (m : Mach) (k : Nat) (f : Gang → Gang) : (m.modGang k f).flr = m.flr := rfl
@[simp] theorem modGang_power (m : Mach) (k : Nat) (f : Gang → Gang) : (m.modGang k f).power = m.power := rfl
@[simp] theorem modGang_fwImage (m : Mach) (k : Nat) (f : Gang → Gang) : (m.modGang k f).fwImage = m.fwImage := rfl
@[simp] theorem modGang_links (m : Mach) (k : Nat) (f : Gang → Gang) : (m.modGang k f).links = m.links := rfl
@[simp] theorem modGang_untold (m : Mach) (k : Nat) (f : Gang → Gang) : (m.modGang k f).untold = m.untold := rfl
@[simp] theorem modGang_queueOut (m : Mach) (k : Nat) (f : Gang → Gang) : (m.modGang k f).queueOut = m.queueOut := rfl
@[simp] theorem modGang_planOut (m : Mach) (k : Nat) (f : Gang → Gang) : (m.modGang k f).planOut = m.planOut := rfl
@[simp] theorem modGang_recs (m : Mach) (k : Nat) (f : Gang → Gang) : (m.modGang k f).recs = m.recs := rfl
@[simp] theorem modGang_replays (m : Mach) (k : Nat) (f : Gang → Gang) : (m.modGang k f).replays = m.replays := rfl
@[simp] theorem modGang_throttled (m : Mach) (k : Nat) (f : Gang → Gang) : (m.modGang k f).throttled = m.throttled := rfl
@[simp] theorem modGang_hostOut (m : Mach) (k : Nat) (f : Gang → Gang) : (m.modGang k f).hostOut = m.hostOut := rfl
@[simp] theorem modGang_turns (m : Mach) (k : Nat) (f : Gang → Gang) : (m.modGang k f).turns = m.turns := rfl
@[simp] theorem modGang_pickN (m : Mach) (k : Nat) (f : Gang → Gang) : (m.modGang k f).pickN = m.pickN := rfl
@[simp] theorem modGang_freeN (m : Mach) (k : Nat) (f : Gang → Gang) : (m.modGang k f).freeN = m.freeN := rfl
@[simp] theorem modGang_created (m : Mach) (k : Nat) (f : Gang → Gang) : (m.modGang k f).created = m.created := rfl

/-! ### setCrew -/

@[simp] theorem setCrew_clock (m : Mach) (k : Nat) (x : Crew) : (m.setCrew k x).clock = m.clock := rfl
@[simp] theorem setCrew_dram (m : Mach) (k : Nat) (x : Crew) : (m.setCrew k x).dram = m.dram := rfl
@[simp] theorem setCrew_l2 (m : Mach) (k : Nat) (x : Crew) : (m.setCrew k x).l2 = m.l2 := rfl
@[simp] theorem setCrew_owner (m : Mach) (k : Nat) (x : Crew) : (m.setCrew k x).owner = m.owner := rfl
@[simp] theorem setCrew_csm (m : Mach) (k : Nat) (x : Crew) : (m.setCrew k x).csm = m.csm := rfl
@[simp] theorem setCrew_host (m : Mach) (k : Nat) (x : Crew) : (m.setCrew k x).host = m.host := rfl
@[simp] theorem setCrew_remote (m : Mach) (k : Nat) (x : Crew) : (m.setCrew k x).remote = m.remote := rfl
@[simp] theorem setCrew_remoteAcc (m : Mach) (k : Nat) (x : Crew) : (m.setCrew k x).remoteAcc = m.remoteAcc := rfl
@[simp] theorem setCrew_lost (m : Mach) (k : Nat) (x : Crew) : (m.setCrew k x).lost = m.lost := rfl
@[simp] theorem setCrew_whole (m : Mach) (k : Nat) (x : Crew) : (m.setCrew k x).whole = m.whole := rfl
@[simp] theorem setCrew_bad (m : Mach) (k : Nat) (x : Crew) : (m.setCrew k x).bad = m.bad := rfl
@[simp] theorem setCrew_ctxs (m : Mach) (k : Nat) (x : Crew) : (m.setCrew k x).ctxs = m.ctxs := rfl
@[simp] theorem setCrew_regions (m : Mach) (k : Nat) (x : Crew) : (m.setCrew k x).regions = m.regions := rfl
@[simp] theorem setCrew_crews (m : Mach) (k : Nat) (x : Crew) : (m.setCrew k x).crews = m.crews.put k x := rfl
@[simp] theorem setCrew_gangs (m : Mach) (k : Nat) (x : Crew) : (m.setCrew k x).gangs = m.gangs := rfl
@[simp] theorem setCrew_threads (m : Mach) (k : Nat) (x : Crew) : (m.setCrew k x).threads = m.threads := rfl
@[simp] theorem setCrew_spindles (m : Mach) (k : Nat) (x : Crew) : (m.setCrew k x).spindles = m.spindles := rfl
@[simp] theorem setCrew_dies (m : Mach) (k : Nat) (x : Crew) : (m.setCrew k x).dies = m.dies := rfl
@[simp] theorem setCrew_pools (m : Mach) (k : Nat) (x : Crew) : (m.setCrew k x).pools = m.pools := rfl
@[simp] theorem setCrew_results (m : Mach) (k : Nat) (x : Crew) : (m.setCrew k x).results = m.results := rfl
@[simp] theorem setCrew_reqs (m : Mach) (k : Nat) (x : Crew) : (m.setCrew k x).reqs = m.reqs := rfl
@[simp] theorem setCrew_seq (m : Mach) (k : Nat) (x : Crew) : (m.setCrew k x).seq = m.seq := rfl
@[simp] theorem setCrew_wordNo (m : Mach) (k : Nat) (x : Crew) : (m.setCrew k x).wordNo = m.wordNo := rfl
@[simp] theorem setCrew_pushes (m : Mach) (k : Nat) (x : Crew) : (m.setCrew k x).pushes = m.pushes := rfl
@[simp] theorem setCrew_copies (m : Mach) (k : Nat) (x : Crew) : (m.setCrew k x).copies = m.copies := rfl
@[simp] theorem setCrew_jobs (m : Mach) (k : Nat) (x : Crew) : (m.setCrew k x).jobs = m.jobs := rfl
@[simp] theorem setCrew_streams (m : Mach) (k : Nat) (x : Crew) : (m.setCrew k x).streams = m.streams := rfl
@[simp] theorem setCrew_nextId (m : Mach) (k : Nat) (x : Crew) : (m.setCrew k x).nextId = m.nextId := rfl
@[simp] theorem setCrew_tickets (m : Mach) (k : Nat) (x : Crew) : (m.setCrew k x).tickets = m.tickets := rfl
@[simp] theorem setCrew_ticketN (m : Mach) (k : Nat) (x : Crew) : (m.setCrew k x).ticketN = m.ticketN := rfl
@[simp] theorem setCrew_codePas (m : Mach) (k : Nat) (x : Crew) : (m.setCrew k x).codePas = m.codePas := rfl
@[simp] theorem setCrew_tainted (m : Mach) (k : Nat) (x : Crew) : (m.setCrew k x).tainted = m.tainted := rfl
@[simp] theorem setCrew_access (m : Mach) (k : Nat) (x : Crew) : (m.setCrew k x).access = m.access := rfl
@[simp] theorem setCrew_gale (m : Mach) (k : Nat) (x : Crew) : (m.setCrew k x).gale = m.gale := rfl
@[simp] theorem setCrew_loader (m : Mach) (k : Nat) (x : Crew) : (m.setCrew k x).loader = m.loader := rfl
@[simp] theorem setCrew_mgmt (m : Mach) (k : Nat) (x : Crew) : (m.setCrew k x).mgmt = m.mgmt := rfl
@[simp] theorem setCrew_faultQ (m : Mach) (k : Nat) (x : Crew) : (m.setCrew k x).faultQ = m.faultQ := rfl
@[simp] theorem setCrew_faults (m : Mach) (k : Nat) (x : Crew) : (m.setCrew k x).faults = m.faults := rfl
@[simp] theorem setCrew_faultN (m : Mach) (k : Nat) (x : Crew) : (m.setCrew k x).faultN = m.faultN := rfl
@[simp] theorem setCrew_subs (m : Mach) (k : Nat) (x : Crew) : (m.setCrew k x).subs = m.subs := rfl
@[simp] theorem setCrew_subsPosted (m : Mach) (k : Nat) (x : Crew) : (m.setCrew k x).subsPosted = m.subsPosted := rfl
@[simp] theorem setCrew_msix (m : Mach) (k : Nat) (x : Crew) : (m.setCrew k x).msix = m.msix := rfl
@[simp] theorem setCrew_flr (m : Mach) (k : Nat) (x : Crew) : (m.setCrew k x).flr = m.flr := rfl
@[simp] theorem setCrew_power (m : Mach) (k : Nat) (x : Crew) : (m.setCrew k x).power = m.power := rfl
@[simp] theorem setCrew_fwImage (m : Mach) (k : Nat) (x : Crew) : (m.setCrew k x).fwImage = m.fwImage := rfl
@[simp] theorem setCrew_links (m : Mach) (k : Nat) (x : Crew) : (m.setCrew k x).links = m.links := rfl
@[simp] theorem setCrew_untold (m : Mach) (k : Nat) (x : Crew) : (m.setCrew k x).untold = m.untold := rfl
@[simp] theorem setCrew_queueOut (m : Mach) (k : Nat) (x : Crew) : (m.setCrew k x).queueOut = m.queueOut := rfl
@[simp] theorem setCrew_planOut (m : Mach) (k : Nat) (x : Crew) : (m.setCrew k x).planOut = m.planOut := rfl
@[simp] theorem setCrew_recs (m : Mach) (k : Nat) (x : Crew) : (m.setCrew k x).recs = m.recs := rfl
@[simp] theorem setCrew_replays (m : Mach) (k : Nat) (x : Crew) : (m.setCrew k x).replays = m.replays := rfl
@[simp] theorem setCrew_throttled (m : Mach) (k : Nat) (x : Crew) : (m.setCrew k x).throttled = m.throttled := rfl
@[simp] theorem setCrew_hostOut (m : Mach) (k : Nat) (x : Crew) : (m.setCrew k x).hostOut = m.hostOut := rfl
@[simp] theorem setCrew_turns (m : Mach) (k : Nat) (x : Crew) : (m.setCrew k x).turns = m.turns := rfl
@[simp] theorem setCrew_pickN (m : Mach) (k : Nat) (x : Crew) : (m.setCrew k x).pickN = m.pickN := rfl
@[simp] theorem setCrew_freeN (m : Mach) (k : Nat) (x : Crew) : (m.setCrew k x).freeN = m.freeN := rfl
@[simp] theorem setCrew_created (m : Mach) (k : Nat) (x : Crew) : (m.setCrew k x).created = m.created := rfl

/-! ### modCrew -/

@[simp] theorem modCrew_clock (m : Mach) (k : Nat) (f : Crew → Crew) : (m.modCrew k f).clock = m.clock := rfl
@[simp] theorem modCrew_dram (m : Mach) (k : Nat) (f : Crew → Crew) : (m.modCrew k f).dram = m.dram := rfl
@[simp] theorem modCrew_l2 (m : Mach) (k : Nat) (f : Crew → Crew) : (m.modCrew k f).l2 = m.l2 := rfl
@[simp] theorem modCrew_owner (m : Mach) (k : Nat) (f : Crew → Crew) : (m.modCrew k f).owner = m.owner := rfl
@[simp] theorem modCrew_csm (m : Mach) (k : Nat) (f : Crew → Crew) : (m.modCrew k f).csm = m.csm := rfl
@[simp] theorem modCrew_host (m : Mach) (k : Nat) (f : Crew → Crew) : (m.modCrew k f).host = m.host := rfl
@[simp] theorem modCrew_remote (m : Mach) (k : Nat) (f : Crew → Crew) : (m.modCrew k f).remote = m.remote := rfl
@[simp] theorem modCrew_remoteAcc (m : Mach) (k : Nat) (f : Crew → Crew) : (m.modCrew k f).remoteAcc = m.remoteAcc := rfl
@[simp] theorem modCrew_lost (m : Mach) (k : Nat) (f : Crew → Crew) : (m.modCrew k f).lost = m.lost := rfl
@[simp] theorem modCrew_whole (m : Mach) (k : Nat) (f : Crew → Crew) : (m.modCrew k f).whole = m.whole := rfl
@[simp] theorem modCrew_bad (m : Mach) (k : Nat) (f : Crew → Crew) : (m.modCrew k f).bad = m.bad := rfl
@[simp] theorem modCrew_ctxs (m : Mach) (k : Nat) (f : Crew → Crew) : (m.modCrew k f).ctxs = m.ctxs := rfl
@[simp] theorem modCrew_regions (m : Mach) (k : Nat) (f : Crew → Crew) : (m.modCrew k f).regions = m.regions := rfl
@[simp] theorem modCrew_crews (m : Mach) (k : Nat) (f : Crew → Crew) : (m.modCrew k f).crews = m.crews.mod k f := rfl
@[simp] theorem modCrew_gangs (m : Mach) (k : Nat) (f : Crew → Crew) : (m.modCrew k f).gangs = m.gangs := rfl
@[simp] theorem modCrew_threads (m : Mach) (k : Nat) (f : Crew → Crew) : (m.modCrew k f).threads = m.threads := rfl
@[simp] theorem modCrew_spindles (m : Mach) (k : Nat) (f : Crew → Crew) : (m.modCrew k f).spindles = m.spindles := rfl
@[simp] theorem modCrew_dies (m : Mach) (k : Nat) (f : Crew → Crew) : (m.modCrew k f).dies = m.dies := rfl
@[simp] theorem modCrew_pools (m : Mach) (k : Nat) (f : Crew → Crew) : (m.modCrew k f).pools = m.pools := rfl
@[simp] theorem modCrew_results (m : Mach) (k : Nat) (f : Crew → Crew) : (m.modCrew k f).results = m.results := rfl
@[simp] theorem modCrew_reqs (m : Mach) (k : Nat) (f : Crew → Crew) : (m.modCrew k f).reqs = m.reqs := rfl
@[simp] theorem modCrew_seq (m : Mach) (k : Nat) (f : Crew → Crew) : (m.modCrew k f).seq = m.seq := rfl
@[simp] theorem modCrew_wordNo (m : Mach) (k : Nat) (f : Crew → Crew) : (m.modCrew k f).wordNo = m.wordNo := rfl
@[simp] theorem modCrew_pushes (m : Mach) (k : Nat) (f : Crew → Crew) : (m.modCrew k f).pushes = m.pushes := rfl
@[simp] theorem modCrew_copies (m : Mach) (k : Nat) (f : Crew → Crew) : (m.modCrew k f).copies = m.copies := rfl
@[simp] theorem modCrew_jobs (m : Mach) (k : Nat) (f : Crew → Crew) : (m.modCrew k f).jobs = m.jobs := rfl
@[simp] theorem modCrew_streams (m : Mach) (k : Nat) (f : Crew → Crew) : (m.modCrew k f).streams = m.streams := rfl
@[simp] theorem modCrew_nextId (m : Mach) (k : Nat) (f : Crew → Crew) : (m.modCrew k f).nextId = m.nextId := rfl
@[simp] theorem modCrew_tickets (m : Mach) (k : Nat) (f : Crew → Crew) : (m.modCrew k f).tickets = m.tickets := rfl
@[simp] theorem modCrew_ticketN (m : Mach) (k : Nat) (f : Crew → Crew) : (m.modCrew k f).ticketN = m.ticketN := rfl
@[simp] theorem modCrew_codePas (m : Mach) (k : Nat) (f : Crew → Crew) : (m.modCrew k f).codePas = m.codePas := rfl
@[simp] theorem modCrew_tainted (m : Mach) (k : Nat) (f : Crew → Crew) : (m.modCrew k f).tainted = m.tainted := rfl
@[simp] theorem modCrew_access (m : Mach) (k : Nat) (f : Crew → Crew) : (m.modCrew k f).access = m.access := rfl
@[simp] theorem modCrew_gale (m : Mach) (k : Nat) (f : Crew → Crew) : (m.modCrew k f).gale = m.gale := rfl
@[simp] theorem modCrew_loader (m : Mach) (k : Nat) (f : Crew → Crew) : (m.modCrew k f).loader = m.loader := rfl
@[simp] theorem modCrew_mgmt (m : Mach) (k : Nat) (f : Crew → Crew) : (m.modCrew k f).mgmt = m.mgmt := rfl
@[simp] theorem modCrew_faultQ (m : Mach) (k : Nat) (f : Crew → Crew) : (m.modCrew k f).faultQ = m.faultQ := rfl
@[simp] theorem modCrew_faults (m : Mach) (k : Nat) (f : Crew → Crew) : (m.modCrew k f).faults = m.faults := rfl
@[simp] theorem modCrew_faultN (m : Mach) (k : Nat) (f : Crew → Crew) : (m.modCrew k f).faultN = m.faultN := rfl
@[simp] theorem modCrew_subs (m : Mach) (k : Nat) (f : Crew → Crew) : (m.modCrew k f).subs = m.subs := rfl
@[simp] theorem modCrew_subsPosted (m : Mach) (k : Nat) (f : Crew → Crew) : (m.modCrew k f).subsPosted = m.subsPosted := rfl
@[simp] theorem modCrew_msix (m : Mach) (k : Nat) (f : Crew → Crew) : (m.modCrew k f).msix = m.msix := rfl
@[simp] theorem modCrew_flr (m : Mach) (k : Nat) (f : Crew → Crew) : (m.modCrew k f).flr = m.flr := rfl
@[simp] theorem modCrew_power (m : Mach) (k : Nat) (f : Crew → Crew) : (m.modCrew k f).power = m.power := rfl
@[simp] theorem modCrew_fwImage (m : Mach) (k : Nat) (f : Crew → Crew) : (m.modCrew k f).fwImage = m.fwImage := rfl
@[simp] theorem modCrew_links (m : Mach) (k : Nat) (f : Crew → Crew) : (m.modCrew k f).links = m.links := rfl
@[simp] theorem modCrew_untold (m : Mach) (k : Nat) (f : Crew → Crew) : (m.modCrew k f).untold = m.untold := rfl
@[simp] theorem modCrew_queueOut (m : Mach) (k : Nat) (f : Crew → Crew) : (m.modCrew k f).queueOut = m.queueOut := rfl
@[simp] theorem modCrew_planOut (m : Mach) (k : Nat) (f : Crew → Crew) : (m.modCrew k f).planOut = m.planOut := rfl
@[simp] theorem modCrew_recs (m : Mach) (k : Nat) (f : Crew → Crew) : (m.modCrew k f).recs = m.recs := rfl
@[simp] theorem modCrew_replays (m : Mach) (k : Nat) (f : Crew → Crew) : (m.modCrew k f).replays = m.replays := rfl
@[simp] theorem modCrew_throttled (m : Mach) (k : Nat) (f : Crew → Crew) : (m.modCrew k f).throttled = m.throttled := rfl
@[simp] theorem modCrew_hostOut (m : Mach) (k : Nat) (f : Crew → Crew) : (m.modCrew k f).hostOut = m.hostOut := rfl
@[simp] theorem modCrew_turns (m : Mach) (k : Nat) (f : Crew → Crew) : (m.modCrew k f).turns = m.turns := rfl
@[simp] theorem modCrew_pickN (m : Mach) (k : Nat) (f : Crew → Crew) : (m.modCrew k f).pickN = m.pickN := rfl
@[simp] theorem modCrew_freeN (m : Mach) (k : Nat) (f : Crew → Crew) : (m.modCrew k f).freeN = m.freeN := rfl
@[simp] theorem modCrew_created (m : Mach) (k : Nat) (f : Crew → Crew) : (m.modCrew k f).created = m.created := rfl

/-! ### setRegion -/

@[simp] theorem setRegion_clock (m : Mach) (k : Nat) (x : Region) : (m.setRegion k x).clock = m.clock := rfl
@[simp] theorem setRegion_dram (m : Mach) (k : Nat) (x : Region) : (m.setRegion k x).dram = m.dram := rfl
@[simp] theorem setRegion_l2 (m : Mach) (k : Nat) (x : Region) : (m.setRegion k x).l2 = m.l2 := rfl
@[simp] theorem setRegion_owner (m : Mach) (k : Nat) (x : Region) : (m.setRegion k x).owner = m.owner := rfl
@[simp] theorem setRegion_csm (m : Mach) (k : Nat) (x : Region) : (m.setRegion k x).csm = m.csm := rfl
@[simp] theorem setRegion_host (m : Mach) (k : Nat) (x : Region) : (m.setRegion k x).host = m.host := rfl
@[simp] theorem setRegion_remote (m : Mach) (k : Nat) (x : Region) : (m.setRegion k x).remote = m.remote := rfl
@[simp] theorem setRegion_remoteAcc (m : Mach) (k : Nat) (x : Region) : (m.setRegion k x).remoteAcc = m.remoteAcc := rfl
@[simp] theorem setRegion_lost (m : Mach) (k : Nat) (x : Region) : (m.setRegion k x).lost = m.lost := rfl
@[simp] theorem setRegion_whole (m : Mach) (k : Nat) (x : Region) : (m.setRegion k x).whole = m.whole := rfl
@[simp] theorem setRegion_bad (m : Mach) (k : Nat) (x : Region) : (m.setRegion k x).bad = m.bad := rfl
@[simp] theorem setRegion_ctxs (m : Mach) (k : Nat) (x : Region) : (m.setRegion k x).ctxs = m.ctxs := rfl
@[simp] theorem setRegion_regions (m : Mach) (k : Nat) (x : Region) : (m.setRegion k x).regions = m.regions.put k x := rfl
@[simp] theorem setRegion_crews (m : Mach) (k : Nat) (x : Region) : (m.setRegion k x).crews = m.crews := rfl
@[simp] theorem setRegion_gangs (m : Mach) (k : Nat) (x : Region) : (m.setRegion k x).gangs = m.gangs := rfl
@[simp] theorem setRegion_threads (m : Mach) (k : Nat) (x : Region) : (m.setRegion k x).threads = m.threads := rfl
@[simp] theorem setRegion_spindles (m : Mach) (k : Nat) (x : Region) : (m.setRegion k x).spindles = m.spindles := rfl
@[simp] theorem setRegion_dies (m : Mach) (k : Nat) (x : Region) : (m.setRegion k x).dies = m.dies := rfl
@[simp] theorem setRegion_pools (m : Mach) (k : Nat) (x : Region) : (m.setRegion k x).pools = m.pools := rfl
@[simp] theorem setRegion_results (m : Mach) (k : Nat) (x : Region) : (m.setRegion k x).results = m.results := rfl
@[simp] theorem setRegion_reqs (m : Mach) (k : Nat) (x : Region) : (m.setRegion k x).reqs = m.reqs := rfl
@[simp] theorem setRegion_seq (m : Mach) (k : Nat) (x : Region) : (m.setRegion k x).seq = m.seq := rfl
@[simp] theorem setRegion_wordNo (m : Mach) (k : Nat) (x : Region) : (m.setRegion k x).wordNo = m.wordNo := rfl
@[simp] theorem setRegion_pushes (m : Mach) (k : Nat) (x : Region) : (m.setRegion k x).pushes = m.pushes := rfl
@[simp] theorem setRegion_copies (m : Mach) (k : Nat) (x : Region) : (m.setRegion k x).copies = m.copies := rfl
@[simp] theorem setRegion_jobs (m : Mach) (k : Nat) (x : Region) : (m.setRegion k x).jobs = m.jobs := rfl
@[simp] theorem setRegion_streams (m : Mach) (k : Nat) (x : Region) : (m.setRegion k x).streams = m.streams := rfl
@[simp] theorem setRegion_nextId (m : Mach) (k : Nat) (x : Region) : (m.setRegion k x).nextId = m.nextId := rfl
@[simp] theorem setRegion_tickets (m : Mach) (k : Nat) (x : Region) : (m.setRegion k x).tickets = m.tickets := rfl
@[simp] theorem setRegion_ticketN (m : Mach) (k : Nat) (x : Region) : (m.setRegion k x).ticketN = m.ticketN := rfl
@[simp] theorem setRegion_codePas (m : Mach) (k : Nat) (x : Region) : (m.setRegion k x).codePas = m.codePas := rfl
@[simp] theorem setRegion_tainted (m : Mach) (k : Nat) (x : Region) : (m.setRegion k x).tainted = m.tainted := rfl
@[simp] theorem setRegion_access (m : Mach) (k : Nat) (x : Region) : (m.setRegion k x).access = m.access := rfl
@[simp] theorem setRegion_gale (m : Mach) (k : Nat) (x : Region) : (m.setRegion k x).gale = m.gale := rfl
@[simp] theorem setRegion_loader (m : Mach) (k : Nat) (x : Region) : (m.setRegion k x).loader = m.loader := rfl
@[simp] theorem setRegion_mgmt (m : Mach) (k : Nat) (x : Region) : (m.setRegion k x).mgmt = m.mgmt := rfl
@[simp] theorem setRegion_faultQ (m : Mach) (k : Nat) (x : Region) : (m.setRegion k x).faultQ = m.faultQ := rfl
@[simp] theorem setRegion_faults (m : Mach) (k : Nat) (x : Region) : (m.setRegion k x).faults = m.faults := rfl
@[simp] theorem setRegion_faultN (m : Mach) (k : Nat) (x : Region) : (m.setRegion k x).faultN = m.faultN := rfl
@[simp] theorem setRegion_subs (m : Mach) (k : Nat) (x : Region) : (m.setRegion k x).subs = m.subs := rfl
@[simp] theorem setRegion_subsPosted (m : Mach) (k : Nat) (x : Region) : (m.setRegion k x).subsPosted = m.subsPosted := rfl
@[simp] theorem setRegion_msix (m : Mach) (k : Nat) (x : Region) : (m.setRegion k x).msix = m.msix := rfl
@[simp] theorem setRegion_flr (m : Mach) (k : Nat) (x : Region) : (m.setRegion k x).flr = m.flr := rfl
@[simp] theorem setRegion_power (m : Mach) (k : Nat) (x : Region) : (m.setRegion k x).power = m.power := rfl
@[simp] theorem setRegion_fwImage (m : Mach) (k : Nat) (x : Region) : (m.setRegion k x).fwImage = m.fwImage := rfl
@[simp] theorem setRegion_links (m : Mach) (k : Nat) (x : Region) : (m.setRegion k x).links = m.links := rfl
@[simp] theorem setRegion_untold (m : Mach) (k : Nat) (x : Region) : (m.setRegion k x).untold = m.untold := rfl
@[simp] theorem setRegion_queueOut (m : Mach) (k : Nat) (x : Region) : (m.setRegion k x).queueOut = m.queueOut := rfl
@[simp] theorem setRegion_planOut (m : Mach) (k : Nat) (x : Region) : (m.setRegion k x).planOut = m.planOut := rfl
@[simp] theorem setRegion_recs (m : Mach) (k : Nat) (x : Region) : (m.setRegion k x).recs = m.recs := rfl
@[simp] theorem setRegion_replays (m : Mach) (k : Nat) (x : Region) : (m.setRegion k x).replays = m.replays := rfl
@[simp] theorem setRegion_throttled (m : Mach) (k : Nat) (x : Region) : (m.setRegion k x).throttled = m.throttled := rfl
@[simp] theorem setRegion_hostOut (m : Mach) (k : Nat) (x : Region) : (m.setRegion k x).hostOut = m.hostOut := rfl
@[simp] theorem setRegion_turns (m : Mach) (k : Nat) (x : Region) : (m.setRegion k x).turns = m.turns := rfl
@[simp] theorem setRegion_pickN (m : Mach) (k : Nat) (x : Region) : (m.setRegion k x).pickN = m.pickN := rfl
@[simp] theorem setRegion_freeN (m : Mach) (k : Nat) (x : Region) : (m.setRegion k x).freeN = m.freeN := rfl
@[simp] theorem setRegion_created (m : Mach) (k : Nat) (x : Region) : (m.setRegion k x).created = m.created := rfl

/-! ### modRegion -/

@[simp] theorem modRegion_clock (m : Mach) (k : Nat) (f : Region → Region) : (m.modRegion k f).clock = m.clock := rfl
@[simp] theorem modRegion_dram (m : Mach) (k : Nat) (f : Region → Region) : (m.modRegion k f).dram = m.dram := rfl
@[simp] theorem modRegion_l2 (m : Mach) (k : Nat) (f : Region → Region) : (m.modRegion k f).l2 = m.l2 := rfl
@[simp] theorem modRegion_owner (m : Mach) (k : Nat) (f : Region → Region) : (m.modRegion k f).owner = m.owner := rfl
@[simp] theorem modRegion_csm (m : Mach) (k : Nat) (f : Region → Region) : (m.modRegion k f).csm = m.csm := rfl
@[simp] theorem modRegion_host (m : Mach) (k : Nat) (f : Region → Region) : (m.modRegion k f).host = m.host := rfl
@[simp] theorem modRegion_remote (m : Mach) (k : Nat) (f : Region → Region) : (m.modRegion k f).remote = m.remote := rfl
@[simp] theorem modRegion_remoteAcc (m : Mach) (k : Nat) (f : Region → Region) : (m.modRegion k f).remoteAcc = m.remoteAcc := rfl
@[simp] theorem modRegion_lost (m : Mach) (k : Nat) (f : Region → Region) : (m.modRegion k f).lost = m.lost := rfl
@[simp] theorem modRegion_whole (m : Mach) (k : Nat) (f : Region → Region) : (m.modRegion k f).whole = m.whole := rfl
@[simp] theorem modRegion_bad (m : Mach) (k : Nat) (f : Region → Region) : (m.modRegion k f).bad = m.bad := rfl
@[simp] theorem modRegion_ctxs (m : Mach) (k : Nat) (f : Region → Region) : (m.modRegion k f).ctxs = m.ctxs := rfl
@[simp] theorem modRegion_regions (m : Mach) (k : Nat) (f : Region → Region) : (m.modRegion k f).regions = m.regions.mod k f := rfl
@[simp] theorem modRegion_crews (m : Mach) (k : Nat) (f : Region → Region) : (m.modRegion k f).crews = m.crews := rfl
@[simp] theorem modRegion_gangs (m : Mach) (k : Nat) (f : Region → Region) : (m.modRegion k f).gangs = m.gangs := rfl
@[simp] theorem modRegion_threads (m : Mach) (k : Nat) (f : Region → Region) : (m.modRegion k f).threads = m.threads := rfl
@[simp] theorem modRegion_spindles (m : Mach) (k : Nat) (f : Region → Region) : (m.modRegion k f).spindles = m.spindles := rfl
@[simp] theorem modRegion_dies (m : Mach) (k : Nat) (f : Region → Region) : (m.modRegion k f).dies = m.dies := rfl
@[simp] theorem modRegion_pools (m : Mach) (k : Nat) (f : Region → Region) : (m.modRegion k f).pools = m.pools := rfl
@[simp] theorem modRegion_results (m : Mach) (k : Nat) (f : Region → Region) : (m.modRegion k f).results = m.results := rfl
@[simp] theorem modRegion_reqs (m : Mach) (k : Nat) (f : Region → Region) : (m.modRegion k f).reqs = m.reqs := rfl
@[simp] theorem modRegion_seq (m : Mach) (k : Nat) (f : Region → Region) : (m.modRegion k f).seq = m.seq := rfl
@[simp] theorem modRegion_wordNo (m : Mach) (k : Nat) (f : Region → Region) : (m.modRegion k f).wordNo = m.wordNo := rfl
@[simp] theorem modRegion_pushes (m : Mach) (k : Nat) (f : Region → Region) : (m.modRegion k f).pushes = m.pushes := rfl
@[simp] theorem modRegion_copies (m : Mach) (k : Nat) (f : Region → Region) : (m.modRegion k f).copies = m.copies := rfl
@[simp] theorem modRegion_jobs (m : Mach) (k : Nat) (f : Region → Region) : (m.modRegion k f).jobs = m.jobs := rfl
@[simp] theorem modRegion_streams (m : Mach) (k : Nat) (f : Region → Region) : (m.modRegion k f).streams = m.streams := rfl
@[simp] theorem modRegion_nextId (m : Mach) (k : Nat) (f : Region → Region) : (m.modRegion k f).nextId = m.nextId := rfl
@[simp] theorem modRegion_tickets (m : Mach) (k : Nat) (f : Region → Region) : (m.modRegion k f).tickets = m.tickets := rfl
@[simp] theorem modRegion_ticketN (m : Mach) (k : Nat) (f : Region → Region) : (m.modRegion k f).ticketN = m.ticketN := rfl
@[simp] theorem modRegion_codePas (m : Mach) (k : Nat) (f : Region → Region) : (m.modRegion k f).codePas = m.codePas := rfl
@[simp] theorem modRegion_tainted (m : Mach) (k : Nat) (f : Region → Region) : (m.modRegion k f).tainted = m.tainted := rfl
@[simp] theorem modRegion_access (m : Mach) (k : Nat) (f : Region → Region) : (m.modRegion k f).access = m.access := rfl
@[simp] theorem modRegion_gale (m : Mach) (k : Nat) (f : Region → Region) : (m.modRegion k f).gale = m.gale := rfl
@[simp] theorem modRegion_loader (m : Mach) (k : Nat) (f : Region → Region) : (m.modRegion k f).loader = m.loader := rfl
@[simp] theorem modRegion_mgmt (m : Mach) (k : Nat) (f : Region → Region) : (m.modRegion k f).mgmt = m.mgmt := rfl
@[simp] theorem modRegion_faultQ (m : Mach) (k : Nat) (f : Region → Region) : (m.modRegion k f).faultQ = m.faultQ := rfl
@[simp] theorem modRegion_faults (m : Mach) (k : Nat) (f : Region → Region) : (m.modRegion k f).faults = m.faults := rfl
@[simp] theorem modRegion_faultN (m : Mach) (k : Nat) (f : Region → Region) : (m.modRegion k f).faultN = m.faultN := rfl
@[simp] theorem modRegion_subs (m : Mach) (k : Nat) (f : Region → Region) : (m.modRegion k f).subs = m.subs := rfl
@[simp] theorem modRegion_subsPosted (m : Mach) (k : Nat) (f : Region → Region) : (m.modRegion k f).subsPosted = m.subsPosted := rfl
@[simp] theorem modRegion_msix (m : Mach) (k : Nat) (f : Region → Region) : (m.modRegion k f).msix = m.msix := rfl
@[simp] theorem modRegion_flr (m : Mach) (k : Nat) (f : Region → Region) : (m.modRegion k f).flr = m.flr := rfl
@[simp] theorem modRegion_power (m : Mach) (k : Nat) (f : Region → Region) : (m.modRegion k f).power = m.power := rfl
@[simp] theorem modRegion_fwImage (m : Mach) (k : Nat) (f : Region → Region) : (m.modRegion k f).fwImage = m.fwImage := rfl
@[simp] theorem modRegion_links (m : Mach) (k : Nat) (f : Region → Region) : (m.modRegion k f).links = m.links := rfl
@[simp] theorem modRegion_untold (m : Mach) (k : Nat) (f : Region → Region) : (m.modRegion k f).untold = m.untold := rfl
@[simp] theorem modRegion_queueOut (m : Mach) (k : Nat) (f : Region → Region) : (m.modRegion k f).queueOut = m.queueOut := rfl
@[simp] theorem modRegion_planOut (m : Mach) (k : Nat) (f : Region → Region) : (m.modRegion k f).planOut = m.planOut := rfl
@[simp] theorem modRegion_recs (m : Mach) (k : Nat) (f : Region → Region) : (m.modRegion k f).recs = m.recs := rfl
@[simp] theorem modRegion_replays (m : Mach) (k : Nat) (f : Region → Region) : (m.modRegion k f).replays = m.replays := rfl
@[simp] theorem modRegion_throttled (m : Mach) (k : Nat) (f : Region → Region) : (m.modRegion k f).throttled = m.throttled := rfl
@[simp] theorem modRegion_hostOut (m : Mach) (k : Nat) (f : Region → Region) : (m.modRegion k f).hostOut = m.hostOut := rfl
@[simp] theorem modRegion_turns (m : Mach) (k : Nat) (f : Region → Region) : (m.modRegion k f).turns = m.turns := rfl
@[simp] theorem modRegion_pickN (m : Mach) (k : Nat) (f : Region → Region) : (m.modRegion k f).pickN = m.pickN := rfl
@[simp] theorem modRegion_freeN (m : Mach) (k : Nat) (f : Region → Region) : (m.modRegion k f).freeN = m.freeN := rfl
@[simp] theorem modRegion_created (m : Mach) (k : Nat) (f : Region → Region) : (m.modRegion k f).created = m.created := rfl

/-! ### setCtx -/

@[simp] theorem setCtx_clock (m : Mach) (k : Nat) (x : Ctx) : (m.setCtx k x).clock = m.clock := rfl
@[simp] theorem setCtx_dram (m : Mach) (k : Nat) (x : Ctx) : (m.setCtx k x).dram = m.dram := rfl
@[simp] theorem setCtx_l2 (m : Mach) (k : Nat) (x : Ctx) : (m.setCtx k x).l2 = m.l2 := rfl
@[simp] theorem setCtx_owner (m : Mach) (k : Nat) (x : Ctx) : (m.setCtx k x).owner = m.owner := rfl
@[simp] theorem setCtx_csm (m : Mach) (k : Nat) (x : Ctx) : (m.setCtx k x).csm = m.csm := rfl
@[simp] theorem setCtx_host (m : Mach) (k : Nat) (x : Ctx) : (m.setCtx k x).host = m.host := rfl
@[simp] theorem setCtx_remote (m : Mach) (k : Nat) (x : Ctx) : (m.setCtx k x).remote = m.remote := rfl
@[simp] theorem setCtx_remoteAcc (m : Mach) (k : Nat) (x : Ctx) : (m.setCtx k x).remoteAcc = m.remoteAcc := rfl
@[simp] theorem setCtx_lost (m : Mach) (k : Nat) (x : Ctx) : (m.setCtx k x).lost = m.lost := rfl
@[simp] theorem setCtx_whole (m : Mach) (k : Nat) (x : Ctx) : (m.setCtx k x).whole = m.whole := rfl
@[simp] theorem setCtx_bad (m : Mach) (k : Nat) (x : Ctx) : (m.setCtx k x).bad = m.bad := rfl
@[simp] theorem setCtx_ctxs (m : Mach) (k : Nat) (x : Ctx) : (m.setCtx k x).ctxs = m.ctxs.put k x := rfl
@[simp] theorem setCtx_regions (m : Mach) (k : Nat) (x : Ctx) : (m.setCtx k x).regions = m.regions := rfl
@[simp] theorem setCtx_crews (m : Mach) (k : Nat) (x : Ctx) : (m.setCtx k x).crews = m.crews := rfl
@[simp] theorem setCtx_gangs (m : Mach) (k : Nat) (x : Ctx) : (m.setCtx k x).gangs = m.gangs := rfl
@[simp] theorem setCtx_threads (m : Mach) (k : Nat) (x : Ctx) : (m.setCtx k x).threads = m.threads := rfl
@[simp] theorem setCtx_spindles (m : Mach) (k : Nat) (x : Ctx) : (m.setCtx k x).spindles = m.spindles := rfl
@[simp] theorem setCtx_dies (m : Mach) (k : Nat) (x : Ctx) : (m.setCtx k x).dies = m.dies := rfl
@[simp] theorem setCtx_pools (m : Mach) (k : Nat) (x : Ctx) : (m.setCtx k x).pools = m.pools := rfl
@[simp] theorem setCtx_results (m : Mach) (k : Nat) (x : Ctx) : (m.setCtx k x).results = m.results := rfl
@[simp] theorem setCtx_reqs (m : Mach) (k : Nat) (x : Ctx) : (m.setCtx k x).reqs = m.reqs := rfl
@[simp] theorem setCtx_seq (m : Mach) (k : Nat) (x : Ctx) : (m.setCtx k x).seq = m.seq := rfl
@[simp] theorem setCtx_wordNo (m : Mach) (k : Nat) (x : Ctx) : (m.setCtx k x).wordNo = m.wordNo := rfl
@[simp] theorem setCtx_pushes (m : Mach) (k : Nat) (x : Ctx) : (m.setCtx k x).pushes = m.pushes := rfl
@[simp] theorem setCtx_copies (m : Mach) (k : Nat) (x : Ctx) : (m.setCtx k x).copies = m.copies := rfl
@[simp] theorem setCtx_jobs (m : Mach) (k : Nat) (x : Ctx) : (m.setCtx k x).jobs = m.jobs := rfl
@[simp] theorem setCtx_streams (m : Mach) (k : Nat) (x : Ctx) : (m.setCtx k x).streams = m.streams := rfl
@[simp] theorem setCtx_nextId (m : Mach) (k : Nat) (x : Ctx) : (m.setCtx k x).nextId = m.nextId := rfl
@[simp] theorem setCtx_tickets (m : Mach) (k : Nat) (x : Ctx) : (m.setCtx k x).tickets = m.tickets := rfl
@[simp] theorem setCtx_ticketN (m : Mach) (k : Nat) (x : Ctx) : (m.setCtx k x).ticketN = m.ticketN := rfl
@[simp] theorem setCtx_codePas (m : Mach) (k : Nat) (x : Ctx) : (m.setCtx k x).codePas = m.codePas := rfl
@[simp] theorem setCtx_tainted (m : Mach) (k : Nat) (x : Ctx) : (m.setCtx k x).tainted = m.tainted := rfl
@[simp] theorem setCtx_access (m : Mach) (k : Nat) (x : Ctx) : (m.setCtx k x).access = m.access := rfl
@[simp] theorem setCtx_gale (m : Mach) (k : Nat) (x : Ctx) : (m.setCtx k x).gale = m.gale := rfl
@[simp] theorem setCtx_loader (m : Mach) (k : Nat) (x : Ctx) : (m.setCtx k x).loader = m.loader := rfl
@[simp] theorem setCtx_mgmt (m : Mach) (k : Nat) (x : Ctx) : (m.setCtx k x).mgmt = m.mgmt := rfl
@[simp] theorem setCtx_faultQ (m : Mach) (k : Nat) (x : Ctx) : (m.setCtx k x).faultQ = m.faultQ := rfl
@[simp] theorem setCtx_faults (m : Mach) (k : Nat) (x : Ctx) : (m.setCtx k x).faults = m.faults := rfl
@[simp] theorem setCtx_faultN (m : Mach) (k : Nat) (x : Ctx) : (m.setCtx k x).faultN = m.faultN := rfl
@[simp] theorem setCtx_subs (m : Mach) (k : Nat) (x : Ctx) : (m.setCtx k x).subs = m.subs := rfl
@[simp] theorem setCtx_subsPosted (m : Mach) (k : Nat) (x : Ctx) : (m.setCtx k x).subsPosted = m.subsPosted := rfl
@[simp] theorem setCtx_msix (m : Mach) (k : Nat) (x : Ctx) : (m.setCtx k x).msix = m.msix := rfl
@[simp] theorem setCtx_flr (m : Mach) (k : Nat) (x : Ctx) : (m.setCtx k x).flr = m.flr := rfl
@[simp] theorem setCtx_power (m : Mach) (k : Nat) (x : Ctx) : (m.setCtx k x).power = m.power := rfl
@[simp] theorem setCtx_fwImage (m : Mach) (k : Nat) (x : Ctx) : (m.setCtx k x).fwImage = m.fwImage := rfl
@[simp] theorem setCtx_links (m : Mach) (k : Nat) (x : Ctx) : (m.setCtx k x).links = m.links := rfl
@[simp] theorem setCtx_untold (m : Mach) (k : Nat) (x : Ctx) : (m.setCtx k x).untold = m.untold := rfl
@[simp] theorem setCtx_queueOut (m : Mach) (k : Nat) (x : Ctx) : (m.setCtx k x).queueOut = m.queueOut := rfl
@[simp] theorem setCtx_planOut (m : Mach) (k : Nat) (x : Ctx) : (m.setCtx k x).planOut = m.planOut := rfl
@[simp] theorem setCtx_recs (m : Mach) (k : Nat) (x : Ctx) : (m.setCtx k x).recs = m.recs := rfl
@[simp] theorem setCtx_replays (m : Mach) (k : Nat) (x : Ctx) : (m.setCtx k x).replays = m.replays := rfl
@[simp] theorem setCtx_throttled (m : Mach) (k : Nat) (x : Ctx) : (m.setCtx k x).throttled = m.throttled := rfl
@[simp] theorem setCtx_hostOut (m : Mach) (k : Nat) (x : Ctx) : (m.setCtx k x).hostOut = m.hostOut := rfl
@[simp] theorem setCtx_turns (m : Mach) (k : Nat) (x : Ctx) : (m.setCtx k x).turns = m.turns := rfl
@[simp] theorem setCtx_pickN (m : Mach) (k : Nat) (x : Ctx) : (m.setCtx k x).pickN = m.pickN := rfl
@[simp] theorem setCtx_freeN (m : Mach) (k : Nat) (x : Ctx) : (m.setCtx k x).freeN = m.freeN := rfl
@[simp] theorem setCtx_created (m : Mach) (k : Nat) (x : Ctx) : (m.setCtx k x).created = m.created := rfl

/-! ### modCtx -/

@[simp] theorem modCtx_clock (m : Mach) (k : Nat) (f : Ctx → Ctx) : (m.modCtx k f).clock = m.clock := rfl
@[simp] theorem modCtx_dram (m : Mach) (k : Nat) (f : Ctx → Ctx) : (m.modCtx k f).dram = m.dram := rfl
@[simp] theorem modCtx_l2 (m : Mach) (k : Nat) (f : Ctx → Ctx) : (m.modCtx k f).l2 = m.l2 := rfl
@[simp] theorem modCtx_owner (m : Mach) (k : Nat) (f : Ctx → Ctx) : (m.modCtx k f).owner = m.owner := rfl
@[simp] theorem modCtx_csm (m : Mach) (k : Nat) (f : Ctx → Ctx) : (m.modCtx k f).csm = m.csm := rfl
@[simp] theorem modCtx_host (m : Mach) (k : Nat) (f : Ctx → Ctx) : (m.modCtx k f).host = m.host := rfl
@[simp] theorem modCtx_remote (m : Mach) (k : Nat) (f : Ctx → Ctx) : (m.modCtx k f).remote = m.remote := rfl
@[simp] theorem modCtx_remoteAcc (m : Mach) (k : Nat) (f : Ctx → Ctx) : (m.modCtx k f).remoteAcc = m.remoteAcc := rfl
@[simp] theorem modCtx_lost (m : Mach) (k : Nat) (f : Ctx → Ctx) : (m.modCtx k f).lost = m.lost := rfl
@[simp] theorem modCtx_whole (m : Mach) (k : Nat) (f : Ctx → Ctx) : (m.modCtx k f).whole = m.whole := rfl
@[simp] theorem modCtx_bad (m : Mach) (k : Nat) (f : Ctx → Ctx) : (m.modCtx k f).bad = m.bad := rfl
@[simp] theorem modCtx_ctxs (m : Mach) (k : Nat) (f : Ctx → Ctx) : (m.modCtx k f).ctxs = m.ctxs.mod k f := rfl
@[simp] theorem modCtx_regions (m : Mach) (k : Nat) (f : Ctx → Ctx) : (m.modCtx k f).regions = m.regions := rfl
@[simp] theorem modCtx_crews (m : Mach) (k : Nat) (f : Ctx → Ctx) : (m.modCtx k f).crews = m.crews := rfl
@[simp] theorem modCtx_gangs (m : Mach) (k : Nat) (f : Ctx → Ctx) : (m.modCtx k f).gangs = m.gangs := rfl
@[simp] theorem modCtx_threads (m : Mach) (k : Nat) (f : Ctx → Ctx) : (m.modCtx k f).threads = m.threads := rfl
@[simp] theorem modCtx_spindles (m : Mach) (k : Nat) (f : Ctx → Ctx) : (m.modCtx k f).spindles = m.spindles := rfl
@[simp] theorem modCtx_dies (m : Mach) (k : Nat) (f : Ctx → Ctx) : (m.modCtx k f).dies = m.dies := rfl
@[simp] theorem modCtx_pools (m : Mach) (k : Nat) (f : Ctx → Ctx) : (m.modCtx k f).pools = m.pools := rfl
@[simp] theorem modCtx_results (m : Mach) (k : Nat) (f : Ctx → Ctx) : (m.modCtx k f).results = m.results := rfl
@[simp] theorem modCtx_reqs (m : Mach) (k : Nat) (f : Ctx → Ctx) : (m.modCtx k f).reqs = m.reqs := rfl
@[simp] theorem modCtx_seq (m : Mach) (k : Nat) (f : Ctx → Ctx) : (m.modCtx k f).seq = m.seq := rfl
@[simp] theorem modCtx_wordNo (m : Mach) (k : Nat) (f : Ctx → Ctx) : (m.modCtx k f).wordNo = m.wordNo := rfl
@[simp] theorem modCtx_pushes (m : Mach) (k : Nat) (f : Ctx → Ctx) : (m.modCtx k f).pushes = m.pushes := rfl
@[simp] theorem modCtx_copies (m : Mach) (k : Nat) (f : Ctx → Ctx) : (m.modCtx k f).copies = m.copies := rfl
@[simp] theorem modCtx_jobs (m : Mach) (k : Nat) (f : Ctx → Ctx) : (m.modCtx k f).jobs = m.jobs := rfl
@[simp] theorem modCtx_streams (m : Mach) (k : Nat) (f : Ctx → Ctx) : (m.modCtx k f).streams = m.streams := rfl
@[simp] theorem modCtx_nextId (m : Mach) (k : Nat) (f : Ctx → Ctx) : (m.modCtx k f).nextId = m.nextId := rfl
@[simp] theorem modCtx_tickets (m : Mach) (k : Nat) (f : Ctx → Ctx) : (m.modCtx k f).tickets = m.tickets := rfl
@[simp] theorem modCtx_ticketN (m : Mach) (k : Nat) (f : Ctx → Ctx) : (m.modCtx k f).ticketN = m.ticketN := rfl
@[simp] theorem modCtx_codePas (m : Mach) (k : Nat) (f : Ctx → Ctx) : (m.modCtx k f).codePas = m.codePas := rfl
@[simp] theorem modCtx_tainted (m : Mach) (k : Nat) (f : Ctx → Ctx) : (m.modCtx k f).tainted = m.tainted := rfl
@[simp] theorem modCtx_access (m : Mach) (k : Nat) (f : Ctx → Ctx) : (m.modCtx k f).access = m.access := rfl
@[simp] theorem modCtx_gale (m : Mach) (k : Nat) (f : Ctx → Ctx) : (m.modCtx k f).gale = m.gale := rfl
@[simp] theorem modCtx_loader (m : Mach) (k : Nat) (f : Ctx → Ctx) : (m.modCtx k f).loader = m.loader := rfl
@[simp] theorem modCtx_mgmt (m : Mach) (k : Nat) (f : Ctx → Ctx) : (m.modCtx k f).mgmt = m.mgmt := rfl
@[simp] theorem modCtx_faultQ (m : Mach) (k : Nat) (f : Ctx → Ctx) : (m.modCtx k f).faultQ = m.faultQ := rfl
@[simp] theorem modCtx_faults (m : Mach) (k : Nat) (f : Ctx → Ctx) : (m.modCtx k f).faults = m.faults := rfl
@[simp] theorem modCtx_faultN (m : Mach) (k : Nat) (f : Ctx → Ctx) : (m.modCtx k f).faultN = m.faultN := rfl
@[simp] theorem modCtx_subs (m : Mach) (k : Nat) (f : Ctx → Ctx) : (m.modCtx k f).subs = m.subs := rfl
@[simp] theorem modCtx_subsPosted (m : Mach) (k : Nat) (f : Ctx → Ctx) : (m.modCtx k f).subsPosted = m.subsPosted := rfl
@[simp] theorem modCtx_msix (m : Mach) (k : Nat) (f : Ctx → Ctx) : (m.modCtx k f).msix = m.msix := rfl
@[simp] theorem modCtx_flr (m : Mach) (k : Nat) (f : Ctx → Ctx) : (m.modCtx k f).flr = m.flr := rfl
@[simp] theorem modCtx_power (m : Mach) (k : Nat) (f : Ctx → Ctx) : (m.modCtx k f).power = m.power := rfl
@[simp] theorem modCtx_fwImage (m : Mach) (k : Nat) (f : Ctx → Ctx) : (m.modCtx k f).fwImage = m.fwImage := rfl
@[simp] theorem modCtx_links (m : Mach) (k : Nat) (f : Ctx → Ctx) : (m.modCtx k f).links = m.links := rfl
@[simp] theorem modCtx_untold (m : Mach) (k : Nat) (f : Ctx → Ctx) : (m.modCtx k f).untold = m.untold := rfl
@[simp] theorem modCtx_queueOut (m : Mach) (k : Nat) (f : Ctx → Ctx) : (m.modCtx k f).queueOut = m.queueOut := rfl
@[simp] theorem modCtx_planOut (m : Mach) (k : Nat) (f : Ctx → Ctx) : (m.modCtx k f).planOut = m.planOut := rfl
@[simp] theorem modCtx_recs (m : Mach) (k : Nat) (f : Ctx → Ctx) : (m.modCtx k f).recs = m.recs := rfl
@[simp] theorem modCtx_replays (m : Mach) (k : Nat) (f : Ctx → Ctx) : (m.modCtx k f).replays = m.replays := rfl
@[simp] theorem modCtx_throttled (m : Mach) (k : Nat) (f : Ctx → Ctx) : (m.modCtx k f).throttled = m.throttled := rfl
@[simp] theorem modCtx_hostOut (m : Mach) (k : Nat) (f : Ctx → Ctx) : (m.modCtx k f).hostOut = m.hostOut := rfl
@[simp] theorem modCtx_turns (m : Mach) (k : Nat) (f : Ctx → Ctx) : (m.modCtx k f).turns = m.turns := rfl
@[simp] theorem modCtx_pickN (m : Mach) (k : Nat) (f : Ctx → Ctx) : (m.modCtx k f).pickN = m.pickN := rfl
@[simp] theorem modCtx_freeN (m : Mach) (k : Nat) (f : Ctx → Ctx) : (m.modCtx k f).freeN = m.freeN := rfl
@[simp] theorem modCtx_created (m : Mach) (k : Nat) (f : Ctx → Ctx) : (m.modCtx k f).created = m.created := rfl

/-! ### setSp -/

@[simp] theorem setSp_clock (m : Mach) (k : Nat) (x : Spindle) : (m.setSp k x).clock = m.clock := rfl
@[simp] theorem setSp_dram (m : Mach) (k : Nat) (x : Spindle) : (m.setSp k x).dram = m.dram := rfl
@[simp] theorem setSp_l2 (m : Mach) (k : Nat) (x : Spindle) : (m.setSp k x).l2 = m.l2 := rfl
@[simp] theorem setSp_owner (m : Mach) (k : Nat) (x : Spindle) : (m.setSp k x).owner = m.owner := rfl
@[simp] theorem setSp_csm (m : Mach) (k : Nat) (x : Spindle) : (m.setSp k x).csm = m.csm := rfl
@[simp] theorem setSp_host (m : Mach) (k : Nat) (x : Spindle) : (m.setSp k x).host = m.host := rfl
@[simp] theorem setSp_remote (m : Mach) (k : Nat) (x : Spindle) : (m.setSp k x).remote = m.remote := rfl
@[simp] theorem setSp_remoteAcc (m : Mach) (k : Nat) (x : Spindle) : (m.setSp k x).remoteAcc = m.remoteAcc := rfl
@[simp] theorem setSp_lost (m : Mach) (k : Nat) (x : Spindle) : (m.setSp k x).lost = m.lost := rfl
@[simp] theorem setSp_whole (m : Mach) (k : Nat) (x : Spindle) : (m.setSp k x).whole = m.whole := rfl
@[simp] theorem setSp_bad (m : Mach) (k : Nat) (x : Spindle) : (m.setSp k x).bad = m.bad := rfl
@[simp] theorem setSp_ctxs (m : Mach) (k : Nat) (x : Spindle) : (m.setSp k x).ctxs = m.ctxs := rfl
@[simp] theorem setSp_regions (m : Mach) (k : Nat) (x : Spindle) : (m.setSp k x).regions = m.regions := rfl
@[simp] theorem setSp_crews (m : Mach) (k : Nat) (x : Spindle) : (m.setSp k x).crews = m.crews := rfl
@[simp] theorem setSp_gangs (m : Mach) (k : Nat) (x : Spindle) : (m.setSp k x).gangs = m.gangs := rfl
@[simp] theorem setSp_threads (m : Mach) (k : Nat) (x : Spindle) : (m.setSp k x).threads = m.threads := rfl
@[simp] theorem setSp_spindles (m : Mach) (k : Nat) (x : Spindle) : (m.setSp k x).spindles = m.spindles.put k x := rfl
@[simp] theorem setSp_dies (m : Mach) (k : Nat) (x : Spindle) : (m.setSp k x).dies = m.dies := rfl
@[simp] theorem setSp_pools (m : Mach) (k : Nat) (x : Spindle) : (m.setSp k x).pools = m.pools := rfl
@[simp] theorem setSp_results (m : Mach) (k : Nat) (x : Spindle) : (m.setSp k x).results = m.results := rfl
@[simp] theorem setSp_reqs (m : Mach) (k : Nat) (x : Spindle) : (m.setSp k x).reqs = m.reqs := rfl
@[simp] theorem setSp_seq (m : Mach) (k : Nat) (x : Spindle) : (m.setSp k x).seq = m.seq := rfl
@[simp] theorem setSp_wordNo (m : Mach) (k : Nat) (x : Spindle) : (m.setSp k x).wordNo = m.wordNo := rfl
@[simp] theorem setSp_pushes (m : Mach) (k : Nat) (x : Spindle) : (m.setSp k x).pushes = m.pushes := rfl
@[simp] theorem setSp_copies (m : Mach) (k : Nat) (x : Spindle) : (m.setSp k x).copies = m.copies := rfl
@[simp] theorem setSp_jobs (m : Mach) (k : Nat) (x : Spindle) : (m.setSp k x).jobs = m.jobs := rfl
@[simp] theorem setSp_streams (m : Mach) (k : Nat) (x : Spindle) : (m.setSp k x).streams = m.streams := rfl
@[simp] theorem setSp_nextId (m : Mach) (k : Nat) (x : Spindle) : (m.setSp k x).nextId = m.nextId := rfl
@[simp] theorem setSp_tickets (m : Mach) (k : Nat) (x : Spindle) : (m.setSp k x).tickets = m.tickets := rfl
@[simp] theorem setSp_ticketN (m : Mach) (k : Nat) (x : Spindle) : (m.setSp k x).ticketN = m.ticketN := rfl
@[simp] theorem setSp_codePas (m : Mach) (k : Nat) (x : Spindle) : (m.setSp k x).codePas = m.codePas := rfl
@[simp] theorem setSp_tainted (m : Mach) (k : Nat) (x : Spindle) : (m.setSp k x).tainted = m.tainted := rfl
@[simp] theorem setSp_access (m : Mach) (k : Nat) (x : Spindle) : (m.setSp k x).access = m.access := rfl
@[simp] theorem setSp_gale (m : Mach) (k : Nat) (x : Spindle) : (m.setSp k x).gale = m.gale := rfl
@[simp] theorem setSp_loader (m : Mach) (k : Nat) (x : Spindle) : (m.setSp k x).loader = m.loader := rfl
@[simp] theorem setSp_mgmt (m : Mach) (k : Nat) (x : Spindle) : (m.setSp k x).mgmt = m.mgmt := rfl
@[simp] theorem setSp_faultQ (m : Mach) (k : Nat) (x : Spindle) : (m.setSp k x).faultQ = m.faultQ := rfl
@[simp] theorem setSp_faults (m : Mach) (k : Nat) (x : Spindle) : (m.setSp k x).faults = m.faults := rfl
@[simp] theorem setSp_faultN (m : Mach) (k : Nat) (x : Spindle) : (m.setSp k x).faultN = m.faultN := rfl
@[simp] theorem setSp_subs (m : Mach) (k : Nat) (x : Spindle) : (m.setSp k x).subs = m.subs := rfl
@[simp] theorem setSp_subsPosted (m : Mach) (k : Nat) (x : Spindle) : (m.setSp k x).subsPosted = m.subsPosted := rfl
@[simp] theorem setSp_msix (m : Mach) (k : Nat) (x : Spindle) : (m.setSp k x).msix = m.msix := rfl
@[simp] theorem setSp_flr (m : Mach) (k : Nat) (x : Spindle) : (m.setSp k x).flr = m.flr := rfl
@[simp] theorem setSp_power (m : Mach) (k : Nat) (x : Spindle) : (m.setSp k x).power = m.power := rfl
@[simp] theorem setSp_fwImage (m : Mach) (k : Nat) (x : Spindle) : (m.setSp k x).fwImage = m.fwImage := rfl
@[simp] theorem setSp_links (m : Mach) (k : Nat) (x : Spindle) : (m.setSp k x).links = m.links := rfl
@[simp] theorem setSp_untold (m : Mach) (k : Nat) (x : Spindle) : (m.setSp k x).untold = m.untold := rfl
@[simp] theorem setSp_queueOut (m : Mach) (k : Nat) (x : Spindle) : (m.setSp k x).queueOut = m.queueOut := rfl
@[simp] theorem setSp_planOut (m : Mach) (k : Nat) (x : Spindle) : (m.setSp k x).planOut = m.planOut := rfl
@[simp] theorem setSp_recs (m : Mach) (k : Nat) (x : Spindle) : (m.setSp k x).recs = m.recs := rfl
@[simp] theorem setSp_replays (m : Mach) (k : Nat) (x : Spindle) : (m.setSp k x).replays = m.replays := rfl
@[simp] theorem setSp_throttled (m : Mach) (k : Nat) (x : Spindle) : (m.setSp k x).throttled = m.throttled := rfl
@[simp] theorem setSp_hostOut (m : Mach) (k : Nat) (x : Spindle) : (m.setSp k x).hostOut = m.hostOut := rfl
@[simp] theorem setSp_turns (m : Mach) (k : Nat) (x : Spindle) : (m.setSp k x).turns = m.turns := rfl
@[simp] theorem setSp_pickN (m : Mach) (k : Nat) (x : Spindle) : (m.setSp k x).pickN = m.pickN := rfl
@[simp] theorem setSp_freeN (m : Mach) (k : Nat) (x : Spindle) : (m.setSp k x).freeN = m.freeN := rfl
@[simp] theorem setSp_created (m : Mach) (k : Nat) (x : Spindle) : (m.setSp k x).created = m.created := rfl

/-! ### modSp -/

@[simp] theorem modSp_clock (m : Mach) (k : Nat) (f : Spindle → Spindle) : (m.modSp k f).clock = m.clock := rfl
@[simp] theorem modSp_dram (m : Mach) (k : Nat) (f : Spindle → Spindle) : (m.modSp k f).dram = m.dram := rfl
@[simp] theorem modSp_l2 (m : Mach) (k : Nat) (f : Spindle → Spindle) : (m.modSp k f).l2 = m.l2 := rfl
@[simp] theorem modSp_owner (m : Mach) (k : Nat) (f : Spindle → Spindle) : (m.modSp k f).owner = m.owner := rfl
@[simp] theorem modSp_csm (m : Mach) (k : Nat) (f : Spindle → Spindle) : (m.modSp k f).csm = m.csm := rfl
@[simp] theorem modSp_host (m : Mach) (k : Nat) (f : Spindle → Spindle) : (m.modSp k f).host = m.host := rfl
@[simp] theorem modSp_remote (m : Mach) (k : Nat) (f : Spindle → Spindle) : (m.modSp k f).remote = m.remote := rfl
@[simp] theorem modSp_remoteAcc (m : Mach) (k : Nat) (f : Spindle → Spindle) : (m.modSp k f).remoteAcc = m.remoteAcc := rfl
@[simp] theorem modSp_lost (m : Mach) (k : Nat) (f : Spindle → Spindle) : (m.modSp k f).lost = m.lost := rfl
@[simp] theorem modSp_whole (m : Mach) (k : Nat) (f : Spindle → Spindle) : (m.modSp k f).whole = m.whole := rfl
@[simp] theorem modSp_bad (m : Mach) (k : Nat) (f : Spindle → Spindle) : (m.modSp k f).bad = m.bad := rfl
@[simp] theorem modSp_ctxs (m : Mach) (k : Nat) (f : Spindle → Spindle) : (m.modSp k f).ctxs = m.ctxs := rfl
@[simp] theorem modSp_regions (m : Mach) (k : Nat) (f : Spindle → Spindle) : (m.modSp k f).regions = m.regions := rfl
@[simp] theorem modSp_crews (m : Mach) (k : Nat) (f : Spindle → Spindle) : (m.modSp k f).crews = m.crews := rfl
@[simp] theorem modSp_gangs (m : Mach) (k : Nat) (f : Spindle → Spindle) : (m.modSp k f).gangs = m.gangs := rfl
@[simp] theorem modSp_threads (m : Mach) (k : Nat) (f : Spindle → Spindle) : (m.modSp k f).threads = m.threads := rfl
@[simp] theorem modSp_spindles (m : Mach) (k : Nat) (f : Spindle → Spindle) : (m.modSp k f).spindles = m.spindles.put k (f (m.spindle k)) := rfl
@[simp] theorem modSp_dies (m : Mach) (k : Nat) (f : Spindle → Spindle) : (m.modSp k f).dies = m.dies := rfl
@[simp] theorem modSp_pools (m : Mach) (k : Nat) (f : Spindle → Spindle) : (m.modSp k f).pools = m.pools := rfl
@[simp] theorem modSp_results (m : Mach) (k : Nat) (f : Spindle → Spindle) : (m.modSp k f).results = m.results := rfl
@[simp] theorem modSp_reqs (m : Mach) (k : Nat) (f : Spindle → Spindle) : (m.modSp k f).reqs = m.reqs := rfl
@[simp] theorem modSp_seq (m : Mach) (k : Nat) (f : Spindle → Spindle) : (m.modSp k f).seq = m.seq := rfl
@[simp] theorem modSp_wordNo (m : Mach) (k : Nat) (f : Spindle → Spindle) : (m.modSp k f).wordNo = m.wordNo := rfl
@[simp] theorem modSp_pushes (m : Mach) (k : Nat) (f : Spindle → Spindle) : (m.modSp k f).pushes = m.pushes := rfl
@[simp] theorem modSp_copies (m : Mach) (k : Nat) (f : Spindle → Spindle) : (m.modSp k f).copies = m.copies := rfl
@[simp] theorem modSp_jobs (m : Mach) (k : Nat) (f : Spindle → Spindle) : (m.modSp k f).jobs = m.jobs := rfl
@[simp] theorem modSp_streams (m : Mach) (k : Nat) (f : Spindle → Spindle) : (m.modSp k f).streams = m.streams := rfl
@[simp] theorem modSp_nextId (m : Mach) (k : Nat) (f : Spindle → Spindle) : (m.modSp k f).nextId = m.nextId := rfl
@[simp] theorem modSp_tickets (m : Mach) (k : Nat) (f : Spindle → Spindle) : (m.modSp k f).tickets = m.tickets := rfl
@[simp] theorem modSp_ticketN (m : Mach) (k : Nat) (f : Spindle → Spindle) : (m.modSp k f).ticketN = m.ticketN := rfl
@[simp] theorem modSp_codePas (m : Mach) (k : Nat) (f : Spindle → Spindle) : (m.modSp k f).codePas = m.codePas := rfl
@[simp] theorem modSp_tainted (m : Mach) (k : Nat) (f : Spindle → Spindle) : (m.modSp k f).tainted = m.tainted := rfl
@[simp] theorem modSp_access (m : Mach) (k : Nat) (f : Spindle → Spindle) : (m.modSp k f).access = m.access := rfl
@[simp] theorem modSp_gale (m : Mach) (k : Nat) (f : Spindle → Spindle) : (m.modSp k f).gale = m.gale := rfl
@[simp] theorem modSp_loader (m : Mach) (k : Nat) (f : Spindle → Spindle) : (m.modSp k f).loader = m.loader := rfl
@[simp] theorem modSp_mgmt (m : Mach) (k : Nat) (f : Spindle → Spindle) : (m.modSp k f).mgmt = m.mgmt := rfl
@[simp] theorem modSp_faultQ (m : Mach) (k : Nat) (f : Spindle → Spindle) : (m.modSp k f).faultQ = m.faultQ := rfl
@[simp] theorem modSp_faults (m : Mach) (k : Nat) (f : Spindle → Spindle) : (m.modSp k f).faults = m.faults := rfl
@[simp] theorem modSp_faultN (m : Mach) (k : Nat) (f : Spindle → Spindle) : (m.modSp k f).faultN = m.faultN := rfl
@[simp] theorem modSp_subs (m : Mach) (k : Nat) (f : Spindle → Spindle) : (m.modSp k f).subs = m.subs := rfl
@[simp] theorem modSp_subsPosted (m : Mach) (k : Nat) (f : Spindle → Spindle) : (m.modSp k f).subsPosted = m.subsPosted := rfl
@[simp] theorem modSp_msix (m : Mach) (k : Nat) (f : Spindle → Spindle) : (m.modSp k f).msix = m.msix := rfl
@[simp] theorem modSp_flr (m : Mach) (k : Nat) (f : Spindle → Spindle) : (m.modSp k f).flr = m.flr := rfl
@[simp] theorem modSp_power (m : Mach) (k : Nat) (f : Spindle → Spindle) : (m.modSp k f).power = m.power := rfl
@[simp] theorem modSp_fwImage (m : Mach) (k : Nat) (f : Spindle → Spindle) : (m.modSp k f).fwImage = m.fwImage := rfl
@[simp] theorem modSp_links (m : Mach) (k : Nat) (f : Spindle → Spindle) : (m.modSp k f).links = m.links := rfl
@[simp] theorem modSp_untold (m : Mach) (k : Nat) (f : Spindle → Spindle) : (m.modSp k f).untold = m.untold := rfl
@[simp] theorem modSp_queueOut (m : Mach) (k : Nat) (f : Spindle → Spindle) : (m.modSp k f).queueOut = m.queueOut := rfl
@[simp] theorem modSp_planOut (m : Mach) (k : Nat) (f : Spindle → Spindle) : (m.modSp k f).planOut = m.planOut := rfl
@[simp] theorem modSp_recs (m : Mach) (k : Nat) (f : Spindle → Spindle) : (m.modSp k f).recs = m.recs := rfl
@[simp] theorem modSp_replays (m : Mach) (k : Nat) (f : Spindle → Spindle) : (m.modSp k f).replays = m.replays := rfl
@[simp] theorem modSp_throttled (m : Mach) (k : Nat) (f : Spindle → Spindle) : (m.modSp k f).throttled = m.throttled := rfl
@[simp] theorem modSp_hostOut (m : Mach) (k : Nat) (f : Spindle → Spindle) : (m.modSp k f).hostOut = m.hostOut := rfl
@[simp] theorem modSp_turns (m : Mach) (k : Nat) (f : Spindle → Spindle) : (m.modSp k f).turns = m.turns := rfl
@[simp] theorem modSp_pickN (m : Mach) (k : Nat) (f : Spindle → Spindle) : (m.modSp k f).pickN = m.pickN := rfl
@[simp] theorem modSp_freeN (m : Mach) (k : Nat) (f : Spindle → Spindle) : (m.modSp k f).freeN = m.freeN := rfl
@[simp] theorem modSp_created (m : Mach) (k : Nat) (f : Spindle → Spindle) : (m.modSp k f).created = m.created := rfl

/-! ### modDie -/

@[simp] theorem modDie_clock (m : Mach) (k : Nat) (f : Die → Die) : (m.modDie k f).clock = m.clock := rfl
@[simp] theorem modDie_dram (m : Mach) (k : Nat) (f : Die → Die) : (m.modDie k f).dram = m.dram := rfl
@[simp] theorem modDie_l2 (m : Mach) (k : Nat) (f : Die → Die) : (m.modDie k f).l2 = m.l2 := rfl
@[simp] theorem modDie_owner (m : Mach) (k : Nat) (f : Die → Die) : (m.modDie k f).owner = m.owner := rfl
@[simp] theorem modDie_csm (m : Mach) (k : Nat) (f : Die → Die) : (m.modDie k f).csm = m.csm := rfl
@[simp] theorem modDie_host (m : Mach) (k : Nat) (f : Die → Die) : (m.modDie k f).host = m.host := rfl
@[simp] theorem modDie_remote (m : Mach) (k : Nat) (f : Die → Die) : (m.modDie k f).remote = m.remote := rfl
@[simp] theorem modDie_remoteAcc (m : Mach) (k : Nat) (f : Die → Die) : (m.modDie k f).remoteAcc = m.remoteAcc := rfl
@[simp] theorem modDie_lost (m : Mach) (k : Nat) (f : Die → Die) : (m.modDie k f).lost = m.lost := rfl
@[simp] theorem modDie_whole (m : Mach) (k : Nat) (f : Die → Die) : (m.modDie k f).whole = m.whole := rfl
@[simp] theorem modDie_bad (m : Mach) (k : Nat) (f : Die → Die) : (m.modDie k f).bad = m.bad := rfl
@[simp] theorem modDie_ctxs (m : Mach) (k : Nat) (f : Die → Die) : (m.modDie k f).ctxs = m.ctxs := rfl
@[simp] theorem modDie_regions (m : Mach) (k : Nat) (f : Die → Die) : (m.modDie k f).regions = m.regions := rfl
@[simp] theorem modDie_crews (m : Mach) (k : Nat) (f : Die → Die) : (m.modDie k f).crews = m.crews := rfl
@[simp] theorem modDie_gangs (m : Mach) (k : Nat) (f : Die → Die) : (m.modDie k f).gangs = m.gangs := rfl
@[simp] theorem modDie_threads (m : Mach) (k : Nat) (f : Die → Die) : (m.modDie k f).threads = m.threads := rfl
@[simp] theorem modDie_spindles (m : Mach) (k : Nat) (f : Die → Die) : (m.modDie k f).spindles = m.spindles := rfl
@[simp] theorem modDie_dies (m : Mach) (k : Nat) (f : Die → Die) : (m.modDie k f).dies = m.dies.put k (f (m.die k)) := rfl
@[simp] theorem modDie_pools (m : Mach) (k : Nat) (f : Die → Die) : (m.modDie k f).pools = m.pools := rfl
@[simp] theorem modDie_results (m : Mach) (k : Nat) (f : Die → Die) : (m.modDie k f).results = m.results := rfl
@[simp] theorem modDie_reqs (m : Mach) (k : Nat) (f : Die → Die) : (m.modDie k f).reqs = m.reqs := rfl
@[simp] theorem modDie_seq (m : Mach) (k : Nat) (f : Die → Die) : (m.modDie k f).seq = m.seq := rfl
@[simp] theorem modDie_wordNo (m : Mach) (k : Nat) (f : Die → Die) : (m.modDie k f).wordNo = m.wordNo := rfl
@[simp] theorem modDie_pushes (m : Mach) (k : Nat) (f : Die → Die) : (m.modDie k f).pushes = m.pushes := rfl
@[simp] theorem modDie_copies (m : Mach) (k : Nat) (f : Die → Die) : (m.modDie k f).copies = m.copies := rfl
@[simp] theorem modDie_jobs (m : Mach) (k : Nat) (f : Die → Die) : (m.modDie k f).jobs = m.jobs := rfl
@[simp] theorem modDie_streams (m : Mach) (k : Nat) (f : Die → Die) : (m.modDie k f).streams = m.streams := rfl
@[simp] theorem modDie_nextId (m : Mach) (k : Nat) (f : Die → Die) : (m.modDie k f).nextId = m.nextId := rfl
@[simp] theorem modDie_tickets (m : Mach) (k : Nat) (f : Die → Die) : (m.modDie k f).tickets = m.tickets := rfl
@[simp] theorem modDie_ticketN (m : Mach) (k : Nat) (f : Die → Die) : (m.modDie k f).ticketN = m.ticketN := rfl
@[simp] theorem modDie_codePas (m : Mach) (k : Nat) (f : Die → Die) : (m.modDie k f).codePas = m.codePas := rfl
@[simp] theorem modDie_tainted (m : Mach) (k : Nat) (f : Die → Die) : (m.modDie k f).tainted = m.tainted := rfl
@[simp] theorem modDie_access (m : Mach) (k : Nat) (f : Die → Die) : (m.modDie k f).access = m.access := rfl
@[simp] theorem modDie_gale (m : Mach) (k : Nat) (f : Die → Die) : (m.modDie k f).gale = m.gale := rfl
@[simp] theorem modDie_loader (m : Mach) (k : Nat) (f : Die → Die) : (m.modDie k f).loader = m.loader := rfl
@[simp] theorem modDie_mgmt (m : Mach) (k : Nat) (f : Die → Die) : (m.modDie k f).mgmt = m.mgmt := rfl
@[simp] theorem modDie_faultQ (m : Mach) (k : Nat) (f : Die → Die) : (m.modDie k f).faultQ = m.faultQ := rfl
@[simp] theorem modDie_faults (m : Mach) (k : Nat) (f : Die → Die) : (m.modDie k f).faults = m.faults := rfl
@[simp] theorem modDie_faultN (m : Mach) (k : Nat) (f : Die → Die) : (m.modDie k f).faultN = m.faultN := rfl
@[simp] theorem modDie_subs (m : Mach) (k : Nat) (f : Die → Die) : (m.modDie k f).subs = m.subs := rfl
@[simp] theorem modDie_subsPosted (m : Mach) (k : Nat) (f : Die → Die) : (m.modDie k f).subsPosted = m.subsPosted := rfl
@[simp] theorem modDie_msix (m : Mach) (k : Nat) (f : Die → Die) : (m.modDie k f).msix = m.msix := rfl
@[simp] theorem modDie_flr (m : Mach) (k : Nat) (f : Die → Die) : (m.modDie k f).flr = m.flr := rfl
@[simp] theorem modDie_power (m : Mach) (k : Nat) (f : Die → Die) : (m.modDie k f).power = m.power := rfl
@[simp] theorem modDie_fwImage (m : Mach) (k : Nat) (f : Die → Die) : (m.modDie k f).fwImage = m.fwImage := rfl
@[simp] theorem modDie_links (m : Mach) (k : Nat) (f : Die → Die) : (m.modDie k f).links = m.links := rfl
@[simp] theorem modDie_untold (m : Mach) (k : Nat) (f : Die → Die) : (m.modDie k f).untold = m.untold := rfl
@[simp] theorem modDie_queueOut (m : Mach) (k : Nat) (f : Die → Die) : (m.modDie k f).queueOut = m.queueOut := rfl
@[simp] theorem modDie_planOut (m : Mach) (k : Nat) (f : Die → Die) : (m.modDie k f).planOut = m.planOut := rfl
@[simp] theorem modDie_recs (m : Mach) (k : Nat) (f : Die → Die) : (m.modDie k f).recs = m.recs := rfl
@[simp] theorem modDie_replays (m : Mach) (k : Nat) (f : Die → Die) : (m.modDie k f).replays = m.replays := rfl
@[simp] theorem modDie_throttled (m : Mach) (k : Nat) (f : Die → Die) : (m.modDie k f).throttled = m.throttled := rfl
@[simp] theorem modDie_hostOut (m : Mach) (k : Nat) (f : Die → Die) : (m.modDie k f).hostOut = m.hostOut := rfl
@[simp] theorem modDie_turns (m : Mach) (k : Nat) (f : Die → Die) : (m.modDie k f).turns = m.turns := rfl
@[simp] theorem modDie_pickN (m : Mach) (k : Nat) (f : Die → Die) : (m.modDie k f).pickN = m.pickN := rfl
@[simp] theorem modDie_freeN (m : Mach) (k : Nat) (f : Die → Die) : (m.modDie k f).freeN = m.freeN := rfl
@[simp] theorem modDie_created (m : Mach) (k : Nat) (f : Die → Die) : (m.modDie k f).created = m.created := rfl

/-! ### addRes -/

@[simp] theorem addRes_clock (m : Mach) (r : Res) : (m.addRes r).clock = m.clock := rfl
@[simp] theorem addRes_dram (m : Mach) (r : Res) : (m.addRes r).dram = m.dram := rfl
@[simp] theorem addRes_l2 (m : Mach) (r : Res) : (m.addRes r).l2 = m.l2 := rfl
@[simp] theorem addRes_owner (m : Mach) (r : Res) : (m.addRes r).owner = m.owner := rfl
@[simp] theorem addRes_csm (m : Mach) (r : Res) : (m.addRes r).csm = m.csm := rfl
@[simp] theorem addRes_host (m : Mach) (r : Res) : (m.addRes r).host = m.host := rfl
@[simp] theorem addRes_remote (m : Mach) (r : Res) : (m.addRes r).remote = m.remote := rfl
@[simp] theorem addRes_remoteAcc (m : Mach) (r : Res) : (m.addRes r).remoteAcc = m.remoteAcc := rfl
@[simp] theorem addRes_lost (m : Mach) (r : Res) : (m.addRes r).lost = m.lost := rfl
@[simp] theorem addRes_whole (m : Mach) (r : Res) : (m.addRes r).whole = m.whole := rfl
@[simp] theorem addRes_bad (m : Mach) (r : Res) : (m.addRes r).bad = m.bad := rfl
@[simp] theorem addRes_ctxs (m : Mach) (r : Res) : (m.addRes r).ctxs = m.ctxs := rfl
@[simp] theorem addRes_regions (m : Mach) (r : Res) : (m.addRes r).regions = m.regions := rfl
@[simp] theorem addRes_crews (m : Mach) (r : Res) : (m.addRes r).crews = m.crews := rfl
@[simp] theorem addRes_gangs (m : Mach) (r : Res) : (m.addRes r).gangs = m.gangs := rfl
@[simp] theorem addRes_threads (m : Mach) (r : Res) : (m.addRes r).threads = m.threads := rfl
@[simp] theorem addRes_spindles (m : Mach) (r : Res) : (m.addRes r).spindles = m.spindles := rfl
@[simp] theorem addRes_dies (m : Mach) (r : Res) : (m.addRes r).dies = m.dies := rfl
@[simp] theorem addRes_pools (m : Mach) (r : Res) : (m.addRes r).pools = m.pools := rfl
@[simp] theorem addRes_reqs (m : Mach) (r : Res) : (m.addRes r).reqs = m.reqs := rfl
@[simp] theorem addRes_seq (m : Mach) (r : Res) : (m.addRes r).seq = m.seq + 1 := rfl
@[simp] theorem addRes_wordNo (m : Mach) (r : Res) : (m.addRes r).wordNo = m.wordNo := rfl
@[simp] theorem addRes_pushes (m : Mach) (r : Res) : (m.addRes r).pushes = m.pushes := rfl
@[simp] theorem addRes_copies (m : Mach) (r : Res) : (m.addRes r).copies = m.copies := rfl
@[simp] theorem addRes_jobs (m : Mach) (r : Res) : (m.addRes r).jobs = m.jobs := rfl
@[simp] theorem addRes_streams (m : Mach) (r : Res) : (m.addRes r).streams = m.streams := rfl
@[simp] theorem addRes_nextId (m : Mach) (r : Res) : (m.addRes r).nextId = m.nextId := rfl
@[simp] theorem addRes_tickets (m : Mach) (r : Res) : (m.addRes r).tickets = m.tickets := rfl
@[simp] theorem addRes_ticketN (m : Mach) (r : Res) : (m.addRes r).ticketN = m.ticketN := rfl
@[simp] theorem addRes_codePas (m : Mach) (r : Res) : (m.addRes r).codePas = m.codePas := rfl
@[simp] theorem addRes_tainted (m : Mach) (r : Res) : (m.addRes r).tainted = m.tainted := rfl
@[simp] theorem addRes_access (m : Mach) (r : Res) : (m.addRes r).access = m.access := rfl
@[simp] theorem addRes_gale (m : Mach) (r : Res) : (m.addRes r).gale = m.gale := rfl
@[simp] theorem addRes_loader (m : Mach) (r : Res) : (m.addRes r).loader = m.loader := rfl
@[simp] theorem addRes_mgmt (m : Mach) (r : Res) : (m.addRes r).mgmt = m.mgmt := rfl
@[simp] theorem addRes_faultQ (m : Mach) (r : Res) : (m.addRes r).faultQ = m.faultQ := rfl
@[simp] theorem addRes_faults (m : Mach) (r : Res) : (m.addRes r).faults = m.faults := rfl
@[simp] theorem addRes_faultN (m : Mach) (r : Res) : (m.addRes r).faultN = m.faultN := rfl
@[simp] theorem addRes_subs (m : Mach) (r : Res) : (m.addRes r).subs = m.subs := rfl
@[simp] theorem addRes_subsPosted (m : Mach) (r : Res) : (m.addRes r).subsPosted = m.subsPosted := rfl
@[simp] theorem addRes_msix (m : Mach) (r : Res) : (m.addRes r).msix = m.msix := rfl
@[simp] theorem addRes_flr (m : Mach) (r : Res) : (m.addRes r).flr = m.flr := rfl
@[simp] theorem addRes_power (m : Mach) (r : Res) : (m.addRes r).power = m.power := rfl
@[simp] theorem addRes_fwImage (m : Mach) (r : Res) : (m.addRes r).fwImage = m.fwImage := rfl
@[simp] theorem addRes_links (m : Mach) (r : Res) : (m.addRes r).links = m.links := rfl
@[simp] theorem addRes_untold (m : Mach) (r : Res) : (m.addRes r).untold = m.untold := rfl
@[simp] theorem addRes_queueOut (m : Mach) (r : Res) : (m.addRes r).queueOut = m.queueOut := rfl
@[simp] theorem addRes_planOut (m : Mach) (r : Res) : (m.addRes r).planOut = m.planOut := rfl
@[simp] theorem addRes_recs (m : Mach) (r : Res) : (m.addRes r).recs = m.recs := rfl
@[simp] theorem addRes_replays (m : Mach) (r : Res) : (m.addRes r).replays = m.replays := rfl
@[simp] theorem addRes_throttled (m : Mach) (r : Res) : (m.addRes r).throttled = m.throttled := rfl
@[simp] theorem addRes_hostOut (m : Mach) (r : Res) : (m.addRes r).hostOut = m.hostOut := rfl
@[simp] theorem addRes_turns (m : Mach) (r : Res) : (m.addRes r).turns = m.turns := rfl
@[simp] theorem addRes_pickN (m : Mach) (r : Res) : (m.addRes r).pickN = m.pickN := rfl
@[simp] theorem addRes_freeN (m : Mach) (r : Res) : (m.addRes r).freeN = m.freeN := rfl
@[simp] theorem addRes_created (m : Mach) (r : Res) : (m.addRes r).created = m.created := rfl

/-! ### addReq -/

@[simp] theorem addReq_clock (m : Mach) (r : Req) : (m.addReq r).clock = m.clock := rfl
@[simp] theorem addReq_dram (m : Mach) (r : Req) : (m.addReq r).dram = m.dram := rfl
@[simp] theorem addReq_l2 (m : Mach) (r : Req) : (m.addReq r).l2 = m.l2 := rfl
@[simp] theorem addReq_owner (m : Mach) (r : Req) : (m.addReq r).owner = m.owner := rfl
@[simp] theorem addReq_csm (m : Mach) (r : Req) : (m.addReq r).csm = m.csm := rfl
@[simp] theorem addReq_host (m : Mach) (r : Req) : (m.addReq r).host = m.host := rfl
@[simp] theorem addReq_remote (m : Mach) (r : Req) : (m.addReq r).remote = m.remote := rfl
@[simp] theorem addReq_remoteAcc (m : Mach) (r : Req) : (m.addReq r).remoteAcc = m.remoteAcc := rfl
@[simp] theorem addReq_lost (m : Mach) (r : Req) : (m.addReq r).lost = m.lost := rfl
@[simp] theorem addReq_whole (m : Mach) (r : Req) : (m.addReq r).whole = m.whole := rfl
@[simp] theorem addReq_bad (m : Mach) (r : Req) : (m.addReq r).bad = m.bad := rfl
@[simp] theorem addReq_ctxs (m : Mach) (r : Req) : (m.addReq r).ctxs = m.ctxs := rfl
@[simp] theorem addReq_regions (m : Mach) (r : Req) : (m.addReq r).regions = m.regions := rfl
@[simp] theorem addReq_crews (m : Mach) (r : Req) : (m.addReq r).crews = m.crews := rfl
@[simp] theorem addReq_gangs (m : Mach) (r : Req) : (m.addReq r).gangs = m.gangs := rfl
@[simp] theorem addReq_threads (m : Mach) (r : Req) : (m.addReq r).threads = m.threads := rfl
@[simp] theorem addReq_spindles (m : Mach) (r : Req) : (m.addReq r).spindles = m.spindles := rfl
@[simp] theorem addReq_dies (m : Mach) (r : Req) : (m.addReq r).dies = m.dies := rfl
@[simp] theorem addReq_pools (m : Mach) (r : Req) : (m.addReq r).pools = m.pools := rfl
@[simp] theorem addReq_results (m : Mach) (r : Req) : (m.addReq r).results = m.results := rfl
@[simp] theorem addReq_seq (m : Mach) (r : Req) : (m.addReq r).seq = m.seq + 1 := rfl
@[simp] theorem addReq_wordNo (m : Mach) (r : Req) : (m.addReq r).wordNo = m.wordNo := rfl
@[simp] theorem addReq_pushes (m : Mach) (r : Req) : (m.addReq r).pushes = m.pushes := rfl
@[simp] theorem addReq_copies (m : Mach) (r : Req) : (m.addReq r).copies = m.copies := rfl
@[simp] theorem addReq_jobs (m : Mach) (r : Req) : (m.addReq r).jobs = m.jobs := rfl
@[simp] theorem addReq_streams (m : Mach) (r : Req) : (m.addReq r).streams = m.streams := rfl
@[simp] theorem addReq_nextId (m : Mach) (r : Req) : (m.addReq r).nextId = m.nextId := rfl
@[simp] theorem addReq_tickets (m : Mach) (r : Req) : (m.addReq r).tickets = m.tickets := rfl
@[simp] theorem addReq_ticketN (m : Mach) (r : Req) : (m.addReq r).ticketN = m.ticketN := rfl
@[simp] theorem addReq_codePas (m : Mach) (r : Req) : (m.addReq r).codePas = m.codePas := rfl
@[simp] theorem addReq_tainted (m : Mach) (r : Req) : (m.addReq r).tainted = m.tainted := rfl
@[simp] theorem addReq_access (m : Mach) (r : Req) : (m.addReq r).access = m.access := rfl
@[simp] theorem addReq_gale (m : Mach) (r : Req) : (m.addReq r).gale = m.gale := rfl
@[simp] theorem addReq_loader (m : Mach) (r : Req) : (m.addReq r).loader = m.loader := rfl
@[simp] theorem addReq_mgmt (m : Mach) (r : Req) : (m.addReq r).mgmt = m.mgmt := rfl
@[simp] theorem addReq_faultQ (m : Mach) (r : Req) : (m.addReq r).faultQ = m.faultQ := rfl
@[simp] theorem addReq_faults (m : Mach) (r : Req) : (m.addReq r).faults = m.faults := rfl
@[simp] theorem addReq_faultN (m : Mach) (r : Req) : (m.addReq r).faultN = m.faultN := rfl
@[simp] theorem addReq_subs (m : Mach) (r : Req) : (m.addReq r).subs = m.subs := rfl
@[simp] theorem addReq_subsPosted (m : Mach) (r : Req) : (m.addReq r).subsPosted = m.subsPosted := rfl
@[simp] theorem addReq_msix (m : Mach) (r : Req) : (m.addReq r).msix = m.msix := rfl
@[simp] theorem addReq_flr (m : Mach) (r : Req) : (m.addReq r).flr = m.flr := rfl
@[simp] theorem addReq_power (m : Mach) (r : Req) : (m.addReq r).power = m.power := rfl
@[simp] theorem addReq_fwImage (m : Mach) (r : Req) : (m.addReq r).fwImage = m.fwImage := rfl
@[simp] theorem addReq_links (m : Mach) (r : Req) : (m.addReq r).links = m.links := rfl
@[simp] theorem addReq_untold (m : Mach) (r : Req) : (m.addReq r).untold = m.untold := rfl
@[simp] theorem addReq_queueOut (m : Mach) (r : Req) : (m.addReq r).queueOut = m.queueOut := rfl
@[simp] theorem addReq_planOut (m : Mach) (r : Req) : (m.addReq r).planOut = m.planOut := rfl
@[simp] theorem addReq_recs (m : Mach) (r : Req) : (m.addReq r).recs = m.recs := rfl
@[simp] theorem addReq_replays (m : Mach) (r : Req) : (m.addReq r).replays = m.replays := rfl
@[simp] theorem addReq_throttled (m : Mach) (r : Req) : (m.addReq r).throttled = m.throttled := rfl
@[simp] theorem addReq_hostOut (m : Mach) (r : Req) : (m.addReq r).hostOut = m.hostOut := rfl
@[simp] theorem addReq_turns (m : Mach) (r : Req) : (m.addReq r).turns = m.turns := rfl
@[simp] theorem addReq_pickN (m : Mach) (r : Req) : (m.addReq r).pickN = m.pickN := rfl
@[simp] theorem addReq_freeN (m : Mach) (r : Req) : (m.addReq r).freeN = m.freeN := rfl
@[simp] theorem addReq_created (m : Mach) (r : Req) : (m.addReq r).created = m.created := rfl

/-! ### nextWord -/

@[simp] theorem nextWord_clock (m : Mach) : (m.nextWord).clock = m.clock := rfl
@[simp] theorem nextWord_dram (m : Mach) : (m.nextWord).dram = m.dram := rfl
@[simp] theorem nextWord_l2 (m : Mach) : (m.nextWord).l2 = m.l2 := rfl
@[simp] theorem nextWord_owner (m : Mach) : (m.nextWord).owner = m.owner := rfl
@[simp] theorem nextWord_csm (m : Mach) : (m.nextWord).csm = m.csm := rfl
@[simp] theorem nextWord_host (m : Mach) : (m.nextWord).host = m.host := rfl
@[simp] theorem nextWord_remote (m : Mach) : (m.nextWord).remote = m.remote := rfl
@[simp] theorem nextWord_remoteAcc (m : Mach) : (m.nextWord).remoteAcc = m.remoteAcc := rfl
@[simp] theorem nextWord_lost (m : Mach) : (m.nextWord).lost = m.lost := rfl
@[simp] theorem nextWord_whole (m : Mach) : (m.nextWord).whole = m.whole := rfl
@[simp] theorem nextWord_bad (m : Mach) : (m.nextWord).bad = m.bad := rfl
@[simp] theorem nextWord_ctxs (m : Mach) : (m.nextWord).ctxs = m.ctxs := rfl
@[simp] theorem nextWord_regions (m : Mach) : (m.nextWord).regions = m.regions := rfl
@[simp] theorem nextWord_crews (m : Mach) : (m.nextWord).crews = m.crews := rfl
@[simp] theorem nextWord_gangs (m : Mach) : (m.nextWord).gangs = m.gangs := rfl
@[simp] theorem nextWord_threads (m : Mach) : (m.nextWord).threads = m.threads := rfl
@[simp] theorem nextWord_spindles (m : Mach) : (m.nextWord).spindles = m.spindles := rfl
@[simp] theorem nextWord_dies (m : Mach) : (m.nextWord).dies = m.dies := rfl
@[simp] theorem nextWord_pools (m : Mach) : (m.nextWord).pools = m.pools := rfl
@[simp] theorem nextWord_results (m : Mach) : (m.nextWord).results = m.results := rfl
@[simp] theorem nextWord_seq (m : Mach) : (m.nextWord).seq = m.seq := rfl
@[simp] theorem nextWord_wordNo (m : Mach) : (m.nextWord).wordNo = m.wordNo + 1 := rfl
@[simp] theorem nextWord_pushes (m : Mach) : (m.nextWord).pushes = m.pushes := rfl
@[simp] theorem nextWord_copies (m : Mach) : (m.nextWord).copies = m.copies := rfl
@[simp] theorem nextWord_jobs (m : Mach) : (m.nextWord).jobs = m.jobs := rfl
@[simp] theorem nextWord_streams (m : Mach) : (m.nextWord).streams = m.streams := rfl
@[simp] theorem nextWord_nextId (m : Mach) : (m.nextWord).nextId = m.nextId := rfl
@[simp] theorem nextWord_tickets (m : Mach) : (m.nextWord).tickets = m.tickets := rfl
@[simp] theorem nextWord_ticketN (m : Mach) : (m.nextWord).ticketN = m.ticketN := rfl
@[simp] theorem nextWord_codePas (m : Mach) : (m.nextWord).codePas = m.codePas := rfl
@[simp] theorem nextWord_tainted (m : Mach) : (m.nextWord).tainted = m.tainted := rfl
@[simp] theorem nextWord_access (m : Mach) : (m.nextWord).access = m.access := rfl
@[simp] theorem nextWord_gale (m : Mach) : (m.nextWord).gale = m.gale := rfl
@[simp] theorem nextWord_loader (m : Mach) : (m.nextWord).loader = m.loader := rfl
@[simp] theorem nextWord_mgmt (m : Mach) : (m.nextWord).mgmt = m.mgmt := rfl
@[simp] theorem nextWord_faultQ (m : Mach) : (m.nextWord).faultQ = m.faultQ := rfl
@[simp] theorem nextWord_faults (m : Mach) : (m.nextWord).faults = m.faults := rfl
@[simp] theorem nextWord_faultN (m : Mach) : (m.nextWord).faultN = m.faultN := rfl
@[simp] theorem nextWord_subs (m : Mach) : (m.nextWord).subs = m.subs := rfl
@[simp] theorem nextWord_subsPosted (m : Mach) : (m.nextWord).subsPosted = m.subsPosted := rfl
@[simp] theorem nextWord_msix (m : Mach) : (m.nextWord).msix = m.msix := rfl
@[simp] theorem nextWord_flr (m : Mach) : (m.nextWord).flr = m.flr := rfl
@[simp] theorem nextWord_power (m : Mach) : (m.nextWord).power = m.power := rfl
@[simp] theorem nextWord_fwImage (m : Mach) : (m.nextWord).fwImage = m.fwImage := rfl
@[simp] theorem nextWord_links (m : Mach) : (m.nextWord).links = m.links := rfl
@[simp] theorem nextWord_untold (m : Mach) : (m.nextWord).untold = m.untold := rfl
@[simp] theorem nextWord_queueOut (m : Mach) : (m.nextWord).queueOut = m.queueOut := rfl
@[simp] theorem nextWord_planOut (m : Mach) : (m.nextWord).planOut = m.planOut := rfl
@[simp] theorem nextWord_recs (m : Mach) : (m.nextWord).recs = m.recs := rfl
@[simp] theorem nextWord_replays (m : Mach) : (m.nextWord).replays = m.replays := rfl
@[simp] theorem nextWord_throttled (m : Mach) : (m.nextWord).throttled = m.throttled := rfl
@[simp] theorem nextWord_hostOut (m : Mach) : (m.nextWord).hostOut = m.hostOut := rfl
@[simp] theorem nextWord_turns (m : Mach) : (m.nextWord).turns = m.turns := rfl
@[simp] theorem nextWord_pickN (m : Mach) : (m.nextWord).pickN = m.pickN := rfl
@[simp] theorem nextWord_freeN (m : Mach) : (m.nextWord).freeN = m.freeN := rfl
@[simp] theorem nextWord_created (m : Mach) : (m.nextWord).created = m.created := rfl

/-! ### Updates of a thread -/

@[simp] theorem wr_region (t : Thread) (r : Reg) (x : Word) : (t.wr r x).region = t.region := rfl
@[simp] theorem wr_gang (t : Thread) (r : Reg) (x : Word) : (t.wr r x).gang = t.gang := rfl
@[simp] theorem wr_lane (t : Thread) (r : Reg) (x : Word) : (t.wr r x).lane = t.lane := rfl
@[simp] theorem wr_stat (t : Thread) (r : Reg) (x : Word) : (t.wr r x).stat = t.stat := rfl
@[simp] theorem wr_pos (t : Thread) (r : Reg) (x : Word) : (t.wr r x).pos = t.pos := rfl
@[simp] theorem wr_p (t : Thread) (r : Reg) (x : Word) : (t.wr r x).p = t.p := rfl
@[simp] theorem wr_lnk (t : Thread) (r : Reg) (x : Word) : (t.wr r x).lnk = t.lnk := rfl
@[simp] theorem wr_fmode (t : Thread) (r : Reg) (x : Word) : (t.wr r x).fmode = t.fmode := rfl
@[simp] theorem wr_fstat (t : Thread) (r : Reg) (x : Word) : (t.wr r x).fstat = t.fstat := rfl
@[simp] theorem wr_trapc (t : Thread) (r : Reg) (x : Word) : (t.wr r x).trapc = t.trapc := rfl
@[simp] theorem wr_trapa (t : Thread) (r : Reg) (x : Word) : (t.wr r x).trapa = t.trapa := rfl
@[simp] theorem wr_trapi (t : Thread) (r : Reg) (x : Word) : (t.wr r x).trapi = t.trapi := rfl
@[simp] theorem wr_h (t : Thread) (r : Reg) (x : Word) : (t.wr r x).h = t.h := rfl
@[simp] theorem wr_preq (t : Thread) (r : Reg) (x : Word) : (t.wr r x).preq = t.preq := rfl
@[simp] theorem wr_tid (t : Thread) (r : Reg) (x : Word) : (t.wr r x).tid = t.tid := rfl
@[simp] theorem wr_fstk (t : Thread) (r : Reg) (x : Word) : (t.wr r x).fstk = t.fstk := rfl
@[simp] theorem wr_frames (t : Thread) (r : Reg) (x : Word) : (t.wr r x).frames = t.frames := rfl
@[simp] theorem wr_cells (t : Thread) (r : Reg) (x : Word) : (t.wr r x).cells = t.cells := rfl
@[simp] theorem wr_depth (t : Thread) (r : Reg) (x : Word) : (t.wr r x).depth = t.depth := rfl
@[simp] theorem wr_pend (t : Thread) (r : Reg) (x : Word) : (t.wr r x).pend = t.pend := rfl
@[simp] theorem wr_retired (t : Thread) (r : Reg) (x : Word) : (t.wr r x).retired = t.retired := rfl
@[simp] theorem wr_due (t : Thread) (r : Reg) (x : Word) : (t.wr r x).due = t.due := rfl
@[simp] theorem wr_skip (t : Thread) (r : Reg) (x : Word) : (t.wr r x).skip = t.skip := rfl
@[simp] theorem wr_yield (t : Thread) (r : Reg) (x : Word) : (t.wr r x).yield = t.yield := rfl
@[simp] theorem wr_spawn (t : Thread) (r : Reg) (x : Word) : (t.wr r x).spawn = t.spawn := rfl
@[simp] theorem wr_parent (t : Thread) (r : Reg) (x : Word) : (t.wr r x).parent = t.parent := rfl
@[simp] theorem wr_pslot (t : Thread) (r : Reg) (x : Word) : (t.wr r x).pslot = t.pslot := rfl
@[simp] theorem wr_entry (t : Thread) (r : Reg) (x : Word) : (t.wr r x).entry = t.entry := rfl
@[simp] theorem wr_stk (t : Thread) (r : Reg) (x : Word) : (t.wr r x).stk = t.stk := rfl
@[simp] theorem wr_tick (t : Thread) (r : Reg) (x : Word) : (t.wr r x).tick = t.tick := rfl
@[simp] theorem wr_tried (t : Thread) (r : Reg) (x : Word) : (t.wr r x).tried = t.tried := rfl
@[simp] theorem wr_deferred (t : Thread) (r : Reg) (x : Word) : (t.wr r x).deferred = t.deferred := rfl
@[simp] theorem wr_owed (t : Thread) (r : Reg) (x : Word) : (t.wr r x).owed = t.owed := rfl
@[simp] theorem wr_fence (t : Thread) (r : Reg) (x : Word) : (t.wr r x).fence = t.fence := rfl
@[simp] theorem wr_att (t : Thread) (r : Reg) (x : Word) : (t.wr r x).att = t.att := rfl
@[simp] theorem wr_hatt (t : Thread) (r : Reg) (x : Word) : (t.wr r x).hatt = t.hatt := rfl
@[simp] theorem wr_gone (t : Thread) (r : Reg) (x : Word) : (t.wr r x).gone = t.gone := rfl

@[simp] theorem wrPair_region (t : Thread) (r : Reg) (x : BitVec 64) : (t.wrPair r x).region = t.region := rfl
@[simp] theorem wrPair_gang (t : Thread) (r : Reg) (x : BitVec 64) : (t.wrPair r x).gang = t.gang := rfl
@[simp] theorem wrPair_lane (t : Thread) (r : Reg) (x : BitVec 64) : (t.wrPair r x).lane = t.lane := rfl
@[simp] theorem wrPair_stat (t : Thread) (r : Reg) (x : BitVec 64) : (t.wrPair r x).stat = t.stat := rfl
@[simp] theorem wrPair_pos (t : Thread) (r : Reg) (x : BitVec 64) : (t.wrPair r x).pos = t.pos := rfl
@[simp] theorem wrPair_p (t : Thread) (r : Reg) (x : BitVec 64) : (t.wrPair r x).p = t.p := rfl
@[simp] theorem wrPair_lnk (t : Thread) (r : Reg) (x : BitVec 64) : (t.wrPair r x).lnk = t.lnk := rfl
@[simp] theorem wrPair_fmode (t : Thread) (r : Reg) (x : BitVec 64) : (t.wrPair r x).fmode = t.fmode := rfl
@[simp] theorem wrPair_fstat (t : Thread) (r : Reg) (x : BitVec 64) : (t.wrPair r x).fstat = t.fstat := rfl
@[simp] theorem wrPair_trapc (t : Thread) (r : Reg) (x : BitVec 64) : (t.wrPair r x).trapc = t.trapc := rfl
@[simp] theorem wrPair_trapa (t : Thread) (r : Reg) (x : BitVec 64) : (t.wrPair r x).trapa = t.trapa := rfl
@[simp] theorem wrPair_trapi (t : Thread) (r : Reg) (x : BitVec 64) : (t.wrPair r x).trapi = t.trapi := rfl
@[simp] theorem wrPair_h (t : Thread) (r : Reg) (x : BitVec 64) : (t.wrPair r x).h = t.h := rfl
@[simp] theorem wrPair_preq (t : Thread) (r : Reg) (x : BitVec 64) : (t.wrPair r x).preq = t.preq := rfl
@[simp] theorem wrPair_tid (t : Thread) (r : Reg) (x : BitVec 64) : (t.wrPair r x).tid = t.tid := rfl
@[simp] theorem wrPair_fstk (t : Thread) (r : Reg) (x : BitVec 64) : (t.wrPair r x).fstk = t.fstk := rfl
@[simp] theorem wrPair_frames (t : Thread) (r : Reg) (x : BitVec 64) : (t.wrPair r x).frames = t.frames := rfl
@[simp] theorem wrPair_cells (t : Thread) (r : Reg) (x : BitVec 64) : (t.wrPair r x).cells = t.cells := rfl
@[simp] theorem wrPair_depth (t : Thread) (r : Reg) (x : BitVec 64) : (t.wrPair r x).depth = t.depth := rfl
@[simp] theorem wrPair_pend (t : Thread) (r : Reg) (x : BitVec 64) : (t.wrPair r x).pend = t.pend := rfl
@[simp] theorem wrPair_retired (t : Thread) (r : Reg) (x : BitVec 64) : (t.wrPair r x).retired = t.retired := rfl
@[simp] theorem wrPair_due (t : Thread) (r : Reg) (x : BitVec 64) : (t.wrPair r x).due = t.due := rfl
@[simp] theorem wrPair_skip (t : Thread) (r : Reg) (x : BitVec 64) : (t.wrPair r x).skip = t.skip := rfl
@[simp] theorem wrPair_yield (t : Thread) (r : Reg) (x : BitVec 64) : (t.wrPair r x).yield = t.yield := rfl
@[simp] theorem wrPair_spawn (t : Thread) (r : Reg) (x : BitVec 64) : (t.wrPair r x).spawn = t.spawn := rfl
@[simp] theorem wrPair_parent (t : Thread) (r : Reg) (x : BitVec 64) : (t.wrPair r x).parent = t.parent := rfl
@[simp] theorem wrPair_pslot (t : Thread) (r : Reg) (x : BitVec 64) : (t.wrPair r x).pslot = t.pslot := rfl
@[simp] theorem wrPair_entry (t : Thread) (r : Reg) (x : BitVec 64) : (t.wrPair r x).entry = t.entry := rfl
@[simp] theorem wrPair_stk (t : Thread) (r : Reg) (x : BitVec 64) : (t.wrPair r x).stk = t.stk := rfl
@[simp] theorem wrPair_tick (t : Thread) (r : Reg) (x : BitVec 64) : (t.wrPair r x).tick = t.tick := rfl
@[simp] theorem wrPair_tried (t : Thread) (r : Reg) (x : BitVec 64) : (t.wrPair r x).tried = t.tried := rfl
@[simp] theorem wrPair_deferred (t : Thread) (r : Reg) (x : BitVec 64) : (t.wrPair r x).deferred = t.deferred := rfl
@[simp] theorem wrPair_owed (t : Thread) (r : Reg) (x : BitVec 64) : (t.wrPair r x).owed = t.owed := rfl
@[simp] theorem wrPair_fence (t : Thread) (r : Reg) (x : BitVec 64) : (t.wrPair r x).fence = t.fence := rfl
@[simp] theorem wrPair_att (t : Thread) (r : Reg) (x : BitVec 64) : (t.wrPair r x).att = t.att := rfl
@[simp] theorem wrPair_hatt (t : Thread) (r : Reg) (x : BitVec 64) : (t.wrPair r x).hatt = t.hatt := rfl
@[simp] theorem wrPair_gone (t : Thread) (r : Reg) (x : BitVec 64) : (t.wrPair r x).gone = t.gone := rfl

@[simp] theorem setTrap_region (t : Thread) (tr : Trap) (q : BitVec 64) : (t.setTrap tr q).region = t.region := rfl
@[simp] theorem setTrap_gang (t : Thread) (tr : Trap) (q : BitVec 64) : (t.setTrap tr q).gang = t.gang := rfl
@[simp] theorem setTrap_lane (t : Thread) (tr : Trap) (q : BitVec 64) : (t.setTrap tr q).lane = t.lane := rfl
@[simp] theorem setTrap_stat (t : Thread) (tr : Trap) (q : BitVec 64) : (t.setTrap tr q).stat = t.stat := rfl
@[simp] theorem setTrap_pos (t : Thread) (tr : Trap) (q : BitVec 64) : (t.setTrap tr q).pos = t.pos := rfl
@[simp] theorem setTrap_v (t : Thread) (tr : Trap) (q : BitVec 64) : (t.setTrap tr q).v = t.v := rfl
@[simp] theorem setTrap_p (t : Thread) (tr : Trap) (q : BitVec 64) : (t.setTrap tr q).p = t.p := rfl
@[simp] theorem setTrap_lnk (t : Thread) (tr : Trap) (q : BitVec 64) : (t.setTrap tr q).lnk = t.lnk := rfl
@[simp] theorem setTrap_fmode (t : Thread) (tr : Trap) (q : BitVec 64) : (t.setTrap tr q).fmode = t.fmode := rfl
@[simp] theorem setTrap_fstat (t : Thread) (tr : Trap) (q : BitVec 64) : (t.setTrap tr q).fstat = t.fstat := rfl
@[simp] theorem setTrap_h (t : Thread) (tr : Trap) (q : BitVec 64) : (t.setTrap tr q).h = t.h := rfl
@[simp] theorem setTrap_preq (t : Thread) (tr : Trap) (q : BitVec 64) : (t.setTrap tr q).preq = t.preq := rfl
@[simp] theorem setTrap_tid (t : Thread) (tr : Trap) (q : BitVec 64) : (t.setTrap tr q).tid = t.tid := rfl
@[simp] theorem setTrap_fstk (t : Thread) (tr : Trap) (q : BitVec 64) : (t.setTrap tr q).fstk = t.fstk := rfl
@[simp] theorem setTrap_frames (t : Thread) (tr : Trap) (q : BitVec 64) : (t.setTrap tr q).frames = t.frames := rfl
@[simp] theorem setTrap_cells (t : Thread) (tr : Trap) (q : BitVec 64) : (t.setTrap tr q).cells = t.cells := rfl
@[simp] theorem setTrap_depth (t : Thread) (tr : Trap) (q : BitVec 64) : (t.setTrap tr q).depth = t.depth := rfl
@[simp] theorem setTrap_pend (t : Thread) (tr : Trap) (q : BitVec 64) : (t.setTrap tr q).pend = t.pend := rfl
@[simp] theorem setTrap_retired (t : Thread) (tr : Trap) (q : BitVec 64) : (t.setTrap tr q).retired = t.retired := rfl
@[simp] theorem setTrap_due (t : Thread) (tr : Trap) (q : BitVec 64) : (t.setTrap tr q).due = t.due := rfl
@[simp] theorem setTrap_skip (t : Thread) (tr : Trap) (q : BitVec 64) : (t.setTrap tr q).skip = t.skip := rfl
@[simp] theorem setTrap_yield (t : Thread) (tr : Trap) (q : BitVec 64) : (t.setTrap tr q).yield = t.yield := rfl
@[simp] theorem setTrap_spawn (t : Thread) (tr : Trap) (q : BitVec 64) : (t.setTrap tr q).spawn = t.spawn := rfl
@[simp] theorem setTrap_parent (t : Thread) (tr : Trap) (q : BitVec 64) : (t.setTrap tr q).parent = t.parent := rfl
@[simp] theorem setTrap_pslot (t : Thread) (tr : Trap) (q : BitVec 64) : (t.setTrap tr q).pslot = t.pslot := rfl
@[simp] theorem setTrap_entry (t : Thread) (tr : Trap) (q : BitVec 64) : (t.setTrap tr q).entry = t.entry := rfl
@[simp] theorem setTrap_stk (t : Thread) (tr : Trap) (q : BitVec 64) : (t.setTrap tr q).stk = t.stk := rfl
@[simp] theorem setTrap_tick (t : Thread) (tr : Trap) (q : BitVec 64) : (t.setTrap tr q).tick = t.tick := rfl
@[simp] theorem setTrap_tried (t : Thread) (tr : Trap) (q : BitVec 64) : (t.setTrap tr q).tried = t.tried := rfl
@[simp] theorem setTrap_deferred (t : Thread) (tr : Trap) (q : BitVec 64) : (t.setTrap tr q).deferred = t.deferred := rfl
@[simp] theorem setTrap_owed (t : Thread) (tr : Trap) (q : BitVec 64) : (t.setTrap tr q).owed = t.owed := rfl
@[simp] theorem setTrap_fence (t : Thread) (tr : Trap) (q : BitVec 64) : (t.setTrap tr q).fence = t.fence := rfl
@[simp] theorem setTrap_att (t : Thread) (tr : Trap) (q : BitVec 64) : (t.setTrap tr q).att = t.att := rfl
@[simp] theorem setTrap_hatt (t : Thread) (tr : Trap) (q : BitVec 64) : (t.setTrap tr q).hatt = t.hatt := rfl
@[simp] theorem setTrap_gone (t : Thread) (tr : Trap) (q : BitVec 64) : (t.setTrap tr q).gone = t.gone := rfl

@[simp] theorem takeTrap_region (t : Thread) (hv : BitVec 56) (tr : Trap) (q : BitVec 64) : (t.takeTrap hv tr q).region = t.region := rfl
@[simp] theorem takeTrap_gang (t : Thread) (hv : BitVec 56) (tr : Trap) (q : BitVec 64) : (t.takeTrap hv tr q).gang = t.gang := rfl
@[simp] theorem takeTrap_lane (t : Thread) (hv : BitVec 56) (tr : Trap) (q : BitVec 64) : (t.takeTrap hv tr q).lane = t.lane := rfl
@[simp] theorem takeTrap_v (t : Thread) (hv : BitVec 56) (tr : Trap) (q : BitVec 64) : (t.takeTrap hv tr q).v = t.v := rfl
@[simp] theorem takeTrap_p (t : Thread) (hv : BitVec 56) (tr : Trap) (q : BitVec 64) : (t.takeTrap hv tr q).p = t.p := rfl
@[simp] theorem takeTrap_lnk (t : Thread) (hv : BitVec 56) (tr : Trap) (q : BitVec 64) : (t.takeTrap hv tr q).lnk = t.lnk := rfl
@[simp] theorem takeTrap_fmode (t : Thread) (hv : BitVec 56) (tr : Trap) (q : BitVec 64) : (t.takeTrap hv tr q).fmode = t.fmode := rfl
@[simp] theorem takeTrap_fstat (t : Thread) (hv : BitVec 56) (tr : Trap) (q : BitVec 64) : (t.takeTrap hv tr q).fstat = t.fstat := rfl
@[simp] theorem takeTrap_preq (t : Thread) (hv : BitVec 56) (tr : Trap) (q : BitVec 64) : (t.takeTrap hv tr q).preq = t.preq := rfl
@[simp] theorem takeTrap_tid (t : Thread) (hv : BitVec 56) (tr : Trap) (q : BitVec 64) : (t.takeTrap hv tr q).tid = t.tid := rfl
@[simp] theorem takeTrap_fstk (t : Thread) (hv : BitVec 56) (tr : Trap) (q : BitVec 64) : (t.takeTrap hv tr q).fstk = t.fstk := rfl
@[simp] theorem takeTrap_frames (t : Thread) (hv : BitVec 56) (tr : Trap) (q : BitVec 64) : (t.takeTrap hv tr q).frames = t.frames := rfl
@[simp] theorem takeTrap_cells (t : Thread) (hv : BitVec 56) (tr : Trap) (q : BitVec 64) : (t.takeTrap hv tr q).cells = t.cells := rfl
@[simp] theorem takeTrap_depth (t : Thread) (hv : BitVec 56) (tr : Trap) (q : BitVec 64) : (t.takeTrap hv tr q).depth = t.depth := rfl
@[simp] theorem takeTrap_retired (t : Thread) (hv : BitVec 56) (tr : Trap) (q : BitVec 64) : (t.takeTrap hv tr q).retired = t.retired := rfl
@[simp] theorem takeTrap_due (t : Thread) (hv : BitVec 56) (tr : Trap) (q : BitVec 64) : (t.takeTrap hv tr q).due = t.due := rfl
@[simp] theorem takeTrap_skip (t : Thread) (hv : BitVec 56) (tr : Trap) (q : BitVec 64) : (t.takeTrap hv tr q).skip = t.skip := rfl
@[simp] theorem takeTrap_yield (t : Thread) (hv : BitVec 56) (tr : Trap) (q : BitVec 64) : (t.takeTrap hv tr q).yield = t.yield := rfl
@[simp] theorem takeTrap_spawn (t : Thread) (hv : BitVec 56) (tr : Trap) (q : BitVec 64) : (t.takeTrap hv tr q).spawn = t.spawn := rfl
@[simp] theorem takeTrap_parent (t : Thread) (hv : BitVec 56) (tr : Trap) (q : BitVec 64) : (t.takeTrap hv tr q).parent = t.parent := rfl
@[simp] theorem takeTrap_pslot (t : Thread) (hv : BitVec 56) (tr : Trap) (q : BitVec 64) : (t.takeTrap hv tr q).pslot = t.pslot := rfl
@[simp] theorem takeTrap_entry (t : Thread) (hv : BitVec 56) (tr : Trap) (q : BitVec 64) : (t.takeTrap hv tr q).entry = t.entry := rfl
@[simp] theorem takeTrap_stk (t : Thread) (hv : BitVec 56) (tr : Trap) (q : BitVec 64) : (t.takeTrap hv tr q).stk = t.stk := rfl
@[simp] theorem takeTrap_tick (t : Thread) (hv : BitVec 56) (tr : Trap) (q : BitVec 64) : (t.takeTrap hv tr q).tick = t.tick := rfl
@[simp] theorem takeTrap_tried (t : Thread) (hv : BitVec 56) (tr : Trap) (q : BitVec 64) : (t.takeTrap hv tr q).tried = t.tried := rfl
@[simp] theorem takeTrap_deferred (t : Thread) (hv : BitVec 56) (tr : Trap) (q : BitVec 64) : (t.takeTrap hv tr q).deferred = t.deferred := rfl
@[simp] theorem takeTrap_owed (t : Thread) (hv : BitVec 56) (tr : Trap) (q : BitVec 64) : (t.takeTrap hv tr q).owed = t.owed := rfl
@[simp] theorem takeTrap_fence (t : Thread) (hv : BitVec 56) (tr : Trap) (q : BitVec 64) : (t.takeTrap hv tr q).fence = t.fence := rfl
@[simp] theorem takeTrap_att (t : Thread) (hv : BitVec 56) (tr : Trap) (q : BitVec 64) : (t.takeTrap hv tr q).att = t.att := rfl
@[simp] theorem takeTrap_hatt (t : Thread) (hv : BitVec 56) (tr : Trap) (q : BitVec 64) : (t.takeTrap hv tr q).hatt = t.hatt := rfl
@[simp] theorem takeTrap_gone (t : Thread) (hv : BitVec 56) (tr : Trap) (q : BitVec 64) : (t.takeTrap hv tr q).gone = t.gone := rfl

@[simp] theorem eret_region (t : Thread) : (t.eret).region = t.region := rfl
@[simp] theorem eret_gang (t : Thread) : (t.eret).gang = t.gang := rfl
@[simp] theorem eret_lane (t : Thread) : (t.eret).lane = t.lane := rfl
@[simp] theorem eret_v (t : Thread) : (t.eret).v = t.v := rfl
@[simp] theorem eret_p (t : Thread) : (t.eret).p = t.p := rfl
@[simp] theorem eret_lnk (t : Thread) : (t.eret).lnk = t.lnk := rfl
@[simp] theorem eret_fmode (t : Thread) : (t.eret).fmode = t.fmode := rfl
@[simp] theorem eret_fstat (t : Thread) : (t.eret).fstat = t.fstat := rfl
@[simp] theorem eret_trapc (t : Thread) : (t.eret).trapc = t.trapc := rfl
@[simp] theorem eret_trapa (t : Thread) : (t.eret).trapa = t.trapa := rfl
@[simp] theorem eret_trapi (t : Thread) : (t.eret).trapi = t.trapi := rfl
@[simp] theorem eret_preq (t : Thread) : (t.eret).preq = t.preq := rfl
@[simp] theorem eret_tid (t : Thread) : (t.eret).tid = t.tid := rfl
@[simp] theorem eret_fstk (t : Thread) : (t.eret).fstk = t.fstk := rfl
@[simp] theorem eret_frames (t : Thread) : (t.eret).frames = t.frames := rfl
@[simp] theorem eret_cells (t : Thread) : (t.eret).cells = t.cells := rfl
@[simp] theorem eret_depth (t : Thread) : (t.eret).depth = t.depth := rfl
@[simp] theorem eret_retired (t : Thread) : (t.eret).retired = t.retired := rfl
@[simp] theorem eret_due (t : Thread) : (t.eret).due = t.due := rfl
@[simp] theorem eret_skip (t : Thread) : (t.eret).skip = t.skip := rfl
@[simp] theorem eret_yield (t : Thread) : (t.eret).yield = t.yield := rfl
@[simp] theorem eret_spawn (t : Thread) : (t.eret).spawn = t.spawn := rfl
@[simp] theorem eret_parent (t : Thread) : (t.eret).parent = t.parent := rfl
@[simp] theorem eret_pslot (t : Thread) : (t.eret).pslot = t.pslot := rfl
@[simp] theorem eret_entry (t : Thread) : (t.eret).entry = t.entry := rfl
@[simp] theorem eret_stk (t : Thread) : (t.eret).stk = t.stk := rfl
@[simp] theorem eret_tick (t : Thread) : (t.eret).tick = t.tick := rfl
@[simp] theorem eret_tried (t : Thread) : (t.eret).tried = t.tried := rfl
@[simp] theorem eret_deferred (t : Thread) : (t.eret).deferred = t.deferred := rfl
@[simp] theorem eret_owed (t : Thread) : (t.eret).owed = t.owed := rfl
@[simp] theorem eret_fence (t : Thread) : (t.eret).fence = t.fence := rfl
@[simp] theorem eret_att (t : Thread) : (t.eret).att = t.att := rfl
@[simp] theorem eret_hatt (t : Thread) : (t.eret).hatt = t.hatt := rfl
@[simp] theorem eret_gone (t : Thread) : (t.eret).gone = t.gone := rfl

@[simp] theorem raise_region (t : Thread) (f : Flags) : (t.raise f).region = t.region := rfl
@[simp] theorem raise_gang (t : Thread) (f : Flags) : (t.raise f).gang = t.gang := rfl
@[simp] theorem raise_lane (t : Thread) (f : Flags) : (t.raise f).lane = t.lane := rfl
@[simp] theorem raise_stat (t : Thread) (f : Flags) : (t.raise f).stat = t.stat := rfl
@[simp] theorem raise_pos (t : Thread) (f : Flags) : (t.raise f).pos = t.pos := rfl
@[simp] theorem raise_v (t : Thread) (f : Flags) : (t.raise f).v = t.v := rfl
@[simp] theorem raise_p (t : Thread) (f : Flags) : (t.raise f).p = t.p := rfl
@[simp] theorem raise_lnk (t : Thread) (f : Flags) : (t.raise f).lnk = t.lnk := rfl
@[simp] theorem raise_fmode (t : Thread) (f : Flags) : (t.raise f).fmode = t.fmode := rfl
@[simp] theorem raise_trapc (t : Thread) (f : Flags) : (t.raise f).trapc = t.trapc := rfl
@[simp] theorem raise_trapa (t : Thread) (f : Flags) : (t.raise f).trapa = t.trapa := rfl
@[simp] theorem raise_trapi (t : Thread) (f : Flags) : (t.raise f).trapi = t.trapi := rfl
@[simp] theorem raise_h (t : Thread) (f : Flags) : (t.raise f).h = t.h := rfl
@[simp] theorem raise_preq (t : Thread) (f : Flags) : (t.raise f).preq = t.preq := rfl
@[simp] theorem raise_tid (t : Thread) (f : Flags) : (t.raise f).tid = t.tid := rfl
@[simp] theorem raise_fstk (t : Thread) (f : Flags) : (t.raise f).fstk = t.fstk := rfl
@[simp] theorem raise_frames (t : Thread) (f : Flags) : (t.raise f).frames = t.frames := rfl
@[simp] theorem raise_cells (t : Thread) (f : Flags) : (t.raise f).cells = t.cells := rfl
@[simp] theorem raise_depth (t : Thread) (f : Flags) : (t.raise f).depth = t.depth := rfl
@[simp] theorem raise_pend (t : Thread) (f : Flags) : (t.raise f).pend = t.pend := rfl
@[simp] theorem raise_retired (t : Thread) (f : Flags) : (t.raise f).retired = t.retired := rfl
@[simp] theorem raise_due (t : Thread) (f : Flags) : (t.raise f).due = t.due := rfl
@[simp] theorem raise_skip (t : Thread) (f : Flags) : (t.raise f).skip = t.skip := rfl
@[simp] theorem raise_yield (t : Thread) (f : Flags) : (t.raise f).yield = t.yield := rfl
@[simp] theorem raise_spawn (t : Thread) (f : Flags) : (t.raise f).spawn = t.spawn := rfl
@[simp] theorem raise_parent (t : Thread) (f : Flags) : (t.raise f).parent = t.parent := rfl
@[simp] theorem raise_pslot (t : Thread) (f : Flags) : (t.raise f).pslot = t.pslot := rfl
@[simp] theorem raise_entry (t : Thread) (f : Flags) : (t.raise f).entry = t.entry := rfl
@[simp] theorem raise_stk (t : Thread) (f : Flags) : (t.raise f).stk = t.stk := rfl
@[simp] theorem raise_tick (t : Thread) (f : Flags) : (t.raise f).tick = t.tick := rfl
@[simp] theorem raise_tried (t : Thread) (f : Flags) : (t.raise f).tried = t.tried := rfl
@[simp] theorem raise_deferred (t : Thread) (f : Flags) : (t.raise f).deferred = t.deferred := rfl
@[simp] theorem raise_owed (t : Thread) (f : Flags) : (t.raise f).owed = t.owed := rfl
@[simp] theorem raise_fence (t : Thread) (f : Flags) : (t.raise f).fence = t.fence := rfl
@[simp] theorem raise_att (t : Thread) (f : Flags) : (t.raise f).att = t.att := rfl
@[simp] theorem raise_hatt (t : Thread) (f : Flags) : (t.raise f).hatt = t.hatt := rfl
@[simp] theorem raise_gone (t : Thread) (f : Flags) : (t.raise f).gone = t.gone := rfl

@[simp] theorem pendSet_region (t : Thread) (rs : List Reg) : (t.pendSet rs).region = t.region := rfl
@[simp] theorem pendSet_gang (t : Thread) (rs : List Reg) : (t.pendSet rs).gang = t.gang := rfl
@[simp] theorem pendSet_lane (t : Thread) (rs : List Reg) : (t.pendSet rs).lane = t.lane := rfl
@[simp] theorem pendSet_stat (t : Thread) (rs : List Reg) : (t.pendSet rs).stat = t.stat := rfl
@[simp] theorem pendSet_pos (t : Thread) (rs : List Reg) : (t.pendSet rs).pos = t.pos := rfl
@[simp] theorem pendSet_v (t : Thread) (rs : List Reg) : (t.pendSet rs).v = t.v := rfl
@[simp] theorem pendSet_p (t : Thread) (rs : List Reg) : (t.pendSet rs).p = t.p := rfl
@[simp] theorem pendSet_lnk (t : Thread) (rs : List Reg) : (t.pendSet rs).lnk = t.lnk := rfl
@[simp] theorem pendSet_fmode (t : Thread) (rs : List Reg) : (t.pendSet rs).fmode = t.fmode := rfl
@[simp] theorem pendSet_fstat (t : Thread) (rs : List Reg) : (t.pendSet rs).fstat = t.fstat := rfl
@[simp] theorem pendSet_trapc (t : Thread) (rs : List Reg) : (t.pendSet rs).trapc = t.trapc := rfl
@[simp] theorem pendSet_trapa (t : Thread) (rs : List Reg) : (t.pendSet rs).trapa = t.trapa := rfl
@[simp] theorem pendSet_trapi (t : Thread) (rs : List Reg) : (t.pendSet rs).trapi = t.trapi := rfl
@[simp] theorem pendSet_h (t : Thread) (rs : List Reg) : (t.pendSet rs).h = t.h := rfl
@[simp] theorem pendSet_preq (t : Thread) (rs : List Reg) : (t.pendSet rs).preq = t.preq := rfl
@[simp] theorem pendSet_tid (t : Thread) (rs : List Reg) : (t.pendSet rs).tid = t.tid := rfl
@[simp] theorem pendSet_fstk (t : Thread) (rs : List Reg) : (t.pendSet rs).fstk = t.fstk := rfl
@[simp] theorem pendSet_frames (t : Thread) (rs : List Reg) : (t.pendSet rs).frames = t.frames := rfl
@[simp] theorem pendSet_cells (t : Thread) (rs : List Reg) : (t.pendSet rs).cells = t.cells := rfl
@[simp] theorem pendSet_depth (t : Thread) (rs : List Reg) : (t.pendSet rs).depth = t.depth := rfl
@[simp] theorem pendSet_retired (t : Thread) (rs : List Reg) : (t.pendSet rs).retired = t.retired := rfl
@[simp] theorem pendSet_due (t : Thread) (rs : List Reg) : (t.pendSet rs).due = t.due := rfl
@[simp] theorem pendSet_skip (t : Thread) (rs : List Reg) : (t.pendSet rs).skip = t.skip := rfl
@[simp] theorem pendSet_yield (t : Thread) (rs : List Reg) : (t.pendSet rs).yield = t.yield := rfl
@[simp] theorem pendSet_spawn (t : Thread) (rs : List Reg) : (t.pendSet rs).spawn = t.spawn := rfl
@[simp] theorem pendSet_parent (t : Thread) (rs : List Reg) : (t.pendSet rs).parent = t.parent := rfl
@[simp] theorem pendSet_pslot (t : Thread) (rs : List Reg) : (t.pendSet rs).pslot = t.pslot := rfl
@[simp] theorem pendSet_entry (t : Thread) (rs : List Reg) : (t.pendSet rs).entry = t.entry := rfl
@[simp] theorem pendSet_stk (t : Thread) (rs : List Reg) : (t.pendSet rs).stk = t.stk := rfl
@[simp] theorem pendSet_tick (t : Thread) (rs : List Reg) : (t.pendSet rs).tick = t.tick := rfl
@[simp] theorem pendSet_tried (t : Thread) (rs : List Reg) : (t.pendSet rs).tried = t.tried := rfl
@[simp] theorem pendSet_deferred (t : Thread) (rs : List Reg) : (t.pendSet rs).deferred = t.deferred := rfl
@[simp] theorem pendSet_owed (t : Thread) (rs : List Reg) : (t.pendSet rs).owed = t.owed := rfl
@[simp] theorem pendSet_fence (t : Thread) (rs : List Reg) : (t.pendSet rs).fence = t.fence := rfl
@[simp] theorem pendSet_att (t : Thread) (rs : List Reg) : (t.pendSet rs).att = t.att := rfl
@[simp] theorem pendSet_hatt (t : Thread) (rs : List Reg) : (t.pendSet rs).hatt = t.hatt := rfl
@[simp] theorem pendSet_gone (t : Thread) (rs : List Reg) : (t.pendSet rs).gone = t.gone := rfl

/-- A write of a predicate leaves every other field. -/
theorem wrP_eq (t : Thread) (q : PReg) (b : Bool) : t.wrP q b = { t with p := (t.wrP q b).p } := by
  unfold Thread.wrP
  split <;> rfl

end Sys2Proof.Machine
end

