-- ==== Sys2Proof/Laws/Issue.lean ====
section
/-! SUPPORT. What a word of a group and the end of a group can do. -/

namespace Sys2Proof.Machine

/-! ### Judging -/

theorem filterMap_none {f : α → Option β} {l : List α} (hf : ∀ x ∈ l, f x = none) : l.filterMap f = [] := by
  induction l with
  | nil => rfl
  | cons a r ih => simp [hf a (by simp), ih (fun x hx => hf x (by simp [hx]))]

/-- Lanes that meet no cause all stay. -/
theorem judge_none {g : Group} {f : Nat → Option Trap} (hf : ∀ u ∈ g.run, f u = none) : g.judge f = g := by
  unfold Group.judge
  rw [List.filter_eq_self.2 (fun u hu => by simp [hf u hu]), filterMap_none (fun u hu => by simp [hf u hu])]
  simp

/-- A clear word meets neither HAZARD nor PRIV. -/
theorem baseCause_clear {i : Instr} {g : Group} (hc : Clear i g) : ∀ u ∈ g.run, baseCause i g u = none := by
  intro u hu
  have h1 := (hc u hu).1
  have h2 := (hc u hu).2
  have : (g.pre.touches u i).filter (g.pre.thr u).isPend = [] := List.filter_eq_nil_iff.2 (fun r hr => by simp [h1 r hr])
  unfold baseCause hazardOf
  simp only [this, sortBy]
  cases hp : Instr.isPriv i <;> simp_all

/-- A clear word whose own causes do not occur is judged without loss. -/
theorem judgeWord_clear {i : Instr} {g : Group} {own : Group → Nat → Option Trap} (hc : Clear i g)
    (ho : ∀ u ∈ g.run, own g u = none) : g.judgeWord i own = g := by
  unfold Group.judgeWord
  rw [judge_none (baseCause_clear hc)]
  exact judge_none ho

/-- What a clear word that does not stall does: its effect, and then the group goes on or ends. -/
theorem gangWord_clear {h : Hdr} {i : Instr} {s : State} {g : Group} {own : Group → Nat → Option Trap} {stall : Group → Bool}
    {st : Stat} {eff : Group → Mach → Mach × Group} (hi : Issues i s g) (ho : ∀ u ∈ g.run, own g u = none) (hs : stall g = false) :
    gangWord h i s own stall st eff = did h (eff g s.m).2 (eff g s.m).1 := by
  unfold gangWord did
  rw [hi.1]
  simp only [judgeWord_clear hi.2 ho, hs, Bool.false_eq_true, if_false]

/-- The same for a word without causes of its own that never stalls. -/
theorem gangWord_plain {h : Hdr} {i : Instr} {s : State} {g : Group} {st : Stat} {eff : Group → Mach → Mach × Group} (hi : Issues i s g) :
    gangWord h i s noCause noStall st eff = did h (eff g s.m).2 (eff g s.m).1 :=
  gangWord_clear hi (fun _ _ => rfl) rfl

theorem threadWord_does {h : Hdr} {i : Instr} {s : State} {g : Group} {f : Mach → Nat → Thread → Thread} (hi : Issues i s g) :
    threadWord h i s f = didThreads h s g (f g.pre) := gangWord_plain hi
theorem regWord_does {h : Hdr} {i : Instr} {s : State} {g : Group} {d : Reg} {f : Thread → Word} (hi : Issues i s g) :
    regWord h i s d f = didReg h s g d f := threadWord_does hi
theorem pairWord_does {h : Hdr} {i : Instr} {s : State} {g : Group} {d : Reg} {f : Thread → BitVec 64} (hi : Issues i s g) :
    pairWord h i s d f = didPair h s g d f := threadWord_does hi
theorem predWord_does {h : Hdr} {i : Instr} {s : State} {g : Group} {d : PReg} {f : Thread → Bool} (hi : Issues i s g) :
    predWord h i s d f = didPred h s g d f := threadWord_does hi

/-- A gang word either executes for the lanes that complete or stalls, when a group issues; else there is no such step. -/
theorem gangWord_cases {h : Hdr} {i : Instr} {s : State} {own : Group → Nat → Option Trap} {stall : Group → Bool} {st : Stat}
    {eff : Group → Mach → Mach × Group} {t : State} (ht : gangWord h i s own stall st eff = .next t) :
    ∃ g, s.act = .group g ∧
      (t = stallGroup st (g.judgeWord i own) ∨
        t = finishWord h (eff (g.judgeWord i own) s.m).2 (eff (g.judgeWord i own) s.m).1) := by
  unfold gangWord at ht
  split at ht
  · rename_i g hg
    refine ⟨g, hg, ?_⟩
    by_cases hs : stall (g.judgeWord i own) = true
    · simp [hs] at ht; exact .inl ht.symm
    · simp [hs] at ht; exact .inr ht.symm
  · cases ht

end Sys2Proof.Machine
end

