-- ==== Sys2Proof/Laws/Group.lean ====
section
/-! SUPPORT. Things kept under numbers, threads after an update, and what the end of a group leaves alone. -/

namespace Sys2Proof.Machine

/-! ### Stores -/

theorem Store.find_mapV (s : Store α) (f : Nat → α → α) (k : Nat) : (s.mapV f).find k = (s.find k).map (f k) := by
  induction s with
  | nil => rfl
  | cons x r ih =>
    obtain ⟨j, v⟩ := x
    show Store.find ((j, f j v) :: Store.mapV r f) k = _
    by_cases hk : j = k
    · subst hk; simp [Store.find]
    · simp only [Store.find, hk, if_false]; exact ih
theorem Store.at_mapV [Inhabited α] (s : Store α) (f : Nat → α → α) (k : Nat) (hk : s.has k = true) :
    (s.mapV f).at k = f k (s.at k) := by
  unfold Store.has at hk
  unfold Store.at
  rw [Store.find_mapV]
  cases h : s.find k with
  | none => simp [h] at hk
  | some x => rfl
theorem Store.at_mapV_absent [Inhabited α] (s : Store α) (f : Nat → α → α) (k : Nat) (hk : s.has k = false) :
    (s.mapV f).at k = s.at k := by
  unfold Store.has at hk
  unfold Store.at
  rw [Store.find_mapV]
  cases h : s.find k with
  | none => rfl
  | some x => simp [h] at hk
theorem Store.has_mapV (s : Store α) (f : Nat → α → α) (k : Nat) : (s.mapV f).has k = s.has k := by
  unfold Store.has; rw [Store.find_mapV]; cases s.find k <;> rfl
theorem Store.find_put_self (s : Store α) (k : Nat) (v : α) : (s.put k v).find k = some v := by
  induction s with
  | nil => simp [Store.put, Store.find]
  | cons x r ih =>
    obtain ⟨j, w⟩ := x
    by_cases hk : j = k
    · simp [Store.put, Store.find, hk]
    · simp [Store.put, Store.find, hk, ih]
theorem Store.find_put_other (s : Store α) {k j : Nat} (v : α) (hj : j ≠ k) : (s.put k v).find j = s.find j := by
  induction s with
  | nil => simp [Store.put, Store.find, Ne.symm hj]
  | cons x r ih =>
    obtain ⟨i, w⟩ := x
    by_cases hk : i = k
    · subst hk; simp [Store.put, Store.find, Ne.symm hj]
    · by_cases hi : i = j
      · subst hi; simp [Store.put, Store.find, hk]
      · simp [Store.put, Store.find, hk, hi, ih]

/-! ### Threads -/

theorem thr_mapThr (m : Mach) (f : Nat → Thread → Thread) (u : Nat) (hu : m.threads.has u = true) :
    (m.mapThr f).thr u = f u (m.thr u) := Store.at_mapV _ _ _ hu
theorem thr_onRun_in (m : Mach) {us : List Nat} (f : Nat → Thread → Thread) {u : Nat} (hu : u ∈ us) (hm : m.threads.has u = true) :
    (m.onRun us f).thr u = f u (m.thr u) := by
  unfold Mach.onRun; rw [thr_mapThr _ _ _ hm]; simp [hu]
theorem thr_onRun_out (m : Mach) {us : List Nat} (f : Nat → Thread → Thread) {u : Nat} (hu : u ∉ us) :
    (m.onRun us f).thr u = m.thr u := by
  cases hm : m.threads.has u
  · exact Store.at_mapV_absent m.threads (fun u t => if us.contains u then f u t else t) u hm
  · unfold Mach.onRun; rw [thr_mapThr _ _ _ hm]; simp [hu]

theorem SameRegs.refl (t : Thread) : SameRegs t t := ⟨rfl, rfl, rfl, rfl, rfl, rfl, rfl, rfl, rfl, rfl, rfl, rfl⟩
theorem SameRegs.trans {a b c : Thread} (h : SameRegs a b) (k : SameRegs b c) : SameRegs a c :=
  ⟨k.v.trans h.v, k.p.trans h.p, k.lnk.trans h.lnk, k.fmode.trans h.fmode, k.fstk.trans h.fstk, k.tid.trans h.tid,
   k.frames.trans h.frames, k.cells.trans h.cells, k.depth.trans h.depth, k.place.1.trans h.place.1,
   k.place.2.1.trans h.place.2.1, k.place.2.2.trans h.place.2.2⟩

/-- A change of every thread that keeps its registers keeps each thread's. -/
theorem sameRegs_mapThr (m : Mach) (f : Nat → Thread → Thread) (hf : ∀ u t, SameRegs t (f u t)) (u : Nat) :
    SameRegs (m.thr u) ((m.mapThr f).thr u) := by
  cases hm : m.threads.has u
  · rw [show (m.mapThr f).thr u = m.thr u from Store.at_mapV_absent _ _ _ hm]; exact .refl _
  · rw [thr_mapThr _ _ _ hm]; exact hf _ _

theorem unpark_same (m : Mach) (u : Nat) (t : Thread) : SameRegs t (m.unpark u t) := by
  unfold Mach.unpark; repeat' split
  all_goals exact ⟨rfl, rfl, rfl, rfl, rfl, rfl, rfl, rfl, rfl, rfl, rfl, rfl⟩
theorem endEret_same (m : Mach) (u : Nat) (t : Thread) : SameRegs t (m.endEret u t) := by
  unfold Mach.endEret; repeat' split
  all_goals exact ⟨rfl, rfl, rfl, rfl, rfl, rfl, rfl, rfl, rfl, rfl, rfl, rfl⟩
theorem takeReady_same (m : Mach) (u : Nat) (t : Thread) : SameRegs t (m.takeReady u t) := by
  unfold Mach.takeReady
  split
  · split
    · exact .refl _
    · simp only
      repeat' split
      all_goals exact ⟨rfl, rfl, rfl, rfl, rfl, rfl, rfl, rfl, rfl, rfl, rfl, rfl⟩
  · exact .refl _
/-- Letting lanes go on keeps the registers of every thread. -/
theorem settle_same (m : Mach) (u : Nat) : SameRegs (m.thr u) (m.settle.thr u) := by
  unfold Mach.settle
  exact ((sameRegs_mapThr m _ (unpark_same m) u).trans (sameRegs_mapThr _ _ (endEret_same _) u)).trans
    (sameRegs_mapThr _ _ (takeReady_same _) u)
/-- And it changes nothing but threads. -/
theorem settle_only (m : Mach) : m.settle = { m with threads := m.settle.threads } := rfl
theorem settle_has (m : Mach) (u : Nat) : m.settle.threads.has u = m.threads.has u := by
  simp [Mach.settle, Mach.mapThr, Store.has_mapV]

/-! ### The end of a group -/

theorem place_same (g : Group) (u : Nat) (t : Thread) : SameRegs t (g.place u t) := ⟨rfl, rfl, rfl, rfl, rfl, rfl, rfl, rfl, rfl, rfl, rfl, rfl⟩
theorem retire_same (m : Mach) (t : Thread) : SameRegs t (m.retire t) := ⟨rfl, rfl, rfl, rfl, rfl, rfl, rfl, rfl, rfl, rfl, rfl, rfl⟩
theorem endThread_same (g : Group) (m : Mach) (u : Nat) (t : Thread) : SameRegs t (g.endThread m u t) := by
  unfold Group.endThread
  split
  · split
    · exact ⟨rfl, rfl, rfl, rfl, rfl, rfl, rfl, rfl, rfl, rfl, rfl, rfl⟩
    · repeat' split
      all_goals exact ⟨rfl, rfl, rfl, rfl, rfl, rfl, rfl, rfl, rfl, rfl, rfl, rfl⟩
  · split
    · simp only
      split <;> split <;> exact ⟨rfl, rfl, rfl, rfl, rfl, rfl, rfl, rfl, rfl, rfl, rfl, rfl⟩
    · exact .refl _
/-- The end of a group keeps the registers of every thread. -/
theorem closeGroup_same (g : Group) (m : Mach) (u : Nat) : SameRegs (m.thr u) ((closeGroup g m).thr u) :=
  (sameRegs_mapThr m _ (endThread_same g m) u).trans (settle_same _ u)
/-- It changes nothing but threads and the count of parked sub-gangs. -/
theorem closeGroup_only (g : Group) (m : Mach) : OnlyThreads m (closeGroup g m) := rfl
theorem closeGroup_has (g : Group) (m : Mach) (u : Nat) : (closeGroup g m).threads.has u = m.threads.has u := by
  unfold closeGroup; rw [settle_has]; simp [Store.has_mapV]
/-- After a word, every thread's registers are as the word left them, and nothing else of the machine has changed. -/
theorem finishWord_same (h : Hdr) (g : Group) (m : Mach) (u : Nat) : SameRegs (m.thr u) ((finishWord h g m).m.thr u) := by
  unfold finishWord; simp only; split
  · exact .refl _
  · exact closeGroup_same _ _ _
theorem finishWord_only (h : Hdr) (g : Group) (m : Mach) : OnlyThreads m (finishWord h g m).m := by
  unfold finishWord; simp only; split
  · rfl
  · exact closeGroup_only _ _

theorem OnlyThreads.trans {a b c : Mach} (h : OnlyThreads a b) (k : OnlyThreads b c) : OnlyThreads a c := by
  unfold OnlyThreads at *; rw [k, h]
/-- A change of threads alone leaves every byte. -/
theorem OnlyThreads.bytes {m m' : Mach} (h : OnlyThreads m m') : SameBytes m m' := by
  intro sp l
  rw [h]
  rfl
theorem onRun_only (m : Mach) (us : List Nat) (f : Nat → Thread → Thread) : OnlyThreads m (m.onRun us f) := rfl

end Sys2Proof.Machine
end

