-- ==== Sys2Proof/Laws/Memory.lean ====
section
/-! SUPPORT. Memory: reads after writes, and that every operation keeps the canonical form. -/

namespace Sys2Proof.Machine

/-! ### One memory -/

/-- Every listed address lies above a bound. -/
def Mem.above (m : Mem) (a : Nat) : Prop := ∀ c ∈ m, a < c.1

theorem Mem.wf_cons {c : Host.Cell} {r : Mem} : Mem.wf (c :: r) = true ↔ c.2 ≠ 0 ∧ Mem.above r c.1 ∧ Mem.wf r = true := by
  induction r generalizing c with
  | nil => simp [Mem.wf, Mem.above]
  | cons d r ih =>
    rw [Mem.wf]
    simp only [Bool.and_eq_true, bne_iff_ne, ne_eq, decide_eq_true_eq]
    constructor
    · rintro ⟨⟨h0, h1⟩, h2⟩
      refine ⟨h0, ?_, h2⟩
      intro x hx
      rcases List.mem_cons.1 hx with rfl | hx
      · exact h1
      · exact Nat.lt_trans h1 ((ih.1 h2).2.1 x hx)
    · rintro ⟨h0, h1, h2⟩
      exact ⟨⟨h0, h1 d (by simp)⟩, h2⟩
theorem Mem.above_set {m : Mem} {b a : Nat} {v : Byte} (h : m.above b) (hb : b < a) : (m.set a v).above b := by
  induction m with
  | nil => intro c hc; unfold Mem.set at hc; split at hc <;> simp_all
  | cons c r ih =>
    have hc := h c (by simp)
    have hr : Mem.above r b := fun x hx => h x (by simp [hx])
    intro x hx
    unfold Mem.set at hx
    split at hx
    · split at hx
      · exact h x hx
      · rcases List.mem_cons.1 hx with rfl | hx
        · exact hb
        · exact h x hx
    · split at hx
      · split at hx
        · exact hr x hx
        · rcases List.mem_cons.1 hx with rfl | hx
          · exact hb
          · exact hr x hx
      · rcases List.mem_cons.1 hx with rfl | hx
        · exact hc
        · exact ih hr x hx
/-- A write keeps the canonical form. -/
theorem Mem.wf_set {m : Mem} (h : m.wf = true) (a : Nat) (v : Byte) : (m.set a v).wf = true := by
  induction m with
  | nil =>
    unfold Mem.set; split
    · rfl
    · rename_i hv; simpa [Mem.wf, Mem.blank] using hv
  | cons c r ih =>
    have ⟨h0, h1, h2⟩ := Mem.wf_cons.1 h
    unfold Mem.set
    split
    · rename_i hac
      split
      · exact h
      · rename_i hv
        refine Mem.wf_cons.2 ⟨by simpa [Mem.blank] using hv, ?_, h⟩
        intro x hx
        rcases List.mem_cons.1 hx with rfl | hx
        · exact hac
        · exact Nat.lt_trans hac (h1 x hx)
    · rename_i hac
      split
      · rename_i hca
        split
        · exact h2
        · rename_i hv
          exact Mem.wf_cons.2 ⟨by simpa [Mem.blank] using hv, by rw [← hca]; exact h1, h2⟩
      · rename_i hca
        exact Mem.wf_cons.2 ⟨h0, Mem.above_set h1 (by omega), ih h2⟩
theorem Mem.wf_setBytes {m : Mem} (h : m.wf = true) (a : Nat) (bs : List Byte) : (m.setBytes a bs).wf = true := by
  induction bs generalizing m a with
  | nil => exact h
  | cons b r ih => exact ih (Mem.wf_set h a b) (a + 1)
theorem Mem.get_above {m : Mem} {a b : Nat} (h : m.above b) (ha : a ≤ b) : m.get a = Mem.blank := by
  induction m with
  | nil => rfl
  | cons c r ih =>
    have hc := h c (by simp)
    unfold Mem.get
    rw [if_neg (by omega)]
    exact ih (fun x hx => h x (by simp [hx]))
/-- A read after a write to the same address gives the byte written. -/
theorem Mem.get_set_self {m : Mem} (h : m.wf = true) (a : Nat) (v : Byte) : (m.set a v).get a = v := by
  induction m with
  | nil => unfold Mem.set; split <;> simp_all [Mem.get]
  | cons c r ih =>
    have ⟨_, h1, h2⟩ := Mem.wf_cons.1 h
    unfold Mem.set
    split
    · rename_i hac
      split
      · rename_i hv
        rw [hv]
        exact Mem.get_above (b := a) (fun x hx => by
          rcases List.mem_cons.1 hx with rfl | hx
          · exact hac
          · exact Nat.lt_trans hac (h1 x hx)) (Nat.le_refl _)
      · simp [Mem.get]
    · split
      · rename_i hca
        split
        · rename_i hv
          rw [hv]; exact Mem.get_above h1 (by omega)
        · simp [Mem.get]
      · rename_i hca
        rw [Mem.get, if_neg hca]; exact ih h2
/-- It leaves every other address alone. -/
theorem Mem.get_set_other (m : Mem) {a b : Nat} (v : Byte) (hb : b ≠ a) : (m.set a v).get b = m.get b := by
  induction m with
  | nil => unfold Mem.set; split <;> simp [Mem.get, Ne.symm hb]
  | cons c r ih =>
    unfold Mem.set
    split
    · split
      · rfl
      · simp [Mem.get, Ne.symm hb]
    · split
      · rename_i hca
        split
        · rw [Mem.get, if_neg (by omega)]
        · simp only [Mem.get]; rw [if_neg (Ne.symm hb), if_neg (by omega)]
      · simp only [Mem.get]; split
        · rfl
        · exact ih
theorem Mem.above_cells (a : Nat) (bs : List Byte) : ∀ c ∈ Mem.cells a bs, a ≤ c.1 ∧ c.1 < a + bs.length := by
  induction bs generalizing a with
  | nil => simp [Mem.cells]
  | cons b r ih =>
    intro c hc
    unfold Mem.cells at hc
    split at hc
    · have := ih (a + 1) c hc; simp; omega
    · rcases List.mem_cons.1 hc with rfl | hc
      · simp
      · have := ih (a + 1) c hc; simp; omega
theorem Mem.wf_cells (a : Nat) (bs : List Byte) : (Mem.cells a bs).wf = true := by
  induction bs generalizing a with
  | nil => rfl
  | cons b r ih =>
    unfold Mem.cells
    split
    · exact ih _
    · rename_i hb
      exact Mem.wf_cons.2 ⟨by simpa [Mem.blank] using hb, fun c hc => (Mem.above_cells (a + 1) r c hc).1, ih _⟩
theorem Mem.wf_append {m n : Mem} (hm : m.wf = true) (hn : n.wf = true) (h : ∀ c ∈ m, ∀ d ∈ n, c.1 < d.1) : Mem.wf (m ++ n) = true := by
  induction m with
  | nil => exact hn
  | cons c r ih =>
    have ⟨h0, h1, h2⟩ := Mem.wf_cons.1 hm
    refine Mem.wf_cons.2 ⟨h0, ?_, ih h2 (fun x hx => h x (by simp [hx]))⟩
    intro d hd
    rcases List.mem_append.1 hd with hd | hd
    · exact h1 d hd
    · exact h c (by simp) d hd
theorem Mem.wf_filter {m : Mem} (h : m.wf = true) (p : Host.Cell → Bool) : Mem.wf (m.filter p) = true := by
  induction m with
  | nil => rfl
  | cons c r ih =>
    have ⟨h0, h1, h2⟩ := Mem.wf_cons.1 h
    rw [List.filter_cons]
    split
    · exact Mem.wf_cons.2 ⟨h0, fun d hd => h1 d (List.mem_of_mem_filter hd), ih h2⟩
    · exact ih h2
theorem Mem.wf_block {m : Mem} (h : m.wf = true) (a : Nat) (bs : List Byte) : (m.block a bs).wf = true := by
  unfold Mem.block
  refine Mem.wf_append (Mem.wf_filter h _) (Mem.wf_append (Mem.wf_cells a bs) (Mem.wf_filter h _) ?_) ?_
  · intro c hc d hd
    have := (Mem.above_cells a bs c hc).2
    have := (List.mem_filter.1 hd).2
    simp at this; omega
  · intro c hc d hd
    have hc' := (List.mem_filter.1 hc).2
    simp at hc'
    rcases List.mem_append.1 hd with hd | hd
    · have := (Mem.above_cells a bs d hd).1; omega
    · have := (List.mem_filter.1 hd).2
      simp at this; omega

/-! ### The machine's memories -/

theorem Store.mem_put {s : Store α} {k : Nat} {v : α} {x : Nat × α} (hx : x ∈ s.put k v) : x = (k, v) ∨ x ∈ s := by
  induction s with
  | nil => simp [Store.put] at hx; exact .inl hx
  | cons y r ih =>
    obtain ⟨j, w⟩ := y
    unfold Store.put at hx
    split at hx
    · rcases List.mem_cons.1 hx with h | h
      · exact .inl h
      · exact .inr (by simp [h])
    · rcases List.mem_cons.1 hx with h | h
      · exact .inr (by simp [h])
      · rcases ih h with h | h
        · exact .inl h
        · exact .inr (by simp [h])
theorem Store.at_mem [Inhabited α] (s : Store α) (k : Nat) : s.at k = default ∨ (k, s.at k) ∈ s := by
  induction s with
  | nil => exact .inl rfl
  | cons y r ih =>
    obtain ⟨j, w⟩ := y
    unfold Store.at at *
    unfold Store.find
    by_cases hk : j = k
    · subst hk; simp
    · simp only [hk, if_false, List.mem_cons]
      rcases ih with h | h
      · exact .inl h
      · exact .inr (.inr h)
theorem Store.mem_mapV {s : Store α} {f : Nat → α → α} {x : Nat × α} (hx : x ∈ s.mapV f) : ∃ y ∈ s, x = (y.1, f y.1 y.2) := by
  unfold Store.mapV at hx
  obtain ⟨y, hy, rfl⟩ := List.mem_map.1 hx
  exact ⟨y, hy, rfl⟩

theorem memWf_dramPut {m : Mach} (h : m.memWf) (l : Loc) (b : Byte) : (m.dramPut l b).memWf := by
  unfold Mach.dramPut
  split
  · exact ⟨Mem.wf_set h.1 _ _, h.2⟩
  · exact h
theorem memWf_foldl {α : Type} {f : Mach → α → Mach} (hf : ∀ m a, m.memWf → (f m a).memWf) {m : Mach} (h : m.memWf) (l : List α) :
    (l.foldl f m).memWf := by
  induction l generalizing m with
  | nil => exact h
  | cons a r ih => exact ih (hf _ _ h)
theorem memWf_l2Clean {m : Mach} (h : m.memWf) (pa : Nat) : (m.l2Clean pa).memWf := by
  unfold Mach.l2Clean
  split
  · exact h
  · exact ⟨Mem.wf_set h.1 _ _, h.2⟩
theorem memWf_retag {m : Mach} (h : m.memWf) (l : Loc) : (m.retag l).memWf := by
  unfold Mach.retag
  split
  · exact h
  · split
    · exact h
    · simp only
      generalize span (l.addr / 64 * 64) 64 = unit
      have := memWf_foldl (f := Mach.l2Clean) (fun m a hm => memWf_l2Clean hm a) h unit
      exact ⟨Mem.wf_setBytes this.1 _ _, this.2⟩
/-- A write of a byte at its home keeps every memory canonical. -/
theorem memWf_homeSet {m : Mach} (h : m.memWf) (l : Loc) (b : Byte) : (m.homeSet l b).memWf := by
  unfold Mach.homeSet
  split
  · exact memWf_dramPut (memWf_retag h l) l b
  · exact ⟨h.1, Mem.wf_set h.2.1 _ _, h.2.2⟩
  · split
    · exact h
    · exact ⟨h.1, h.2.1, Mem.wf_set h.2.2.1 _ _, h.2.2.2⟩
  · refine ⟨h.1, h.2.1, h.2.2.1, h.2.2.2.1, ?_, h.2.2.2.2.2⟩
    intro x hx
    simp only [modCrew_crews, Store.mod] at hx
    obtain ⟨y, hy, rfl⟩ := Store.mem_mapV hx
    simp only
    split
    · exact Mem.wf_set (h.2.2.2.2.1 y hy) _ _
    · exact h.2.2.2.2.1 y hy
  · refine ⟨h.1, h.2.1, h.2.2.1, ?_, h.2.2.2.2⟩
    intro x hx
    rcases Store.mem_put hx with rfl | hx
    · refine Mem.wf_set ?_ _ _
      rcases Store.at_mem m.remote ‹Nat› with hk | hk
      · rw [hk]; rfl
      · exact h.2.2.2.1 _ hk
    · exact h.2.2.2.1 x hx
theorem memWf_homeSets {m : Mach} (h : m.memWf) (ls : List Loc) (bs : List Byte) : (m.homeSets ls bs).memWf := by
  induction ls generalizing m bs with
  | nil => cases bs <;> exact h
  | cons l r ih => cases bs with
    | nil => exact h
    | cons b bs => exact ih (memWf_homeSet h l b) bs
/-- A change of a spindle that keeps its accumulators keeps every memory canonical. -/
theorem memWf_modSp {m : Mach} (h : m.memWf) (p : Nat) (f : Spindle → Spindle) (hf : ∀ s : Spindle, (f s).acc = s.acc) : (m.modSp p f).memWf := by
  refine ⟨h.1, h.2.1, h.2.2.1, h.2.2.2.1, h.2.2.2.2.1, ?_⟩
  intro x hx
  rcases Store.mem_put hx with rfl | hx
  · simp only [hf]
    rcases Store.at_mem m.spindles p with hk | hk
    · show (m.spindles.at p).acc.wf = true
      rw [hk]; rfl
    · exact h.2.2.2.2.2 _ hk
  · exact h.2.2.2.2.2 x hx
theorem memWf_modL1 {m : Mach} (h : m.memWf) (sp : Nat) (f : List Line → List Line) :
    (m.modSp sp (fun s => { s with l1 := f s.l1 })).memWf := memWf_modSp h sp _ (fun _ => rfl)
theorem memWf_homeMix {m : Mach} (h : m.memWf) (l : Loc) (b mask : Byte) : (m.homeMix l b mask).memWf := by
  unfold Mach.homeMix
  exact memWf_homeSet h l _
theorem memWf_bad {m : Mach} (h : m.memWf) (bs : List (Sto × Nat)) : ({ m with bad := bs } : Mach).memWf := h
/-- A write-back of an L1 keeps every memory canonical. -/
theorem memWf_l1Clean {m : Mach} (h : m.memWf) (sp : Nat) (drop : Bool) (p : Line → Bool) : (m.l1Clean sp drop p).memWf := by
  unfold Mach.l1Clean
  have hc := memWf_foldl (f := fun (x : Mach) (y : Line) => x.homeMix y.loc y.val y.dirty) (fun m a hm => memWf_homeMix hm _ _ _) h
    ((m.spindle sp).l1.filter (fun x => x.dirty != 0 && p x))
  exact memWf_modSp (memWf_bad hc _) _ _ (fun _ => rfl)
/-- And so does bringing its copies up to their homes. -/
theorem memWf_l1Renew {m : Mach} (h : m.memWf) (sp : Nat) (ls : List Loc) : (m.l1Renew sp ls).memWf := by
  unfold Mach.l1Renew
  simp only
  split
  · exact memWf_modL1 h sp _
  · exact h
theorem memWf_l1Drop {m : Mach} (h : m.memWf) (sp : Nat) (p : Line → Bool) : (m.l1Drop sp p).memWf := memWf_modSp h _ _ (fun _ => rfl)
/-- And so does a store of a spindle, into some bits of a byte or into all of them. -/
theorem memWf_storeBits {m : Mach} (h : m.memWf) (sp : Nat) (l : Loc) (b mask : Byte) : (m.storeBits sp l b mask).memWf := by
  unfold Mach.storeBits
  simp only
  split
  · exact memWf_homeMix h l _ _
  · split
    · exact memWf_modL1 h sp _
    · exact memWf_homeMix (memWf_modL1 h sp _) l b mask
theorem memWf_store {m : Mach} (h : m.memWf) (sp : Nat) (l : Loc) (b : Byte) : (m.store sp l b).memWf := memWf_storeBits h sp l b _
/-- A machine whose memories list nothing has canonical memories. -/
theorem memWf_blank : ({} : Mach).memWf := by
  refine ⟨rfl, rfl, rfl, ?_, ?_, ?_⟩ <;> (intro x hx; cases hx)

end Sys2Proof.Machine
end

