-- ==== Sys2Proof/Laws/Words.lean ====
section
/-! SUPPORT. Fields of words: what the decoder cuts from a word is what the encoder put there. -/

namespace Sys2Proof.Laws

/-! ### Cutting and joining -/

theorem extract_lo {a b : Nat} (x : BitVec a) (y : BitVec b) (i n : Nat) (h : i + n ≤ b) :
    (x ++ y).extractLsb' i n = y.extractLsb' i n := by
  apply BitVec.eq_of_getElem_eq
  intro j hj
  simp [BitVec.getLsbD_append, show i + j < b by omega]
theorem extract_hi {a b : Nat} (x : BitVec a) (y : BitVec b) (i n : Nat) (h : b ≤ i) :
    (x ++ y).extractLsb' i n = x.extractLsb' (i - b) n := by
  apply BitVec.eq_of_getElem_eq
  intro j hj
  simp [BitVec.getLsbD_append, show ¬ (i + j < b) by omega, show i + j - b = i - b + j by omega]
theorem extract_all {a : Nat} (x : BitVec a) : x.extractLsb' 0 a = x := by
  apply BitVec.eq_of_getElem_eq
  intro j hj
  simp
theorem bit_lo {a b : Nat} (x : BitVec a) (y : BitVec b) (i : Nat) (h : i < b) : (x ++ y).getLsbD i = y.getLsbD i := by
  simp [BitVec.getLsbD_append, h]
theorem bit_hi {a b : Nat} (x : BitVec a) (y : BitVec b) (i : Nat) (h : b ≤ i) : (x ++ y).getLsbD i = x.getLsbD (i - b) := by
  simp [BitVec.getLsbD_append, show ¬ i < b by omega]
/-- Adjacent fields join. -/
theorem extract_join {a : Nat} (x : BitVec a) (i n k : Nat) : x.extractLsb' (i + n) k ++ x.extractLsb' i n = x.extractLsb' i (k + n) := by
  apply BitVec.eq_of_getElem_eq
  intro j hj
  by_cases h : j < n
  · simp [BitVec.getElem_append, h]
  · simp [BitVec.getElem_append, h, show i + n + (j - n) = i + j by omega]

theorem bb_bit (b : Bool) : (bb b).getLsbD 0 = b := by cases b <;> decide

/-! ### Gang words -/

section
variable (h : Hdr) (mj f3 f2 f1 f0 : BitVec 6)
theorem hdrOf_mk : hdrOf (mkWord h mj f3 f2 f1 f0) = h := by
  obtain ⟨c, s⟩ := h
  have h1 : (mkWord ⟨c, s⟩ mj f3 f2 f1 f0).getLsbD 31 = c := by
    unfold mkWord
    refine (bit_hi (a := 26) (b := 6) _ _ 31 (by decide)).trans ?_
    refine (bit_hi (a := 20) (b := 6) _ _ 25 (by decide)).trans ?_
    refine (bit_hi (a := 14) (b := 6) _ _ 19 (by decide)).trans ?_
    refine (bit_hi (a := 8) (b := 6) _ _ 13 (by decide)).trans ?_
    refine (bit_hi (a := 2) (b := 6) _ _ 7 (by decide)).trans ?_
    exact (bit_hi (a := 1) (b := 1) _ _ 1 (by decide)).trans (bb_bit c)
  have h2 : (mkWord ⟨c, s⟩ mj f3 f2 f1 f0).getLsbD 30 = s := by
    unfold mkWord
    refine (bit_hi (a := 26) (b := 6) _ _ 30 (by decide)).trans ?_
    refine (bit_hi (a := 20) (b := 6) _ _ 24 (by decide)).trans ?_
    refine (bit_hi (a := 14) (b := 6) _ _ 18 (by decide)).trans ?_
    refine (bit_hi (a := 8) (b := 6) _ _ 12 (by decide)).trans ?_
    refine (bit_hi (a := 2) (b := 6) _ _ 6 (by decide)).trans ?_
    exact (bit_lo (a := 1) (b := 1) _ _ 0 (by decide)).trans (bb_bit s)
  unfold hdrOf; rw [h1, h2]
theorem majorOf_mk : majorOf (mkWord h mj f3 f2 f1 f0) = mj := by
  unfold majorOf mkWord
  refine (extract_hi (a := 26) (b := 6) _ _ 24 6 (by decide)).trans ?_
  refine (extract_hi (a := 20) (b := 6) _ _ 18 6 (by decide)).trans ?_
  refine (extract_hi (a := 14) (b := 6) _ _ 12 6 (by decide)).trans ?_
  refine (extract_hi (a := 8) (b := 6) _ _ 6 6 (by decide)).trans ?_
  exact (extract_lo (a := 2) (b := 6) _ _ 0 6 (by decide)).trans (extract_all _)
theorem f3_mk : (mkWord h mj f3 f2 f1 f0).extractLsb' 18 6 = f3 := by
  unfold mkWord
  refine (extract_hi (a := 26) (b := 6) _ _ 18 6 (by decide)).trans ?_
  refine (extract_hi (a := 20) (b := 6) _ _ 12 6 (by decide)).trans ?_
  refine (extract_hi (a := 14) (b := 6) _ _ 6 6 (by decide)).trans ?_
  exact (extract_lo (a := 8) (b := 6) _ _ 0 6 (by decide)).trans (extract_all _)
theorem f2_mk : (mkWord h mj f3 f2 f1 f0).extractLsb' 12 6 = f2 := by
  unfold mkWord
  refine (extract_hi (a := 26) (b := 6) _ _ 12 6 (by decide)).trans ?_
  refine (extract_hi (a := 20) (b := 6) _ _ 6 6 (by decide)).trans ?_
  exact (extract_lo (a := 14) (b := 6) _ _ 0 6 (by decide)).trans (extract_all _)
theorem f1_mk : (mkWord h mj f3 f2 f1 f0).extractLsb' 6 6 = f1 := by
  unfold mkWord
  refine (extract_hi (a := 26) (b := 6) _ _ 6 6 (by decide)).trans ?_
  exact (extract_lo (a := 20) (b := 6) _ _ 0 6 (by decide)).trans (extract_all _)
theorem f0_mk : (mkWord h mj f3 f2 f1 f0).extractLsb' 0 6 = f0 := by
  unfold mkWord
  exact (extract_lo (a := 26) (b := 6) _ _ 0 6 (by decide)).trans (extract_all _)
/-- Decoding a word that was put together from a header and fields. -/
theorem decodeWord_mk : decodeWord (mkWord h mj f3 f2 f1 f0) = limited (decodeFields h mj f3 f2 f1 f0) := by
  simp only [decodeWord, hdrOf_mk, majorOf_mk, f3_mk, f2_mk, f1_mk, f0_mk]
end

/-! ### Fields of fields -/

@[simp] theorem okIf_true (i : Instr) : okIf true i = .ok i := rfl
@[simp] theorem hi_lo (x : BitVec 12) : (hi6 x ++ lo6 x : BitVec 12) = x := (extract_join x 0 6 6).trans (extract_all x)
@[simp] theorem t210 (x : BitVec 18) : (t2 x ++ t1 x ++ t0 x : BitVec 18) = x := by
  have h : (t2 x ++ t1 x : BitVec 12) = x.extractLsb' 6 12 := extract_join x 6 6 6
  rw [h]
  exact (extract_join x 0 6 12).trans (extract_all x)
@[simp] theorem u3210 (x : BitVec 24) : (u3 x ++ u2 x ++ u1 x ++ u0 x : BitVec 24) = x := by
  have h : (u3 x ++ u2 x : BitVec 12) = x.extractLsb' 12 12 := extract_join x 12 6 6
  have k : (x.extractLsb' 12 12 ++ u1 x : BitVec 18) = x.extractLsb' 6 18 := extract_join x 6 6 12
  rw [h, k]
  exact (extract_join x 0 6 18).trans (extract_all x)
@[simp] theorem rb_toFin (r : Reg) : (rb r).toFin = r := rfl
@[simp] theorem pb_toFin (r : PReg) : (pb r).toFin = r := rfl

@[simp] theorem x42_hi : ∀ (x : BitVec 4) (y : BitVec 2), (x ++ y : BitVec 6).extractLsb' 2 4 = x := by decide
@[simp] theorem x42_lo : ∀ (x : BitVec 4) (y : BitVec 2), (x ++ y : BitVec 6).extractLsb' 0 2 = y := by decide
@[simp] theorem x33_hi : ∀ (x y : BitVec 3), (x ++ y : BitVec 6).extractLsb' 3 3 = x := by decide
@[simp] theorem x33_lo : ∀ (x y : BitVec 3), (x ++ y : BitVec 6).extractLsb' 0 3 = y := by decide
@[simp] theorem x15_hi : ∀ (x : BitVec 1) (y : BitVec 5), (x ++ y : BitVec 6).extractLsb' 5 1 = x := by decide
@[simp] theorem x15_lo : ∀ (x : BitVec 1) (y : BitVec 5), (x ++ y : BitVec 6).extractLsb' 0 5 = y := by decide
@[simp] theorem x15_bit : ∀ (b : Bool) (y : BitVec 5), (bb b ++ y : BitVec 6)[5] = b := by decide
@[simp] theorem x24_hi : ∀ (x : BitVec 2) (y : BitVec 4), (x ++ y : BitVec 6).extractLsb' 4 2 = x := by decide
@[simp] theorem x24_lo : ∀ (x : BitVec 2) (y : BitVec 4), (x ++ y : BitVec 6).extractLsb' 0 4 = y := by decide
@[simp] theorem lut_join : ∀ x : BitVec 4, (x.extractLsb' 1 3 ++ x.extractLsb' 0 1 : BitVec 4) = x := by decide
@[simp] theorem fm_fi : ∀ (fi fo : Bool) (rm k : BitVec 2), (fmb ⟨fi, fo, rm⟩ ++ k : BitVec 6)[5] = fi := by decide
@[simp] theorem fm_fo : ∀ (fi fo : Bool) (rm k : BitVec 2), (fmb ⟨fi, fo, rm⟩ ++ k : BitVec 6)[4] = fo := by decide
@[simp] theorem fm_rm : ∀ (fi fo : Bool) (rm k : BitVec 2), (fmb ⟨fi, fo, rm⟩ ++ k : BitVec 6).extractLsb' 2 2 = rm := by decide
@[simp] theorem hm_fi : ∀ (fi fo t rs : Bool) (k : BitVec 2), (hmb ⟨fi, fo, t, rs⟩ ++ k : BitVec 6)[5] = fi := by decide
@[simp] theorem hm_fo : ∀ (fi fo t rs : Bool) (k : BitVec 2), (hmb ⟨fi, fo, t, rs⟩ ++ k : BitVec 6)[4] = fo := by decide
@[simp] theorem hm_t : ∀ (fi fo t rs : Bool) (k : BitVec 2), (hmb ⟨fi, fo, t, rs⟩ ++ k : BitVec 6)[3] = t := by decide
@[simp] theorem hm_rs : ∀ (fi fo t rs : Bool) (k : BitVec 2), (hmb ⟨fi, fo, t, rs⟩ ++ k : BitVec 6)[2] = rs := by decide
@[simp] theorem sg_fi : ∀ (fi fo : Bool) (j k : BitVec 2), (bb fi ++ bb fo ++ j ++ k : BitVec 6)[5] = fi := by decide
@[simp] theorem sg_fo : ∀ (fi fo : Bool) (j k : BitVec 2), (bb fi ++ bb fo ++ j ++ k : BitVec 6)[4] = fo := by decide
@[simp] theorem sg_j : ∀ (fi fo : Bool) (j k : BitVec 2), (bb fi ++ bb fo ++ j ++ k : BitVec 6).extractLsb' 2 2 = j := by decide
@[simp] theorem sg_k : ∀ (fi fo : Bool) (j k : BitVec 2), (bb fi ++ bb fo ++ j ++ k : BitVec 6).extractLsb' 0 2 = k := by decide
@[simp] theorem sf_fi : ∀ (fi fo : Bool) (k : BitVec 4), (bb fi ++ bb fo ++ k : BitVec 6)[5] = fi := by decide
@[simp] theorem sf_fo : ∀ (fi fo : Bool) (k : BitVec 4), (bb fi ++ bb fo ++ k : BitVec 6)[4] = fo := by decide
@[simp] theorem sf_k : ∀ (fi fo : Bool) (k : BitVec 4), (bb fi ++ bb fo ++ k : BitVec 6).extractLsb' 0 4 = k := by decide
@[simp] theorem at_w : ∀ (w : Bool) (op : BitVec 4) (k : BitVec 1), (bb w ++ op ++ k : BitVec 6)[5] = w := by decide
@[simp] theorem at_op : ∀ (w : Bool) (op : BitVec 4) (k : BitVec 1), (bb w ++ op ++ k : BitVec 6).extractLsb' 1 4 = op := by decide
@[simp] theorem at_k : ∀ (w : Bool) (op : BitVec 4) (k : BitVec 1), (bb w ++ op ++ k : BitVec 6).extractLsb' 0 1 = k := by decide
@[simp] theorem fr_op : ∀ (op fmt k : BitVec 2), (op ++ fmt ++ k : BitVec 6).extractLsb' 4 2 = op := by decide
@[simp] theorem fr_fmt : ∀ (op fmt k : BitVec 2), (op ++ fmt ++ k : BitVec 6).extractLsb' 2 2 = fmt := by decide
@[simp] theorem fr_k : ∀ (op fmt k : BitVec 2), (op ++ fmt ++ k : BitVec 6).extractLsb' 0 2 = k := by decide

end Sys2Proof.Laws
end

