-- ==== Sys2Proof/Laws/PerInstr.lean ====
section
/-! SUPPORT. The family RoundTrip: for each instruction, decoding the word that the encoder gives it gives it back. -/

namespace Sys2Proof.Laws

/-- A well-formed instruction is what its gang word, or its stream word, decodes to; an encoding that is no instruction carries its word
as it is. -/
def RoundTrip.Statement (i : Instr) : Prop :=
  i.wellFormed = true →
    (∀ w, encodeWord i = some w → decodeWord w = .ok i ∨ i = .illegalEncoding w) ∧
    (∀ w, encodeStream i = some w → decodeStream w = .ok i ∨ i = .illegalStreamWord w)

theorem RoundTrip.ofGang {i : Instr} {w : Word} (hw : encodeWord i = some w) (hs : encodeStream i = none)
    (hd : i.wellFormed = true → decodeWord w = .ok i) : RoundTrip.Statement i := by
  intro hf
  constructor
  · intro v hv; rw [hw] at hv; cases hv; exact .inl (hd hf)
  · intro v hv; rw [hs] at hv; cases hv
theorem RoundTrip.ofStream {i : Instr} {w : BitVec 64} (hw : encodeWord i = none) (hs : encodeStream i = some w)
    (hd : i.wellFormed = true → decodeStream w = .ok i) : RoundTrip.Statement i := by
  intro hf
  constructor
  · intro v hv; rw [hw] at hv; cases hv
  · intro v hv; rw [hs] at hv; cases hv; exact .inl (hd hf)
theorem RoundTrip.ofNone {i : Instr} (hw : encodeWord i = none) (hs : encodeStream i = none) : RoundTrip.Statement i := by
  intro _
  constructor
  · intro v hv; rw [hw] at hv; cases hv
  · intro v hv; rw [hs] at hv; cases hv
/-- The operand limits pass what is well-formed. -/
theorem limited_ok {i : Instr} (hf : i.wellFormed = true) : limited (.ok i) = .ok i := by simp [limited, hf]

theorem RoundTrip.nop (h : Hdr) : RoundTrip.Statement (.nop h) := by
  refine RoundTrip.ofGang rfl rfl (fun hf => ?_)
  rw [decodeWord_mk, ← limited_ok hf]
  exact congrArg limited (by simp [decodeFields, decMajor00])
theorem RoundTrip.exit (h : Hdr) : RoundTrip.Statement (.exit h) := by
  refine RoundTrip.ofGang rfl rfl (fun hf => ?_)
  rw [decodeWord_mk, ← limited_ok hf]
  exact congrArg limited (by simp [decodeFields, decMajor00])
theorem RoundTrip.trap (h : Hdr) (a : Reg) : RoundTrip.Statement (.trap h a) := by
  refine RoundTrip.ofGang rfl rfl (fun hf => ?_)
  rw [decodeWord_mk, ← limited_ok hf]
  exact congrArg limited (by simp [decodeFields, decMajor00])
theorem RoundTrip.yield (h : Hdr) : RoundTrip.Statement (.yield h) := by
  refine RoundTrip.ofGang rfl rfl (fun hf => ?_)
  rw [decodeWord_mk, ← limited_ok hf]
  exact congrArg limited (by simp [decodeFields, decMajor00])
theorem RoundTrip.waitc (h : Hdr) (d : Reg) (a : Reg) (b : Reg) : RoundTrip.Statement (.waitc h d a b) := by
  refine RoundTrip.ofGang rfl rfl (fun hf => ?_)
  rw [decodeWord_mk, ← limited_ok hf]
  exact congrArg limited (by simp [decodeFields, decMajor00])
theorem RoundTrip.entry (h : Hdr) (cls : BitVec 12) : RoundTrip.Statement (.entry h cls) := by
  refine RoundTrip.ofGang rfl rfl (fun hf => ?_)
  rw [decodeWord_mk, ← limited_ok hf]
  exact congrArg limited (by simp [decodeFields, decMajor00])
theorem RoundTrip.eret (h : Hdr) : RoundTrip.Statement (.eret h) := by
  refine RoundTrip.ofGang rfl rfl (fun hf => ?_)
  rw [decodeWord_mk, ← limited_ok hf]
  exact congrArg limited (by simp [decodeFields, decMajor00])
theorem RoundTrip.bra (h : Hdr) (cc : BitVec 4) (hint : BitVec 2) (off : BitVec 18) : RoundTrip.Statement (.bra h cc hint off) := by
  refine RoundTrip.ofGang rfl rfl (fun hf => ?_)
  rw [decodeWord_mk, ← limited_ok hf]
  have hc : cc ≠ 15#4 := by simp [Instr.wellFormed] at hf; exact hf.1
  exact congrArg limited (by simp [decodeFields, decMajor01, hc])
theorem RoundTrip.ychk (h : Hdr) (hint : BitVec 2) (off : BitVec 18) : RoundTrip.Statement (.ychk h hint off) := by
  refine RoundTrip.ofGang rfl rfl (fun hf => ?_)
  rw [decodeWord_mk, ← limited_ok hf]
  exact congrArg limited (by simp [decodeFields, decMajor01])
theorem RoundTrip.call (h : Hdr) (off : BitVec 24) : RoundTrip.Statement (.call h off) := by
  refine RoundTrip.ofGang rfl rfl (fun hf => ?_)
  rw [decodeWord_mk, ← limited_ok hf]
  exact congrArg limited (by simp [decodeFields, decMajor02])
theorem RoundTrip.ret (h : Hdr) : RoundTrip.Statement (.ret h) := by
  refine RoundTrip.ofGang rfl rfl (fun hf => ?_)
  rw [decodeWord_mk, ← limited_ok hf]
  exact congrArg limited (by simp [decodeFields, decMajor03])
theorem RoundTrip.brx (h : Hdr) (a : Reg) : RoundTrip.Statement (.brx h a) := by
  refine RoundTrip.ofGang rfl rfl (fun hf => ?_)
  rw [decodeWord_mk, ← limited_ok hf]
  exact congrArg limited (by simp [decodeFields, decMajor03])
theorem RoundTrip.calli (h : Hdr) (cls : BitVec 12) (a : Reg) : RoundTrip.Statement (.calli h cls a) := by
  refine RoundTrip.ofGang rfl rfl (fun hf => ?_)
  rw [decodeWord_mk, ← limited_ok hf]
  exact congrArg limited (by simp [decodeFields, decMajor03])
theorem RoundTrip.movs (h : Hdr) (d : Reg) (sp : BitVec 6) : RoundTrip.Statement (.movs h d sp) := by
  refine RoundTrip.ofGang rfl rfl (fun hf => ?_)
  rw [decodeWord_mk, ← limited_ok hf]
  exact congrArg limited (by simp [decodeFields, decMajor03])
theorem RoundTrip.smov (h : Hdr) (sp : BitVec 6) (a : Reg) : RoundTrip.Statement (.smov h sp a) := by
  refine RoundTrip.ofGang rfl rfl (fun hf => ?_)
  rw [decodeWord_mk, ← limited_ok hf]
  exact congrArg limited (by simp [decodeFields, decMajor03])
theorem RoundTrip.mjoin (h : Hdr) (k : BitVec 6) : RoundTrip.Statement (.mjoin h k) := by
  refine RoundTrip.ofGang rfl rfl (fun hf => ?_)
  rw [decodeWord_mk, ← limited_ok hf]
  exact congrArg limited (by simp [decodeFields, decMajor03])
theorem RoundTrip.mleave (h : Hdr) (k : BitVec 6) : RoundTrip.Statement (.mleave h k) := by
  refine RoundTrip.ofGang rfl rfl (fun hf => ?_)
  rw [decodeWord_mk, ← limited_ok hf]
  exact congrArg limited (by simp [decodeFields, decMajor03])
theorem RoundTrip.mwait (h : Hdr) (k : BitVec 6) : RoundTrip.Statement (.mwait h k) := by
  refine RoundTrip.ofGang rfl rfl (fun hf => ?_)
  rw [decodeWord_mk, ← limited_ok hf]
  exact congrArg limited (by simp [decodeFields, decMajor03])
theorem RoundTrip.mset (h : Hdr) (k : BitVec 6) (a : Reg) : RoundTrip.Statement (.mset h k a) := by
  refine RoundTrip.ofGang rfl rfl (fun hf => ?_)
  rw [decodeWord_mk, ← limited_ok hf]
  exact congrArg limited (by simp [decodeFields, decMajor03])
theorem RoundTrip.mget (h : Hdr) (d : Reg) (k : BitVec 6) : RoundTrip.Statement (.mget h d k) := by
  refine RoundTrip.ofGang rfl rfl (fun hf => ?_)
  rw [decodeWord_mk, ← limited_ok hf]
  exact congrArg limited (by simp [decodeFields, decMajor03])
theorem RoundTrip.mact (h : Hdr) (d : Reg) : RoundTrip.Statement (.mact h d) := by
  refine RoundTrip.ofGang rfl rfl (fun hf => ?_)
  rw [decodeWord_mk, ← limited_ok hf]
  exact congrArg limited (by simp [decodeFields, decMajor03])
theorem RoundTrip.fork (h : Hdr) (vs : Reg) (off : BitVec 18) : RoundTrip.Statement (.fork h vs off) := by
  refine RoundTrip.ofGang rfl rfl (fun hf => ?_)
  rw [decodeWord_mk, ← limited_ok hf]
  exact congrArg limited (by simp [decodeFields, decMajor04])
theorem RoundTrip.add (h : Hdr) (d : Reg) (a : Reg) (b : Reg) : RoundTrip.Statement (.add h d a b) := by
  refine RoundTrip.ofGang rfl rfl (fun hf => ?_)
  rw [decodeWord_mk, ← limited_ok hf]
  exact congrArg limited (by simp [decodeFields, decMajor05])
theorem RoundTrip.sub (h : Hdr) (d : Reg) (a : Reg) (b : Reg) : RoundTrip.Statement (.sub h d a b) := by
  refine RoundTrip.ofGang rfl rfl (fun hf => ?_)
  rw [decodeWord_mk, ← limited_ok hf]
  exact congrArg limited (by simp [decodeFields, decMajor05])
theorem RoundTrip.and (h : Hdr) (d : Reg) (a : Reg) (b : Reg) : RoundTrip.Statement (.and h d a b) := by
  refine RoundTrip.ofGang rfl rfl (fun hf => ?_)
  rw [decodeWord_mk, ← limited_ok hf]
  exact congrArg limited (by simp [decodeFields, decMajor05])
theorem RoundTrip.or (h : Hdr) (d : Reg) (a : Reg) (b : Reg) : RoundTrip.Statement (.or h d a b) := by
  refine RoundTrip.ofGang rfl rfl (fun hf => ?_)
  rw [decodeWord_mk, ← limited_ok hf]
  exact congrArg limited (by simp [decodeFields, decMajor05])
theorem RoundTrip.xor (h : Hdr) (d : Reg) (a : Reg) (b : Reg) : RoundTrip.Statement (.xor h d a b) := by
  refine RoundTrip.ofGang rfl rfl (fun hf => ?_)
  rw [decodeWord_mk, ← limited_ok hf]
  exact congrArg limited (by simp [decodeFields, decMajor05])
theorem RoundTrip.andn (h : Hdr) (d : Reg) (a : Reg) (b : Reg) : RoundTrip.Statement (.andn h d a b) := by
  refine RoundTrip.ofGang rfl rfl (fun hf => ?_)
  rw [decodeWord_mk, ← limited_ok hf]
  exact congrArg limited (by simp [decodeFields, decMajor05])
theorem RoundTrip.shl (h : Hdr) (d : Reg) (a : Reg) (b : Reg) : RoundTrip.Statement (.shl h d a b) := by
  refine RoundTrip.ofGang rfl rfl (fun hf => ?_)
  rw [decodeWord_mk, ← limited_ok hf]
  exact congrArg limited (by simp [decodeFields, decMajor05])
theorem RoundTrip.shr (h : Hdr) (d : Reg) (a : Reg) (b : Reg) : RoundTrip.Statement (.shr h d a b) := by
  refine RoundTrip.ofGang rfl rfl (fun hf => ?_)
  rw [decodeWord_mk, ← limited_ok hf]
  exact congrArg limited (by simp [decodeFields, decMajor05])
theorem RoundTrip.sar (h : Hdr) (d : Reg) (a : Reg) (b : Reg) : RoundTrip.Statement (.sar h d a b) := by
  refine RoundTrip.ofGang rfl rfl (fun hf => ?_)
  rw [decodeWord_mk, ← limited_ok hf]
  exact congrArg limited (by simp [decodeFields, decMajor05])
theorem RoundTrip.rotl (h : Hdr) (d : Reg) (a : Reg) (b : Reg) : RoundTrip.Statement (.rotl h d a b) := by
  refine RoundTrip.ofGang rfl rfl (fun hf => ?_)
  rw [decodeWord_mk, ← limited_ok hf]
  exact congrArg limited (by simp [decodeFields, decMajor05])
theorem RoundTrip.min (h : Hdr) (d : Reg) (a : Reg) (b : Reg) : RoundTrip.Statement (.min h d a b) := by
  refine RoundTrip.ofGang rfl rfl (fun hf => ?_)
  rw [decodeWord_mk, ← limited_ok hf]
  exact congrArg limited (by simp [decodeFields, decMajor05])
theorem RoundTrip.max (h : Hdr) (d : Reg) (a : Reg) (b : Reg) : RoundTrip.Statement (.max h d a b) := by
  refine RoundTrip.ofGang rfl rfl (fun hf => ?_)
  rw [decodeWord_mk, ← limited_ok hf]
  exact congrArg limited (by simp [decodeFields, decMajor05])
theorem RoundTrip.minu (h : Hdr) (d : Reg) (a : Reg) (b : Reg) : RoundTrip.Statement (.minu h d a b) := by
  refine RoundTrip.ofGang rfl rfl (fun hf => ?_)
  rw [decodeWord_mk, ← limited_ok hf]
  exact congrArg limited (by simp [decodeFields, decMajor05])
theorem RoundTrip.maxu (h : Hdr) (d : Reg) (a : Reg) (b : Reg) : RoundTrip.Statement (.maxu h d a b) := by
  refine RoundTrip.ofGang rfl rfl (fun hf => ?_)
  rw [decodeWord_mk, ← limited_ok hf]
  exact congrArg limited (by simp [decodeFields, decMajor05])
theorem RoundTrip.addmin (h : Hdr) (d : Reg) (a : Reg) (b : Reg) : RoundTrip.Statement (.addmin h d a b) := by
  refine RoundTrip.ofGang rfl rfl (fun hf => ?_)
  rw [decodeWord_mk, ← limited_ok hf]
  exact congrArg limited (by simp [decodeFields, decMajor05])
theorem RoundTrip.addsat (h : Hdr) (d : Reg) (a : Reg) (b : Reg) : RoundTrip.Statement (.addsat h d a b) := by
  refine RoundTrip.ofGang rfl rfl (fun hf => ?_)
  rw [decodeWord_mk, ← limited_ok hf]
  exact congrArg limited (by simp [decodeFields, decMajor05])
theorem RoundTrip.subsat (h : Hdr) (d : Reg) (a : Reg) (b : Reg) : RoundTrip.Statement (.subsat h d a b) := by
  refine RoundTrip.ofGang rfl rfl (fun hf => ?_)
  rw [decodeWord_mk, ← limited_ok hf]
  exact congrArg limited (by simp [decodeFields, decMajor05])
theorem RoundTrip.absdiff (h : Hdr) (d : Reg) (a : Reg) (b : Reg) : RoundTrip.Statement (.absdiff h d a b) := by
  refine RoundTrip.ofGang rfl rfl (fun hf => ?_)
  rw [decodeWord_mk, ← limited_ok hf]
  exact congrArg limited (by simp [decodeFields, decMajor05])
theorem RoundTrip.mul (h : Hdr) (d : Reg) (a : Reg) (b : Reg) : RoundTrip.Statement (.mul h d a b) := by
  refine RoundTrip.ofGang rfl rfl (fun hf => ?_)
  rw [decodeWord_mk, ← limited_ok hf]
  exact congrArg limited (by simp [decodeFields, decMajor06])
theorem RoundTrip.mulh (h : Hdr) (d : Reg) (a : Reg) (b : Reg) : RoundTrip.Statement (.mulh h d a b) := by
  refine RoundTrip.ofGang rfl rfl (fun hf => ?_)
  rw [decodeWord_mk, ← limited_ok hf]
  exact congrArg limited (by simp [decodeFields, decMajor06])
theorem RoundTrip.mulhu (h : Hdr) (d : Reg) (a : Reg) (b : Reg) : RoundTrip.Statement (.mulhu h d a b) := by
  refine RoundTrip.ofGang rfl rfl (fun hf => ?_)
  rw [decodeWord_mk, ← limited_ok hf]
  exact congrArg limited (by simp [decodeFields, decMajor06])
theorem RoundTrip.mula (h : Hdr) (d : Reg) (a : Reg) (b : Reg) : RoundTrip.Statement (.mula h d a b) := by
  refine RoundTrip.ofGang rfl rfl (fun hf => ?_)
  rw [decodeWord_mk, ← limited_ok hf]
  exact congrArg limited (by simp [decodeFields, decMajor06])
theorem RoundTrip.clz (h : Hdr) (d : Reg) (a : Reg) : RoundTrip.Statement (.clz h d a) := by
  refine RoundTrip.ofGang rfl rfl (fun hf => ?_)
  rw [decodeWord_mk, ← limited_ok hf]
  exact congrArg limited (by simp [decodeFields, decMajor06])
theorem RoundTrip.ctz (h : Hdr) (d : Reg) (a : Reg) : RoundTrip.Statement (.ctz h d a) := by
  refine RoundTrip.ofGang rfl rfl (fun hf => ?_)
  rw [decodeWord_mk, ← limited_ok hf]
  exact congrArg limited (by simp [decodeFields, decMajor06])
theorem RoundTrip.popc (h : Hdr) (d : Reg) (a : Reg) : RoundTrip.Statement (.popc h d a) := by
  refine RoundTrip.ofGang rfl rfl (fun hf => ?_)
  rw [decodeWord_mk, ← limited_ok hf]
  exact congrArg limited (by simp [decodeFields, decMajor06])
theorem RoundTrip.brev (h : Hdr) (d : Reg) (a : Reg) : RoundTrip.Statement (.brev h d a) := by
  refine RoundTrip.ofGang rfl rfl (fun hf => ?_)
  rw [decodeWord_mk, ← limited_ok hf]
  exact congrArg limited (by simp [decodeFields, decMajor06])
theorem RoundTrip.bfx (h : Hdr) (d : Reg) (a : Reg) (b : Reg) : RoundTrip.Statement (.bfx h d a b) := by
  refine RoundTrip.ofGang rfl rfl (fun hf => ?_)
  rw [decodeWord_mk, ← limited_ok hf]
  exact congrArg limited (by simp [decodeFields, decMajor06])
theorem RoundTrip.bfxu (h : Hdr) (d : Reg) (a : Reg) (b : Reg) : RoundTrip.Statement (.bfxu h d a b) := by
  refine RoundTrip.ofGang rfl rfl (fun hf => ?_)
  rw [decodeWord_mk, ← limited_ok hf]
  exact congrArg limited (by simp [decodeFields, decMajor06])
theorem RoundTrip.bfi (h : Hdr) (d : Reg) (a : Reg) (b : Reg) : RoundTrip.Statement (.bfi h d a b) := by
  refine RoundTrip.ofGang rfl rfl (fun hf => ?_)
  rw [decodeWord_mk, ← limited_ok hf]
  exact congrArg limited (by simp [decodeFields, decMajor06])
theorem RoundTrip.sel (h : Hdr) (d : Reg) (a : Reg) (b : Reg) : RoundTrip.Statement (.sel h d a b) := by
  refine RoundTrip.ofGang rfl rfl (fun hf => ?_)
  rw [decodeWord_mk, ← limited_ok hf]
  exact congrArg limited (by simp [decodeFields, decMajor06])
theorem RoundTrip.extb (h : Hdr) (d : Reg) (a : Reg) : RoundTrip.Statement (.extb h d a) := by
  refine RoundTrip.ofGang rfl rfl (fun hf => ?_)
  rw [decodeWord_mk, ← limited_ok hf]
  exact congrArg limited (by simp [decodeFields, decMajor06])
theorem RoundTrip.exth (h : Hdr) (d : Reg) (a : Reg) : RoundTrip.Statement (.exth h d a) := by
  refine RoundTrip.ofGang rfl rfl (fun hf => ?_)
  rw [decodeWord_mk, ← limited_ok hf]
  exact congrArg limited (by simp [decodeFields, decMajor06])
theorem RoundTrip.add64 (h : Hdr) (d : Reg) (a : Reg) (b : Reg) : RoundTrip.Statement (.add64 h d a b) := by
  refine RoundTrip.ofGang rfl rfl (fun hf => ?_)
  rw [decodeWord_mk, ← limited_ok hf]
  exact congrArg limited (by simp [decodeFields, decMajor06])
theorem RoundTrip.sub64 (h : Hdr) (d : Reg) (a : Reg) (b : Reg) : RoundTrip.Statement (.sub64 h d a b) := by
  refine RoundTrip.ofGang rfl rfl (fun hf => ?_)
  rw [decodeWord_mk, ← limited_ok hf]
  exact congrArg limited (by simp [decodeFields, decMajor06])
theorem RoundTrip.shl64 (h : Hdr) (d : Reg) (a : Reg) (b : Reg) : RoundTrip.Statement (.shl64 h d a b) := by
  refine RoundTrip.ofGang rfl rfl (fun hf => ?_)
  rw [decodeWord_mk, ← limited_ok hf]
  exact congrArg limited (by simp [decodeFields, decMajor06])
theorem RoundTrip.shr64 (h : Hdr) (d : Reg) (a : Reg) (b : Reg) : RoundTrip.Statement (.shr64 h d a b) := by
  refine RoundTrip.ofGang rfl rfl (fun hf => ?_)
  rw [decodeWord_mk, ← limited_ok hf]
  exact congrArg limited (by simp [decodeFields, decMajor06])
theorem RoundTrip.lea (h : Hdr) (d : Reg) (a : Reg) (b : Reg) : RoundTrip.Statement (.lea h d a b) := by
  refine RoundTrip.ofGang rfl rfl (fun hf => ?_)
  rw [decodeWord_mk, ← limited_ok hf]
  exact congrArg limited (by simp [decodeFields, decMajor06])
theorem RoundTrip.cmp (h : Hdr) (pd : PReg) (cond : BitVec 3) (a : Reg) (b : Reg) : RoundTrip.Statement (.cmp h pd cond a b) := by
  refine RoundTrip.ofGang rfl rfl (fun hf => ?_)
  rw [decodeWord_mk, ← limited_ok hf]
  exact congrArg limited (by simp [decodeFields, decMajor07])
theorem RoundTrip.plog (h : Hdr) (pd : PReg) (pa : PReg) (pq : PReg) (lut : BitVec 4) : RoundTrip.Statement (.plog h pd pa pq lut) := by
  refine RoundTrip.ofGang rfl rfl (fun hf => ?_)
  rw [decodeWord_mk, ← limited_ok hf]
  exact congrArg limited (by simp [decodeFields, decMajor07])
theorem RoundTrip.addi (h : Hdr) (d : Reg) (a : Reg) (imm : BitVec 12) : RoundTrip.Statement (.addi h d a imm) := by
  refine RoundTrip.ofGang rfl rfl (fun hf => ?_)
  rw [decodeWord_mk, ← limited_ok hf]
  exact congrArg limited (by simp [decodeFields, decMajor08])
theorem RoundTrip.andi (h : Hdr) (d : Reg) (a : Reg) (imm : BitVec 12) : RoundTrip.Statement (.andi h d a imm) := by
  refine RoundTrip.ofGang rfl rfl (fun hf => ?_)
  rw [decodeWord_mk, ← limited_ok hf]
  exact congrArg limited (by simp [decodeFields, decMajor09])
theorem RoundTrip.ori (h : Hdr) (d : Reg) (a : Reg) (imm : BitVec 12) : RoundTrip.Statement (.ori h d a imm) := by
  refine RoundTrip.ofGang rfl rfl (fun hf => ?_)
  rw [decodeWord_mk, ← limited_ok hf]
  exact congrArg limited (by simp [decodeFields, decMajor0A])
theorem RoundTrip.xori (h : Hdr) (d : Reg) (a : Reg) (imm : BitVec 12) : RoundTrip.Statement (.xori h d a imm) := by
  refine RoundTrip.ofGang rfl rfl (fun hf => ?_)
  rw [decodeWord_mk, ← limited_ok hf]
  exact congrArg limited (by simp [decodeFields, decMajor0B])
theorem RoundTrip.shli (h : Hdr) (d : Reg) (a : Reg) (n : BitVec 5) : RoundTrip.Statement (.shli h d a n) := by
  refine RoundTrip.ofGang rfl rfl (fun hf => ?_)
  rw [decodeWord_mk, ← limited_ok hf]
  exact congrArg limited (by simp [decodeFields, decMajor0C])
theorem RoundTrip.shri (h : Hdr) (d : Reg) (a : Reg) (n : BitVec 5) : RoundTrip.Statement (.shri h d a n) := by
  refine RoundTrip.ofGang rfl rfl (fun hf => ?_)
  rw [decodeWord_mk, ← limited_ok hf]
  exact congrArg limited (by simp [decodeFields, decMajor0C])
theorem RoundTrip.sari (h : Hdr) (d : Reg) (a : Reg) (n : BitVec 5) : RoundTrip.Statement (.sari h d a n) := by
  refine RoundTrip.ofGang rfl rfl (fun hf => ?_)
  rw [decodeWord_mk, ← limited_ok hf]
  exact congrArg limited (by simp [decodeFields, decMajor0C])
theorem RoundTrip.rotli (h : Hdr) (d : Reg) (a : Reg) (n : BitVec 5) : RoundTrip.Statement (.rotli h d a n) := by
  refine RoundTrip.ofGang rfl rfl (fun hf => ?_)
  rw [decodeWord_mk, ← limited_ok hf]
  exact congrArg limited (by simp [decodeFields, decMajor0C])
theorem RoundTrip.cmpi (h : Hdr) (pd : PReg) (cond : BitVec 3) (a : Reg) (imm : BitVec 12) : RoundTrip.Statement (.cmpi h pd cond a imm) := by
  refine RoundTrip.ofGang rfl rfl (fun hf => ?_)
  rw [decodeWord_mk, ← limited_ok hf]
  exact congrArg limited (by simp [decodeFields, decMajor0D])
theorem RoundTrip.muli (h : Hdr) (d : Reg) (a : Reg) (imm : BitVec 12) : RoundTrip.Statement (.muli h d a imm) := by
  refine RoundTrip.ofGang rfl rfl (fun hf => ?_)
  rw [decodeWord_mk, ← limited_ok hf]
  exact congrArg limited (by simp [decodeFields, decMajor0E])
theorem RoundTrip.addi64 (h : Hdr) (d : Reg) (a : Reg) (imm : BitVec 12) : RoundTrip.Statement (.addi64 h d a imm) := by
  refine RoundTrip.ofGang rfl rfl (fun hf => ?_)
  rw [decodeWord_mk, ← limited_ok hf]
  exact congrArg limited (by simp [decodeFields, decMajor0F])
theorem RoundTrip.movi (h : Hdr) (d : Reg) (imm : BitVec 18) : RoundTrip.Statement (.movi h d imm) := by
  refine RoundTrip.ofGang rfl rfl (fun hf => ?_)
  rw [decodeWord_mk, ← limited_ok hf]
  exact congrArg limited (by simp [decodeFields, decMajor10])
theorem RoundTrip.movhi (h : Hdr) (d : Reg) (imm : BitVec 18) : RoundTrip.Statement (.movhi h d imm) := by
  refine RoundTrip.ofGang rfl rfl (fun hf => ?_)
  rw [decodeWord_mk, ← limited_ok hf]
  exact congrArg limited (by simp [decodeFields, decMajor11])
theorem RoundTrip.fadd (h : Hdr) (d : Reg) (a : Reg) (b : Reg) (fm : FMod) : RoundTrip.Statement (.fadd h d a b fm) := by
  obtain ⟨fi, fo, rm⟩ := fm
  refine RoundTrip.ofGang rfl rfl (fun hf => ?_)
  rw [decodeWord_mk, ← limited_ok hf]
  exact congrArg limited (by simp [decodeFields, decMajor12])
theorem RoundTrip.fsub (h : Hdr) (d : Reg) (a : Reg) (b : Reg) (fm : FMod) : RoundTrip.Statement (.fsub h d a b fm) := by
  obtain ⟨fi, fo, rm⟩ := fm
  refine RoundTrip.ofGang rfl rfl (fun hf => ?_)
  rw [decodeWord_mk, ← limited_ok hf]
  exact congrArg limited (by simp [decodeFields, decMajor12])
theorem RoundTrip.fmul (h : Hdr) (d : Reg) (a : Reg) (b : Reg) (fm : FMod) : RoundTrip.Statement (.fmul h d a b fm) := by
  obtain ⟨fi, fo, rm⟩ := fm
  refine RoundTrip.ofGang rfl rfl (fun hf => ?_)
  rw [decodeWord_mk, ← limited_ok hf]
  exact congrArg limited (by simp [decodeFields, decMajor12])
theorem RoundTrip.fmin (h : Hdr) (d : Reg) (a : Reg) (b : Reg) (fm : FMod) : RoundTrip.Statement (.fmin h d a b fm) := by
  obtain ⟨fi, fo, rm⟩ := fm
  refine RoundTrip.ofGang rfl rfl (fun hf => ?_)
  rw [decodeWord_mk, ← limited_ok hf]
  exact congrArg limited (by simp [decodeFields, decMajor12])
theorem RoundTrip.ffma (h : Hdr) (d : Reg) (a : Reg) (b : Reg) (fm : FMod) : RoundTrip.Statement (.ffma h d a b fm) := by
  obtain ⟨fi, fo, rm⟩ := fm
  refine RoundTrip.ofGang rfl rfl (fun hf => ?_)
  rw [decodeWord_mk, ← limited_ok hf]
  exact congrArg limited (by simp [decodeFields, decMajor13])
theorem RoundTrip.ffms (h : Hdr) (d : Reg) (a : Reg) (b : Reg) (fm : FMod) : RoundTrip.Statement (.ffms h d a b fm) := by
  obtain ⟨fi, fo, rm⟩ := fm
  refine RoundTrip.ofGang rfl rfl (fun hf => ?_)
  rw [decodeWord_mk, ← limited_ok hf]
  exact congrArg limited (by simp [decodeFields, decMajor13])
theorem RoundTrip.fnfma (h : Hdr) (d : Reg) (a : Reg) (b : Reg) (fm : FMod) : RoundTrip.Statement (.fnfma h d a b fm) := by
  obtain ⟨fi, fo, rm⟩ := fm
  refine RoundTrip.ofGang rfl rfl (fun hf => ?_)
  rw [decodeWord_mk, ← limited_ok hf]
  exact congrArg limited (by simp [decodeFields, decMajor13])
theorem RoundTrip.fmax (h : Hdr) (d : Reg) (a : Reg) (b : Reg) (fm : FMod) : RoundTrip.Statement (.fmax h d a b fm) := by
  obtain ⟨fi, fo, rm⟩ := fm
  refine RoundTrip.ofGang rfl rfl (fun hf => ?_)
  rw [decodeWord_mk, ← limited_ok hf]
  exact congrArg limited (by simp [decodeFields, decMajor13])
theorem RoundTrip.fcvtHF (h : Hdr) (d : Reg) (a : Reg) (fm : FMod) : RoundTrip.Statement (.fcvtHF h d a fm) := by
  obtain ⟨fi, fo, rm⟩ := fm
  refine RoundTrip.ofGang rfl rfl (fun hf => ?_)
  rw [decodeWord_mk, ← limited_ok hf]
  exact congrArg limited (by simp [decodeFields, decMajor14])
theorem RoundTrip.fcvtBfF (h : Hdr) (d : Reg) (a : Reg) (fm : FMod) : RoundTrip.Statement (.fcvtBfF h d a fm) := by
  obtain ⟨fi, fo, rm⟩ := fm
  refine RoundTrip.ofGang rfl rfl (fun hf => ?_)
  rw [decodeWord_mk, ← limited_ok hf]
  exact congrArg limited (by simp [decodeFields, decMajor14])
theorem RoundTrip.fcvtFH (h : Hdr) (d : Reg) (a : Reg) (fm : FMod) : RoundTrip.Statement (.fcvtFH h d a fm) := by
  obtain ⟨fi, fo, rm⟩ := fm
  refine RoundTrip.ofGang rfl rfl (fun hf => ?_)
  rw [decodeWord_mk, ← limited_ok hf]
  exact congrArg limited (by simp [decodeFields, decMajor14])
theorem RoundTrip.fcvtFBf (h : Hdr) (d : Reg) (a : Reg) (fm : FMod) : RoundTrip.Statement (.fcvtFBf h d a fm) := by
  obtain ⟨fi, fo, rm⟩ := fm
  refine RoundTrip.ofGang rfl rfl (fun hf => ?_)
  rw [decodeWord_mk, ← limited_ok hf]
  exact congrArg limited (by simp [decodeFields, decMajor14])
theorem RoundTrip.fcvtIF (h : Hdr) (d : Reg) (a : Reg) (fm : FMod) : RoundTrip.Statement (.fcvtIF h d a fm) := by
  obtain ⟨fi, fo, rm⟩ := fm
  refine RoundTrip.ofGang rfl rfl (fun hf => ?_)
  rw [decodeWord_mk, ← limited_ok hf]
  exact congrArg limited (by simp [decodeFields, decMajor14])
theorem RoundTrip.fcvtUF (h : Hdr) (d : Reg) (a : Reg) (fm : FMod) : RoundTrip.Statement (.fcvtUF h d a fm) := by
  obtain ⟨fi, fo, rm⟩ := fm
  refine RoundTrip.ofGang rfl rfl (fun hf => ?_)
  rw [decodeWord_mk, ← limited_ok hf]
  exact congrArg limited (by simp [decodeFields, decMajor14])
theorem RoundTrip.fcvtFI (h : Hdr) (d : Reg) (a : Reg) (fm : FMod) : RoundTrip.Statement (.fcvtFI h d a fm) := by
  obtain ⟨fi, fo, rm⟩ := fm
  refine RoundTrip.ofGang rfl rfl (fun hf => ?_)
  rw [decodeWord_mk, ← limited_ok hf]
  exact congrArg limited (by simp [decodeFields, decMajor14])
theorem RoundTrip.fcvtFU (h : Hdr) (d : Reg) (a : Reg) (fm : FMod) : RoundTrip.Statement (.fcvtFU h d a fm) := by
  obtain ⟨fi, fo, rm⟩ := fm
  refine RoundTrip.ofGang rfl rfl (fun hf => ?_)
  rw [decodeWord_mk, ← limited_ok hf]
  exact congrArg limited (by simp [decodeFields, decMajor14])
theorem RoundTrip.fcvtFL (h : Hdr) (d : Reg) (a : Reg) (fm : FMod) : RoundTrip.Statement (.fcvtFL h d a fm) := by
  obtain ⟨fi, fo, rm⟩ := fm
  refine RoundTrip.ofGang rfl rfl (fun hf => ?_)
  rw [decodeWord_mk, ← limited_ok hf]
  exact congrArg limited (by simp [decodeFields, decMajor14])
theorem RoundTrip.frint (h : Hdr) (d : Reg) (a : Reg) (fm : FMod) : RoundTrip.Statement (.frint h d a fm) := by
  obtain ⟨fi, fo, rm⟩ := fm
  refine RoundTrip.ofGang rfl rfl (fun hf => ?_)
  rw [decodeWord_mk, ← limited_ok hf]
  exact congrArg limited (by simp [decodeFields, decMajor14])
theorem RoundTrip.fcmp (h : Hdr) (pd : PReg) (cond : BitVec 3) (a : Reg) (b : Reg) (fm : FMod) : RoundTrip.Statement (.fcmp h pd cond a b fm) := by
  obtain ⟨fi, fo, rm⟩ := fm
  refine RoundTrip.ofGang rfl rfl (fun hf => ?_)
  rw [decodeWord_mk, ← limited_ok hf]
  exact congrArg limited (by simp [decodeFields, decMajor15])
theorem RoundTrip.fclass (h : Hdr) (d : Reg) (a : Reg) (fm : FMod) : RoundTrip.Statement (.fclass h d a fm) := by
  obtain ⟨fi, fo, rm⟩ := fm
  refine RoundTrip.ofGang rfl rfl (fun hf => ?_)
  rw [decodeWord_mk, ← limited_ok hf]
  exact congrArg limited (by simp [decodeFields, decMajor15])
theorem RoundTrip.fabs (h : Hdr) (d : Reg) (a : Reg) (fi : Bool) (fo : Bool) : RoundTrip.Statement (.fabs h d a fi fo) := by
  refine RoundTrip.ofGang rfl rfl (fun hf => ?_)
  rw [decodeWord_mk, ← limited_ok hf]
  exact congrArg limited (by simp [decodeFields, decMajor15])
theorem RoundTrip.fneg (h : Hdr) (d : Reg) (a : Reg) (fi : Bool) (fo : Bool) : RoundTrip.Statement (.fneg h d a fi fo) := by
  refine RoundTrip.ofGang rfl rfl (fun hf => ?_)
  rw [decodeWord_mk, ← limited_ok hf]
  exact congrArg limited (by simp [decodeFields, decMajor15])
theorem RoundTrip.fcopysign (h : Hdr) (d : Reg) (a : Reg) (b : Reg) (fi : Bool) (fo : Bool) : RoundTrip.Statement (.fcopysign h d a b fi fo) := by
  refine RoundTrip.ofGang rfl rfl (fun hf => ?_)
  rw [decodeWord_mk, ← limited_ok hf]
  exact congrArg limited (by simp [decodeFields, decMajor15])
theorem RoundTrip.hadd2 (h : Hdr) (d : Reg) (a : Reg) (b : Reg) (hm : HMod) : RoundTrip.Statement (.hadd2 h d a b hm) := by
  obtain ⟨fi, fo, t, rs⟩ := hm
  refine RoundTrip.ofGang rfl rfl (fun hf => ?_)
  rw [decodeWord_mk, ← limited_ok hf]
  exact congrArg limited (by simp [decodeFields, decMajor16])
theorem RoundTrip.hmul2 (h : Hdr) (d : Reg) (a : Reg) (b : Reg) (hm : HMod) : RoundTrip.Statement (.hmul2 h d a b hm) := by
  obtain ⟨fi, fo, t, rs⟩ := hm
  refine RoundTrip.ofGang rfl rfl (fun hf => ?_)
  rw [decodeWord_mk, ← limited_ok hf]
  exact congrArg limited (by simp [decodeFields, decMajor16])
theorem RoundTrip.hfma2 (h : Hdr) (d : Reg) (a : Reg) (b : Reg) (hm : HMod) : RoundTrip.Statement (.hfma2 h d a b hm) := by
  obtain ⟨fi, fo, t, rs⟩ := hm
  refine RoundTrip.ofGang rfl rfl (fun hf => ?_)
  rw [decodeWord_mk, ← limited_ok hf]
  exact congrArg limited (by simp [decodeFields, decMajor16])
theorem RoundTrip.fdot2 (h : Hdr) (d : Reg) (a : Reg) (b : Reg) (hm : HMod) : RoundTrip.Statement (.fdot2 h d a b hm) := by
  obtain ⟨fi, fo, t, rs⟩ := hm
  refine RoundTrip.ofGang rfl rfl (fun hf => ?_)
  rw [decodeWord_mk, ← limited_ok hf]
  exact congrArg limited (by simp [decodeFields, decMajor16])
theorem RoundTrip.rcp (h : Hdr) (d : Reg) (a : Reg) (fi : Bool) (fo : Bool) : RoundTrip.Statement (.rcp h d a fi fo) := by
  refine RoundTrip.ofGang rfl rfl (fun hf => ?_)
  rw [decodeWord_mk, ← limited_ok hf]
  exact congrArg limited (by simp [decodeFields, decMajor17])
theorem RoundTrip.rsq (h : Hdr) (d : Reg) (a : Reg) (fi : Bool) (fo : Bool) : RoundTrip.Statement (.rsq h d a fi fo) := by
  refine RoundTrip.ofGang rfl rfl (fun hf => ?_)
  rw [decodeWord_mk, ← limited_ok hf]
  exact congrArg limited (by simp [decodeFields, decMajor17])
theorem RoundTrip.sqrt (h : Hdr) (d : Reg) (a : Reg) (fi : Bool) (fo : Bool) : RoundTrip.Statement (.sqrt h d a fi fo) := by
  refine RoundTrip.ofGang rfl rfl (fun hf => ?_)
  rw [decodeWord_mk, ← limited_ok hf]
  exact congrArg limited (by simp [decodeFields, decMajor17])
theorem RoundTrip.lg2 (h : Hdr) (d : Reg) (a : Reg) (fi : Bool) (fo : Bool) : RoundTrip.Statement (.lg2 h d a fi fo) := by
  refine RoundTrip.ofGang rfl rfl (fun hf => ?_)
  rw [decodeWord_mk, ← limited_ok hf]
  exact congrArg limited (by simp [decodeFields, decMajor17])
theorem RoundTrip.ex2 (h : Hdr) (d : Reg) (a : Reg) (fi : Bool) (fo : Bool) : RoundTrip.Statement (.ex2 h d a fi fo) := by
  refine RoundTrip.ofGang rfl rfl (fun hf => ?_)
  rw [decodeWord_mk, ← limited_ok hf]
  exact congrArg limited (by simp [decodeFields, decMajor17])
theorem RoundTrip.sin (h : Hdr) (d : Reg) (a : Reg) (fi : Bool) (fo : Bool) : RoundTrip.Statement (.sin h d a fi fo) := by
  refine RoundTrip.ofGang rfl rfl (fun hf => ?_)
  rw [decodeWord_mk, ← limited_ok hf]
  exact congrArg limited (by simp [decodeFields, decMajor17])
theorem RoundTrip.cos (h : Hdr) (d : Reg) (a : Reg) (fi : Bool) (fo : Bool) : RoundTrip.Statement (.cos h d a fi fo) := by
  refine RoundTrip.ofGang rfl rfl (fun hf => ?_)
  rw [decodeWord_mk, ← limited_ok hf]
  exact congrArg limited (by simp [decodeFields, decMajor17])
theorem RoundTrip.tanh (h : Hdr) (d : Reg) (a : Reg) (fi : Bool) (fo : Bool) : RoundTrip.Statement (.tanh h d a fi fo) := by
  refine RoundTrip.ofGang rfl rfl (fun hf => ?_)
  rw [decodeWord_mk, ← limited_ok hf]
  exact congrArg limited (by simp [decodeFields, decMajor17])
theorem RoundTrip.xshuf (h : Hdr) (d : Reg) (a : Reg) (b : Reg) (f : Bool) : RoundTrip.Statement (.xshuf h d a b f) := by
  refine RoundTrip.ofGang rfl rfl (fun hf => ?_)
  rw [decodeWord_mk, ← limited_ok hf]
  exact congrArg limited (by simp [decodeFields, decMajor18])
theorem RoundTrip.xshufi (h : Hdr) (d : Reg) (a : Reg) (imm : BitVec 6) (f : Bool) : RoundTrip.Statement (.xshufi h d a imm f) := by
  refine RoundTrip.ofGang rfl rfl (fun hf => ?_)
  rw [decodeWord_mk, ← limited_ok hf]
  exact congrArg limited (by simp [decodeFields, decMajor18])
theorem RoundTrip.xvote (h : Hdr) (d : Reg) (a : Reg) (imm : BitVec 6) : RoundTrip.Statement (.xvote h d a imm) := by
  refine RoundTrip.ofGang rfl rfl (fun hf => ?_)
  rw [decodeWord_mk, ← limited_ok hf]
  exact congrArg limited (by simp [decodeFields, decMajor18])
theorem RoundTrip.xballot (h : Hdr) (d : Reg) (a : Reg) : RoundTrip.Statement (.xballot h d a) := by
  refine RoundTrip.ofGang rfl rfl (fun hf => ?_)
  rw [decodeWord_mk, ← limited_ok hf]
  exact congrArg limited (by simp [decodeFields, decMajor18])
theorem RoundTrip.xmatch (h : Hdr) (d : Reg) (a : Reg) (f : Bool) : RoundTrip.Statement (.xmatch h d a f) := by
  refine RoundTrip.ofGang rfl rfl (fun hf => ?_)
  rw [decodeWord_mk, ← limited_ok hf]
  exact congrArg limited (by simp [decodeFields, decMajor18])
theorem RoundTrip.xcompact (h : Hdr) (d : Reg) (a : Reg) (b : Reg) (f : Bool) : RoundTrip.Statement (.xcompact h d a b f) := by
  refine RoundTrip.ofGang rfl rfl (fun hf => ?_)
  rw [decodeWord_mk, ← limited_ok hf]
  exact congrArg limited (by simp [decodeFields, decMajor18])
theorem RoundTrip.xred (h : Hdr) (d : Reg) (a : Reg) (imm : BitVec 6) : RoundTrip.Statement (.xred h d a imm) := by
  refine RoundTrip.ofGang rfl rfl (fun hf => ?_)
  rw [decodeWord_mk, ← limited_ok hf]
  exact congrArg limited (by simp [decodeFields, decMajor18])
theorem RoundTrip.xscan (h : Hdr) (d : Reg) (a : Reg) (imm : BitVec 6) (f : Bool) : RoundTrip.Statement (.xscan h d a imm f) := by
  refine RoundTrip.ofGang rfl rfl (fun hf => ?_)
  rw [decodeWord_mk, ← limited_ok hf]
  exact congrArg limited (by simp [decodeFields, decMajor18])
theorem RoundTrip.xgath (h : Hdr) (d : Reg) (a : Reg) (b : Reg) (f : Bool) : RoundTrip.Statement (.xgath h d a b f) := by
  refine RoundTrip.ofGang rfl rfl (fun hf => ?_)
  rw [decodeWord_mk, ← limited_ok hf]
  exact congrArg limited (by simp [decodeFields, decMajor19])
theorem RoundTrip.permb (h : Hdr) (d : Reg) (a : Reg) (b : Reg) (f : Bool) : RoundTrip.Statement (.permb h d a b f) := by
  refine RoundTrip.ofGang rfl rfl (fun hf => ?_)
  rw [decodeWord_mk, ← limited_ok hf]
  exact congrArg limited (by simp [decodeFields, decMajor19])
theorem RoundTrip.xrank (h : Hdr) (d : Reg) (a : Reg) (imm : BitVec 6) : RoundTrip.Statement (.xrank h d a imm) := by
  refine RoundTrip.ofGang rfl rfl (fun hf => ?_)
  rw [decodeWord_mk, ← limited_ok hf]
  exact congrArg limited (by simp [decodeFields, decMajor19])
theorem RoundTrip.regroup (h : Hdr) (a : Reg) : RoundTrip.Statement (.regroup h a) := by
  refine RoundTrip.ofGang rfl rfl (fun hf => ?_)
  rw [decodeWord_mk, ← limited_ok hf]
  exact congrArg limited (by simp [decodeFields, decMajor19])
theorem RoundTrip.rstep (h : Hdr) (d : Reg) : RoundTrip.Statement (.rstep h d) := by
  refine RoundTrip.ofGang rfl rfl (fun hf => ?_)
  rw [decodeWord_mk, ← limited_ok hf]
  exact congrArg limited (by simp [decodeFields, decMajor1C])
theorem RoundTrip.join (h : Hdr) : RoundTrip.Statement (.join h) := by
  refine RoundTrip.ofGang rfl rfl (fun hf => ?_)
  rw [decodeWord_mk, ← limited_ok hf]
  exact congrArg limited (by simp [decodeFields, decMajor1D])
theorem RoundTrip.rjoin (h : Hdr) (d : Reg) : RoundTrip.Statement (.rjoin h d) := by
  refine RoundTrip.ofGang rfl rfl (fun hf => ?_)
  rw [decodeWord_mk, ← limited_ok hf]
  exact congrArg limited (by simp [decodeFields, decMajor1D])
theorem RoundTrip.endp (h : Hdr) (a : Reg) : RoundTrip.Statement (.endp h a) := by
  refine RoundTrip.ofGang rfl rfl (fun hf => ?_)
  rw [decodeWord_mk, ← limited_ok hf]
  exact congrArg limited (by simp [decodeFields, decMajor1D])
theorem RoundTrip.forkr (h : Hdr) (vs : Reg) (off : BitVec 18) : RoundTrip.Statement (.forkr h vs off) := by
  refine RoundTrip.ofGang rfl rfl (fun hf => ?_)
  rw [decodeWord_mk, ← limited_ok hf]
  exact congrArg limited (by simp [decodeFields, decMajor1E])
theorem RoundTrip.dbnz (h : Hdr) (vs : Reg) (off : BitVec 18) : RoundTrip.Statement (.dbnz h vs off) := by
  refine RoundTrip.ofGang rfl rfl (fun hf => ?_)
  rw [decodeWord_mk, ← limited_ok hf]
  exact congrArg limited (by simp [decodeFields, decMajor1F])
theorem RoundTrip.ldB (h : Hdr) (d : Reg) (base : Reg) (off : BitVec 12) : RoundTrip.Statement (.ldB h d base off) := by
  refine RoundTrip.ofGang rfl rfl (fun hf => ?_)
  rw [decodeWord_mk, ← limited_ok hf]
  exact congrArg limited (by simp [decodeFields, decMajor20])
theorem RoundTrip.ldBu (h : Hdr) (d : Reg) (base : Reg) (off : BitVec 12) : RoundTrip.Statement (.ldBu h d base off) := by
  refine RoundTrip.ofGang rfl rfl (fun hf => ?_)
  rw [decodeWord_mk, ← limited_ok hf]
  exact congrArg limited (by simp [decodeFields, decMajor21])
theorem RoundTrip.ldH (h : Hdr) (d : Reg) (base : Reg) (off : BitVec 12) : RoundTrip.Statement (.ldH h d base off) := by
  refine RoundTrip.ofGang rfl rfl (fun hf => ?_)
  rw [decodeWord_mk, ← limited_ok hf]
  exact congrArg limited (by simp [decodeFields, decMajor22])
theorem RoundTrip.ldHu (h : Hdr) (d : Reg) (base : Reg) (off : BitVec 12) : RoundTrip.Statement (.ldHu h d base off) := by
  refine RoundTrip.ofGang rfl rfl (fun hf => ?_)
  rw [decodeWord_mk, ← limited_ok hf]
  exact congrArg limited (by simp [decodeFields, decMajor23])
theorem RoundTrip.ldW (h : Hdr) (d : Reg) (base : Reg) (off : BitVec 12) : RoundTrip.Statement (.ldW h d base off) := by
  refine RoundTrip.ofGang rfl rfl (fun hf => ?_)
  rw [decodeWord_mk, ← limited_ok hf]
  exact congrArg limited (by simp [decodeFields, decMajor24])
theorem RoundTrip.ldD (h : Hdr) (d : Reg) (base : Reg) (off : BitVec 12) : RoundTrip.Statement (.ldD h d base off) := by
  refine RoundTrip.ofGang rfl rfl (fun hf => ?_)
  rw [decodeWord_mk, ← limited_ok hf]
  exact congrArg limited (by simp [decodeFields, decMajor25])
theorem RoundTrip.ldQ (h : Hdr) (d : Reg) (base : Reg) (off : BitVec 12) : RoundTrip.Statement (.ldQ h d base off) := by
  refine RoundTrip.ofGang rfl rfl (fun hf => ?_)
  rw [decodeWord_mk, ← limited_ok hf]
  exact congrArg limited (by simp [decodeFields, decMajor26])
theorem RoundTrip.ldT (h : Hdr) (d : Reg) (base : Reg) (off : BitVec 12) : RoundTrip.Statement (.ldT h d base off) := by
  refine RoundTrip.ofGang rfl rfl (fun hf => ?_)
  rw [decodeWord_mk, ← limited_ok hf]
  exact congrArg limited (by simp [decodeFields, decMajor27])
theorem RoundTrip.stB (h : Hdr) (vs : Reg) (base : Reg) (off : BitVec 12) : RoundTrip.Statement (.stB h vs base off) := by
  refine RoundTrip.ofGang rfl rfl (fun hf => ?_)
  rw [decodeWord_mk, ← limited_ok hf]
  exact congrArg limited (by simp [decodeFields, decMajor28])
theorem RoundTrip.stH (h : Hdr) (vs : Reg) (base : Reg) (off : BitVec 12) : RoundTrip.Statement (.stH h vs base off) := by
  refine RoundTrip.ofGang rfl rfl (fun hf => ?_)
  rw [decodeWord_mk, ← limited_ok hf]
  exact congrArg limited (by simp [decodeFields, decMajor29])
theorem RoundTrip.stW (h : Hdr) (vs : Reg) (base : Reg) (off : BitVec 12) : RoundTrip.Statement (.stW h vs base off) := by
  refine RoundTrip.ofGang rfl rfl (fun hf => ?_)
  rw [decodeWord_mk, ← limited_ok hf]
  exact congrArg limited (by simp [decodeFields, decMajor2A])
theorem RoundTrip.stD (h : Hdr) (vs : Reg) (base : Reg) (off : BitVec 12) : RoundTrip.Statement (.stD h vs base off) := by
  refine RoundTrip.ofGang rfl rfl (fun hf => ?_)
  rw [decodeWord_mk, ← limited_ok hf]
  exact congrArg limited (by simp [decodeFields, decMajor2B])
theorem RoundTrip.stQ (h : Hdr) (vs : Reg) (base : Reg) (off : BitVec 12) : RoundTrip.Statement (.stQ h vs base off) := by
  refine RoundTrip.ofGang rfl rfl (fun hf => ?_)
  rw [decodeWord_mk, ← limited_ok hf]
  exact congrArg limited (by simp [decodeFields, decMajor2C])
theorem RoundTrip.stT (h : Hdr) (vs : Reg) (base : Reg) (off : BitVec 12) : RoundTrip.Statement (.stT h vs base off) := by
  refine RoundTrip.ofGang rfl rfl (fun hf => ?_)
  rw [decodeWord_mk, ← limited_ok hf]
  exact congrArg limited (by simp [decodeFields, decMajor2D])
theorem RoundTrip.atom (h : Hdr) (d : Reg) (a : Reg) (w : Bool) (op : BitVec 4) (sc : BitVec 3) : RoundTrip.Statement (.atom h d a w op sc) := by
  refine RoundTrip.ofGang rfl rfl (fun hf => ?_)
  rw [decodeWord_mk, ← limited_ok hf]
  exact congrArg limited (by simp [decodeFields, decMajor2E])
theorem RoundTrip.acas (h : Hdr) (d : Reg) (a : Reg) (w : Bool) (sc : BitVec 3) : RoundTrip.Statement (.acas h d a w sc) := by
  refine RoundTrip.ofGang rfl rfl (fun hf => ?_)
  rw [decodeWord_mk, ← limited_ok hf]
  exact congrArg limited (by simp [decodeFields, decMajor2E])
theorem RoundTrip.fred (h : Hdr) (vs : Reg) (a : Reg) (op : BitVec 2) (fmt : BitVec 2) (sc : BitVec 3) : RoundTrip.Statement (.fred h vs a op fmt sc) := by
  refine RoundTrip.ofGang rfl rfl (fun hf => ?_)
  rw [decodeWord_mk, ← limited_ok hf]
  exact congrArg limited (by simp [decodeFields, decMajor2F])
theorem RoundTrip.acq (h : Hdr) (d : Reg) (a : Reg) (sc : BitVec 3) : RoundTrip.Statement (.acq h d a sc) := by
  refine RoundTrip.ofGang rfl rfl (fun hf => ?_)
  rw [decodeWord_mk, ← limited_ok hf]
  exact congrArg limited (by simp [decodeFields, decMajor30])
theorem RoundTrip.rel (h : Hdr) (vs : Reg) (a : Reg) (sc : BitVec 3) : RoundTrip.Statement (.rel h vs a sc) := by
  refine RoundTrip.ofGang rfl rfl (fun hf => ?_)
  rw [decodeWord_mk, ← limited_ok hf]
  exact congrArg limited (by simp [decodeFields, decMajor30])
theorem RoundTrip.fence (h : Hdr) (sc : BitVec 3) : RoundTrip.Statement (.fence h sc) := by
  refine RoundTrip.ofGang rfl rfl (fun hf => ?_)
  rw [decodeWord_mk, ← limited_ok hf]
  exact congrArg limited (by simp [decodeFields, decMajor30])
theorem RoundTrip.cflush (h : Hdr) (sc : BitVec 3) (a : Reg) (b : Reg) : RoundTrip.Statement (.cflush h sc a b) := by
  refine RoundTrip.ofGang rfl rfl (fun hf => ?_)
  rw [decodeWord_mk, ← limited_ok hf]
  exact congrArg limited (by simp [decodeFields, decMajor30])
theorem RoundTrip.cinv (h : Hdr) (sc : BitVec 3) (a : Reg) (b : Reg) : RoundTrip.Statement (.cinv h sc a b) := by
  refine RoundTrip.ofGang rfl rfl (fun hf => ?_)
  rw [decodeWord_mk, ← limited_ok hf]
  exact congrArg limited (by simp [decodeFields, decMajor30])
theorem RoundTrip.pref (h : Hdr) (lv : BitVec 6) (a : Reg) : RoundTrip.Statement (.pref h lv a) := by
  refine RoundTrip.ofGang rfl rfl (fun hf => ?_)
  rw [decodeWord_mk, ← limited_ok hf]
  exact congrArg limited (by simp [decodeFields, decMajor30])
theorem RoundTrip.qpush (h : Hdr) (k : BitVec 6) (a : Reg) : RoundTrip.Statement (.qpush h k a) := by
  refine RoundTrip.ofGang rfl rfl (fun hf => ?_)
  rw [decodeWord_mk, ← limited_ok hf]
  exact congrArg limited (by simp [decodeFields, decMajor31])
theorem RoundTrip.qpop (h : Hdr) (d : Reg) (k : BitVec 6) : RoundTrip.Statement (.qpop h d k) := by
  refine RoundTrip.ofGang rfl rfl (fun hf => ?_)
  rw [decodeWord_mk, ← limited_ok hf]
  exact congrArg limited (by simp [decodeFields, decMajor31])
theorem RoundTrip.qstat (h : Hdr) (d : Reg) (k : BitVec 6) : RoundTrip.Statement (.qstat h d k) := by
  refine RoundTrip.ofGang rfl rfl (fun hf => ?_)
  rw [decodeWord_mk, ← limited_ok hf]
  exact congrArg limited (by simp [decodeFields, decMajor31])
theorem RoundTrip.cpy (h : Hdr) (a : Reg) : RoundTrip.Statement (.cpy h a) := by
  refine RoundTrip.ofGang rfl rfl (fun hf => ?_)
  rw [decodeWord_mk, ← limited_ok hf]
  exact congrArg limited (by simp [decodeFields, decMajor32])
theorem RoundTrip.cpyt (h : Hdr) (vc : Reg) (a : Reg) (mode : BitVec 6) : RoundTrip.Statement (.cpyt h vc a mode) := by
  refine RoundTrip.ofGang rfl rfl (fun hf => ?_)
  rw [decodeWord_mk, ← limited_ok hf]
  exact congrArg limited (by simp [decodeFields, decMajor32])
theorem RoundTrip.cpyq (h : Hdr) (a : Reg) : RoundTrip.Statement (.cpyq h a) := by
  refine RoundTrip.ofGang rfl rfl (fun hf => ?_)
  rw [decodeWord_mk, ← limited_ok hf]
  exact congrArg limited (by simp [decodeFields, decMajor32])
theorem RoundTrip.cpres (h : Hdr) (a : Reg) : RoundTrip.Statement (.cpres h a) := by
  refine RoundTrip.ofGang rfl rfl (fun hf => ?_)
  rw [decodeWord_mk, ← limited_ok hf]
  exact congrArg limited (by simp [decodeFields, decMajor32])
theorem RoundTrip.wmrd (h : Hdr) (d : Reg) (a : Reg) : RoundTrip.Statement (.wmrd h d a) := by
  refine RoundTrip.ofGang rfl rfl (fun hf => ?_)
  rw [decodeWord_mk, ← limited_ok hf]
  exact congrArg limited (by simp [decodeFields, decMajor32])
theorem RoundTrip.tlreg (h : Hdr) (d : Reg) (a : Reg) : RoundTrip.Statement (.tlreg h d a) := by
  refine RoundTrip.ofGang rfl rfl (fun hf => ?_)
  rw [decodeWord_mk, ← limited_ok hf]
  exact congrArg limited (by simp [decodeFields, decMajor32])
theorem RoundTrip.tlrfl (h : Hdr) (d : Reg) (a : Reg) : RoundTrip.Statement (.tlrfl h d a) := by
  refine RoundTrip.ofGang rfl rfl (fun hf => ?_)
  rw [decodeWord_mk, ← limited_ok hf]
  exact congrArg limited (by simp [decodeFields, decMajor32])
theorem RoundTrip.tlunreg (h : Hdr) (a : Reg) : RoundTrip.Statement (.tlunreg h a) := by
  refine RoundTrip.ofGang rfl rfl (fun hf => ?_)
  rw [decodeWord_mk, ← limited_ok hf]
  exact congrArg limited (by simp [decodeFields, decMajor32])
theorem RoundTrip.lseg (h : Hdr) (k : BitVec 6) (a : Reg) : RoundTrip.Statement (.lseg h k a) := by
  refine RoundTrip.ofGang rfl rfl (fun hf => ?_)
  rw [decodeWord_mk, ← limited_ok hf]
  exact congrArg limited (by simp [decodeFields, decMajor32])
theorem RoundTrip.ixjob (h : Hdr) (vc : Reg) (a : Reg) : RoundTrip.Statement (.ixjob h vc a) := by
  refine RoundTrip.ofGang rfl rfl (fun hf => ?_)
  rw [decodeWord_mk, ← limited_ok hf]
  exact congrArg limited (by simp [decodeFields, decMajor33])
theorem RoundTrip.ixres (h : Hdr) (vc : Reg) (a : Reg) : RoundTrip.Statement (.ixres h vc a) := by
  refine RoundTrip.ofGang rfl rfl (fun hf => ?_)
  rw [decodeWord_mk, ← limited_ok hf]
  exact congrArg limited (by simp [decodeFields, decMajor33])
theorem RoundTrip.nbinit (h : Hdr) (a : Reg) (k : BitVec 6) : RoundTrip.Statement (.nbinit h a k) := by
  refine RoundTrip.ofGang rfl rfl (fun hf => ?_)
  rw [decodeWord_mk, ← limited_ok hf]
  exact congrArg limited (by simp [decodeFields, decMajor34])
theorem RoundTrip.nbarr (h : Hdr) (k : BitVec 6) : RoundTrip.Statement (.nbarr h k) := by
  refine RoundTrip.ofGang rfl rfl (fun hf => ?_)
  rw [decodeWord_mk, ← limited_ok hf]
  exact congrArg limited (by simp [decodeFields, decMajor34])
theorem RoundTrip.nbwait (h : Hdr) (k : BitVec 6) : RoundTrip.Statement (.nbwait h k) := by
  refine RoundTrip.ofGang rfl rfl (fun hf => ?_)
  rw [decodeWord_mk, ← limited_ok hf]
  exact congrArg limited (by simp [decodeFields, decMajor34])
theorem RoundTrip.nbsync (h : Hdr) (k : BitVec 6) : RoundTrip.Statement (.nbsync h k) := by
  refine RoundTrip.ofGang rfl rfl (fun hf => ?_)
  rw [decodeWord_mk, ← limited_ok hf]
  exact congrArg limited (by simp [decodeFields, decMajor34])
theorem RoundTrip.gbar (h : Hdr) : RoundTrip.Statement (.gbar h) := by
  refine RoundTrip.ofGang rfl rfl (fun hf => ?_)
  rw [decodeWord_mk, ← limited_ok hf]
  exact congrArg limited (by simp [decodeFields, decMajor34])
theorem RoundTrip.rginit (h : Hdr) (a : Reg) (k : BitVec 6) : RoundTrip.Statement (.rginit h a k) := by
  refine RoundTrip.ofGang rfl rfl (fun hf => ?_)
  rw [decodeWord_mk, ← limited_ok hf]
  exact congrArg limited (by simp [decodeFields, decMajor35])
theorem RoundTrip.rgres (h : Hdr) (d : Reg) (k : BitVec 6) : RoundTrip.Statement (.rgres h d k) := by
  refine RoundTrip.ofGang rfl rfl (fun hf => ?_)
  rw [decodeWord_mk, ← limited_ok hf]
  exact congrArg limited (by simp [decodeFields, decMajor35])
theorem RoundTrip.rgpub (h : Hdr) (a : Reg) (k : BitVec 6) : RoundTrip.Statement (.rgpub h a k) := by
  refine RoundTrip.ofGang rfl rfl (fun hf => ?_)
  rw [decodeWord_mk, ← limited_ok hf]
  exact congrArg limited (by simp [decodeFields, decMajor35])
theorem RoundTrip.rgwait (h : Hdr) (d : Reg) (k : BitVec 6) : RoundTrip.Statement (.rgwait h d k) := by
  refine RoundTrip.ofGang rfl rfl (fun hf => ?_)
  rw [decodeWord_mk, ← limited_ok hf]
  exact congrArg limited (by simp [decodeFields, decMajor35])
theorem RoundTrip.rgrel (h : Hdr) (a : Reg) (k : BitVec 6) : RoundTrip.Statement (.rgrel h a k) := by
  refine RoundTrip.ofGang rfl rfl (fun hf => ?_)
  rw [decodeWord_mk, ← limited_ok hf]
  exact congrArg limited (by simp [decodeFields, decMajor35])
theorem RoundTrip.chunk (h : Hdr) (d : Reg) (a : Reg) : RoundTrip.Statement (.chunk h d a) := by
  refine RoundTrip.ofGang rfl rfl (fun hf => ?_)
  rw [decodeWord_mk, ← limited_ok hf]
  exact congrArg limited (by simp [decodeFields, decMajor36])
theorem RoundTrip.mstream (h : Hdr) (d : Reg) (a : Reg) : RoundTrip.Statement (.mstream h d a) := by
  refine RoundTrip.ofGang rfl rfl (fun hf => ?_)
  rw [decodeWord_mk, ← limited_ok hf]
  exact congrArg limited (by simp [decodeFields, decMajor36])
theorem RoundTrip.launch (h : Hdr) (d : Reg) (a : Reg) (b : Reg) : RoundTrip.Statement (.launch h d a b) := by
  refine RoundTrip.ofGang rfl rfl (fun hf => ?_)
  rw [decodeWord_mk, ← limited_ok hf]
  exact congrArg limited (by simp [decodeFields, decMajor36])
theorem RoundTrip.rsplit (h : Hdr) (d : Reg) (a : Reg) : RoundTrip.Statement (.rsplit h d a) := by
  refine RoundTrip.ofGang rfl rfl (fun hf => ?_)
  rw [decodeWord_mk, ← limited_ok hf]
  exact congrArg limited (by simp [decodeFields, decMajor37])
theorem RoundTrip.rmerge (h : Hdr) (d : Reg) (a : Reg) : RoundTrip.Statement (.rmerge h d a) := by
  refine RoundTrip.ofGang rfl rfl (fun hf => ?_)
  rw [decodeWord_mk, ← limited_ok hf]
  exact congrArg limited (by simp [decodeFields, decMajor37])
theorem RoundTrip.rbind (h : Hdr) (d : Reg) (a : Reg) (b : Reg) : RoundTrip.Statement (.rbind h d a b) := by
  refine RoundTrip.ofGang rfl rfl (fun hf => ?_)
  rw [decodeWord_mk, ← limited_ok hf]
  exact congrArg limited (by simp [decodeFields, decMajor37])
theorem RoundTrip.rquery (h : Hdr) (d : Reg) (a : Reg) (qw : BitVec 6) : RoundTrip.Statement (.rquery h d a qw) := by
  refine RoundTrip.ofGang rfl rfl (fun hf => ?_)
  rw [decodeWord_mk, ← limited_ok hf]
  exact congrArg limited (by simp [decodeFields, decMajor37])
theorem RoundTrip.rset (h : Hdr) (d : Reg) (a : Reg) (b : Reg) : RoundTrip.Statement (.rset h d a b) := by
  refine RoundTrip.ofGang rfl rfl (fun hf => ?_)
  rw [decodeWord_mk, ← limited_ok hf]
  exact congrArg limited (by simp [decodeFields, decMajor38])
theorem RoundTrip.rinv (h : Hdr) (d : Reg) (a : Reg) (b : Reg) : RoundTrip.Statement (.rinv h d a b) := by
  refine RoundTrip.ofGang rfl rfl (fun hf => ?_)
  rw [decodeWord_mk, ← limited_ok hf]
  exact congrArg limited (by simp [decodeFields, decMajor38])
theorem RoundTrip.rwait (h : Hdr) (d : Reg) (a : Reg) : RoundTrip.Statement (.rwait h d a) := by
  refine RoundTrip.ofGang rfl rfl (fun hf => ?_)
  rw [decodeWord_mk, ← limited_ok hf]
  exact congrArg limited (by simp [decodeFields, decMajor38])
theorem RoundTrip.rcompact (h : Hdr) (d : Reg) (a : Reg) (b : Reg) : RoundTrip.Statement (.rcompact h d a b) := by
  refine RoundTrip.ofGang rfl rfl (fun hf => ?_)
  rw [decodeWord_mk, ← limited_ok hf]
  exact congrArg limited (by simp [decodeFields, decMajor38])
theorem mldb_f0 (bslot : BitVec 8) (off : BitVec 40) : (0x01#6 ++ 0#2 ++ bslot ++ 0#8 ++ off : BitVec 64).extractLsb' 58 6 = 0x01#6 := by
  refine (extract_hi (a := 24) (b := 40) _ _ 58 6 (by decide)).trans ?_
  refine (extract_hi (a := 16) (b := 8) _ _ 18 6 (by decide)).trans ?_
  refine (extract_hi (a := 8) (b := 8) _ _ 10 6 (by decide)).trans ?_
  refine (extract_hi (a := 6) (b := 2) _ _ 2 6 (by decide)).trans ?_
  exact extract_all _
theorem mldb_f1 (bslot : BitVec 8) (off : BitVec 40) : (0x01#6 ++ 0#2 ++ bslot ++ 0#8 ++ off : BitVec 64).extractLsb' 56 2 = 0#2 := by
  refine (extract_hi (a := 24) (b := 40) _ _ 56 2 (by decide)).trans ?_
  refine (extract_hi (a := 16) (b := 8) _ _ 16 2 (by decide)).trans ?_
  refine (extract_hi (a := 8) (b := 8) _ _ 8 2 (by decide)).trans ?_
  exact (extract_lo (a := 6) (b := 2) _ _ 0 2 (by decide)).trans (extract_all _)
theorem mldb_f2 (bslot : BitVec 8) (off : BitVec 40) : (0x01#6 ++ 0#2 ++ bslot ++ 0#8 ++ off : BitVec 64).extractLsb' 48 8 = bslot := by
  refine (extract_hi (a := 24) (b := 40) _ _ 48 8 (by decide)).trans ?_
  refine (extract_hi (a := 16) (b := 8) _ _ 8 8 (by decide)).trans ?_
  exact (extract_lo (a := 8) (b := 8) _ _ 0 8 (by decide)).trans (extract_all _)
theorem mldb_f3 (bslot : BitVec 8) (off : BitVec 40) : (0x01#6 ++ 0#2 ++ bslot ++ 0#8 ++ off : BitVec 64).extractLsb' 40 8 = 0#8 := by
  refine (extract_hi (a := 24) (b := 40) _ _ 40 8 (by decide)).trans ?_
  exact (extract_lo (a := 16) (b := 8) _ _ 0 8 (by decide)).trans (extract_all _)
theorem mldb_f4 (bslot : BitVec 8) (off : BitVec 40) : (0x01#6 ++ 0#2 ++ bslot ++ 0#8 ++ off : BitVec 64).extractLsb' 0 40 = off := by
  exact (extract_lo (a := 24) (b := 40) _ _ 0 40 (by decide)).trans (extract_all _)
theorem RoundTrip.mldb (bslot : BitVec 8) (off : BitVec 40) : RoundTrip.Statement (.mldb bslot off) := by
  refine RoundTrip.ofStream rfl rfl (fun hf => ?_)
  unfold decodeStream
  rw [← limited_ok hf]
  refine congrArg limited ?_
  unfold decodeStreamFields
  simp only [mldb_f0, mldb_f1, mldb_f2, mldb_f3, mldb_f4]
  rfl
theorem mma_f0 (r : Bool) (rnd : BitVec 2) (acc : BitVec 2) (bslot : BitVec 8) (aoff : BitVec 10) (coff : BitVec 10) : (0x02#6 ++ bb r ++ rnd ++ acc ++ bslot ++ aoff ++ coff ++ 0#4 ++ 0#21 : BitVec 64).extractLsb' 58 6 = 0x02#6 := by
  refine (extract_hi (a := 43) (b := 21) _ _ 58 6 (by decide)).trans ?_
  refine (extract_hi (a := 39) (b := 4) _ _ 37 6 (by decide)).trans ?_
  refine (extract_hi (a := 29) (b := 10) _ _ 33 6 (by decide)).trans ?_
  refine (extract_hi (a := 19) (b := 10) _ _ 23 6 (by decide)).trans ?_
  refine (extract_hi (a := 11) (b := 8) _ _ 13 6 (by decide)).trans ?_
  refine (extract_hi (a := 9) (b := 2) _ _ 5 6 (by decide)).trans ?_
  refine (extract_hi (a := 7) (b := 2) _ _ 3 6 (by decide)).trans ?_
  refine (extract_hi (a := 6) (b := 1) _ _ 1 6 (by decide)).trans ?_
  exact extract_all _
theorem mma_f1 (r : Bool) (rnd : BitVec 2) (acc : BitVec 2) (bslot : BitVec 8) (aoff : BitVec 10) (coff : BitVec 10) : (0x02#6 ++ bb r ++ rnd ++ acc ++ bslot ++ aoff ++ coff ++ 0#4 ++ 0#21 : BitVec 64).getLsbD 57 = r := by
  refine (bit_hi (a := 43) (b := 21) _ _ 57 (by decide)).trans ?_
  refine (bit_hi (a := 39) (b := 4) _ _ 36 (by decide)).trans ?_
  refine (bit_hi (a := 29) (b := 10) _ _ 32 (by decide)).trans ?_
  refine (bit_hi (a := 19) (b := 10) _ _ 22 (by decide)).trans ?_
  refine (bit_hi (a := 11) (b := 8) _ _ 12 (by decide)).trans ?_
  refine (bit_hi (a := 9) (b := 2) _ _ 4 (by decide)).trans ?_
  refine (bit_hi (a := 7) (b := 2) _ _ 2 (by decide)).trans ?_
  exact (bit_lo (a := 6) (b := 1) _ _ 0 (by decide)).trans (bb_bit _)
theorem mma_f2 (r : Bool) (rnd : BitVec 2) (acc : BitVec 2) (bslot : BitVec 8) (aoff : BitVec 10) (coff : BitVec 10) : (0x02#6 ++ bb r ++ rnd ++ acc ++ bslot ++ aoff ++ coff ++ 0#4 ++ 0#21 : BitVec 64).extractLsb' 55 2 = rnd := by
  refine (extract_hi (a := 43) (b := 21) _ _ 55 2 (by decide)).trans ?_
  refine (extract_hi (a := 39) (b := 4) _ _ 34 2 (by decide)).trans ?_
  refine (extract_hi (a := 29) (b := 10) _ _ 30 2 (by decide)).trans ?_
  refine (extract_hi (a := 19) (b := 10) _ _ 20 2 (by decide)).trans ?_
  refine (extract_hi (a := 11) (b := 8) _ _ 10 2 (by decide)).trans ?_
  refine (extract_hi (a := 9) (b := 2) _ _ 2 2 (by decide)).trans ?_
  exact (extract_lo (a := 7) (b := 2) _ _ 0 2 (by decide)).trans (extract_all _)
theorem mma_f3 (r : Bool) (rnd : BitVec 2) (acc : BitVec 2) (bslot : BitVec 8) (aoff : BitVec 10) (coff : BitVec 10) : (0x02#6 ++ bb r ++ rnd ++ acc ++ bslot ++ aoff ++ coff ++ 0#4 ++ 0#21 : BitVec 64).extractLsb' 53 2 = acc := by
  refine (extract_hi (a := 43) (b := 21) _ _ 53 2 (by decide)).trans ?_
  refine (extract_hi (a := 39) (b := 4) _ _ 32 2 (by decide)).trans ?_
  refine (extract_hi (a := 29) (b := 10) _ _ 28 2 (by decide)).trans ?_
  refine (extract_hi (a := 19) (b := 10) _ _ 18 2 (by decide)).trans ?_
  refine (extract_hi (a := 11) (b := 8) _ _ 8 2 (by decide)).trans ?_
  exact (extract_lo (a := 9) (b := 2) _ _ 0 2 (by decide)).trans (extract_all _)
theorem mma_f4 (r : Bool) (rnd : BitVec 2) (acc : BitVec 2) (bslot : BitVec 8) (aoff : BitVec 10) (coff : BitVec 10) : (0x02#6 ++ bb r ++ rnd ++ acc ++ bslot ++ aoff ++ coff ++ 0#4 ++ 0#21 : BitVec 64).extractLsb' 45 8 = bslot := by
  refine (extract_hi (a := 43) (b := 21) _ _ 45 8 (by decide)).trans ?_
  refine (extract_hi (a := 39) (b := 4) _ _ 24 8 (by decide)).trans ?_
  refine (extract_hi (a := 29) (b := 10) _ _ 20 8 (by decide)).trans ?_
  refine (extract_hi (a := 19) (b := 10) _ _ 10 8 (by decide)).trans ?_
  exact (extract_lo (a := 11) (b := 8) _ _ 0 8 (by decide)).trans (extract_all _)
theorem mma_f5 (r : Bool) (rnd : BitVec 2) (acc : BitVec 2) (bslot : BitVec 8) (aoff : BitVec 10) (coff : BitVec 10) : (0x02#6 ++ bb r ++ rnd ++ acc ++ bslot ++ aoff ++ coff ++ 0#4 ++ 0#21 : BitVec 64).extractLsb' 35 10 = aoff := by
  refine (extract_hi (a := 43) (b := 21) _ _ 35 10 (by decide)).trans ?_
  refine (extract_hi (a := 39) (b := 4) _ _ 14 10 (by decide)).trans ?_
  refine (extract_hi (a := 29) (b := 10) _ _ 10 10 (by decide)).trans ?_
  exact (extract_lo (a := 19) (b := 10) _ _ 0 10 (by decide)).trans (extract_all _)
theorem mma_f6 (r : Bool) (rnd : BitVec 2) (acc : BitVec 2) (bslot : BitVec 8) (aoff : BitVec 10) (coff : BitVec 10) : (0x02#6 ++ bb r ++ rnd ++ acc ++ bslot ++ aoff ++ coff ++ 0#4 ++ 0#21 : BitVec 64).extractLsb' 25 10 = coff := by
  refine (extract_hi (a := 43) (b := 21) _ _ 25 10 (by decide)).trans ?_
  refine (extract_hi (a := 39) (b := 4) _ _ 4 10 (by decide)).trans ?_
  exact (extract_lo (a := 29) (b := 10) _ _ 0 10 (by decide)).trans (extract_all _)
theorem mma_f7 (r : Bool) (rnd : BitVec 2) (acc : BitVec 2) (bslot : BitVec 8) (aoff : BitVec 10) (coff : BitVec 10) : (0x02#6 ++ bb r ++ rnd ++ acc ++ bslot ++ aoff ++ coff ++ 0#4 ++ 0#21 : BitVec 64).extractLsb' 21 4 = 0#4 := by
  refine (extract_hi (a := 43) (b := 21) _ _ 21 4 (by decide)).trans ?_
  exact (extract_lo (a := 39) (b := 4) _ _ 0 4 (by decide)).trans (extract_all _)
theorem mma_f8 (r : Bool) (rnd : BitVec 2) (acc : BitVec 2) (bslot : BitVec 8) (aoff : BitVec 10) (coff : BitVec 10) : (0x02#6 ++ bb r ++ rnd ++ acc ++ bslot ++ aoff ++ coff ++ 0#4 ++ 0#21 : BitVec 64).extractLsb' 0 21 = 0#21 := by
  exact (extract_lo (a := 43) (b := 21) _ _ 0 21 (by decide)).trans (extract_all _)
theorem RoundTrip.mma (r : Bool) (rnd : BitVec 2) (acc : BitVec 2) (bslot : BitVec 8) (aoff : BitVec 10) (coff : BitVec 10) : RoundTrip.Statement (.mma r rnd acc bslot aoff coff) := by
  refine RoundTrip.ofStream rfl rfl (fun hf => ?_)
  unfold decodeStream
  rw [← limited_ok hf]
  refine congrArg limited ?_
  unfold decodeStreamFields
  simp only [mma_f0, mma_f1, mma_f2, mma_f3, mma_f4, mma_f5, mma_f6, mma_f7, mma_f8]
  rfl
theorem mmas_f0 (r : Bool) (rnd : BitVec 2) (acc : BitVec 2) (bslot : BitVec 8) (aoff : BitVec 10) (coff : BitVec 10) (sp : BitVec 4) : (0x03#6 ++ bb r ++ rnd ++ acc ++ bslot ++ aoff ++ coff ++ sp ++ 0#21 : BitVec 64).extractLsb' 58 6 = 0x03#6 := by
  refine (extract_hi (a := 43) (b := 21) _ _ 58 6 (by decide)).trans ?_
  refine (extract_hi (a := 39) (b := 4) _ _ 37 6 (by decide)).trans ?_
  refine (extract_hi (a := 29) (b := 10) _ _ 33 6 (by decide)).trans ?_
  refine (extract_hi (a := 19) (b := 10) _ _ 23 6 (by decide)).trans ?_
  refine (extract_hi (a := 11) (b := 8) _ _ 13 6 (by decide)).trans ?_
  refine (extract_hi (a := 9) (b := 2) _ _ 5 6 (by decide)).trans ?_
  refine (extract_hi (a := 7) (b := 2) _ _ 3 6 (by decide)).trans ?_
  refine (extract_hi (a := 6) (b := 1) _ _ 1 6 (by decide)).trans ?_
  exact extract_all _
theorem mmas_f1 (r : Bool) (rnd : BitVec 2) (acc : BitVec 2) (bslot : BitVec 8) (aoff : BitVec 10) (coff : BitVec 10) (sp : BitVec 4) : (0x03#6 ++ bb r ++ rnd ++ acc ++ bslot ++ aoff ++ coff ++ sp ++ 0#21 : BitVec 64).getLsbD 57 = r := by
  refine (bit_hi (a := 43) (b := 21) _ _ 57 (by decide)).trans ?_
  refine (bit_hi (a := 39) (b := 4) _ _ 36 (by decide)).trans ?_
  refine (bit_hi (a := 29) (b := 10) _ _ 32 (by decide)).trans ?_
  refine (bit_hi (a := 19) (b := 10) _ _ 22 (by decide)).trans ?_
  refine (bit_hi (a := 11) (b := 8) _ _ 12 (by decide)).trans ?_
  refine (bit_hi (a := 9) (b := 2) _ _ 4 (by decide)).trans ?_
  refine (bit_hi (a := 7) (b := 2) _ _ 2 (by decide)).trans ?_
  exact (bit_lo (a := 6) (b := 1) _ _ 0 (by decide)).trans (bb_bit _)
theorem mmas_f2 (r : Bool) (rnd : BitVec 2) (acc : BitVec 2) (bslot : BitVec 8) (aoff : BitVec 10) (coff : BitVec 10) (sp : BitVec 4) : (0x03#6 ++ bb r ++ rnd ++ acc ++ bslot ++ aoff ++ coff ++ sp ++ 0#21 : BitVec 64).extractLsb' 55 2 = rnd := by
  refine (extract_hi (a := 43) (b := 21) _ _ 55 2 (by decide)).trans ?_
  refine (extract_hi (a := 39) (b := 4) _ _ 34 2 (by decide)).trans ?_
  refine (extract_hi (a := 29) (b := 10) _ _ 30 2 (by decide)).trans ?_
  refine (extract_hi (a := 19) (b := 10) _ _ 20 2 (by decide)).trans ?_
  refine (extract_hi (a := 11) (b := 8) _ _ 10 2 (by decide)).trans ?_
  refine (extract_hi (a := 9) (b := 2) _ _ 2 2 (by decide)).trans ?_
  exact (extract_lo (a := 7) (b := 2) _ _ 0 2 (by decide)).trans (extract_all _)
theorem mmas_f3 (r : Bool) (rnd : BitVec 2) (acc : BitVec 2) (bslot : BitVec 8) (aoff : BitVec 10) (coff : BitVec 10) (sp : BitVec 4) : (0x03#6 ++ bb r ++ rnd ++ acc ++ bslot ++ aoff ++ coff ++ sp ++ 0#21 : BitVec 64).extractLsb' 53 2 = acc := by
  refine (extract_hi (a := 43) (b := 21) _ _ 53 2 (by decide)).trans ?_
  refine (extract_hi (a := 39) (b := 4) _ _ 32 2 (by decide)).trans ?_
  refine (extract_hi (a := 29) (b := 10) _ _ 28 2 (by decide)).trans ?_
  refine (extract_hi (a := 19) (b := 10) _ _ 18 2 (by decide)).trans ?_
  refine (extract_hi (a := 11) (b := 8) _ _ 8 2 (by decide)).trans ?_
  exact (extract_lo (a := 9) (b := 2) _ _ 0 2 (by decide)).trans (extract_all _)
theorem mmas_f4 (r : Bool) (rnd : BitVec 2) (acc : BitVec 2) (bslot : BitVec 8) (aoff : BitVec 10) (coff : BitVec 10) (sp : BitVec 4) : (0x03#6 ++ bb r ++ rnd ++ acc ++ bslot ++ aoff ++ coff ++ sp ++ 0#21 : BitVec 64).extractLsb' 45 8 = bslot := by
  refine (extract_hi (a := 43) (b := 21) _ _ 45 8 (by decide)).trans ?_
  refine (extract_hi (a := 39) (b := 4) _ _ 24 8 (by decide)).trans ?_
  refine (extract_hi (a := 29) (b := 10) _ _ 20 8 (by decide)).trans ?_
  refine (extract_hi (a := 19) (b := 10) _ _ 10 8 (by decide)).trans ?_
  exact (extract_lo (a := 11) (b := 8) _ _ 0 8 (by decide)).trans (extract_all _)
theorem mmas_f5 (r : Bool) (rnd : BitVec 2) (acc : BitVec 2) (bslot : BitVec 8) (aoff : BitVec 10) (coff : BitVec 10) (sp : BitVec 4) : (0x03#6 ++ bb r ++ rnd ++ acc ++ bslot ++ aoff ++ coff ++ sp ++ 0#21 : BitVec 64).extractLsb' 35 10 = aoff := by
  refine (extract_hi (a := 43) (b := 21) _ _ 35 10 (by decide)).trans ?_
  refine (extract_hi (a := 39) (b := 4) _ _ 14 10 (by decide)).trans ?_
  refine (extract_hi (a := 29) (b := 10) _ _ 10 10 (by decide)).trans ?_
  exact (extract_lo (a := 19) (b := 10) _ _ 0 10 (by decide)).trans (extract_all _)
theorem mmas_f6 (r : Bool) (rnd : BitVec 2) (acc : BitVec 2) (bslot : BitVec 8) (aoff : BitVec 10) (coff : BitVec 10) (sp : BitVec 4) : (0x03#6 ++ bb r ++ rnd ++ acc ++ bslot ++ aoff ++ coff ++ sp ++ 0#21 : BitVec 64).extractLsb' 25 10 = coff := by
  refine (extract_hi (a := 43) (b := 21) _ _ 25 10 (by decide)).trans ?_
  refine (extract_hi (a := 39) (b := 4) _ _ 4 10 (by decide)).trans ?_
  exact (extract_lo (a := 29) (b := 10) _ _ 0 10 (by decide)).trans (extract_all _)
theorem mmas_f7 (r : Bool) (rnd : BitVec 2) (acc : BitVec 2) (bslot : BitVec 8) (aoff : BitVec 10) (coff : BitVec 10) (sp : BitVec 4) : (0x03#6 ++ bb r ++ rnd ++ acc ++ bslot ++ aoff ++ coff ++ sp ++ 0#21 : BitVec 64).extractLsb' 21 4 = sp := by
  refine (extract_hi (a := 43) (b := 21) _ _ 21 4 (by decide)).trans ?_
  exact (extract_lo (a := 39) (b := 4) _ _ 0 4 (by decide)).trans (extract_all _)
theorem mmas_f8 (r : Bool) (rnd : BitVec 2) (acc : BitVec 2) (bslot : BitVec 8) (aoff : BitVec 10) (coff : BitVec 10) (sp : BitVec 4) : (0x03#6 ++ bb r ++ rnd ++ acc ++ bslot ++ aoff ++ coff ++ sp ++ 0#21 : BitVec 64).extractLsb' 0 21 = 0#21 := by
  exact (extract_lo (a := 43) (b := 21) _ _ 0 21 (by decide)).trans (extract_all _)
theorem RoundTrip.mmas (r : Bool) (rnd : BitVec 2) (acc : BitVec 2) (bslot : BitVec 8) (aoff : BitVec 10) (coff : BitVec 10) (sp : BitVec 4) : RoundTrip.Statement (.mmas r rnd acc bslot aoff coff sp) := by
  refine RoundTrip.ofStream rfl rfl (fun hf => ?_)
  unfold decodeStream
  rw [← limited_ok hf]
  refine congrArg limited ?_
  unfold decodeStreamFields
  simp only [mmas_f0, mmas_f1, mmas_f2, mmas_f3, mmas_f4, mmas_f5, mmas_f6, mmas_f7, mmas_f8]
  rfl
theorem mmap_f0 (r : Bool) (rnd : BitVec 2) (acc : BitVec 2) (bslot : BitVec 8) (aoff : BitVec 10) (coff : BitVec 10) : (0x04#6 ++ bb r ++ rnd ++ acc ++ bslot ++ aoff ++ coff ++ 0#4 ++ 0#21 : BitVec 64).extractLsb' 58 6 = 0x04#6 := by
  refine (extract_hi (a := 43) (b := 21) _ _ 58 6 (by decide)).trans ?_
  refine (extract_hi (a := 39) (b := 4) _ _ 37 6 (by decide)).trans ?_
  refine (extract_hi (a := 29) (b := 10) _ _ 33 6 (by decide)).trans ?_
  refine (extract_hi (a := 19) (b := 10) _ _ 23 6 (by decide)).trans ?_
  refine (extract_hi (a := 11) (b := 8) _ _ 13 6 (by decide)).trans ?_
  refine (extract_hi (a := 9) (b := 2) _ _ 5 6 (by decide)).trans ?_
  refine (extract_hi (a := 7) (b := 2) _ _ 3 6 (by decide)).trans ?_
  refine (extract_hi (a := 6) (b := 1) _ _ 1 6 (by decide)).trans ?_
  exact extract_all _
theorem mmap_f1 (r : Bool) (rnd : BitVec 2) (acc : BitVec 2) (bslot : BitVec 8) (aoff : BitVec 10) (coff : BitVec 10) : (0x04#6 ++ bb r ++ rnd ++ acc ++ bslot ++ aoff ++ coff ++ 0#4 ++ 0#21 : BitVec 64).getLsbD 57 = r := by
  refine (bit_hi (a := 43) (b := 21) _ _ 57 (by decide)).trans ?_
  refine (bit_hi (a := 39) (b := 4) _ _ 36 (by decide)).trans ?_
  refine (bit_hi (a := 29) (b := 10) _ _ 32 (by decide)).trans ?_
  refine (bit_hi (a := 19) (b := 10) _ _ 22 (by decide)).trans ?_
  refine (bit_hi (a := 11) (b := 8) _ _ 12 (by decide)).trans ?_
  refine (bit_hi (a := 9) (b := 2) _ _ 4 (by decide)).trans ?_
  refine (bit_hi (a := 7) (b := 2) _ _ 2 (by decide)).trans ?_
  exact (bit_lo (a := 6) (b := 1) _ _ 0 (by decide)).trans (bb_bit _)
theorem mmap_f2 (r : Bool) (rnd : BitVec 2) (acc : BitVec 2) (bslot : BitVec 8) (aoff : BitVec 10) (coff : BitVec 10) : (0x04#6 ++ bb r ++ rnd ++ acc ++ bslot ++ aoff ++ coff ++ 0#4 ++ 0#21 : BitVec 64).extractLsb' 55 2 = rnd := by
  refine (extract_hi (a := 43) (b := 21) _ _ 55 2 (by decide)).trans ?_
  refine (extract_hi (a := 39) (b := 4) _ _ 34 2 (by decide)).trans ?_
  refine (extract_hi (a := 29) (b := 10) _ _ 30 2 (by decide)).trans ?_
  refine (extract_hi (a := 19) (b := 10) _ _ 20 2 (by decide)).trans ?_
  refine (extract_hi (a := 11) (b := 8) _ _ 10 2 (by decide)).trans ?_
  refine (extract_hi (a := 9) (b := 2) _ _ 2 2 (by decide)).trans ?_
  exact (extract_lo (a := 7) (b := 2) _ _ 0 2 (by decide)).trans (extract_all _)
theorem mmap_f3 (r : Bool) (rnd : BitVec 2) (acc : BitVec 2) (bslot : BitVec 8) (aoff : BitVec 10) (coff : BitVec 10) : (0x04#6 ++ bb r ++ rnd ++ acc ++ bslot ++ aoff ++ coff ++ 0#4 ++ 0#21 : BitVec 64).extractLsb' 53 2 = acc := by
  refine (extract_hi (a := 43) (b := 21) _ _ 53 2 (by decide)).trans ?_
  refine (extract_hi (a := 39) (b := 4) _ _ 32 2 (by decide)).trans ?_
  refine (extract_hi (a := 29) (b := 10) _ _ 28 2 (by decide)).trans ?_
  refine (extract_hi (a := 19) (b := 10) _ _ 18 2 (by decide)).trans ?_
  refine (extract_hi (a := 11) (b := 8) _ _ 8 2 (by decide)).trans ?_
  exact (extract_lo (a := 9) (b := 2) _ _ 0 2 (by decide)).trans (extract_all _)
theorem mmap_f4 (r : Bool) (rnd : BitVec 2) (acc : BitVec 2) (bslot : BitVec 8) (aoff : BitVec 10) (coff : BitVec 10) : (0x04#6 ++ bb r ++ rnd ++ acc ++ bslot ++ aoff ++ coff ++ 0#4 ++ 0#21 : BitVec 64).extractLsb' 45 8 = bslot := by
  refine (extract_hi (a := 43) (b := 21) _ _ 45 8 (by decide)).trans ?_
  refine (extract_hi (a := 39) (b := 4) _ _ 24 8 (by decide)).trans ?_
  refine (extract_hi (a := 29) (b := 10) _ _ 20 8 (by decide)).trans ?_
  refine (extract_hi (a := 19) (b := 10) _ _ 10 8 (by decide)).trans ?_
  exact (extract_lo (a := 11) (b := 8) _ _ 0 8 (by decide)).trans (extract_all _)
theorem mmap_f5 (r : Bool) (rnd : BitVec 2) (acc : BitVec 2) (bslot : BitVec 8) (aoff : BitVec 10) (coff : BitVec 10) : (0x04#6 ++ bb r ++ rnd ++ acc ++ bslot ++ aoff ++ coff ++ 0#4 ++ 0#21 : BitVec 64).extractLsb' 35 10 = aoff := by
  refine (extract_hi (a := 43) (b := 21) _ _ 35 10 (by decide)).trans ?_
  refine (extract_hi (a := 39) (b := 4) _ _ 14 10 (by decide)).trans ?_
  refine (extract_hi (a := 29) (b := 10) _ _ 10 10 (by decide)).trans ?_
  exact (extract_lo (a := 19) (b := 10) _ _ 0 10 (by decide)).trans (extract_all _)
theorem mmap_f6 (r : Bool) (rnd : BitVec 2) (acc : BitVec 2) (bslot : BitVec 8) (aoff : BitVec 10) (coff : BitVec 10) : (0x04#6 ++ bb r ++ rnd ++ acc ++ bslot ++ aoff ++ coff ++ 0#4 ++ 0#21 : BitVec 64).extractLsb' 25 10 = coff := by
  refine (extract_hi (a := 43) (b := 21) _ _ 25 10 (by decide)).trans ?_
  refine (extract_hi (a := 39) (b := 4) _ _ 4 10 (by decide)).trans ?_
  exact (extract_lo (a := 29) (b := 10) _ _ 0 10 (by decide)).trans (extract_all _)
theorem mmap_f7 (r : Bool) (rnd : BitVec 2) (acc : BitVec 2) (bslot : BitVec 8) (aoff : BitVec 10) (coff : BitVec 10) : (0x04#6 ++ bb r ++ rnd ++ acc ++ bslot ++ aoff ++ coff ++ 0#4 ++ 0#21 : BitVec 64).extractLsb' 21 4 = 0#4 := by
  refine (extract_hi (a := 43) (b := 21) _ _ 21 4 (by decide)).trans ?_
  exact (extract_lo (a := 39) (b := 4) _ _ 0 4 (by decide)).trans (extract_all _)
theorem mmap_f8 (r : Bool) (rnd : BitVec 2) (acc : BitVec 2) (bslot : BitVec 8) (aoff : BitVec 10) (coff : BitVec 10) : (0x04#6 ++ bb r ++ rnd ++ acc ++ bslot ++ aoff ++ coff ++ 0#4 ++ 0#21 : BitVec 64).extractLsb' 0 21 = 0#21 := by
  exact (extract_lo (a := 43) (b := 21) _ _ 0 21 (by decide)).trans (extract_all _)
theorem RoundTrip.mmap (r : Bool) (rnd : BitVec 2) (acc : BitVec 2) (bslot : BitVec 8) (aoff : BitVec 10) (coff : BitVec 10) : RoundTrip.Statement (.mmap r rnd acc bslot aoff coff) := by
  refine RoundTrip.ofStream rfl rfl (fun hf => ?_)
  unfold decodeStream
  rw [← limited_ok hf]
  refine congrArg limited ?_
  unfold decodeStreamFields
  simp only [mmap_f0, mmap_f1, mmap_f2, mmap_f3, mmap_f4, mmap_f5, mmap_f6, mmap_f7, mmap_f8]
  rfl
theorem mclr_f0 (acc : BitVec 2) (coff : BitVec 10) : (0x05#6 ++ 0#3 ++ acc ++ 0#18 ++ coff ++ 0#25 : BitVec 64).extractLsb' 58 6 = 0x05#6 := by
  refine (extract_hi (a := 39) (b := 25) _ _ 58 6 (by decide)).trans ?_
  refine (extract_hi (a := 29) (b := 10) _ _ 33 6 (by decide)).trans ?_
  refine (extract_hi (a := 11) (b := 18) _ _ 23 6 (by decide)).trans ?_
  refine (extract_hi (a := 9) (b := 2) _ _ 5 6 (by decide)).trans ?_
  refine (extract_hi (a := 6) (b := 3) _ _ 3 6 (by decide)).trans ?_
  exact extract_all _
theorem mclr_f1 (acc : BitVec 2) (coff : BitVec 10) : (0x05#6 ++ 0#3 ++ acc ++ 0#18 ++ coff ++ 0#25 : BitVec 64).extractLsb' 55 3 = 0#3 := by
  refine (extract_hi (a := 39) (b := 25) _ _ 55 3 (by decide)).trans ?_
  refine (extract_hi (a := 29) (b := 10) _ _ 30 3 (by decide)).trans ?_
  refine (extract_hi (a := 11) (b := 18) _ _ 20 3 (by decide)).trans ?_
  refine (extract_hi (a := 9) (b := 2) _ _ 2 3 (by decide)).trans ?_
  exact (extract_lo (a := 6) (b := 3) _ _ 0 3 (by decide)).trans (extract_all _)
theorem mclr_f2 (acc : BitVec 2) (coff : BitVec 10) : (0x05#6 ++ 0#3 ++ acc ++ 0#18 ++ coff ++ 0#25 : BitVec 64).extractLsb' 53 2 = acc := by
  refine (extract_hi (a := 39) (b := 25) _ _ 53 2 (by decide)).trans ?_
  refine (extract_hi (a := 29) (b := 10) _ _ 28 2 (by decide)).trans ?_
  refine (extract_hi (a := 11) (b := 18) _ _ 18 2 (by decide)).trans ?_
  exact (extract_lo (a := 9) (b := 2) _ _ 0 2 (by decide)).trans (extract_all _)
theorem mclr_f3 (acc : BitVec 2) (coff : BitVec 10) : (0x05#6 ++ 0#3 ++ acc ++ 0#18 ++ coff ++ 0#25 : BitVec 64).extractLsb' 35 18 = 0#18 := by
  refine (extract_hi (a := 39) (b := 25) _ _ 35 18 (by decide)).trans ?_
  refine (extract_hi (a := 29) (b := 10) _ _ 10 18 (by decide)).trans ?_
  exact (extract_lo (a := 11) (b := 18) _ _ 0 18 (by decide)).trans (extract_all _)
theorem mclr_f4 (acc : BitVec 2) (coff : BitVec 10) : (0x05#6 ++ 0#3 ++ acc ++ 0#18 ++ coff ++ 0#25 : BitVec 64).extractLsb' 25 10 = coff := by
  refine (extract_hi (a := 39) (b := 25) _ _ 25 10 (by decide)).trans ?_
  exact (extract_lo (a := 29) (b := 10) _ _ 0 10 (by decide)).trans (extract_all _)
theorem mclr_f5 (acc : BitVec 2) (coff : BitVec 10) : (0x05#6 ++ 0#3 ++ acc ++ 0#18 ++ coff ++ 0#25 : BitVec 64).extractLsb' 0 25 = 0#25 := by
  exact (extract_lo (a := 39) (b := 25) _ _ 0 25 (by decide)).trans (extract_all _)
theorem RoundTrip.mclr (acc : BitVec 2) (coff : BitVec 10) : RoundTrip.Statement (.mclr acc coff) := by
  refine RoundTrip.ofStream rfl rfl (fun hf => ?_)
  unfold decodeStream
  rw [← limited_ok hf]
  refine congrArg limited ?_
  unfold decodeStreamFields
  simp only [mclr_f0, mclr_f1, mclr_f2, mclr_f3, mclr_f4, mclr_f5]
  rfl
theorem mout_f0 (coff : BitVec 10) (acc : BitVec 2) (off : BitVec 40) : (0x06#6 ++ coff ++ acc ++ 0#6 ++ off : BitVec 64).extractLsb' 58 6 = 0x06#6 := by
  refine (extract_hi (a := 24) (b := 40) _ _ 58 6 (by decide)).trans ?_
  refine (extract_hi (a := 18) (b := 6) _ _ 18 6 (by decide)).trans ?_
  refine (extract_hi (a := 16) (b := 2) _ _ 12 6 (by decide)).trans ?_
  refine (extract_hi (a := 6) (b := 10) _ _ 10 6 (by decide)).trans ?_
  exact extract_all _
theorem mout_f1 (coff : BitVec 10) (acc : BitVec 2) (off : BitVec 40) : (0x06#6 ++ coff ++ acc ++ 0#6 ++ off : BitVec 64).extractLsb' 48 10 = coff := by
  refine (extract_hi (a := 24) (b := 40) _ _ 48 10 (by decide)).trans ?_
  refine (extract_hi (a := 18) (b := 6) _ _ 8 10 (by decide)).trans ?_
  refine (extract_hi (a := 16) (b := 2) _ _ 2 10 (by decide)).trans ?_
  exact (extract_lo (a := 6) (b := 10) _ _ 0 10 (by decide)).trans (extract_all _)
theorem mout_f2 (coff : BitVec 10) (acc : BitVec 2) (off : BitVec 40) : (0x06#6 ++ coff ++ acc ++ 0#6 ++ off : BitVec 64).extractLsb' 46 2 = acc := by
  refine (extract_hi (a := 24) (b := 40) _ _ 46 2 (by decide)).trans ?_
  refine (extract_hi (a := 18) (b := 6) _ _ 6 2 (by decide)).trans ?_
  exact (extract_lo (a := 16) (b := 2) _ _ 0 2 (by decide)).trans (extract_all _)
theorem mout_f3 (coff : BitVec 10) (acc : BitVec 2) (off : BitVec 40) : (0x06#6 ++ coff ++ acc ++ 0#6 ++ off : BitVec 64).extractLsb' 40 6 = 0#6 := by
  refine (extract_hi (a := 24) (b := 40) _ _ 40 6 (by decide)).trans ?_
  exact (extract_lo (a := 18) (b := 6) _ _ 0 6 (by decide)).trans (extract_all _)
theorem mout_f4 (coff : BitVec 10) (acc : BitVec 2) (off : BitVec 40) : (0x06#6 ++ coff ++ acc ++ 0#6 ++ off : BitVec 64).extractLsb' 0 40 = off := by
  exact (extract_lo (a := 24) (b := 40) _ _ 0 40 (by decide)).trans (extract_all _)
theorem RoundTrip.mout (coff : BitVec 10) (acc : BitVec 2) (off : BitVec 40) : RoundTrip.Statement (.mout coff acc off) := by
  refine RoundTrip.ofStream rfl rfl (fun hf => ?_)
  unfold decodeStream
  rw [← limited_ok hf]
  refine congrArg limited ?_
  unfold decodeStreamFields
  simp only [mout_f0, mout_f1, mout_f2, mout_f3, mout_f4]
  rfl
theorem marrive_f0 (nb : BitVec 4) : (0x07#6 ++ nb ++ 0#54 : BitVec 64).extractLsb' 58 6 = 0x07#6 := by
  refine (extract_hi (a := 10) (b := 54) _ _ 58 6 (by decide)).trans ?_
  refine (extract_hi (a := 6) (b := 4) _ _ 4 6 (by decide)).trans ?_
  exact extract_all _
theorem marrive_f1 (nb : BitVec 4) : (0x07#6 ++ nb ++ 0#54 : BitVec 64).extractLsb' 54 4 = nb := by
  refine (extract_hi (a := 10) (b := 54) _ _ 54 4 (by decide)).trans ?_
  exact (extract_lo (a := 6) (b := 4) _ _ 0 4 (by decide)).trans (extract_all _)
theorem marrive_f2 (nb : BitVec 4) : (0x07#6 ++ nb ++ 0#54 : BitVec 64).extractLsb' 0 54 = 0#54 := by
  exact (extract_lo (a := 10) (b := 54) _ _ 0 54 (by decide)).trans (extract_all _)
theorem RoundTrip.marrive (nb : BitVec 4) : RoundTrip.Statement (.marrive nb) := by
  refine RoundTrip.ofStream rfl rfl (fun hf => ?_)
  unfold decodeStream
  rw [← limited_ok hf]
  refine congrArg limited ?_
  unfold decodeStreamFields
  simp only [marrive_f0, marrive_f1, marrive_f2]
  rfl
theorem streamMwait_f0 (nb : BitVec 4) : (0x08#6 ++ nb ++ 0#54 : BitVec 64).extractLsb' 58 6 = 0x08#6 := by
  refine (extract_hi (a := 10) (b := 54) _ _ 58 6 (by decide)).trans ?_
  refine (extract_hi (a := 6) (b := 4) _ _ 4 6 (by decide)).trans ?_
  exact extract_all _
theorem streamMwait_f1 (nb : BitVec 4) : (0x08#6 ++ nb ++ 0#54 : BitVec 64).extractLsb' 54 4 = nb := by
  refine (extract_hi (a := 10) (b := 54) _ _ 54 4 (by decide)).trans ?_
  exact (extract_lo (a := 6) (b := 4) _ _ 0 4 (by decide)).trans (extract_all _)
theorem streamMwait_f2 (nb : BitVec 4) : (0x08#6 ++ nb ++ 0#54 : BitVec 64).extractLsb' 0 54 = 0#54 := by
  exact (extract_lo (a := 10) (b := 54) _ _ 0 54 (by decide)).trans (extract_all _)
theorem RoundTrip.streamMwait (nb : BitVec 4) : RoundTrip.Statement (.streamMwait nb) := by
  refine RoundTrip.ofStream rfl rfl (fun hf => ?_)
  unfold decodeStream
  rw [← limited_ok hf]
  refine congrArg limited ?_
  unfold decodeStreamFields
  simp only [streamMwait_f0, streamMwait_f1, streamMwait_f2]
  rfl
theorem mloop_f0 (count : BitVec 16) (off : BitVec 24) : (0x09#6 ++ count ++ 0#18 ++ off : BitVec 64).extractLsb' 58 6 = 0x09#6 := by
  refine (extract_hi (a := 40) (b := 24) _ _ 58 6 (by decide)).trans ?_
  refine (extract_hi (a := 22) (b := 18) _ _ 34 6 (by decide)).trans ?_
  refine (extract_hi (a := 6) (b := 16) _ _ 16 6 (by decide)).trans ?_
  exact extract_all _
theorem mloop_f1 (count : BitVec 16) (off : BitVec 24) : (0x09#6 ++ count ++ 0#18 ++ off : BitVec 64).extractLsb' 42 16 = count := by
  refine (extract_hi (a := 40) (b := 24) _ _ 42 16 (by decide)).trans ?_
  refine (extract_hi (a := 22) (b := 18) _ _ 18 16 (by decide)).trans ?_
  exact (extract_lo (a := 6) (b := 16) _ _ 0 16 (by decide)).trans (extract_all _)
theorem mloop_f2 (count : BitVec 16) (off : BitVec 24) : (0x09#6 ++ count ++ 0#18 ++ off : BitVec 64).extractLsb' 24 18 = 0#18 := by
  refine (extract_hi (a := 40) (b := 24) _ _ 24 18 (by decide)).trans ?_
  exact (extract_lo (a := 22) (b := 18) _ _ 0 18 (by decide)).trans (extract_all _)
theorem mloop_f3 (count : BitVec 16) (off : BitVec 24) : (0x09#6 ++ count ++ 0#18 ++ off : BitVec 64).extractLsb' 0 24 = off := by
  exact (extract_lo (a := 40) (b := 24) _ _ 0 24 (by decide)).trans (extract_all _)
theorem RoundTrip.mloop (count : BitVec 16) (off : BitVec 24) : RoundTrip.Statement (.mloop count off) := by
  refine RoundTrip.ofStream rfl rfl (fun hf => ?_)
  unfold decodeStream
  rw [← limited_ok hf]
  refine congrArg limited ?_
  unfold decodeStreamFields
  simp only [mloop_f0, mloop_f1, mloop_f2, mloop_f3]
  rfl
theorem mjmp_f0 (off : BitVec 24) : (0x0A#6 ++ 0#16 ++ 0#18 ++ off : BitVec 64).extractLsb' 58 6 = 0x0A#6 := by
  refine (extract_hi (a := 40) (b := 24) _ _ 58 6 (by decide)).trans ?_
  refine (extract_hi (a := 22) (b := 18) _ _ 34 6 (by decide)).trans ?_
  refine (extract_hi (a := 6) (b := 16) _ _ 16 6 (by decide)).trans ?_
  exact extract_all _
theorem mjmp_f1 (off : BitVec 24) : (0x0A#6 ++ 0#16 ++ 0#18 ++ off : BitVec 64).extractLsb' 42 16 = 0#16 := by
  refine (extract_hi (a := 40) (b := 24) _ _ 42 16 (by decide)).trans ?_
  refine (extract_hi (a := 22) (b := 18) _ _ 18 16 (by decide)).trans ?_
  exact (extract_lo (a := 6) (b := 16) _ _ 0 16 (by decide)).trans (extract_all _)
theorem mjmp_f2 (off : BitVec 24) : (0x0A#6 ++ 0#16 ++ 0#18 ++ off : BitVec 64).extractLsb' 24 18 = 0#18 := by
  refine (extract_hi (a := 40) (b := 24) _ _ 24 18 (by decide)).trans ?_
  exact (extract_lo (a := 22) (b := 18) _ _ 0 18 (by decide)).trans (extract_all _)
theorem mjmp_f3 (off : BitVec 24) : (0x0A#6 ++ 0#16 ++ 0#18 ++ off : BitVec 64).extractLsb' 0 24 = off := by
  exact (extract_lo (a := 40) (b := 24) _ _ 0 24 (by decide)).trans (extract_all _)
theorem RoundTrip.mjmp (off : BitVec 24) : RoundTrip.Statement (.mjmp off) := by
  refine RoundTrip.ofStream rfl rfl (fun hf => ?_)
  unfold decodeStream
  rw [← limited_ok hf]
  refine congrArg limited ?_
  unfold decodeStreamFields
  simp only [mjmp_f0, mjmp_f1, mjmp_f2, mjmp_f3]
  rfl
theorem RoundTrip.serviceRestart (k : Nat) : RoundTrip.Statement (.serviceRestart k) := RoundTrip.ofNone rfl rfl
theorem RoundTrip.longResultReturn (k : Nat) : RoundTrip.Statement (.longResultReturn k) := RoundTrip.ofNone rfl rfl
theorem RoundTrip.fetchAgentDelivery (die : Nat) (ctx : Nat) (blk : Nat) : RoundTrip.Statement (.fetchAgentDelivery die ctx blk) := RoundTrip.ofNone rfl rfl
theorem RoundTrip.heartbeatTick (r : Nat) : RoundTrip.Statement (.heartbeatTick r) := RoundTrip.ofNone rfl rfl
theorem RoundTrip.logicalTick (u : Nat) : RoundTrip.Statement (.logicalTick u) := RoundTrip.ofNone rfl rfl
theorem RoundTrip.promotion (u : Nat) : RoundTrip.Statement (.promotion u) := RoundTrip.ofNone rfl rfl
theorem RoundTrip.gangAssemblerTake (die : Nat) : RoundTrip.Statement (.gangAssemblerTake die) := RoundTrip.ofNone rfl rfl
theorem RoundTrip.spawnGangTimeout (die : Nat) (k : Nat) : RoundTrip.Statement (.spawnGangTimeout die k) := RoundTrip.ofNone rfl rfl
theorem RoundTrip.spawnGangPlace (die : Nat) (k : Nat) (sp : Nat) : RoundTrip.Statement (.spawnGangPlace die k sp) := RoundTrip.ofNone rfl rfl
theorem RoundTrip.regroupTimeout (sp : Nat) (k : Nat) : RoundTrip.Statement (.regroupTimeout sp k) := RoundTrip.ofNone rfl rfl
theorem RoundTrip.crewWideFlush (k : Nat) : RoundTrip.Statement (.crewWideFlush k) := RoundTrip.ofNone rfl rfl
theorem RoundTrip.timerTrap (g : Nat) : RoundTrip.Statement (.timerTrap g) := RoundTrip.ofNone rfl rfl
theorem RoundTrip.waitcTimeout (k : Nat) : RoundTrip.Statement (.waitcTimeout k) := RoundTrip.ofNone rfl rfl
theorem RoundTrip.memoryAccessPerform (k : Nat) : RoundTrip.Statement (.memoryAccessPerform k) := RoundTrip.ofNone rfl rfl
theorem RoundTrip.routerMerge (k : Nat) (l : Nat) : RoundTrip.Statement (.routerMerge k l) := RoundTrip.ofNone rfl rfl
theorem RoundTrip.planerBlockMove (k : Nat) : RoundTrip.Statement (.planerBlockMove k) := RoundTrip.ofNone rfl rfl
theorem RoundTrip.copyStart (k : Nat) : RoundTrip.Statement (.copyStart k) := RoundTrip.ofNone rfl rfl
theorem RoundTrip.copyLand (k : Nat) (n : Nat) : RoundTrip.Statement (.copyLand k n) := RoundTrip.ofNone rfl rfl
theorem RoundTrip.indexJobStart (k : Nat) : RoundTrip.Statement (.indexJobStart k) := RoundTrip.ofNone rfl rfl
theorem RoundTrip.indexElement (k : Nat) : RoundTrip.Statement (.indexElement k) := RoundTrip.ofNone rfl rfl
theorem RoundTrip.contextSave (vt : Victim) : RoundTrip.Statement (.contextSave vt) := RoundTrip.ofNone rfl rfl
theorem RoundTrip.forcedSave (vt : Victim) : RoundTrip.Statement (.forcedSave vt) := RoundTrip.ofNone rfl rfl
theorem RoundTrip.contextRestore (vt : Victim) (sp : Nat) : RoundTrip.Statement (.contextRestore vt sp) := RoundTrip.ofNone rfl rfl
theorem RoundTrip.recordAdmission (q : Nat) : RoundTrip.Statement (.recordAdmission q) := RoundTrip.ofNone rfl rfl
theorem RoundTrip.crewPlace (k : Nat) (sp : Nat) : RoundTrip.Statement (.crewPlace k sp) := RoundTrip.ofNone rfl rfl
theorem RoundTrip.regionComplete (r : Nat) : RoundTrip.Statement (.regionComplete r) := RoundTrip.ofNone rfl rfl
theorem RoundTrip.tokenAccrual (ctx : Nat) : RoundTrip.Statement (.tokenAccrual ctx) := RoundTrip.ofNone rfl rfl
theorem RoundTrip.functionLevelReset (vf : Nat) : RoundTrip.Statement (.functionLevelReset vf) := RoundTrip.ofNone rfl rfl
theorem RoundTrip.powerOn (image : Nat) (ports : Option (BitVec 12)) : RoundTrip.Statement (.powerOn image ports) := RoundTrip.ofNone rfl rfl
theorem RoundTrip.attestationRequest (ctx : Nat) (nonce : BitVec 256) : RoundTrip.Statement (.attestationRequest ctx nonce) := RoundTrip.ofNone rfl rfl
theorem RoundTrip.linkCrcError (port : Nat) : RoundTrip.Statement (.linkCrcError port) := RoundTrip.ofNone rfl rfl
theorem RoundTrip.linkRequestTimeout (k : Nat) : RoundTrip.Statement (.linkRequestTimeout k) := RoundTrip.ofNone rfl rfl
theorem RoundTrip.hostWindowAccess (acc : HostAccess) : RoundTrip.Statement (.hostWindowAccess acc) := RoundTrip.ofNone rfl rfl
theorem RoundTrip.hostBar2Access (acc : HostAccess) : RoundTrip.Statement (.hostBar2Access acc) := RoundTrip.ofNone rfl rfl
theorem RoundTrip.sramError (site : SramSite) (single : Bool) : RoundTrip.Statement (.sramError site single) := RoundTrip.ofNone rfl rfl
theorem RoundTrip.powerThrottle (on : Bool) : RoundTrip.Statement (.powerThrottle on) := RoundTrip.ofNone rfl rfl
theorem RoundTrip.thermalThrottle (die : Nat) (temp : Nat) : RoundTrip.Statement (.thermalThrottle die temp) := RoundTrip.ofNone rfl rfl
theorem RoundTrip.thermalRecovery (die : Nat) (temp : Nat) : RoundTrip.Statement (.thermalRecovery die temp) := RoundTrip.ofNone rfl rfl
theorem RoundTrip.thermalShutdown (die : Nat) (temp : Nat) : RoundTrip.Statement (.thermalShutdown die temp) := RoundTrip.ofNone rfl rfl
theorem RoundTrip.registerWrite (fn : Nat) (off : Nat) (val : BitVec 64) : RoundTrip.Statement (.registerWrite fn off val) := RoundTrip.ofNone rfl rfl
theorem RoundTrip.illegalEncoding (w : Word) : RoundTrip.Statement (.illegalEncoding w) := by
  intro _
  refine And.intro ?_ ?_
  · intro v hv; cases hv; exact .inr rfl
  · intro v hv; cases hv
theorem RoundTrip.illegalStreamWord (w : BitVec 64) : RoundTrip.Statement (.illegalStreamWord w) := by
  intro _
  refine And.intro ?_ ?_
  · intro v hv; cases hv
  · intro v hv; cases hv; exact .inr rfl
theorem mnop_f0 : (0x00#6 ++ 0#58 : BitVec 64).extractLsb' 58 6 = 0x00#6 := by decide
theorem mnop_f1 : (0x00#6 ++ 0#58 : BitVec 64).extractLsb' 0 58 = 0#58 := by decide
theorem RoundTrip.mnop : RoundTrip.Statement (.mnop) := by
  refine RoundTrip.ofStream rfl rfl (fun hf => ?_)
  unfold decodeStream
  rw [← limited_ok hf]
  refine congrArg limited ?_
  unfold decodeStreamFields
  simp only [mnop_f0, mnop_f1]
  rfl
theorem mend_f0 : (0x0B#6 ++ 0#58 : BitVec 64).extractLsb' 58 6 = 0x0B#6 := by decide
theorem mend_f1 : (0x0B#6 ++ 0#58 : BitVec 64).extractLsb' 0 58 = 0#58 := by decide
theorem RoundTrip.mend : RoundTrip.Statement (.mend) := by
  refine RoundTrip.ofStream rfl rfl (fun hf => ?_)
  unfold decodeStream
  rw [← limited_ok hf]
  refine congrArg limited ?_
  unfold decodeStreamFields
  simp only [mend_f0, mend_f1]
  rfl
theorem RoundTrip.load : RoundTrip.Statement (.load) := RoundTrip.ofNone rfl rfl
theorem RoundTrip.loadWithOverride : RoundTrip.Statement (.loadWithOverride) := RoundTrip.ofNone rfl rfl
theorem RoundTrip.unload : RoundTrip.Statement (.unload) := RoundTrip.ofNone rfl rfl
theorem RoundTrip.forcedUnload : RoundTrip.Statement (.forcedUnload) := RoundTrip.ofNone rfl rfl
theorem RoundTrip.create : RoundTrip.Statement (.create) := RoundTrip.ofNone rfl rfl
theorem RoundTrip.destroy : RoundTrip.Statement (.destroy) := RoundTrip.ofNone rfl rfl
theorem RoundTrip.setacc : RoundTrip.Statement (.setacc) := RoundTrip.ofNone rfl rfl
theorem RoundTrip.installKey : RoundTrip.Statement (.installKey) := RoundTrip.ofNone rfl rfl
theorem RoundTrip.resume : RoundTrip.Statement (.resume) := RoundTrip.ofNone rfl rfl
theorem RoundTrip.kill : RoundTrip.Statement (.kill) := RoundTrip.ofNone rfl rfl
theorem RoundTrip.setgale : RoundTrip.Statement (.setgale) := RoundTrip.ofNone rfl rfl

end Sys2Proof.Laws
end

