-- ==== Sys2Proof/Laws/Ranges.lean ====
section
/-! SUPPORT. What a change of one range does to the ranges of a context (R189, R198, R199, R201, R204). -/

namespace Sys2Proof.Machine

/-- Two ranges of a context with one base are one range. -/
theorem rangesApart_base {rs : List Range} (h : rangesApart rs) {a b : Range} (ha : a ∈ rs) (hb : b ∈ rs) (hab : a.baseg = b.baseg) : a = b := by
  obtain ⟨h1, h2⟩ := h
  induction h2 with
  | nil => cases ha
  | cons hr _ ih =>
    have na := h1 a ha
    have nb := h1 b hb
    rcases List.mem_cons.1 ha with rfl | ha' <;> rcases List.mem_cons.1 hb with rfl | hb'
    · rfl
    · rcases hr b hb' with h | h <;> omega
    · rcases hr a ha' with h | h <;> omega
    · exact ih ha' hb' (fun x hx => h1 x (List.mem_cons_of_mem _ hx))
/-- Replacing a range leaves the others, and has the new one in its place. -/
theorem mem_replaceRange {rs : List Range} (h : rangesApart rs) {q r : Range} (hq : q ∈ rs) (hb : q.baseg = r.baseg) (x : Range) :
    x ∈ replaceRange r rs ↔ (x ∈ rs ∧ x ≠ q) ∨ x = r := by
  unfold replaceRange
  rw [List.mem_map]
  constructor
  · rintro ⟨y, hy, rfl⟩
    by_cases hy' : y.baseg = r.baseg
    · exact .inr (if_pos hy')
    · refine .inl ⟨by rw [if_neg hy']; exact hy, ?_⟩
      rw [if_neg hy']
      rintro rfl
      exact hy' hb
  · rintro (⟨hx, hxq⟩ | rfl)
    · refine ⟨x, hx, if_neg fun hx' => hxq (rangesApart_base h hx hq (hx'.trans hb.symm))⟩
    · exact ⟨q, hq, if_pos hb⟩
/-- A context that is there, after it has been changed. -/
theorem modCtx_ctx {m : Mach} {c : Nat} (h : m.ctxs.has c = true) (f : Ctx → Ctx) : (m.modCtx c f).ctx c = f (m.ctx c) :=
  (Store.at_mapV m.ctxs (fun j x => if j = c then f x else x) c h).trans (if_pos rfl)
/-- The ranges of a context that is there, after they have been changed. -/
theorem setRanges_ranges {m : Mach} {c : Nat} (h : m.ctxs.has c = true) (f : List Range → List Range) :
    ((m.setRanges c f).ctx c).ranges = f (m.ctx c).ranges := by
  unfold Mach.setRanges
  rw [modCtx_ctx h]

end Sys2Proof.Machine
end

