-- ==== Sys2Proof/Tests/Slice0.lean ====
section
/-! SUPPORT. Tests: terms that break each limit, words of the spec's examples, single steps whose results the spec gives, and for each
obligation a state and operands that meet its hypotheses. -/

namespace Sys2Proof.Tests
open Sys2Proof Sys2Proof.Machine

def h0 : Hdr := ⟨false, false⟩

/-! ### Ill-formed terms, one for each check: refused, and the word that spells it is no instruction -/

/-- An instruction whose operands break a limit, and whose word the decoder refuses by name. -/
def refusedGang (i : Instr) : Bool :=
  !i.wellFormed && (match decodeWord ((encodeWord i).getD 0) with
    | .error e => e == .badOperand
    | .ok _ => false)
def refusedStream (i : Instr) : Bool :=
  !i.wellFormed && (match decodeStream ((encodeStream i).getD 0) with
    | .error e => e == .badOperand
    | .ok _ => false)

theorem test_wf_odd_pair : refusedGang (.add64 h0 4 3 6) = true ∧ refusedGang (.add64 h0 5 2 6) = true ∧
    refusedGang (.add64 h0 4 2 7) = true ∧ refusedGang (.shl64 h0 4 3 1) = true ∧ refusedGang (.addi64 h0 5 2 0) = true := by decide
theorem test_wf_odd_address : refusedGang (.ldW h0 1 3 0) = true ∧ refusedGang (.stB h0 1 3 0) = true ∧
    refusedGang (.waitc h0 1 3 2) = true ∧ refusedGang (.brx h0 5) = true ∧ refusedGang (.calli h0 0 5) = true := by decide
theorem test_wf_odd_data : refusedGang (.ldD h0 3 4 0) = true ∧ refusedGang (.stD h0 3 4 0) = true ∧
    refusedGang (.chunk h0 3 4) = true ∧ refusedGang (.rgres h0 3 0) = true ∧ refusedGang (.qpop h0 3 1) = true := by decide
theorem test_wf_quad : refusedGang (.ldQ h0 6 4 0) = true ∧ refusedGang (.stQ h0 6 4 0) = true ∧ refusedGang (.rjoin h0 6) = true ∧
    refusedGang (.permb h0 1 6 2 false) = true ∧ refusedGang (.rginit h0 6 0) = true ∧ refusedGang (.lseg h0 0 6) = true := by decide
theorem test_wf_hint : refusedGang (.bra h0 0 3 0) = true ∧ refusedGang (.ychk h0 3 0) = true := by decide
theorem test_wf_special : refusedGang (.movs h0 2 0x16) = true ∧ refusedGang (.movs h0 3 0x0C) = true ∧
    refusedGang (.smov h0 0x00 2) = true ∧ refusedGang (.smov h0 0x0E 3) = true := by decide
theorem test_wf_mask : refusedGang (.mjoin h0 12) = true ∧ refusedGang (.mset h0 12 2) = true ∧ refusedGang (.mget h0 2 12) = true := by
  decide
theorem test_wf_fcmp : refusedGang (.fcmp h0 1 6 2 3 ⟨false, false, 0⟩) = true := by decide
theorem test_wf_xshufi : refusedGang (.xshufi h0 1 2 5 false) = true := by decide
theorem test_wf_xvote : refusedGang (.xvote h0 1 2 3) = true := by decide
theorem test_wf_xmatch : refusedGang (.xmatch h0 1 3 true) = true := by decide
theorem test_wf_xred : refusedGang (.xred h0 1 2 11) = true ∧ refusedGang (.xred h0 1 2 0x11) = true ∧
    refusedGang (.xscan h0 1 2 0x20 false) = true := by decide
theorem test_wf_xrank : refusedGang (.xrank h0 1 2 3) = true ∧ refusedGang (.xrank h0 1 2 8) = true := by decide
theorem test_wf_forkr : refusedGang (.forkr h0 60 0) = true ∧ refusedGang (.forkr h0 3 0) = true := by decide
theorem test_wf_scope : refusedGang (.fence h0 6) = true ∧ refusedGang (.atom h0 2 4 false 0 6) = true ∧ refusedGang (.acq h0 2 4 7) = true := by
  decide
theorem test_wf_atom : refusedGang (.atom h0 2 4 false 13 0) = true ∧ refusedGang (.atom h0 2 4 true 10 0) = true ∧
    refusedGang (.atom h0 3 4 true 0 0) = true ∧ refusedGang (.acas h0 2 4 true 0) = true ∧ refusedGang (.fred h0 2 4 3 0 0) = true := by decide
theorem test_wf_pref : refusedGang (.pref h0 2 4) = true := by decide
theorem test_wf_port : refusedGang (.qpush h0 1 4) = true ∧ refusedGang (.qpop h0 4 0) = true ∧ refusedGang (.qstat h0 4 6) = true := by decide
theorem test_wf_copy : refusedGang (.cpy h0 60) = true ∧ refusedGang (.cpyt h0 1 4 2) = true ∧ refusedGang (.cpyt h0 1 5 0) = true ∧
    refusedGang (.lseg h0 8 4) = true := by decide
theorem test_wf_barrier_ring : refusedGang (.nbarr h0 16) = true ∧ refusedGang (.rgrel h0 4 8) = true ∧ refusedGang (.mstream h0 2 60) = true := by
  decide
theorem test_wf_rquery : refusedGang (.rquery h0 4 6 8) = true := by decide
theorem test_wf_stream : refusedStream (.mldb 0 1) = true ∧ refusedStream (.mma false 0 3 0 0 0) = true ∧
    refusedStream (.mmas false 0 0 0 0 0 4) = true ∧ refusedStream (.mout 0 0 32) = true ∧ refusedStream (.mloop 0 1) = true ∧
    refusedStream (.mclr 3 0) = true := by decide

/-! ### Words from the spec's encodings -/

theorem test_decode_control : decodeWord 0x01B3FFFF = .ok (.bra h0 11 0 0x3FFFF) ∧ decodeWord 0x031048C2 = .ok (.calli h0 0x123 4) ∧
    decodeWord 0x0000_48C5 = .ok (.entry h0 0x123) ∧ decodeWord 0x1F23FFFE = .ok (.dbnz h0 8 0x3FFFE) := by decide
theorem test_decode_alu : decodeWord 0x852CA300 = .ok (.add ⟨true, false⟩ 11 10 12) ∧ decodeWord 0x0551558E = .ok (.addmin h0 20 21 22) ∧
    decodeWord 0x07483100 = .ok (.cmp h0 2 2 3 4) ∧ decodeWord 0x0C146407 = .ok (.shri h0 5 6 7) := by decide
theorem test_decode_float : decodeWord 0x1244D340 = .ok (.fadd h0 17 13 13 ⟨false, false, 0⟩) ∧
    decodeWord 0x14187108 = .ok (.fcvtIF h0 6 7 ⟨false, false, 2⟩) ∧ decodeWord 0x17209200 = .ok (.rsq h0 8 9 false false) := by decide
theorem test_decode_cross : decodeWord 0x182CA101 = .ok (.xshufi h0 11 10 4 false) := by decide
theorem test_decode_fork : decodeWord 0x04180007 = .ok (.fork h0 6 7) ∧ decodeWord 0x1D100001 = .ok (.rjoin h0 4) ∧
    decodeWord 0x1E100002 = .ok (.forkr h0 4 2) ∧ decodeWord 0x1C300000 = .ok (.rstep h0 12) := by decide
theorem test_decode_memory : decodeWord 0x24284010 = .ok (.ldW h0 10 4 0x010) ∧ decodeWord 0x2B188FF8 = .ok (.stD h0 6 8 0xFF8) ∧
    decodeWord 0x6730E005 = .ok (.ldT ⟨false, true⟩ 12 14 5) ∧ decodeWord 0x6E284009 = .ok (.acas ⟨false, true⟩ 10 4 false 1) := by decide
theorem test_decode_engine : decodeWord 0x76284000 = .ok (.chunk ⟨false, true⟩ 10 4) ∧ decodeWord 0x30A04183 = .ok (.cflush h0 5 4 6) := by decide
theorem test_decode_range : decodeWord 0x37284000 = .ok (.rsplit h0 10 4) ∧ decodeWord 0x37304103 = .ok (.rquery h0 12 4 4) ∧
    decodeWord 0x38284201 = .ok (.rinv h0 10 4 8) ∧ decodeWord 0x3828B002 = .ok (.rwait h0 10 11) := by decide
theorem test_decode_stream : decodeStream 0x0A20A00004000000 = .ok (.mma true 0 1 5 0 2) ∧ decodeStream 0x2C00000000000000 = .ok .mend := by decide
theorem test_decode_reserved : decodeWord 0xFFFFFFFF = .error .permanentlyIllegal ∧ decodeWord 0x39000000 = .error .reservedMajor ∧
    decodeWord 0x1A000000 = .error .reservedMajor ∧ decodeWord 0x00000040 = .error .nonzeroField := by decide
theorem test_decode_table : decodeTableWord 32 0x1F23FFFE = some (.dbnz h0 8 0x3FFFE) ∧
    decodeTableWord 64 0x2C00000000000000 = some .mend := by decide

/-! ### AES-256 (R368): the example of FIPS 197, appendix C.3 -/

theorem test_aes256 : Xts.encrypt (List.range 32) ((List.range 16).map (· * 0x11)) =
    [0x8e, 0xa2, 0xb7, 0xca, 0x51, 0x67, 0x45, 0xbf, 0xea, 0xfc, 0x49, 0x90, 0x4b, 0x49, 0x60, 0x89] := by decide +kernel

/-! ### A small machine: a context with one range, a region, a crew, a gang and one or two threads -/

/-- A range of 64 KiB at 0x100000, readable, writable, atomic and executable, in place. -/
def rng0 : Range := { baseg := 0x100, limg := 0x110, rhi := 0x10, r := true, w := true, x := true, a := true }
def ctx0 : Ctx := { mgr := 1, sys := true, ranges := [rng0], keys := [(0, 7)], trapE := 0x300 }
def reg0 : Region := { ctx := 1, rcb := { crews := 1, gangs := 1, spbud := 1, gbud := 1, fslots := 1 } }
def crew0 : Crew := { region := 5, life := .live, locSize := 4096, nbWin := 4 }
def gang0 : Gang := { region := 5, crew := some 4, lanes := some 2 :: List.replicate 31 none }
/-- A thread whose v4:v5 hold the address 0x100040, and v6 to v10 small numbers. -/
def thr0 : Thread :=
  { region := 5, gang := 3, v := ((((((Vector.replicate 64 0).set 4 0x100040).set 6 5).set 7 3).set 8 1).set 9 0x7FFFFFFF).set 10 0x80000000 }
def mach0 : Mach :=
  { power := .up, nextId := 100, ctxs := [(1, ctx0)], regions := [(5, reg0)], crews := [(4, crew0)], gangs := [(3, gang0)],
    threads := [(2, thr0)], access := [(0, [⟨1, true, true, 0x110, 0x100⟩])] }
/-- The group of thread 2 at the packet 0x600, in its first slot. -/
def grp (m : Mach) : Group := { gang := 3, run := [2], pos := ⟨0x600, 0⟩, slot := 0, rest := [0], pre := m }
def sOf (m : Mach) : State := ⟨m, .group (grp m)⟩
def s0 : State := sOf mach0
/-- The bytes at the address of v4:v5, as the thread's accesses reach them. -/
def loc0 (i : Nat) : Loc := { sto := .dram, addr := 0x100040 + i, va := 0x100040 + i, tag := ⟨7, 1, 0x4001⟩ }
def locs (n : Nat) : List Loc := (List.range n).map loc0
/-- The same for any address of the range. -/
def locAt (va n : Nat) : List Loc := (span va n).map (fun a => { sto := .dram, addr := a, va := a, tag := ⟨7, 1, a / 64⟩ })

theorem issues_all (i : Instr) : Issues i s0 (grp mach0) := by
  refine ⟨rfl, fun u hu => ?_⟩
  simp only [grp, List.mem_singleton] at hu
  subst hu
  exact ⟨fun r _ => by show (0#64).getLsbD r.val = false; simp, fun _ => by decide⟩
theorem access_ok : accessAt mach0 2 .read 0x100040 4 4 = .ok (locs 4) ∧ accessAt mach0 2 .write 0x100040 16 16 = .ok (locs 16) ∧
    accessAt mach0 2 .atomic 0x100040 8 8 = .ok (locs 8) := by decide

/-- What a word leaves in a register of thread 2, and in a predicate. -/
def leaves (i : Instr) (r : Reg) : Option Word :=
  match exec i s0 with
  | .next t => some ((t.m.thr 2).rd r)
  | _ => none
def leavesP (i : Instr) (q : PReg) : Option Bool :=
  match exec i s0 with
  | .next t => some ((t.m.thr 2).rdP q)
  | _ => none

/-! ### Single steps whose results the spec's examples give, or hand calculation -/

-- R70: v6 = 5, v7 = 3, v8 = 1: ADDMIN with v[d] = 5 writes 4; saturating sums
theorem test_addmin : leaves (.addmin h0 6 7 8) 6 = some 4 := by decide
theorem test_addsat : leaves (.addsat h0 1 9 9) 1 = some 0x7FFFFFFF ∧ leaves (.add h0 1 9 9) 1 = some 0xFFFFFFFE := by decide
theorem test_absdiff : leaves (.absdiff h0 1 10 9) 1 = some 0xFFFFFFFF := by decide
theorem test_sub : leaves (.sub h0 1 7 6) 1 = some 0xFFFFFFFE := by decide
theorem test_sar : leaves (.sar h0 1 10 9) 1 = some 0xFFFFFFFF := by decide
theorem test_mulh : leaves (.mulh h0 1 10 6) 1 = some 0xFFFFFFFD ∧ leaves (.mulhu h0 1 10 6) 1 = some 2 := by decide
theorem test_clz : leaves (.clz h0 1 8) 1 = some 31 ∧ leaves (.ctz h0 1 0) 1 = some 32 := by decide
theorem test_andn : leaves (.andn h0 1 6 7) 1 = some 4 := by decide
theorem test_movhi : leaves (.movhi h0 9 0x48D1) 9 = some 0x12347FFF := by decide
theorem test_addi : leaves (.addi h0 1 6 0xFFF) 1 = some 4 := by decide
theorem test_cmp : leavesP (.cmp h0 1 2 10 9) 1 = some true ∧ leavesP (.cmp h0 1 4 10 9) 1 = some false := by decide
-- R12: a write to p7 is discarded
theorem test_p7 : leavesP (.cmp h0 7 2 9 10) 7 = some true := by decide
-- R74: a pair; 5 + 3 × 2^32 plus the pair 0x100040
theorem test_add64 : leaves (.add64 h0 12 6 4) 12 = some 0x100045 ∧ leaves (.add64 h0 12 6 4) 13 = some 3 := by decide
-- R104, R105: transfers
theorem test_bra : (match exec (.bra h0 7 0 2) s0 with
    | .next t => some (t.m.thr 2).pos
    | _ => none) = some ⟨0x618, 0⟩ := by decide
theorem test_dbnz : (match exec (.dbnz h0 8 0x3FFFE) s0 with
    | .next t => some ((t.m.thr 2).rd 8, (t.m.thr 2).pos)
    | _ => none) = some (0, ⟨0x600, 1⟩) := by decide
-- R62, R317: a word that is no instruction traps with ILLEGAL and enters the handler at HVEC
theorem test_illegal : (match exec (.illegalEncoding 0x39000000) s0 with
    | .next t => some ((t.m.thr 2).trapc, (t.m.thr 2).trapi, (t.m.thr 2).trapa, (t.m.thr 2).h, (t.m.thr 2).pos)
    | _ => none) = some (1, 0x39000000, 0x600, true, ⟨0x300, 0⟩) := by decide
-- R112: TRAP resumes at the next group
theorem test_trap : (match exec (.trap h0 6) s0 with
    | .next t => some ((t.m.thr 2).trapc, (t.m.thr 2).trapi, (t.m.thr 2).trapa, (t.m.thr 2).h)
    | _ => none) = some (0x0D, 5, 0x0100000000000600, true) := by decide
-- R92: a misaligned load traps with ALIGN; %trapi holds the address
theorem test_align : (match exec (.ldW h0 1 4 2) s0 with
    | .next t => some ((t.m.thr 2).trapc, (t.m.thr 2).trapi)
    | _ => none) = some (5, 0x100042) := by decide
-- R24: a load's destination is pending until it returns
theorem test_load : (match exec (.ldW h0 1 4 0) s0 with
    | .next t => some ((t.m.thr 2).isPend 1, t.m.results.length)
    | _ => none) = some (true, 1) := by decide

/-! ### Hypotheses of the obligations that concrete states and operands meet -/

def withThr (f : Thread → Thread) : Mach := { mach0 with threads := [(2, f thr0)] }
def withGang (f : Gang → Gang) : Mach := { mach0 with gangs := [(3, f gang0)] }
def withCrew (f : Crew → Crew) : Mach := { mach0 with crews := [(4, f crew0)] }
def withRange (f : Range → Range) : Mach := { mach0 with ctxs := [(1, { ctx0 with ranges := [f rng0] })] }
def withReg (f : Region → Region) : Mach := { mach0 with regions := [(5, f reg0)] }
theorem issues_of {m : Mach} (hp : (m.thr 2).pend = 0) (hs : m.privOf 2 = true) (i : Instr) : Issues i (sOf m) (grp m) := by
  refine ⟨rfl, fun u hu => ?_⟩
  simp only [grp, List.mem_singleton] at hu
  subst hu
  exact ⟨fun r _ => by show (m.thr 2).pend.getLsbD r.val = false; rw [hp]; simp, fun _ => hs⟩

def frame0 (k : FKind) (st : FState) (root : Bool) : Frame := ⟨0x900, k, st, root, 0, 0xC00, 0, 4, 4⟩
def machFrame (k : FKind) (st : FState) (root : Bool) (c : Cell) : Mach :=
  withThr (fun t => { t with frames := [frame0 k st root], cells := [c], parent := 2, pslot := 0 })
def stream0 : Stream := { crew := 4, gang := 3, sp := 0, seqNo := 1, addr := 0x100000, data := 0x100040, abase := 0, bbase := 0, bcnt := 7,
                          cbase := 0, ccnt := 127, cpitch := 0, serv := false, tag := 9, memb := 1, p0 := Vector.replicate 16 0 }
def withRegs (xs : List Word) : Thread → Thread := fun t => t.wrs 20 xs
def tlr0 : Tlr := ⟨0x100200, 0x100300, 1, [(2, 1, 1)]⟩

theorem witness_IntegerWords : Issues (.add h0 1 6 7) s0 (grp mach0) ∧ Issues (.bfi h0 63 6 7) s0 (grp mach0) :=
  ⟨issues_all _, issues_all _⟩
theorem witness_PairAndImmediateWords : Issues (.add64 h0 62 6 4) s0 (grp mach0) ∧ isEven 62 = true ∧ isEven 6 = true ∧ isEven 4 = true ∧
    isEven 63 = false := ⟨issues_all _, by decide⟩
theorem witness_PredicateWords : Issues (.cmp h0 1 7 6 7) s0 (grp mach0) ∧ (6 : PReg) ≠ 7 ∧ (5 : PReg) ≠ 6 := ⟨issues_all _, by decide⟩
theorem witness_FloatWords : Issues (.fcvtFL h0 1 6 ⟨true, true, 3⟩) s0 (grp mach0) ∧ isEven 6 = true := ⟨issues_all _, by decide⟩
theorem witness_FloatSelection : Issues (.fcmp h0 1 5 6 7 ⟨false, false, 0⟩) s0 (grp mach0) ∧ (5#3).toNat < 6 ∧
    (0x7F800000 < 0xFF800001 % 2 ^ 31 ∧ Nat.testBit 0xFF800001 22 = false) ∧ (0x7F800000 < 0x7FC00000 % 2 ^ 31 ∧ Nat.testBit 0x7FC00000 22 = true) ∧
    0xFF800000 % 2 ^ 31 = 0x7F800000 ∧ 0x80000000 % 2 ^ 31 = 0 ∧ (0 < 0x807FFFFF % 2 ^ 31 ∧ 0x807FFFFF % 2 ^ 31 < 2 ^ 23) ∧
    (2 ^ 23 ≤ 0x7F7FFFFF % 2 ^ 31 ∧ 0x7F7FFFFF % 2 ^ 31 < 0x7F800000) ∧ (5 : Nat) < 6 := ⟨issues_all _, by decide⟩
-- R34, R37, R39: overflow to infinity or to the largest number by the mode, a flushed and an inexact result, saturation, and zeros of opposite signs
theorem test_rounding : roundF fp32 .rne false false 1 128 = (0x7F800000, 5) ∧ roundF fp32 .rtz false true 1 128 = (0xFF7FFFFF, 5) ∧
    roundF fp32 .rne true true 1 (-149) = (0x80000000, 3) ∧ roundF fp32 .rup false false 1 (-150) = (1, 3) ∧
    roundF fp32 .rup false false 0x1000001 0 = (0x4B800001, 1) ∧ roundF fp32 .rne false false 0x1000001 0 = (0x4B800000, 1) ∧
    sumRound fp32 .rdn false [.fin true 3 0, .fin false 6 (-1)] false = (0x80000000, 0) ∧
    sumRound fp32 .rne false [.fin true 3 0, .fin false 6 (-1)] false = (0, 0) := by decide
theorem test_conversions : cvtIF (-2 ^ 31) (2 ^ 31 - 1) .rtz 0x4F000000 = (2 ^ 31 - 1, 16) ∧ cvtIF 0 (2 ^ 32 - 1) .rne 0xBF000000 = (0, 1) ∧
    cvtIF 0 (2 ^ 32 - 1) .rdn 0xBF000000 = (0, 16) ∧ rint .rne 0x40200000 = (0x40000000, 1) ∧ rint .rup 0xBF000000 = (0x80000000, 1) := by decide
theorem witness_RoundingKeepsNumbers : fp32.decode 0x7F7FFFFF = .fin false 0xFFFFFF 104 ∧ fp32.decode 0x80000001 = .fin true 1 (-149) ∧
    fp32.decode 0 = .fin false 0 (-149) ∧ ([(true, 0, 0)] : List (Bool × Nat × Int)) ≠ [] ∧ fp32.decode 0x7F800001 = .nan true ∧
    fp32.decode 0xFF800000 = .inf true ∧ ((-2 ^ 31 : Int) ≤ 0 ∧ (0 : Int) ≤ 2 ^ 31 - 1) ∧ fp16.decode 0x8001 = .fin true 1 (-24) ∧
    bf16.decode 0xFF7F = .fin true 255 120 := by decide
theorem witness_TreeFoldsLanes : ∀ x y z : Nat, (x + y) + z = x + (y + z) := Nat.add_assoc
theorem witness_SfuWords : Issues (.rcp h0 1 6 false false) s0 (grp mach0) ∧ fp32.decode 0x7F800001 = .nan true ∧
    fp32.isSub 0x807FFFFF = true ∧ fp32.decode 0x80000001 = .fin true 1 (-149) ∧ (1 ≤ 253 ∧ 253 ≤ 253) ∧ 253 % 2 = 1 ∧
    ((-126 : Int) ≤ -126 ∧ (127 : Int) ≤ 127) ∧ (0x43000000 ≤ 0x7F7FFFFF ∧ 0x41180000 < 0x7F800000) ∧ 7 < 8 ∧ 254 = 254 ∧ (1 ≤ 2 ^ 21) ∧
    (fp32.isSub 0x7F7FFFFF = false ∧ fp32.decode 1 = .fin false 1 (-149)) ∧ (21 ≤ 22 ∧ 21 % 2 = 1) ∧ ((-149 : Int) ≤ -127 ∧ (-127 : Int) < -126) :=
  ⟨issues_all _, by decide⟩
theorem witness_CrossLaneWords : Issues (.xshuf h0 1 6 7 true) s0 (grp mach0) ∧ (32 ≤ (63#6).toNat ∧ (28#6).toNat % 8 < 5) ∧
    ((31#6).toNat < 32 ∧ 5 ≤ (31#6).toNat % 8) ∧ 2 < (3#6).toNat ∧ (60 : Reg).val % 4 = 0 ∧ ((6#6).toNat < 8 ∧ (6#6).toNat % 4 ≠ 3) :=
  ⟨issues_all _, by decide⟩
theorem witness_ReductionWords : Issues (.xred h0 1 6 0) s0 (grp mach0) ∧ ((0x3A#6).toNat % 16 < 11 ∧ 8 ≤ (0x3A#6).toNat % 16) ∧
    ((7#6).toNat % 16 < 11 ∧ (7#6).toNat < 16) ∧ 2 ∈ (grp mach0).xrun 2 ∧
    (((grp mach0).xrun 2).map (fun w => ((grp mach0).pre.thr w).lane)).Pairwise (· < ·) ∧
    ∀ w ∈ (grp mach0).xrun 2, ((grp mach0).pre.thr w).lane < 32 := ⟨issues_all _, by decide⟩

/-- A thread whose %lnk is a packet, and whose v12:v13 name a packet with an ENTRY word of class 0x123. -/
def machEntry : Mach := { withThr (fun t => { t with v := t.v.set 12 0x100080, lnk := 0x600 }) with
  dram := Mem.setBytes [] 0x100080 [0xC5, 0x48, 0x00, 0x00] }
theorem witness_TransferWords : Issues (.bra h0 7 0 2) s0 (grp mach0) ∧ (7#4 ≠ 15#4 ∧ 2#2 ≠ 3#2) ∧
    ((machEntry.thr 2).lnk.toNat < 2 ^ 56 ∧ (machEntry.thr 2).lnk.toNat % 12 = 0) ∧ isEven 12 = true ∧
    (((machEntry.thr 2).rdPair 12).toNat < 2 ^ 56 ∧ ((machEntry.thr 2).rdPair 12).toNat % 12 = 0) ∧
    machEntry.fetchBytes (machEntry.who 2) ((machEntry.thr 2).rdPair 12).toNat 4 = .ok [0xC5, 0x48, 0x00, 0x00] ∧
    BitVec.ofNat 32 (leNat [0xC5, 0x48, 0x00, 0x00]) = mkWord h0 0x00#6 0#6 (hi6 0x123) (lo6 0x123) 0x05#6 ∧
    Issues (.calli h0 0x123 12) (sOf machEntry) (grp machEntry) := by
  refine ⟨issues_all _, by decide, by decide, by decide, by decide, by decide, by decide, issues_of (by decide) (by decide) _⟩
/-- A thread that leaves its run. -/
def machLeaves (l : Leave) : Mach := withThr (fun t => { t with stat := .leaving l })
theorem witness_SystemWords : Issues (.exit h0) s0 (grp mach0) ∧
    (∀ u ∈ (grp mach0).run, mach0.waiting u = false ∧ (mach0.thr u).deferred = none) ∧ (grp mach0).rest.tail = [] ∧
    ({ grp mach0 with rest := [0, 0] } : Group).rest.tail ≠ [] ∧
    (∀ l ∈ [Leave.exit, .yield true, .yield false], let m := machLeaves l
      m.threads.has 2 = true ∧ m.waiting 2 = false ∧ m.onSpindle 2 = true ∧ (m.thr 2).deferred = none ∧ (m.thr 2).stat = .leaving l) ∧
    (∀ u ∈ (grp mach0).run, (mach0.thr u).frames = [] ∧ (mach0.thr u).depth = 0) ∧ mach0.threads.has 2 = true ∧ isEven 4 = true ∧
    ∀ u ∈ (grp mach0).run, accessAt mach0 u .read ((mach0.thr u).rdPair 4) 4 4 = .ok (locs 4) := ⟨issues_all _, by decide⟩
theorem witness_SpecialRegisterWords : Issues (.movs h0 2 0x14) s0 (grp mach0) ∧ (0x15#6).toNat = 0x15 ∧ isEven 2 = true ∧
    0x16 ≤ (0x16#6).toNat ∧ (grp mach0).run ≠ [] ∧ (0x0B#6).toNat ∉ [0x0A, 0x0E, 0x0F, 0x10] := ⟨issues_all _, by decide⟩
def machMask : Mach := withGang (fun g => { g with masks := g.masks.set 11 1, released := 1 })
theorem witness_MaskAndRegroupWords : Issues (.mwait h0 11) (sOf machMask) (grp machMask) ∧ (11#6).toNat < 12 ∧
    (machMask.gang 3).crew.isSome = true ∧ (1#32 <<< (machMask.thr 2).lane) &&& ~~~((machMask.gang 3).masks.toList.getD 11 0) = 0 ∧
    (1#32 <<< (machMask.thr 2).lane) &&& ~~~(machMask.gang 3).released = 0 ∧ (grp machMask).run ≠ [] ∧
    (∀ u ∈ (grp machMask).run, machMask.waiting u = false ∧ (machMask.thr u).deferred = none) ∧
    (grp machMask).rest.tail = [] ∧ (rgFill (grp machMask) 6).2 = (grp machMask).run.length ∧ machMask.threads.has 2 = true := by
  refine ⟨issues_of (by decide) (by decide) _, ?_⟩
  decide
theorem witness_ForkWords : Issues (.fork h0 6 2) s0 (grp mach0) ∧ isEven 58 = true ∧ (58 : Reg).val ≤ 58 ∧
    (mach0.thr 2).frames.length < 8 * ((mach0.region 5).rcb.fslots + 1) - 4 ∧
    ((mach0.thr 2).frames.length ≠ 8 * ((mach0.region 5).rcb.fslots + 1) ∧ ((mach0.thr 2).rd (2 + 4)).toNat % 65536 ≠ 0) ∧
    ((machFrame .range .active false default).thr 2).frames.getLast? = some (frame0 .range .active false) ∧
    ((machFrame .point .latent false default).thr 2).frames.getLast? = some (frame0 .point .latent false) ∧
    Issues (.rstep h0 6) (sOf (machFrame .point .latent false default)) (grp (machFrame .point .latent false default)) := by
  refine ⟨issues_all _, by decide, by decide, by decide, by decide, by decide, by decide, issues_of (by decide) (by decide) _⟩
/-- A thread that owes an overflow call. -/
def machOwes : Mach := withThr (fun t => { t with depth := 1, lnk := 0x600 })
theorem witness_JoinAndEndpWords :
    Issues (.join h0) (sOf machOwes) (grp machOwes) ∧ (machOwes.thr 2).mark.toNat < (machOwes.thr 2).depth.toNat ∧
    ((machOwes.thr 2).lnk.toNat < 2 ^ 56 ∧ (machOwes.thr 2).lnk.toNat % 12 = 0) ∧
    (∀ st ∈ [FState.latent, .promoted], let m := machFrame .point st false { (default : Cell) with npiece := 1, done := 1 }
     ¬ (m.thr 2).mark.toNat < (m.thr 2).depth.toNat ∧ (m.thr 2).frames.getLast? = some (frame0 .point st false) ∧
       (frame0 .point st false).kind = .point ∧ (frame0 .point st false).state = st ∧
       ((m.thr 2).cell ((m.thr 2).frames.length - 1)).done.getLsbD 0 = true ∧ m.busy 2 = false ∧ (grp m).run = [2]) ∧
    (∀ taken ∈ [0#7, 1#7], let m := machFrame .range .active false { (default : Cell) with npiece := 1, done := 1, taken := taken }
     (60 : Reg).val % 4 = 0 ∧ (m.thr 2).frames.getLast? = some (frame0 .range .active false) ∧
       (frame0 .range .active false).lo = (frame0 .range .active false).hi ∧
       ((List.range ((m.thr 2).cell 0).npiece.toNat).any (fun i => !((m.thr 2).cell 0).taken.getLsbD i) = (taken == 0)) ∧
       0 < ((m.thr 2).cell 0).npiece.toNat ∧ ((m.thr 2).cell 0).taken.getLsbD 0 = (taken == 1) ∧
       ((m.thr 2).cell 0).done.getLsbD 0 = true ∧ m.busy 2 = false ∧ ∀ i, i < ((m.thr 2).cell 0).npiece.toNat → i = 0) ∧
    (let m := machFrame .range .active false { (default : Cell) with npiece := 1, done := 1, taken := 1 }
     ∀ j < ((m.thr 2).cell 0).npiece.toNat, ((m.thr 2).cell 0).taken.getLsbD j = true) ∧
    (let m := machFrame .range .active true default
     (grp m).rest.tail = [] ∧ ({ grp m with rest := [0, 0] } : Group).rest.tail ≠ [] ∧ m.waiting 2 = false ∧ m.busy 2 = false ∧
       ¬ (m.thr 2).mark.toNat < (m.thr 2).depth.toNat ∧ (m.thr 2).frames.getLast? = some (frame0 .range .active true) ∧
       (m.thr 2).deferred = none ∧ (frame0 .range .active true).piece ≠ 7 ∧
       m.threads.has (m.thr 2).parent = true ∧ (grp m).run.Pairwise (· ≠ ·)) := by
  refine ⟨issues_of (by decide) (by decide) _, ?_⟩
  decide

def typed (fmt : Nat) : Mach := withRange (fun r => { r with fmt := fmt })
def typedS (fmt sparse : Nat) : Mach := withRange (fun r => { r with fmt := fmt, sparse := sparse, soff := 0x8000 })
theorem witness_LoadWords : Issues (.ldQ h0 60 4 0) s0 (grp mach0) ∧ isEven 4 = true ∧ isEven 62 = true ∧ (60 : Reg).val % 4 = 0 ∧
    (∀ u ∈ (grp mach0).run, mach0.acquiring u = false ∧ mach0.heldAt (mach0.gang 3).crew (vasOf (locs 16)) = false) ∧
    (∀ n ∈ [1, 2, 4, 8, 16], accessAt mach0 2 .read ((mach0.thr 2).rdPair 4 + (0#12).signExtend 64) n n = .ok (locs n)) ∧
    ((typed 1).thr 2).rdPair 4 + (0xFD0#12).signExtend 64 = 0x100010 ∧ typedReach false (typed 1) 2 0x100010 = .ok (locs 4) ∧ [0x7F].length = 1 ∧ [0xFF, 0x7F].length = 2 ∧
    bf16.decode (leNat [0x80, 0x3F]) = .fin false 128 (-7) ∧ fp16.decode (leNat [0x00, 0x3C]) = .fin false 1024 (-10) ∧
    (leNat [0x00, 0x7C] % 2 ^ 15 = 0x7C00 ∧ leNat [0x80, 0xFF] % 2 ^ 15 = 0x7F80) ∧
    (0x7C00 < leNat [0x01, 0x7C] % 2 ^ 15 ∧ 0x7F80 < leNat [0x81, 0xFF] % 2 ^ 15) ∧
    ([0x20].length = 1 ∧ [0, 0, 0x80].length = 3) ∧
    (let pos (b i : Nat) := b / 2 ^ (8 * 2 + 4 * i) % 16
     (∀ i < 2, pos 0xB00000 i < 12 ∧ (i + 1 < 2 → pos 0xB00000 i < pos 0xB00000 (i + 1))) ∧ (∀ i < 2, pos 0xB00000 i ≠ 1) ∧
       pos 0xB00000 1 = 11 ∧ (1 < 2 ∧ 12 ≤ pos 0xC00000 1) ∧ pos 0x110000 1 ≤ pos 0x110000 0) ∧
    (∀ f ∈ [1, 2, 3, 4, 5, 6], ∀ s ∈ [0, 1, 4], (s = 0 ∨ 4 ≤ f) → let m := typedS f s
      m.attrAt (m.who 2) 0x100010 = some ⟨0x100000, 0x110000, f, 0, s, 0x8000⟩ ∧ (typedReach false m 2 0x100010).locs ≠ [] ∧
        typedReach false m 2 0x100010 = .ok (typedReach false m 2 0x100010).locs) := ⟨issues_all _, by decide +kernel⟩
theorem witness_StoreWords : Issues (.stQ h0 60 4 0) s0 (grp mach0) ∧ isEven 4 = true ∧ isEven 62 = true ∧ (60 : Reg).val % 4 = 0 ∧
    (∀ u ∈ (grp mach0).run, mach0.acquiring u = false ∧ mach0.heldAt (mach0.gang 3).crew (vasOf (locs 16)) = false) ∧
    (∀ n ∈ [1, 2, 4, 8, 16], accessAt mach0 2 .write ((mach0.thr 2).rdPair 4 + (0#12).signExtend 64) n n = .ok (locs n)) ∧
    ((typed 1).thr 2).rdPair 4 + (0xFD0#12).signExtend 64 = 0x100010 ∧ ((typed 1).thr 2).rdPair 4 + (0xFE0#12).signExtend 64 = 0x100020 ∧
    typedReach true (typed 1) 2 0x100010 = .ok (locs 4) ∧ typedConv (typed 1) 2 0x100010 = .typed 1 0 ∧
    typedReach true (typed 2) 2 0x100020 = .ok (locs 2) ∧ typedConv (typed 2) 2 0x100020 = .typed 2 0 ∧
    typedReach true (typed 3) 2 0x100020 = .ok (locs 2) ∧ typedConv (typed 3) 2 0x100020 = .typed 3 0 ∧
    (∀ x ∈ [(4, 0), (5, 0), (6, 0)], let m := typedS x.1 0
      typedReach true m 2 0x100010 = .ok (typedReach true m 2 0x100010).locs ∧ typedConv m 2 0x100010 = .typed x.1 x.2 ∧
        m.heldAt (m.gang 3).crew (vasOf (typedReach true m 2 0x100010).locs) = false) := ⟨issues_all _, by decide +kernel⟩
theorem witness_AtomicWords : Issues (.atom h0 6 4 true 9 5) s0 (grp mach0) ∧ isEven 4 = true ∧ (5#3).toNat < 6 ∧
    (∀ u ∈ (grp mach0).run, mach0.acquiring u = false ∧ mach0.detOf u = false ∧
      mach0.heldAt (mach0.gang 3).crew (vasOf (locs 16)) = false) ∧ ((9#4).toNat < 13 ∧ (9#4).toNat < 10 ∧ isEven 6 = true) ∧
    (∀ n ∈ [4, 8, 16], accessAt mach0 2 .atomic ((mach0.thr 2).rdPair 4) n n = .ok (locs n)) ∧ (60 : Reg).val % 4 = 0 ∧ 2#2 ≠ 3#2 :=
  ⟨issues_all _, by decide⟩
theorem witness_FenceWords : Issues (.fence h0 5) s0 (grp mach0) ∧ (5#3).toNat < 6 ∧ (∀ u ∈ (grp mach0).run, mach0.busy u = false) ∧
    (grp mach0).run ≠ [] ∧ isEven 4 = true ∧ (∀ u ∈ (grp mach0).run, mach0.acquiring u = false) ∧ (1#6).toNat < 2 :=
  ⟨issues_all _, by decide⟩
/-- Barrier 3 expects two arrivals, and the gang's arrival of the phase before stands open; the gang has arrived at GBAR before too. -/
def machBar : Mach := { withCrew (fun c => { c with bars := c.bars.set 3 ⟨2, 0, 1⟩ }) with
  gangs := [(3, { gang0 with arr := gang0.arr.set 3 (.opened 0), gbar := some 0 })], threads := [(2, { thr0 with att := some ⟨⟨0x600, 0⟩, some 0⟩ })],
  regions := [(5, { reg0 with gbarP := 1, rcb := { reg0.rcb with cores := true } })] }
theorem witness_BarrierWords : Issues (.nbwait h0 3) (sOf machBar) (grp machBar) ∧ (3#6).toNat < 16 ∧ (grp machBar).run ≠ [] ∧
    (machBar.gang 3).crew = some 4 ∧ (3#6).toNat < (machBar.crew 4).nbWin ∧ ((mach0.thr 2).rd 6).toNat % 4096 ≠ 0 ∧
    ((mach0.crew 4).bars.toList.getD 3 {}).a = 0 ∧ barrierNamed mach0 4 3 = false ∧ mach0.acquiring 2 = false ∧
    ((machBar.crew 4).bars.toList.getD 3 {}).e ≠ 0 ∧ machBar.busy 2 = false ∧ { grp machBar with attempted := true }.attempted = true ∧
    (machBar.thr 2).att = some ⟨⟨0x600, 0⟩, some 0⟩ ∧ some (0 : Word) ≠ some ((machBar.crew 4).bars.toList.getD 3 {}).p ∧
    (machBar.region 5).rcb.cores = true ∧ (machBar.gang 3).gbar ≠ some (machBar.region 5).gbarP ∧
    (let own (p : Word) : Bool := (grp machBar).run.any (fun u =>
       (if (machBar.thr u).h then (machBar.thr u).hatt else (machBar.thr u).att).any (fun x => x.phase == some p))
     own (machBar.region 5).gbarP = false ∧ (machBar.gang 3).gbar.any own = true) ∧
    (machBar.gridGangs 5) ≠ [] ∧ 3 ∈ machBar.gridGangs 5 ∧
    (let m := { machBar with gangs := [(3, { gang0 with gbar := some 1 })] }
     m.gridGangs 5 ≠ [] ∧ ∀ q ∈ m.gridGangs 5, (m.gang q).gbar = some (m.region 5).gbarP) := by
  refine ⟨issues_of (by decide) (by decide) _, ?_⟩
  decide
/-- Ring 7 has four stages of 256 bytes; sequences 0 to 2 are reserved, 0 is published and taken. v20 to v23 hold an RGINIT record. -/
def machRing : Mach := { withCrew (fun c => { c with rings := c.rings.set 7 { init := true, base := 256, z := 256, s := 4, res := 3, pub := 1, tak := 1 } }) with
  threads := [(2, { thr0 with v := (thr0.v.set 20 256).set 21 256 |>.set 22 4 })] }
theorem witness_RingWords : Issues (.rgpub h0 8 7) (sOf machRing) (grp machRing) ∧ (7#6).toNat < 8 ∧ (grp machRing).run ≠ [] ∧
    (machRing.gang 3).crew = some 4 ∧ machRing.acquiring 2 = false ∧ (20 : Reg).val % 4 = 0 ∧
    ((machRing.thr 2).rd 20).toNat % 256 = 0 ∧ ((machRing.thr 2).rd 21).toNat % 256 = 0 ∧ ((machRing.thr 2).rd 21).toNat ≠ 0 ∧
    ((machRing.thr 2).rd 20).toNat + ((machRing.thr 2).rd 22).toNat * ((machRing.thr 2).rd 21).toNat ≤ (machRing.crew 4).locSize ∧
    (0 < ((machRing.thr 2).rd 22).toNat ∧ ((machRing.thr 2).rd 22).toNat ≤ 256) ∧ ringNamed machRing 4 7 = false ∧
    (let r := (machRing.crew 4).rings.toList.getD 7 {}
     0 < r.s ∧ r.res ≠ r.fre + BitVec.ofNat 32 r.s ∧ ((machRing.thr 2).rd 8 - r.pub).toNat < (r.res - r.pub).toNat ∧
       r.pubm.contains ((machRing.thr 2).rd 8) = false ∧ ((machRing.thr 2).rd 0 - r.fre).toNat < (r.tak - r.fre).toNat ∧
       r.relm.contains ((machRing.thr 2).rd 0) = false) ∧ machRing.busy 2 = false ∧ isEven 62 = true ∧
    (let r : Ring := { pub := 5, pubm := [6] }
     r.pubm.contains (r.pub + BitVec.ofNat 32 1) = true ∧ r.pubm.contains (r.pub + BitVec.ofNat 32 2) = false ∧ r.pubm.length = 2 - 1 ∧
       r.pubm.contains r.pub = false ∧ (∀ i, i < 2 → 1 ≤ i → r.pubm.contains (r.pub + BitVec.ofNat 32 i) = true) ∧ 2 ≤ r.pubm.length + 1) ∧
    (let r : Ring := { fre := 9, relm := [11, 10, 13] }
     (∀ i, i < 3 → 1 ≤ i → r.relm.contains (r.fre + BitVec.ofNat 32 i) = true) ∧
       r.relm.contains (r.fre + BitVec.ofNat 32 3) = false ∧ 3 ≤ r.relm.length + 1) := by
  refine ⟨issues_of (by decide) (by decide) _, ?_⟩
  decide
def machPorts : Mach := { withGang (fun g => { g with q1 := [7], q3 := [8], q5 := [9], qc := 1, ic := 1 }) with streams := [(60, stream0)] }
def machWaitPorts : Mach := { withGang (fun g => { g with qc := 1, ic := 1 }) with streams := [(60, stream0)] }
theorem witness_PortWords : Issues (.qpop h0 6 1) (sOf machPorts) (grp machPorts) ∧ (grp machPorts).run ≠ [] ∧ machPorts.acquiring 2 = false ∧
    isEven 4 = true ∧ (machPorts.gang 3).q4.length < 16 ∧ (machPorts.gang 3).crew.isSome = true ∧ (machPorts.gang 3).q1 = 7 :: [] ∧
    (machPorts.gang 3).q3 = 8 :: [] ∧ (machPorts.gang 3).q5 = 9 :: [] ∧ (machWaitPorts.gang 3).q1 = [] ∧
    (machWaitPorts.popping 3 1).length < (machWaitPorts.gang 3).qc ∧ (machWaitPorts.popping 3 3).length < (machWaitPorts.gang 3).ic ∧
    machWaitPorts.hasStream 3 = true ∧ (5#6).toNat < 6 := by
  refine ⟨issues_of (by decide) (by decide) _, ?_⟩
  decide

/-- Registers from v20 on, and a copy record of two bytes at 0x100040; barrier 3 expects arrivals and ring 7 is there. -/
def machCopy (xs : List Word) : Mach :=
  { withCrew (fun c => { c with bars := c.bars.set 3 ⟨2, 0, 0⟩, rings := c.rings.set 7 { init := true, base := 0, z := 256, s := 1 } }) with
    threads := [(2, withRegs xs thr0)],
    dram := Mem.setBytes [] 0x100040 (leBytes 192 (0x100200 + 2 ^ 64 * 0x100300 + 2 ^ 132 + 2 ^ 257 + 2 ^ 320 + 2 ^ 384)) }
/-- An accepted copy and a gather job of its crew, over 0x100200, which v20:v21 name; the job's watermark is frozen. -/
def copyW : Copy := { crew := 4, gangs := [3], sp := 0, kind := .bytes [], cw := 0, base := 0x100200, hi := 0x100300, total := 256, wm := 0x100280 }
def jobW : Job := { crew := 4, gang := 3, sp := 0, d := { rowb := 64, count := 4, data := 0x100200 }, raw := [], cw := 0, cur0 := 0,
                    wm := 0x100240, susp := some 1 }
/-- Its crew holds handle 5, and the thread names it. -/
def machHandle : Mach := { machCopy [5] with spindles := [(0, { handles := [(5, ⟨4, 0x100040, tlr0⟩)] })] }
theorem witness_CopyWords :
    (let m := machCopy [0x100200, 0, 0x100300, 0, 8, 0x01E70000]
     Issues (.cpy h0 20) (sOf m) (grp m) ∧ (grp m).run ≠ [] ∧ (m.gang 3).crew = some 4 ∧ m.acquiring 2 = false ∧ (m.gang 3).qc < 64 ∧
       isEven 58 = true ∧ (58 : Reg).val ≤ 58 ∧ ((m.thr 2).rd 25).getLsbD 16 = true ∧
       (((m.thr 2).rd 25).toNat / 2 ^ 17 % 16 < (m.crew 4).nbWin ∧ ((m.crew 4).bars.toList.getD (((m.thr 2).rd 25).toNat / 2 ^ 17 % 16) {}).e ≠ 0) ∧
       ((m.thr 2).rd 25).getLsbD 21 = true ∧ ((m.crew 4).rings.toList.getD (((m.thr 2).rd 25).toNat / 2 ^ 22 % 8) {}).init = true) ∧
    (let m := machCopy []
     accessAt m 2 .read ((m.thr 2).rdPair 4) 192 64 = .ok (locAt 0x100040 192) ∧
       m.owesRead 2 (locAt 0x100040 192) = false ∧ m.readReady [2] 3 m.seq (locAt 0x100040 192) = true ∧ (locAt 0x100040 192).all (fun l => !m.readErr 0 l) = true ∧
       tlrCheck m (m.engine 4 0) (leNat ((locAt 0x100040 192).map (m.load 0))) = .inl tlr0 ∧
       spanWaits m (m.engine 4 0) .read tlr0.srcSpan.1 tlr0.srcLen = false ∧ spanWaits m (m.engine 4 0) .write tlr0.dst tlr0.dstLen = false ∧
       (m.spindle 0).handles.has 0 = false ∧
       m.handleOf 4 0 (((m.thr 2).rd 20).toNat % 64) = none ∧ m.owesRead 2 [] = false ∧ m.readReady [2] 3 m.seq [] = true ∧
       m.heldAt (some 4) (vasOf (locAt 0x100040 192)) = false ∧ m.copies = [] ∧ m.jobs = []) ∧
    (let m := { machCopy [0x100200] with copies := [(50, copyW)], jobs := [(51, jobW)] }
     copyW.crew = 4 ∧ ¬ (copyW.cw.getLsbD 21 = true ∧ copyW.stage = none) ∧ copyW.base ≤ ((m.thr 2).rdPair 20).toNat ∧
       ((m.thr 2).rdPair 20).toNat < copyW.hi ∧ jobW.crew = 4 ∧ jobW.d.kind = 0 ∧ jobW.d.data ≤ ((m.thr 2).rdPair 20).toNat ∧
       ((m.thr 2).rdPair 20).toNat < jobW.d.hi ∧ m.copies = [(50, copyW)] ∧ m.jobs = [(51, jobW)]) ∧
    (let m := { machCopy [0x100200] with copies := [(50, { copyW with base := 0x100000, hi := 0x100100, wm := 0x100000 })] }
     m.heldAt (some 4) (vasOf (locAt 0x100040 192)) = true ∧ m.heldCount 3 < 64) ∧
    (let m := machHandle
     m.handleOf 4 0 (((m.thr 2).rd 20).toNat % 64) = some ⟨4, 0x100040, tlr0⟩ ∧
       accessAt m 2 .read (BitVec.ofNat 64 0x100040) 192 64 = .ok (locAt 0x100040 192) ∧
       tlrCheck m (m.engine 4 0) (leNat ((locAt 0x100040 192).map (m.load 0))) = .inl tlr0 ∧
       spanWaits m (m.engine 4 0) .read tlr0.srcSpan.1 tlr0.srcLen = false ∧ spanWaits m (m.engine 4 0) .write tlr0.dst tlr0.dstLen = false) ∧
    (let m := machCopy [256, 3840, 164, 0]
     (20 : Reg).val % 4 = 0 ∧ (7#6).toNat < 8 ∧ ((m.thr 2).rd 20).toNat % 256 = 0 ∧ ((m.thr 2).rd 21).toNat % 256 = 0 ∧
       ((m.thr 2).rd 20).toNat + ((m.thr 2).rd 21).toNat ≤ (m.crew 4).locSize ∧ ((m.thr 2).rd 22).toNat < 256 ∧
       ((m.thr 2).rd 22).toNat / 32 < 6 ∧ ((m.thr 2).rd 22).toNat / 32 ≠ 0 ∧ 4 ≤ ((m.thr 2).rd 22).toNat % 8 ∧
       ((m.thr 2).rd 22).toNat % 8 ≠ 7) := by
  refine ⟨⟨issues_of (by decide) (by decide) _, ?_⟩, ?_⟩
  · decide +kernel
  · decide +kernel
/-- A queue of edge 5, enabled for context 1. -/
def machEdge : Mach := { machCopy [] with
  host := Mem.setBytes [] 160 (leBytes 32 (2 ^ 112 + 4 * 2 ^ 108 + 2 ^ 107 + 2 ^ 106 + 0x100400 * 2 ^ 192)),
  threads := [(2, { thr0 with v := thr0.v.set 12 0x100080 })] }
/-- A kernel at 0, and at 0x100080 a record for it that the region of the gang can admit. -/
def machChild : Mach := { machCopy [] with
  ctxs := [(1, { ctx0 with kerns := [⟨0, 8, 0, 0, 0, 0, 0, 0⟩] })],
  dram := Mem.setBytes [] 0x100080 (leBytes 128 (2 ^ 761 + 2 ^ 440 + 2 ^ 434 + 2 ^ 359)) }
/-- A stream of the gang, of another gang of its crew, and others that fill the array; and a B-slot that another crew holds. -/
def streamW (gang crew q : Nat) : Stream :=
  { crew := crew, gang := gang, sp := 0, seqNo := q, addr := 0, data := 0, abase := 0, bbase := 0, bcnt := 0, cbase := 0, ccnt := 0,
    cpitch := 0, serv := false, tag := 0, memb := 0, p0 := Vector.replicate 16 0 }
def machMs (kcls : Nat) (xs : List Stream) (sl : List (Nat × Nat × BSlot)) : Mach :=
  { machCopy [0x100000, 0, 0x100040, 0, 0, 0, 0, 8] with
    regions := [(5, { reg0 with kcls := kcls })], streams := xs.map (fun x => (60 + x.seqNo, x)), spindles := [(0, { bslots := sl })] }
theorem witness_IndexAndLaunchWords :
    (let m := machCopy []
     Issues (.ixjob h0 11 4) (sOf m) (grp m) ∧ (grp m).run ≠ [] ∧ (m.gang 3).crew = some 4 ∧ m.acquiring 2 = false ∧ isEven 4 = true ∧
       accessAt m 2 .read ((m.thr 2).rdPair 4) 64 64 = .ok (locAt 0x100040 64) ∧
       m.owesRead 2 (locAt 0x100040 64) = false ∧ m.readReady [2] 3 m.seq (locAt 0x100040 64) = true ∧ (locAt 0x100040 64).all (fun l => !m.readErr 0 l) = true ∧ (m.gang 3).ic < 32 ∧
       ((m.thr 2).rd 11).getLsbD 16 = false ∧ (m.region 5).rcb.det = false ∧
       accessAt m 2 .read ((m.thr 2).rdPair 4) 128 64 = .ok (locAt 0x100040 128) ∧
       m.owesRead 2 (locAt 0x100040 128) = false ∧ m.readReady [2] 3 m.seq (locAt 0x100040 128) = true ∧ (locAt 0x100040 128).all (fun l => !m.readErr 0 l) = true ∧ m.reqs = []) ∧
    (let m := machCopy [4]
     (20 : Reg).val % 4 = 0 ∧ (56 : Reg).val ≤ 56 ∧ m.results = [] ∧ m.reqs = [] ∧ ((m.thr 2).rdPair 20).toNat % 8 ≠ 0) ∧
    (let m := machMs 0 [] []
     let v (i : Nat) : Nat := ((m.thr 2).rd (20 + Fin.ofNat 64 i)).toNat
     ¬ (((m.thr 2).rdPair 20).toNat % 8 ≠ 0 ∨ ((m.thr 2).rdPair 22).toNat % 64 ≠ 0 ∨ v 4 % 64 ≠ 0 ∨ (m.crew 4).locSize ≤ v 4 ∨
       v 6 / 2 ^ 26 % 2 ^ 5 ≠ 0 ∨ v 6 / 2 ^ 10 % 2 ^ 6 ≠ 0 ∨ 255 < v 5 % 2 ^ 8 + v 5 / 2 ^ 8 % 2 ^ 8 ∨
       1023 < v 6 % 2 ^ 10 + v 6 / 2 ^ 16 % 2 ^ 10 ∨ ∃ k < 16, (v 7).testBit k = true ∧ ((m.crew 4).nbWin ≤ k ∨ ((m.crew 4).bar k).e = 0)) ∧
       m.streams = [] ∧ (m.spindle 0).bslots = [] ∧ (m.spindle 0).units = []) ∧
    (∃ x ∈ (machMs 0 [streamW 3 4 0] []).streams, x.2.gang = 3) ∧
    (let m := machMs 0 [streamW 7 4 0] []
     (∀ x ∈ m.streams, x.2.gang ≠ 3) ∧ (m.region (m.gang 3).region).kcls = 0 ∧ ∃ x ∈ m.streams, x.2.crew = 4) ∧
    (let m := machMs 1 [streamW 7 4 0, streamW 8 9 1, streamW 10 9 2, streamW 11 9 3] []
     (∀ x ∈ m.streams, x.2.gang ≠ 3) ∧ (m.region (m.gang 3).region).kcls ≠ 0 ∧ ∀ q < 4, ∃ x ∈ m.streams, x.2.sp = 0 ∧ x.2.seqNo = q) ∧
    (let m := machMs 1 [] [(0, (9, {}))]
     ((m.spindle 0).bslots.find (((m.thr 2).rd 25).toNat % 2 ^ 8 + 0)).map (·.1) = some 9) ∧
    (let m := machEdge
     m.formingBy 3 [2] = false ∧ accessAt m 2 .read ((m.thr 2).rdPair 12) 128 128 = .ok (locAt 0x100080 128) ∧ (locAt 0x100080 128).all (fun l => !m.readErr 0 l) = true ∧
       m.owesRead 2 (locAt 0x100080 128) = false ∧ m.readReady [2] 3 m.seq (locAt 0x100080 128) = true ∧
       complMoves m 1 (Rcb.parse (leNat ((locAt 0x100080 128).map (m.load 0)))).compl = false ∧
       m.moves 1 (QHead.slot ⟨0x100400, 0, 1, 4, true, true, 0, 0⟩ 0) 128 = false ∧
       (m.thr 2).rd 6 ≠ 0xFFFFFFFF ∧ edgeQueue m 1 ((m.thr 2).rd 7) = none ∧
       edgeQueue m 1 ((m.thr 2).rd 6) = some ⟨0x100400, 0, 1, 4, true, true, 0, 0⟩ ∧
       QHead.full ⟨0x100400, 0, 1, 4, true, true, 0, 0⟩ = false ∧ m.host.wf = true ∧ m.dram.wf = true ∧
       (∀ j < 128, m.translate ⟨1, none, 0, false⟩ .write (0x100400 + j) = .ok ((locAt 0x100400 128).getD j default) true ∧
         m.treeAt (0x100400 + j) = none)) ∧
    (let m := { machEdge with
       host := Mem.setBytes [] 160 (leBytes 32 (16 + 2 ^ 112 + 4 * 2 ^ 108 + 2 ^ 107 + 2 ^ 106 + 0x100400 * 2 ^ 192)),
       threads := [(2, { thr0 with v := thr0.v.set 12 0x100080, preq := true })] }
     (let c := machChild
      (admitRegion (c.l1Clean 0 false (lineOf 1)) 1 0x100080 (Rcb.parse (leNat ((locAt 0x100080 128).map (c.load 0)))) (c.region 5).rcb
        (some (c.region 5).pool) (c.region 5).addr (some 5)).1 = 0) ∧
     (edgeQueue m 1 ((m.thr 2).rd 6)).map QHead.full = some true ∧ (m.thr 2).preq = true) ∧
    ((withThr (fun t => { t with v := t.v.set 6 0xFFFFFFFF })).thr 2).rd 6 = 0xFFFFFFFF := by
  refine ⟨⟨issues_of (by decide) (by decide) _, ?_⟩, ?_⟩
  · decide +kernel
  · decide +kernel

def machBack (a : BitVec 64) : Mach := withThr (fun t => { t with h := true, trapa := a })
def machHandler : Mach := machBack 0x0100000000000600
theorem witness_EretWord : Issues (.eret h0) (sOf machHandler) (grp machHandler) ∧
    (∀ u ∈ (grp machHandler).run, (machHandler.thr u).h = true ∧ (machHandler.thr u).trapa.toNat % 2 ^ 56 % 12 = 0 ∧
      machHandler.waiting u = false ∧ machHandler.owedBy u = []) ∧
    (grp machHandler).rest.tail = [] ∧ ({ grp machHandler with rest := [0, 0] } : Group).rest.tail ≠ [] ∧
    (∀ u ∈ (grp (machBack 0x601)).run, ((machBack 0x601).thr u).h = true ∧ ¬ ((machBack 0x601).thr u).trapa.toNat % 2 ^ 56 % 12 = 0) ∧
    machHandler.threads.has 2 = true ∧ (grp machHandler).trapOf 2 = none ∧ (machHandler.thr 2).deferred = none ∧
    (machHandler.thr 2).owed = none ∧
    (let m := withThr (fun t => { t with h := true, trapa := 0x600, stat := .leaving (.eret [2]) })
     (m.thr 2).stat = .leaving (.eret [2]) ∧ m.onSpindle 2 = true ∧ m.waiting 2 = false ∧
       ∀ v ∈ [2].filter (fun v => (m.thr v).stat == .leaving (.eret [2])), m.waiting v = false ∧ m.owedBy v = []) ∧
    (let m := withThr (fun t => { t with trapa := 0x600, stat := .eretWait })
     m.threads.has 2 = true ∧ (m.thr 2).stat = .eretWait ∧ m.waiting 2 = false ∧ (m.thr 2).deferred = none ∧ (m.thr 2).owed = none) := by
  refine ⟨issues_of (by decide) (by decide) _, ?_⟩
  decide
/-- Tickets 1 (done: nothing is outstanding), 2 (frozen) and 4 (a move still under way) have been issued; v20 to v23 hold 0, 1, 2, 4. -/
def machTickets : Mach := { withThr (fun t => { withRegs [0, 1, 2, 4] t with preq := true }) with
  ticketN := 4, tickets := [⟨1, .inv 1 0x100000 0x110000 0, [], false⟩, ⟨2, .move 1 0x100000, [], true⟩, ⟨4, .move 1 0x100000, [], false⟩],
  ctxs := [(1, { ctx0 with ranges := [{ rng0 with cstate := 1 }] })] }
theorem witness_RangeWords : Issues (.rset h0 1 4 6) s0 (grp mach0) ∧ mach0.acquiring 2 = false ∧ isEven 4 = true ∧ (7#6).toNat < 8 ∧
    accessAt mach0 2 .read ((mach0.thr 2).rdPair 4) 64 64 = .ok (locs 64) ∧ mach0.readReady [2] 3 mach0.seq (locs 64) = true ∧
    (∀ u ∈ (grp mach0).run, rsetReach 4 (grp mach0) (rsetBefore 4 6 (grp mach0) u) u = .ok (locs 64)) ∧
    mach0.owesRead 2 (locs 64) = false ∧ (∀ l ∈ locs 64, mach0.readErr 0 l = false) ∧ (machTickets.thr 2).rd 20 = 0 ∧
    (∀ x ∈ machTickets.tickets, ∀ y ∈ machTickets.tickets, x.num = y.num → x = y) ∧
    (machTickets.tickets.map (fun t => (t.num, t.frozen, t.done machTickets))) = [(1, false, true), (2, true, false), (4, false, false)] ∧
    (machTickets.thr 2).rd 21 = 1 ∧ (machTickets.thr 2).rd 22 = 2 ∧ (machTickets.thr 2).rd 23 = 4 ∧ (machTickets.thr 2).preq = true ∧
    (∀ t ∈ machTickets.tickets, t.num ≠ 0 ∧ (machTickets.ticketN - t.num).toNat ≤ 2 ^ 31) ∧ machTickets.acquiring 2 = false := by
  refine ⟨issues_all _, ?_⟩
  decide +kernel
theorem witness_rangesApart (f : Range → Range) (h : ∀ r, (f r).baseg = r.baseg ∧ (f r).limg = r.limg) :
    rangesApart ((withRange f).ctx 1).ranges := by
  show rangesApart [f rng0]
  refine ⟨fun r hr => ?_, List.pairwise_singleton _ _⟩
  simp only [List.mem_singleton] at hr
  subst hr
  rw [(h _).1, (h _).2]
  decide
/-- A context whose node pool is not exhausted. -/
def machTree : Mach := { mach0 with ctxs := [(1, { ctx0 with treen := 1 })] }
theorem machTree_room : machTree.treeFull 1 = false := by
  have h : treeCut 1 0 2 2 0 = [2] := by
    have hm : min 2 (16 + Config.treeFill 1 (16 * 0 + 0) % 16) = 2 := by omega
    unfold treeCut
    simp only [hm]
    rfl
  show decide (64 * 1 < treeUse 1 2) = false
  have hu : treeUse 1 2 = 2 := by
    unfold treeUse treeNodeCount treeLevels
    simp only [h]
    rfl
  rw [hu]
  rfl
theorem witness_SplitKeepsTranslation : machTree.ctxs.has 1 = true ∧ rangesApart (machTree.ctx 1).ranges ∧
    (splitAt machTree 1 0x101000).1 = 0 ∧ (splitAt machTree 1 0x10F000).1 = 0 := by
  have h (p : Nat) (hr : machTree.rangeAt 1 p = some rng0) (hp : ¬ (p % 4096 ≠ 0 ∨ p = rng0.base)) : (splitAt machTree 1 p).1 = 0 := by
    unfold splitAt
    rw [hr]
    simp only [hp, if_false, machTree_room]
    rfl
  exact ⟨by decide, witness_rangesApart id (fun _ => ⟨rfl, rfl⟩), h _ (by decide) (by decide), h _ (by decide) (by decide)⟩
/-- Two ranges that meet at 0x108000, with these resident extents. -/
def machPair (e f : Nat × Nat) : Mach := { mach0 with ctxs := [(1, { ctx0 with ranges :=
  [{ rng0 with limg := 0x108, x := false, rlo := e.1, rhi := e.2 }, { rng0 with baseg := 0x108, x := false, rlo := f.1, rhi := f.2 }] })] }
theorem witness_pairApart (e f : Nat × Nat) : rangesApart ((machPair e f).ctx 1).ranges :=
  ⟨fun r hr => (by rcases List.mem_cons.1 hr with rfl | hr
                   · show (0x100 : Nat) < 0x108
                     decide
                   · obtain rfl := List.mem_singleton.1 hr
                     show (0x108 : Nat) < 0x110
                     decide),
   List.pairwise_cons.2 ⟨fun r hr => (by obtain rfl := List.mem_singleton.1 hr; exact .inl (Nat.le_refl 0x108)), List.pairwise_singleton _ _⟩⟩
/-- Descriptors: of a range above the one that is there, and of that one with R alone. -/
def descNew : Nat := 0x200 + 0x210 * 2 ^ 44 + 2 ^ 389 + 2 ^ 511
def descSame : Nat := 0x100 + 0x110 * 2 ^ 44 + 0x10 * 2 ^ 258 + 2 ^ 389 + 2 ^ 511
theorem witness_RangesDone :
    (∀ x ∈ [((0, 8), (0, 8)), ((0, 8), (0, 0)), ((0, 0), (0, 8)), ((0, 0), (0, 0))],
      (machPair x.1 x.2).ctxs.has 1 = true ∧ (mergeAt (machPair x.1 x.2) 1 0x108000).1 = 0) ∧
    ((bindAt mach0 1 0x100000 0x0300000000100040#64).1 = 0 ∧ (bindAt mach0 1 0x100000 0#64).1 = 0) ∧ mach0.ctxs.has 1 = true ∧
    (withRange id).rangeAt 1 0x100000 = some rng0 ∧ (∀ r ∈ (mach0.ctx 1).ranges, ¬ (r.base ≤ 0x110000 ∧ 0x110000 < r.limit)) ∧
    (setRange mach0 1 descSame).1 = 0 ∧ (setRange machTree 1 descNew).1 = 0 ∧
    (compactAt (withRange (fun r => { r with x := false })) 1 0x100000 0x400000).1.head? = some 0 := by
  refine ⟨by decide +kernel, ⟨by decide +kernel, by decide +kernel⟩, by decide, by decide, by decide, by decide +kernel, ?_, by decide +kernel⟩
  have h1 : badDesc descNew = false := by decide +kernel
  have h2 : ((machTree.ctx 1).ranges.find? (fun q => decide (q.baseg < (Range.unpack descNew).limg) && decide ((Range.unpack descNew).baseg < q.limg)))
      = none := by decide +kernel
  have h3 : machTree.wxClash 1 (Range.unpack descNew).baseg (Range.unpack descNew).w (Range.unpack descNew).x
      ((Range.unpack descNew).areas (machTree.ctx 1).rank) = false := by decide +kernel
  unfold setRange
  simp only [h1, h2, h3, machTree_room, if_false, Bool.false_eq_true]
theorem witness_RangeWordEffects : (splitAt mach0 1 0x100000).1 ≠ 0 ∧ (splitAt mach0 1 0x110000).1 ≠ 0 ∧ (mergeAt mach0 1 0x100000).1 ≠ 0 ∧
    (bindAt mach0 1 0x110000 0).1 ≠ 0 ∧ (setRange mach0 1 0).1 ≠ 0 ∧ (invAt mach0 1 0x110000).1.head? ≠ some 0 ∧
    (compactAt mach0 1 0x110000 0).1.head? ≠ some 0 ∧ (withRange id).ctxs.has 1 = true ∧ rangesApart ((withRange id).ctx 1).ranges ∧
    (withRange id).rangeAt 1 0x10FFFF = some rng0 ∧ rng0.cstate ≠ 1 ∧ (0xFFFFFFFE : Nat) + 1 < 2 ^ 32 :=
  ⟨by decide, by decide, by decide, by decide, by decide, by decide, by decide, by decide, witness_rangesApart _ (fun _ => ⟨rfl, rfl⟩),
   by decide, by decide, by decide⟩

/-! ### Streams -/

/-- A running stream whose data lies in crew-local memory that holds M, in the first segment given, with a claimed B-slot. -/
def machLoc (seg : Seg) (M : Mem) (f : Stream → Stream) (slot : BSlot) : Mach :=
  { mach0 with
    crews := [(4, { crew0 with locSize := 0x10000, loc := M, bars := crew0.bars.set 0 ⟨2, 0, 1⟩, segs := crew0.segs.set 0 seg })],
    spindles := [(0, { bslots := [(0, (4, slot))] })],
    streams := [(60, f { stream0 with data := 0xFF * 2 ^ 48, ccnt := 1023 })] }
/-- With one segment of a block format over all of the local memory. -/
def machStream : (Stream → Stream) → BSlot → Mach := machLoc ⟨0, 0x10000, 6, 2, 0, 0x8000⟩ []
/-- A byte of crew-local memory. -/
def locC (va : Nat) : Loc := { sto := .crew 4, addr := va % 2 ^ 48, va := va }
theorem local_translate (seg : Seg) (M : Mem) (f : Stream → Stream) (b : BSlot) (c : Nat) (k : AKind) (hk : k ≠ .fetch) {o : Nat}
    (ho : o < 0x10000) : (machLoc seg M f b).translate ⟨c, some 4, 0, false⟩ k (0xFF * 2 ^ 48 + o) = .ok (locC (0xFF * 2 ^ 48 + o)) true := by
  have h1 : ¬ 2 ^ 56 ≤ 0xFF * 2 ^ 48 + o := by omega
  have h2 : 0xFD * 2 ^ 48 ≤ 0xFF * 2 ^ 48 + o := by omega
  have h3 : (0xFF * 2 ^ 48 + o) / 2 ^ 48 = 0xFF := by omega
  have h4 : (0xFF * 2 ^ 48 + o) % 2 ^ 48 = o := by omega
  have h5 : ((machLoc seg M f b).crew 4).locSize = 0x10000 := rfl
  unfold Mach.translate
  rw [if_neg h1, if_pos h2]
  unfold Mach.window
  simp only [hk, if_false, h3, h4, h5, ho, if_true, locC]
theorem local_attr (seg : Seg) (M : Mem) (f : Stream → Stream) (b : BSlot) (c : Nat) {o : Nat} (ho : o < 2 ^ 48) :
    (machLoc seg M f b).attrAt ⟨c, some 4, 0, false⟩ (0xFF * 2 ^ 48 + o) =
      if seg.len ≠ 0 ∧ seg.start ≤ o ∧ o < seg.start + seg.len then
        some ⟨0xFF * 2 ^ 48 + seg.start, 0xFF * 2 ^ 48 + seg.start + seg.len, seg.fmt, seg.blk, seg.sparse, seg.soff⟩ else none := by
  have h3 : (0xFF * 2 ^ 48 + o) / 2 ^ 48 = 0xFF := by omega
  have h4 : (0xFF * 2 ^ 48 + o) % 2 ^ 48 = o := by omega
  have h5 : ((machLoc seg M f b).crew 4).segs.toList = seg :: List.replicate 7 {} := rfl
  unfold Mach.attrAt
  simp only [h3, h4, h5, if_true, List.find?_cons]
  by_cases h : seg.len ≠ 0 ∧ seg.start ≤ o ∧ o < seg.start + seg.len
  · have : (seg.len != 0 && decide (seg.start ≤ o) && decide (o < seg.start + seg.len)) = true := by simpa [and_assoc] using h
    rw [if_pos h, this]
    rfl
  · have : (seg.len != 0 && decide (seg.start ≤ o) && decide (o < seg.start + seg.len)) = false := by
      rw [Bool.eq_false_iff]; simpa [and_assoc] using h
    rw [if_neg h, this]
    rfl

/-- Bytes that all translate are reached. -/
theorem reach_ok {m : Mach} {w : Who} {k : AKind} {vas : List Nat} {f : Nat → Loc} (hw : w.thread = false)
    (ht : ∀ va ∈ vas, m.translate w k va = .ok (f va) true ∧ m.fmtDead w va = false) : m.reach w k vas none = .ok (vas.map f) := by
  have hm : vas.map (fun va => (va, m.translate w k va)) = vas.map (fun va => (va, TrByte.ok (f va) true)) :=
    List.map_congr_left (fun va hva => by rw [(ht va hva).1])
  have hb (l : List Nat) : firstBad 5 (l.map (fun va => (va, TrByte.ok (f va) true))) = none := by
    induction l with
    | nil => rfl
    | cons a r ih => exact ih
  have hl (l : List Nat) : trLocs (l.map (fun va => (va, TrByte.ok (f va) true))) = l.map f := by
    induction l with
    | nil => rfl
    | cons a r ih => exact congrArg (f a :: ·) ih
  have hd : vas.find? (m.fmtDead w) = none := List.find?_eq_none.2 (fun va hva => by simp [(ht va hva).2])
  have hv : (vas.map (fun va => (va, TrByte.ok (f va) true))).map (·.1) = vas := by rw [List.map_map]; exact List.map_id _
  have hq : (vas.map (fun va => (va, TrByte.ok (f va) true))).any (fun x => x.2 == .wait) = false := by
    rw [List.any_eq_false]
    intro x hx
    obtain ⟨va, -, rfl⟩ := List.mem_map.1 hx
    intro h
    exact absurd (eq_of_beq h) (by simp)
  have hf (p : Nat × TrByte → Bool) (hp : ∀ va, p (va, .ok (f va) true) = false) :
      (vas.map (fun va => (va, TrByte.ok (f va) true))).find? p = none := by
    rw [List.find?_eq_none]
    intro x hx
    obtain ⟨va, -, rfl⟩ := List.mem_map.1 hx
    rw [hp]
    exact Bool.false_ne_true
  unfold Mach.reach Mach.reachOf
  rw [hm]
  simp only [hb, hv, Option.orElse, hd, hw, Bool.false_and, Bool.false_eq_true, if_false, hq, hl]
  rw [hf _ (fun _ => rfl)]
/-- Storage with no segment takes every byte written to it. -/
theorem putBytes_local (f : Stream → Stream) (x : Stream) (h0 : x.sp = 0) (hx : ∀ m, x.who (machLoc {} m f {}) = ⟨1, some 4, 0, false⟩) :
    ∀ (vas : List Nat) (bs : List Byte) (M : Mem), (∀ va ∈ vas, ∃ o, o < 0x10000 ∧ va = 0xFF * 2 ^ 48 + o) →
      ∃ M', putBytes (machLoc {} M f {}) x vas bs = (machLoc {} M' f {}, none)
  | [], _, M, _ => ⟨M, rfl⟩
  | _ :: _, [], M, _ => ⟨M, rfl⟩
  | va :: vs, b :: bs, M, h => by
    obtain ⟨o, ho, rfl⟩ := h va (by simp)
    have hr : (machLoc {} M f {}).reach (x.who (machLoc {} M f {})) .write [0xFF * 2 ^ 48 + o] none = .ok [locC (0xFF * 2 ^ 48 + o)] := by
      rw [hx]
      refine reach_ok (f := locC) rfl (fun va hva => ?_)
      obtain rfl := List.mem_singleton.1 hva
      refine ⟨local_translate _ _ _ _ _ _ (by decide) ho, ?_⟩
      unfold Mach.fmtDead
      rw [local_attr _ _ _ _ _ (by omega)]
      rfl
    unfold putBytes
    rw [hr]
    rw [h0]
    show ∃ M', (if (machLoc {} M f {}).badAt (locC (0xFF * 2 ^ 48 + o)) = true then (machLoc {} M f {}, some 8)
      else putBytes ((machLoc {} M f {}).store 0 (locC (0xFF * 2 ^ 48 + o)) b) x vs bs) = (machLoc {} M' f {}, none)
    rw [show (machLoc {} M f {}).badAt (locC (0xFF * 2 ^ 48 + o)) = false from rfl, if_neg Bool.false_ne_true,
      show (machLoc {} M f {}).store 0 (locC (0xFF * 2 ^ 48 + o)) b = machLoc {} (M.set (locC (0xFF * 2 ^ 48 + o)).addr
        (mixBits (M.get (locC (0xFF * 2 ^ 48 + o)).addr) b 0xFF)) f {} from rfl]
    exact putBytes_local f x h0 hx vs bs _ (fun va hva => h va (by simp [hva]))
/-- A stream reads bytes that all translate and that no error has. -/
theorem streamRead_ok {m : Mach} {x : Stream} {vas : List Nat} {f : Nat → Loc}
    (ht : ∀ va ∈ vas, m.translate (x.who m) .read va = .ok (f va) true ∧ m.fmtDead (x.who m) va = false)
    (he : ∀ va ∈ vas, m.readErr x.sp (f va) = false) : streamRead m x vas = .ok (vas.map (fun va => m.load x.sp (f va))) := by
  have hm : vas.map (fun va => (va, m.translate (x.who m) .read va)) = vas.map (fun va => (va, TrByte.ok (f va) true)) :=
    List.map_congr_left (fun va hva => by rw [(ht va hva).1])
  have hb (k : Nat) (l : List Nat) : firstBad k (l.map (fun va => (va, TrByte.ok (f va) true))) = none := by
    induction l with
    | nil => rfl
    | cons a r ih => exact ih
  have hl (l : List Nat) : trLocs (l.map (fun va => (va, TrByte.ok (f va) true))) = l.map f := by
    induction l with
    | nil => rfl
    | cons a r ih => exact congrArg (f a :: ·) ih
  have ha (p : Nat × TrByte → Bool) (hp : ∀ va, p (va, .ok (f va) true) = false) :
      (vas.map (fun va => (va, TrByte.ok (f va) true))).any p = false := by
    rw [List.any_eq_false]
    intro y hy
    obtain ⟨va, -, rfl⟩ := List.mem_map.1 hy
    rw [hp]
    exact Bool.false_ne_true
  have hd : vas.any (m.fmtDead (x.who m)) = false := by
    rw [List.any_eq_false]
    intro va hva
    rw [(ht va hva).2]
    exact Bool.false_ne_true
  have hh : (vas.map f).any (m.readErr x.sp) = false := by
    rw [List.any_eq_false]
    intro l hl
    obtain ⟨va, hva, rfl⟩ := List.mem_map.1 hl
    rw [he va hva]
    exact Bool.false_ne_true
  unfold streamRead streamReadBy
  simp only [hm, hd, hb, hl, hh, Option.isSome_none, Bool.or_false, Bool.false_eq_true, if_false, List.map_map, Function.comp_def]
  rw [ha _ (fun _ => rfl), ha _ (fun _ => rfl)]
  rfl
theorem mldb_place {m : Mach} {x : Stream} {va i : Nat} {a : Attr} (ha : m.attrAt (x.who m) va = some a)
    (hb : (!isBlock a.fmt || a.blk == 3) = false) (he : elemIndex a.fmt a.sparse (va - a.origin) = some i) :
    mldbPlace m x va = .inl (a, span va (slotBytes a.fmt a.sparse) ++
      span (a.origin + a.soff + i / blkLen a.blk) (slotElems a.sparse / blkLen a.blk)) := by
  unfold mldbPlace
  rw [ha]
  simp only [hb, he, Bool.false_eq_true, if_false]

/-- Sparse groups of two codes at positions 0 and 1. -/
theorem sparse_groups (n i : Nat) (h : i < n) (a b : Byte) : (((List.replicate n [a, b]).flatten.drop (i * 2)).take 2) = [a, b] := by
  induction n generalizing i with
  | zero => omega
  | succ n ih =>
    cases i with
    | zero => rfl
    | succ i =>
      rw [List.replicate_succ, List.flatten_cons, Nat.succ_mul, Nat.add_comm, ← List.drop_drop]
      exact ih i (by omega)
theorem witness_Slots : (∀ bs, (slotOf ⟨0, 0x10000, 6, 2, 0, 0x8000⟩ bs).isSome = true) ∧
    (slotOf ⟨0, 0x10000, 6, 2, 1, 0x8000⟩ (List.replicate 1024 [0, 0x10]).flatten).isSome = true ∧
    (slotOf ⟨0, 0x10000, 6, 2, 5, 0x8000⟩ []).isSome = true := by
  refine ⟨fun _ => rfl, ?_, by decide +kernel⟩
  have h : ((List.range 1024).map (fun i => groupEntries 6 (sparseN 1)
      (leNat (((List.replicate 1024 ([0, 0x10] : List Byte)).flatten.drop (i * packBytes 6 1)).take (packBytes 6 1))))).any badGroup = false := by
    rw [List.any_eq_false]
    intro x hx
    obtain ⟨i, hi, rfl⟩ := List.mem_map.1 hx
    rw [List.mem_range] at hi
    rw [show packBytes 6 1 = 2 from rfl, sparse_groups 1024 i hi]
    decide
  unfold slotOf slotCodes
  simp only [h, if_false, Bool.false_eq_true, OfNat.one_ne_ofNat, one_ne_zero, Option.map_some, Option.isSome_some]
def mldbBytes : List Nat := span (0xFF * 2 ^ 48 + 0) (slotBytes 6 0) ++ span (0xFF * 2 ^ 48 + 0x8000 + 0 / blkLen 2) (slotElems 0 / blkLen 2)
theorem witness_StreamWords :
    (let m := machStream id {}
     let x := m.streams.at 60
     m.streams.find 60 = some x ∧ (0 : Nat) % 64 = 0 ∧ (7#8).toNat ≤ x.bcnt ∧
       mldbPlace m x (x.data + 0) = .inl (⟨0xFF * 2 ^ 48, 0xFF * 2 ^ 48 + 0x10000, 6, 2, 0, 0x8000⟩, mldbBytes) ∧
       (∀ va ∈ mldbBytes, 0xFF * 2 ^ 48 ≤ va ∧ va < 0xFF * 2 ^ 48 + 0x10000) ∧ (∃ bs, streamRead m x mldbBytes = .ok bs) ∧
       (∀ bs, (slotOf ⟨0xFF * 2 ^ 48, 0xFF * 2 ^ 48 + 0x10000, 6, 2, 0, 0x8000⟩ bs).isSome = true)) ∧
    (let m := machLoc {} [] id {}
     let x := m.streams.at 60
     1#2 ≠ 3#2 ∧ (992#10).toNat + 32 ≤ x.ccnt + 1 ∧ 128 * 2 ≤ 128 * 2 ∧ x.cpitch = 0 ∧
       (∀ va ∈ moutVas (x.data + 0) 256 2, moutDead m x (accCode 1) va = false ∧ m.translate (x.who m) .write va ≠ .wait) ∧
       (∀ bs, (putBytes m x (moutVas (x.data + 0) 256 2) bs).2 = none)) ∧
    (let m := machStream id {}
     let x := m.streams.at 60
     x.memb.getLsbD 0 = true ∧ (0#4).toNat < (m.crew x.crew).nbWin ∧
       (x.wc.toList.getD 0 0).toNat < (((m.crew x.crew).bar 0).p - x.p0.toList.getD 0 0).toNat ∧ x.loops.length < 4 ∧
       endsLoop m x (x.idx + (1#24).toInt) = some true ∧ 0 < (1#24).toInt ∧ x.seqNo < 4 ∧ (m.gang x.gang).life ≠ .ended ∧
       (m.gang x.gang).q5.length < 16) := by
  have hsp (va b n : Nat) (h : va ∈ span b n) : b ≤ va ∧ va < b + n := by
    obtain ⟨i, hi, rfl⟩ := List.mem_map.1 h
    rw [List.mem_range] at hi
    omega
  have hin (va : Nat) (h : va ∈ mldbBytes) : 0xFF * 2 ^ 48 ≤ va ∧ va < 0xFF * 2 ^ 48 + 0x10000 := by
    have e : slotBytes 6 0 ≤ 0x8000 ∧ 0 / blkLen 2 = 0 ∧ slotElems 0 / blkLen 2 ≤ 0x8000 := by decide
    rcases List.mem_append.1 h with h | h <;> have := hsp _ _ _ h <;> omega
  refine ⟨⟨by decide, by decide, by decide, ?_, hin, ?_, fun _ => rfl⟩, ⟨by decide, by decide, by decide, by decide, ?_, ?_⟩, ?_⟩
  · have ha := local_attr ⟨0, 0x10000, 6, 2, 0, 0x8000⟩ [] id {} 1 (o := 0) (by decide)
    exact mldb_place (i := 0) (a := ⟨0xFF * 2 ^ 48, 0xFF * 2 ^ 48 + 0x10000, 6, 2, 0, 0x8000⟩) ha (by decide) (by decide)
  · refine ⟨mldbBytes.map (fun va => (machStream id {}).load 0 (locC va)), ?_⟩
    refine streamRead_ok (f := locC) (fun va hva => ?_) (fun _ _ => rfl)
    rw [show ((machStream id {}).streams.at 60).who (machStream id {}) = ⟨1, some 4, 0, false⟩ from by decide]
    obtain ⟨o, ho, rfl⟩ : ∃ o, o < 0x10000 ∧ va = 0xFF * 2 ^ 48 + o := ⟨va - 0xFF * 2 ^ 48, by have := hin va hva; omega, by have := hin va hva; omega⟩
    refine ⟨local_translate _ _ _ _ _ _ (by decide) ho, ?_⟩
    unfold Mach.fmtDead machStream
    rw [local_attr _ _ _ _ _ (by omega)]
    rw [if_pos ⟨by decide, Nat.zero_le _, by simpa using ho⟩]
    rfl
  · intro va hva
    obtain ⟨i, hi, h⟩ := List.mem_flatMap.1 hva
    rw [List.mem_range] at hi
    have hv := hsp _ _ _ h
    rw [show ((machLoc {} [] id {}).streams.at 60).data = 0xFF * 2 ^ 48 from rfl] at hv
    obtain ⟨o, ho, rfl⟩ : ∃ o, o < 0x10000 ∧ va = 0xFF * 2 ^ 48 + o := ⟨va - 0xFF * 2 ^ 48, by omega, by omega⟩
    rw [show ((machLoc {} [] id {}).streams.at 60).who (machLoc {} [] id {}) = ⟨1, some 4, 0, false⟩ from by decide]
    refine ⟨?_, by rw [local_translate _ _ _ _ _ _ (by decide) ho]; simp⟩
    unfold moutDead
    rw [show ((machLoc {} [] id {}).streams.at 60).who (machLoc {} [] id {}) = ⟨1, some 4, 0, false⟩ from by decide,
      local_attr _ _ _ _ _ (by omega)]
    rfl
  · intro bs
    suffices h : ∃ M', putBytes (machLoc {} [] id {}) ((machLoc {} [] id {}).streams.at 60) (moutVas (((machLoc {} [] id {}).streams.at 60).data + 0) 256 2)
        bs = (machLoc {} M' id {}, none) by
      obtain ⟨M', h⟩ := h
      exact congrArg Prod.snd h
    refine putBytes_local id _ rfl (fun _ => rfl) _ _ _ (fun va hva => ?_)
    obtain ⟨i, hi, h⟩ := List.mem_flatMap.1 hva
    rw [List.mem_range] at hi
    have hv := hsp _ _ _ h
    rw [show ((machLoc {} [] id {}).streams.at 60).data = 0xFF * 2 ^ 48 from rfl] at hv
    exact ⟨va - 0xFF * 2 ^ 48, by omega, by omega⟩
  · decide +kernel
theorem witness_TileWords :
    (let m := machStream (fun x => { x with latch := some ⟨5, []⟩ }) { mode := 1, fmt := 5 }
     let x := m.streams.at 60
     m.streams.find 60 = some x ∧ 2#2 ≠ 3#2 ∧ (0#8).toNat ≤ x.bcnt ∧ x.latch = some ⟨5, []⟩ ∧ (slotAt m 0 (x.bbase + 0)).mode = 1 ∧
       (slotAt m 0 (x.bbase + 0)).fmt = 5 ∧ (960#10).toNat + 1 * 64 ≤ x.ccnt + 1 ∧ (896#10).toNat + 2 * 64 ≤ x.ccnt + 1) ∧
    (3#4).toNat < 4 ∧ (slotAt (machStream id { mode := 5, fmt := 5 }) 0 0).mode = (3#4).toNat + 2 ∧
    (slotAt (machStream id { mode := 6, fmt := 5 }) 0 0).mode = 6 ∧
    (∀ v ∈ List.zipWith (elemProd 5) [(3, -2)] [(5, 1)], (-1 : Int) ≤ v.dy.e) := by
  decide +kernel
/-- A stream whose second row would lie past the end of crew-local memory. -/
def farPitch : Stream → Stream := fun x => { x with cpitch := 0x400 }
theorem witness_StreamStops :
    (let m := machStream (fun x => { x with bcnt := 3, ccnt := 31, loops := [(2, 0, 9), (2, 0, 9), (2, 0, 9), (2, 0, 9)] }) {}
     let x := m.streams.at 60
     m.streams.find 60 = some x ∧ x.seqNo < 4 ∧ m.gangs.has 3 = true ∧ (m.gang 3).life ≠ .ended ∧ (m.gang 3).q5.length < 16 ∧ m.popping 3 5 = [] ∧
       (0#24).toInt ≤ 0 ∧ (0 < (1#24).toInt ∧ endsLoop m x (x.idx + (1#24).toInt) = some true ∧ 4 ≤ x.loops.length) ∧ x.bcnt < (4#8).toNat ∧
       x.ccnt + 1 < (0#10).toNat + tileUnits 0 ∧ x.memb.getLsbD 1 = false ∧ (m.crew 4).nbWin ≤ 4 ∧ m.crews.has x.crew = true) ∧
    (let m := { machStream id {} with dram := Mem.setBytes [] 0x100008 (leBytes 8 0x2C00000000000000) }
     endsLoop m (m.streams.at 60) ((m.streams.at 60).idx + (1#24).toInt) = some false) ∧
    (let m := machLoc ⟨0, 0x10000, 1, 0, 0, 0⟩ [] id {}
     let x := m.streams.at 60
     (7#8).toNat ≤ x.bcnt ∧ m.attrAt (x.who m) (x.data + (0#40).toNat) = some ⟨0xFF * 2 ^ 48, 0xFF * 2 ^ 48 + 0x10000, 1, 0, 0, 0⟩ ∧ 1 ∉ [4, 5, 6]) ∧
    (let m := machLoc {} [] (fun x => { x with data := 0x110000 }) {}
     let x := { stream0 with data := 0x110000 }
     x.data + (0#40).toNat < 0xFD * 2 ^ 48 ∧ m.rangeAt (m.engine x.crew x.sp).ctx (x.data + (0#40).toNat) = none) ∧
    (let m := machStream (fun x => { x with latch := some ⟨5, []⟩ }) { mode := 2, fmt := 5 }
     let x := m.streams.at 60
     (0#8).toNat ≤ x.bcnt ∧ (896#10).toNat + 2 * tileUnits 0 ≤ x.ccnt + 1 ∧ x.latch = some ⟨5, []⟩ ∧ (slotAt m x.sp (x.bbase + (0#8).toNat)).mode ≠ 1 ∧
       (slotAt m x.sp (x.bbase + (0#8).toNat)).mode ≠ (1#4).toNat + 2 ∧ (slotAt m x.sp (x.bbase + (0#8).toNat)).mode ≠ 6) ∧
    (let m := machStream id {}
     let x := m.streams.at 60
     ∃ va ∈ moutVas (x.data + (0#40).toNat) 512 4, ∃ a, m.attrAt (x.who m) va = some a ∧ ((a.fmt ≠ 0 ∧ a.fmt ≠ 1) ∨ a.blk = 3)) ∧
    (let m := machLoc {} [] (fun x => { x with cpitch := 1 }) {}
     let x := m.streams.at 60
     (∀ va ∈ moutVas (x.data + (0#40).toNat) (64 * x.cpitch) 2, m.attrAt (x.who m) va = none) ∧ 64 * x.cpitch < 128 * 2) ∧
    (let m := machLoc {} [] farPitch {}
     let x := m.streams.at 60
     let vas := moutVas (x.data + (0#40).toNat) (64 * x.cpitch) 2
     (0#10).toNat + tileUnits 1 ≤ x.ccnt + 1 ∧ 128 * 2 ≤ 64 * x.cpitch ∧
       (∀ a ∈ vas, m.attrAt (x.who m) a = none ∧ m.translate (x.who m) .write a ≠ .wait) ∧ vas[256]? = some (0xFF * 2 ^ 48 + 0x10000) ∧
       ∀ bs, (putBytes m x (vas.take 256) bs).2 = none ∧
         ∃ y z, (putBytes m x (vas.take 256) bs).1.reach (x.who m) .write [0xFF * 2 ^ 48 + 0x10000] none = .trap .rangeMiss y z) := by
  have row (p : Nat) (va : Nat) (h : va ∈ moutVas (0xFF * 2 ^ 48) p 2) : ∃ i o, i < 64 ∧ o < 256 ∧ va = 0xFF * 2 ^ 48 + (i * p + o) := by
    obtain ⟨i, hi, h⟩ := List.mem_flatMap.1 h
    obtain ⟨o, ho, rfl⟩ := List.mem_map.1 h
    rw [List.mem_range] at hi ho
    exact ⟨i, o, hi, ho, by omega⟩
  have none' (f : Stream → Stream) (M : Mem) (o : Nat) (ho : o < 2 ^ 48) :
      (machLoc {} M f {}).attrAt ⟨1, some 4, 0, false⟩ (0xFF * 2 ^ 48 + o) = none := by
    rw [local_attr _ _ _ _ _ ho]
    rfl
  have far (M : Mem) (o : Nat) (h0 : 0x10000 ≤ o) (ho : o < 2 ^ 48) :
      (machLoc {} M farPitch {}).translate ⟨1, some 4, 0, false⟩ .write (0xFF * 2 ^ 48 + o) = .bad 2 .rangeMiss := by
    have h1 : ¬ 2 ^ 56 ≤ 0xFF * 2 ^ 48 + o := by omega
    have h2 : 0xFD * 2 ^ 48 ≤ 0xFF * 2 ^ 48 + o := by omega
    have h3 : (0xFF * 2 ^ 48 + o) / 2 ^ 48 = 0xFF := by omega
    have h4 : ¬ (0xFF * 2 ^ 48 + o) % 2 ^ 48 < 0x10000 := by omega
    have h5 : ((machLoc {} M farPitch {}).crew 4).locSize = 0x10000 := rfl
    unfold Mach.translate
    rw [if_neg h1, if_pos h2]
    unfold Mach.window
    simp only [reduceCtorEq, if_false, h3, h4, h5]
  refine ⟨by decide +kernel, by decide +kernel, ⟨by decide, by decide, by decide⟩, by decide +kernel, by decide +kernel, ?_, ⟨?_, by decide⟩, by decide,
    by decide, ?_, by rfl, ?_⟩
  · refine ⟨0xFF * 2 ^ 48, List.mem_flatMap.2 ⟨0, List.mem_range.2 (by decide), List.mem_map.2 ⟨0, List.mem_range.2 (by decide), by decide⟩⟩, ?_⟩
    exact ⟨⟨0xFF * 2 ^ 48, 0xFF * 2 ^ 48 + 0x10000, 6, 2, 0, 0x8000⟩, by decide, by decide⟩
  · intro va hva
    obtain ⟨i, o, hi, ho, rfl⟩ := row (64 * 1) va hva
    exact none' _ _ _ (by omega)
  · intro va hva
    obtain ⟨i, o, hi, ho, rfl⟩ := row (64 * 0x400) va hva
    refine ⟨none' _ _ _ (by omega), ?_⟩
    show (machLoc {} [] farPitch {}).translate ⟨1, some 4, 0, false⟩ .write _ ≠ .wait
    by_cases h : i * (64 * 0x400) + o < 0x10000
    · rw [local_translate _ _ _ _ _ _ (by decide) h]; simp
    · rw [far _ _ (by omega) (by omega)]; simp
  · intro bs
    obtain ⟨M', h⟩ : ∃ M', putBytes (machLoc {} [] farPitch {}) ((machLoc {} [] farPitch {}).streams.at 60)
        ((moutVas (0xFF * 2 ^ 48) (64 * 0x400) 2).take 256) bs = (machLoc {} M' farPitch {}, none) := by
      refine putBytes_local farPitch _ rfl (fun _ => rfl) _ _ _ (fun va hva => ?_)
      have e : (moutVas (0xFF * 2 ^ 48) (64 * 0x400) 2).take 256 = span (0xFF * 2 ^ 48 + 0 * (64 * 0x400)) 256 := by
        unfold moutVas
        rw [List.range_succ_eq_map, List.flatMap_cons]
        exact List.take_left' (by simp [span])
      rw [e] at hva
      obtain ⟨o, ho, rfl⟩ := List.mem_map.1 hva
      rw [List.mem_range] at ho
      exact ⟨o, by omega, rfl⟩
    refine ⟨congrArg Prod.snd h, 0x10000 % 2 ^ 32, 0xFF * 2 ^ 48 + 0x10000, ?_⟩
    have h1 := congrArg Prod.fst h
    rw [show ((machLoc {} [] farPitch {}).streams.at 60).who (machLoc {} [] farPitch {}) = ⟨1, some 4, 0, false⟩ from by decide]
    refine (congrArg (fun m : Mach => m.reach ⟨1, some 4, 0, false⟩ .write [0xFF * 2 ^ 48 + 0x10000] none) h1).trans ?_
    unfold Mach.reach Mach.reachOf
    simp only [List.map_cons, List.map_nil, far M' 0x10000 (by omega) (by omega)]
    rfl
/-- An MWAIT whose phase has not completed, before and after its word has gone; and a byte to which a store of the sequencer goes in vain. -/
theorem witness_StreamWaits :
    (∀ b ∈ [true, false], let m := machStream (fun x => { x with wc := x.wc.set 0 1, got := b }) {}; let x := m.streams.at 60
     m.streams.find 60 = some x ∧ x.got = b ∧ (0#4).toNat < (m.crew x.crew).nbWin ∧
       (((m.crew x.crew).bar 0).p - x.p0.toList.getD 0 0).toNat ≤ (x.wc.toList.getD 0 0).toNat) ∧
    (let m := { mach0 with bad := [(.dram, 0x100040 / 32)] }
     m.reach ⟨1, some 4, 0, false⟩ .write [0x100040] none = .ok [loc0 0] ∧ m.storeErr 0 (loc0 0) = true) := by
  decide +kernel

/-! ### Steps that are no gang words -/

/-- A result of thread 2 for v6, and the machine that waits for it. -/
def res0 (src : Src) : Res := { seq := 9, us := [2], gang := 3, dst := 6, n := 1, src := src, va := 0x100040 }
def machRes (src : Src) (m : Mach) : Mach := { m with results := [res0 src] }
def machBad : Mach := { mach0 with bad := [(.dram, 0x100040 / 32)] }
/-- Its spindle's L1 holds a clean copy of the first byte, older than the home; and the access of that byte that passes it. -/
def machOld : Mach := { mach0 with dram := Mem.setBytes [] 0x100040 [9], spindles := [(0, { l1 := [{ loc := loc0 0, val := 3, dirty := 0 }] })] }
def past0 : Loc := { loc0 0 with cache := .l2 }
theorem witness_ResultsReturn :
    (past0.cache ≠ .l1l2 ∧ machOld.load 0 past0 = 9 ∧ machOld.load 0 (loc0 0) = 3 ∧ (machOld.l1Renew 0 [past0]).load 0 (loc0 0) = 9) ∧
    (res0 (.val [7])).out < 1000000 ∧
    (machRes (.val [7]) mach0).results.find? (fun x => x.seq == 9) = some (res0 (.val [7])) ∧
    ((machRes (.load (locs 4) (.sext 32)) mach0).readReady [2] 3 9 (locs 4) = true ∧ (∀ l ∈ locs 4, mach0.readErr 0 l = false) ∧
      (Conv.sext 32).value (gotBytes mach0 0 [] (locs 4)) = some [0]) ∧
    (Conv.sparse 6 2 11).value (gotBytes mach0 0 [] (locs 8)) = none ∧
    ((machRes (.load (locs 4) (.sext 32)) machBad).readReady [2] 3 9 (locs 4) = true ∧ (locs 4).find? (machBad.readErr 0) = some (loc0 0)) ∧
    ((machRes (.waitc (locs 4) 1) mach0).readReady [2] 3 9 (locs 4) = true ∧
      BitVec.ofNat 32 (leNat ((locs 4).map (mach0.load 0))) ≠ 1#32) ∧
    (let m := machRes (.waitc (locs 4) 0) (withThr (fun t => { t with preq := true }))
     m.readReady [2] 3 9 (locs 4) = true ∧ (∃ u ∈ [2], (m.thr u).preq = true)) ∧
    (let m := machRes (.waitc (locs 4) 0) { mach0 with clock := 65536 }
     65536 ≤ (m.clock - (res0 (.val [])).at').toNat ∧ m.readReady [2] 3 9 (locs 4) = true ∧ (∀ l ∈ locs 4, m.readErr 0 l = false) ∧
       ∀ y ∈ m.results, y.seq = 9 → y = res0 (.waitc (locs 4) 0)) ∧
    ((machRes (.acq (locs 4) [(0x100000, 0x110000)]) mach0).readReady [2] 3 9 (locs 4) = true ∧ ∀ l ∈ locs 4, mach0.homeErr l = false ∧ mach0.l1Bad 0 l = false) ∧
    (let m := machRes (.ring 7) machRing
     (m.gang 3).crew = some 4 ∧ (m.crew 4).ring 7 ≠ { (m.crew 4).ring 7 with pub := 2 } ∧
       firstRing m (some 4) 7 = some (res0 (.ring 7))) ∧
    (let m := machRes (.ring 7) (withCrew (fun c => { c with rings := c.rings.set 7 { init := true, z := 256, s := 4, pub := 0, tak := 0xFFFFFFFF } }))
     ((m.crew 4).ring 7).pub ≠ ((m.crew 4).ring 7).tak ∧ firstRing m (some 4) 7 = some (res0 (.ring 7))) := by
  decide
/-- Requests of thread 2 at its address. -/
def req0 (n : Nat) (k : ReqK) : Req := { seq := n, u := 2, gang := 3, sp := 0, kind := k, ls := locs 4, va := 0x100040 }
def machReq (ks : List Req) (m : Mach) : Mach := { m with reqs := ks }
def reqA : Req := { req0 9 (.atom 0 false 1) with scope := 2 }
def reqB : Req := { req0 10 (.atom 0 false 2) with scope := 2, u := 12, wordNo := 1 }
/-- Requests of two threads. -/
def machTwo : Mach := { mach0 with threads := [(2, thr0), (12, { thr0 with lane := 1 })], reqs := [reqA, reqB] }
theorem witness_RequestsPerform :
    (∀ k ∈ [ReqK.store 7 0xFFFFFFFF, .atom 0 false 1, .acas false 0 1, .fred 0 1 0x3F800000, .rel 5 [(0x100000, 0x110000)]], let q := req0 9 k
      let m := machReq [q] mach0
      m.reqs.find? (fun x => x.seq == 9) = some q ∧ reqReady m q = true ∧ mergedInto m q = [] ∧ (∀ p ∈ m.reqs, p.seq = 9 → p = q) ∧
        q.out < 1000000 ∧ (∀ l ∈ q.ls, m.storeErr q.sp l = false) ∧ (∀ l ∈ q.ls, m.homeErr l = false ∧ m.l1Bad q.sp l = false)) ∧
    (∀ k ∈ [ReqK.atom 0 false 1, .acas false 0 1, .fred 0 1 0x3F800000, .chunk], k.reads = true) ∧
    (∀ x ∈ [(4, 6), (5, 8), (6, 4)], x ∈ [(4, 6), (5, 8), (6, 4)] ∧ let q := { req0 9 (.typed x.1 0 0x3F800000) with ls := locs 1 ++ [loc0 4] }
      let m := machReq [q] mach0
      m.reqs.find? (fun y => y.seq == 9) = some q ∧ reqReady m q = true ∧ mergedInto m q = [] ∧ ∀ l ∈ q.ls, m.storeErr q.sp l = false) ∧
    (let q := { req0 9 (.store 7 0xFF) with ls := [loc0 0] }
     let m := machReq [q] machBad
     reqReady m q = true ∧ m.storeErr q.sp (loc0 0) = true ∧ (∀ l' ∈ q.ls, m.storeErr q.sp l' = true → l' = loc0 0) ∧ m.threads.has q.u = true ∧
       (m.thr q.u).deferred = none) ∧
    ((0xFFFFFFFF : Nat) < 2 ^ 32 ∧ (7 : Nat) ≤ 7) ∧
    (let m := machTwo
     m.reqs.find? (fun x => x.seq == 9) = some reqA ∧ m.reqs.find? (fun x => x.seq == 10) = some reqB ∧
       merges m reqA reqB = true ∧ reqA.kind.operand = some 1 ∧ reqB.kind.operand = some 2) := by
  decide
/-- A spindle that waits for the last packet of the block at 0x100200. -/
def machMiss : Mach := { mach0 with spindles := [(0, { imiss := [(1, 0x1002B4)] })] }
def reqFar : Req := { req0 9 (.store 7 0xFF) with ls := [loc0 0, { loc0 1 with sto := .remote 1 }], out := 1000000 }
theorem witness_FetchAndLinkSteps :
    (let m := machMiss
     m.spindles.has 0 = true ∧ dieOf 0 = 0 ∧ 0x100200 + 12 * 15 = 0x1002B4 ∧ 0x1002B4 / 192 * 192 % 192 = 0 ∧ (1, 0x1002B4) ∈ (m.spindle 0).imiss ∧
       0x1002B4 % 12 = 0 ∧ (∀ i < 16, m.fetchBytes ⟨1, none, 0, true⟩ (0x1002B4 / 192 * 192 + 12 * i) 12 ≠ .wait) ∧
       m.fetchBytes ⟨1, none, 0, true⟩ 0x1002B4 12 = .ok (List.replicate 12 0) ∧ m.icacheAt 0 1 0x1002B4 = none ∧
       (∀ p ∈ m.spindles, ∀ x ∈ p.2.missOut, x.2.2 < 1000000)) ∧
    (let m := { mach0 with reqs := [reqFar] }
     m.reqs.find? (fun x => x.seq == 9) = some reqFar ∧ reqReady m reqFar = true ∧ mergedInto m reqFar = [] ∧
       reqFar.ls.find? (·.far) = some { loc0 1 with sto := .remote 1 } ∧ 1000000 ≤ reqFar.out ∧ m.threads.has reqFar.u = true ∧
       (m.thr reqFar.u).deferred = none ∧ m.l1Hit reqFar.sp { loc0 1 with sto := .remote 1 } = false) ∧
    (let r := { res0 (.load [{ loc0 1 with sto := .remote 1 }] (.sext 8)) with out := 1000000 }
     let m := { mach0 with results := [r] }
     m.reqs.find? (fun x => x.seq == 9) = none ∧ m.results.find? (fun x => x.seq == 9) = some r ∧
       m.readReady r.us r.gang 9 [{ loc0 1 with sto := .remote 1 }] = true ∧ 1000000 ≤ r.out ∧ m.threads.has 2 = true ∧
       m.l1Hit (m.gang r.gang).sp { loc0 1 with sto := .remote 1 } = false) := by
  decide +kernel

/-- A due thread at a boundary with one frame, in a pool of n spawn entries. -/
def machDue (n : Nat) (f : Frame) (c : Cell) : Mach :=
  { withThr (fun t => { t with due := true, pos := ⟨0x600, 0⟩, frames := [f], cells := [c] }) with
    regions := [(5, { reg0 with rcb := { reg0.rcb with pooln := n } })] }
def held0 (rel : Bool) (n : Nat) : HeldGang :=
  ⟨7, 5, 0x900, List.replicate n ⟨5, 0x900, 0xC00, .range, 2, 0, 0x100080, 0, 0, 1, 1, 1, 0, 0⟩, rel⟩
def machHeld (rel : Bool) (n : Nat) : Mach := { mach0 with clock := 257, dies := [(0, { queue := [(held0 rel 1).reqs.headD default], held := [held0 rel n] })] }
theorem witness_PromotionSteps :
    (let m := { mach0 with clock := 256, spindles := [(0, {})] }
     m.regions.has 5 = true ∧ (m.region 5).rcb.det = false ∧ m.clock.toNat % 2 ^ ((m.region 5).rcb.hbexp + 8) = 0 ∧ (m.region 5).ticked ≠ m.clock) ∧
    (let m := withThr (fun t => { t with tick := true })
     m.threads.has 2 = true ∧ (m.thr 2).tick = true ∧ (m.thr 2).stat.live = true) ∧
    (∀ m ∈ [machDue 1 (frame0 .point .latent false) default, machDue 0 (frame0 .point .latent false) default,
        machDue 1 { frame0 .range .active false with lo := 4, hi := 6 } { (default : Cell) with grain := 1, npiece := 6 },
        machDue 1 { frame0 .range .active false with lo := 4, hi := 6 } { (default : Cell) with grain := 1, npiece := 7 }],
      m.threads.has 2 = true ∧ (m.thr 2).due = true ∧ (m.thr 2).tried = false ∧ (m.thr 2).stat = .run ∧ (m.thr 2).pos.slot = 0 ∧
        (m.gang (m.thr 2).gang).life = .live ∧ (m.thr 2).frames.length = (m.thr 2).cells.length) ∧
    promotable ((machDue 1 (frame0 .point .latent false) default).thr 2) 0 = true ∧
    promotable ((machDue 1 { frame0 .range .active false with lo := 4, hi := 6 } { (default : Cell) with grain := 1, npiece := 6 }).thr 2) 0 = true ∧
    promotable ((machDue 1 { frame0 .range .active false with lo := 4, hi := 6 } { (default : Cell) with grain := 1, npiece := 7 }).thr 2) 0 = false ∧
    spawnFull (machDue 1 (frame0 .point .latent false) default) 2 = false ∧
    spawnFull (machDue 0 (frame0 .point .latent false) default) 2 = true ∧ (machDue 0 (frame0 .point .latent false) default).detOf 2 = false ∧
    (let m := machDue 1 { frame0 .range .active false with lo := 4, hi := 10 } { (default : Cell) with grain := 1, npiece := 0 }
     let d := { m with regions := [(5, { reg0 with rcb := { reg0.rcb with pooln := 1, det := true } })] }
     promotable (m.thr 2) 0 = true ∧ promotable (d.thr 2) 0 = true ∧ m.detOf 2 = false ∧ d.detOf 2 = true ∧ spawnFull d 2 = false ∧
       (10 - 4) / 2 = 3 ∧ 1 * 2 ^ 1 ≤ 3 ∧ 3 < 1 * 2 ^ (1 + 1)) := by
  decide
/-- Two lanes in an entry of the regrouping table that has waited 256 cycles. -/
def machTable (det : Bool) (due : Option (BitVec 64)) : Mach :=
  { mach0 with
    clock := 256, regions := [(5, { reg0 with rcb := { reg0.rcb with det := det, gbud := 2 } })],
    spindles := [(0, { regroup := [⟨4, 7, [2, 12], 0, due⟩] })],
    threads := [(2, { thr0 with stat := .inTable }), (12, { thr0 with lane := 1, stat := .inTable })] }
theorem witness_GangFormationSteps :
    (machHeld false 1).dies.find 0 = some { queue := [(held0 false 1).reqs.headD default], held := [held0 false 1] } ∧
    ((machHeld false 1).die 0).queue = (held0 false 1).reqs.headD default :: [] ∧
    (let m := machHeld false 1
     held0 false 1 ∈ (m.die 0).held ∧ (m.region 5).rcb.det = false ∧ ∃ q ∈ (held0 false 1).reqs, 256 ≤ (m.clock - q.at').toNat) ∧
    (let m := { machHeld true 32 with gangs := [], regions := [(5, { reg0 with rcb := { reg0.rcb with gbud := 1 } })] }
     (m.die 0).held.find? (fun h => h.id == 7 && h.released) = some (held0 true 32) ∧ spawnFits m (held0 true 32) 1 = true ∧
       parentsDone m (held0 true 32) = true ∧ (m.region 5).live = true ∧ (held0 true 32).reqs.length ≤ 32 ∧ (∀ x ∈ m.threads, x.1 < m.nextId) ∧
       (∀ x ∈ m.gangs, x.1 < m.nextId)) ∧
    (let m := machTable false (some 255)
     (m.spindle 0).regroup = [⟨4, 7, [2, 12], 0, some 255⟩] ∧ 255 ≠ m.clock ∧ gangsFit m (m.crew 4).region 1 0 = true ∧ (m.crewGangs 4).length < 32 ∧ [2, 12].Nodup ∧ (∀ u ∈ [2, 12], m.threads.has u = true) ∧
       (∀ x ∈ m.gangs, x.1 < m.nextId)) ∧
    (let m := machTable false none
     ∃ e ∈ (m.spindle 0).regroup, e.due = none ∧ (m.region (m.crew e.crew).region).rcb.det = false ∧ 256 ≤ (m.clock - e.since).toNat) ∧
    (let m := machTable true none
     (m.region (m.crew 4).region).rcb.det = true ∧ (m.crew 4).life = .live ∧
       (∃ e ∈ (m.spindle (m.crew 4).sp).regroup, e.crew = 4 ∧ e.due = none) ∧ ∀ u ∈ m.crewThreads 4, m.flushable u = true) ∧
    (let m := withGang (fun g => { g with wtime := 5, wtrap := 5 })
     m.gangs.has 3 = true ∧ (m.gang 3).life = .live ∧ (m.gang 3).wtrap.toNat ≤ (m.gang 3).wtime.toNat) := by
  decide +kernel

/-- A range that moves by one page, its last block next. -/
def rngMoving (cwm : Nat) : Range := { rng0 with cstate := 1, noffg := 1, cwm := cwm }
def machMoving (cwm : Nat) : Mach := withRange (fun _ => rngMoving cwm)
theorem witness_PlanerMovesABlock :
    (∀ cwm ∈ [0x4000, 0x43FF], let m := machMoving cwm; let r := rngMoving cwm
      (movingRanges m)[0]? = some (1, r) ∧ (m.ctxs.map (·.1)).Nodup ∧ r.home ≠ 5 ∧ blockBusy m 1 r = false ∧
        r.cwm * 64 < r.limit ∧ 0 ≤ (r.cwm * 64 : Int) + r.offg.toInt * 4096 ∧ 0 ≤ (r.cwm * 64 : Int) + r.noffg.toInt * 4096 ∧
        (oldBlock m 1 r).any m.homeErr = false ∧ m.spindles = [] ∧ m.planOut = [] ∧
        m.treeAt (paOf (r.cwm * 64) r.offg) = none ∧ m.treeAt (paOf (r.cwm * 64) r.noffg) = none ∧ m.owner = []) ∧
    (0x4000 + 1) * 64 < rng0.limit ∧ ¬ (0x43FF + 1) * 64 < rng0.limit := by
  decide
theorem witness_rangesMoving (cwm : Nat) : (machMoving cwm).memWf ∧ rangesApart ((machMoving cwm).ctx 1).ranges :=
  ⟨⟨rfl, rfl, rfl, fun x hx => (by cases hx), fun x hx => (by obtain rfl := List.mem_singleton.1 hx; rfl), fun x hx => (by cases hx)⟩,
   witness_rangesApart (fun r => { r with cstate := 1, noffg := 1, cwm := cwm }) (fun _ => ⟨rfl, rfl⟩)⟩
/-- A copy of two bytes of the range, accepted, and with its segments begun. -/
def copy0 : Copy := { crew := 4, gangs := [3], sp := 0, kind := .bytes [⟨3, 0x100040, 0x100200, 2, 0x20, [2], 0⟩], cw := 0x20, base := 0,
                      hi := 0, total := 2, wm := 0 }
def copy1 (n : Nat) : Copy := { copy0 with started := true, slot := some 31, base := 0x100200, hi := 0x100202, wm := 0x100200 + n, done := n,
                                           ssrc := [⟨0x100000, 0x110000, some rng0⟩], sdst := [⟨0x100000, 0x110000, some rng0⟩] }
def machCopying (c : Copy) : Mach := { mach0 with copies := [(50, c)] }
theorem witness_CopySteps :
    (let m := machCopying copy0
     m.copies.find 50 = some copy0 ∧ copy0.started = false ∧ copy0.cw.getLsbD 21 = false ∧
       earlierOverlap m 50 copy0.crew copy0.sp copy0.kind.base (copy0.kind.base + copy0.kind.len) = false ∧ (slotsUsed m copy0.sp).length < 32) ∧
    (∀ n < 2, let c := copy1 n; let m := machCopying c; let w := m.engine 4 0
      m.copies.find 50 = some c ∧ c.started = true ∧ c.out < 1000000 ∧ c.frozen = none ∧ c.done < c.total ∧ c.gangs = [3] ∧ c.acted = false ∧ c.stage = none ∧
        c.cw.getLsbD 16 = false ∧ (m.gang 3).life ≠ .ended ∧ m.popping 3 1 = [] ∧ c.kind.at' c.done = (0x100040 + n, 0x100200 + n) ∧
        segsHold c [0x100040 + n] [0x100200 + n] = true ∧ (segLocs m w .read c.ssrc [0x100040 + n]).map (·.length) = some 1 ∧
        (segLocs m w .write c.sdst [0x100200 + n]).map (·.length) = some 1 ∧
        (∀ l ∈ (segLocs m w .read c.ssrc [0x100040 + n]).getD [], segAdmits m w .read l = true ∧ m.homeErr l = false) ∧
        (∀ l ∈ (segLocs m w .write c.sdst [0x100200 + n]).getD [], segAdmits m w .write l = true ∧ m.badAt l = false)) := by
  decide
/-- A begun copy that has to begin its next segments. -/
def copy2 (f : Copy → Copy) : Copy := f { copy1 0 with ssrc := [], sdst := [] }
def src0 (va : Nat) : CKind := .bytes [⟨3, va, 0x100200, 2, 0x20, [2], 0⟩]
def rngFrozen : Range := { rng0 with cstate := 2, noffg := 1, cwm := 0x4001 }
/-- A copy into a stage of the ring 7 of `machRing`, and the machine that holds it. -/
def copyG : Copy := { copy0 with cw := 0x01E00020, kind := .bytes [⟨3, 0x100040, 0, 2, 0x01E00020, [2], 0⟩] }
def machCopyRing : Mach := { machRing with copies := [(50, copyG)] }
theorem witness_CopyStarts :
    (let m := machCopyRing; let r := (m.crew 4).ring 7; let kind := copyG.kind.shift (localVa (r.stage r.res))
     m.copies.find 50 = some copyG ∧ copyG.cw.getLsbD 21 = true ∧ copyG.cw.toNat / 2 ^ 22 % 8 = 7 ∧ r.res ≠ r.fre + BitVec.ofNat 32 r.s ∧
       stageBefore m 50 copyG = false ∧ earlierOverlap m 50 4 0 kind.base (kind.base + kind.len) = false ∧ (slotsUsed m 0).length < 32 ∧
       kind.overlaps = false ∧ dstDead m (m.engine 4 0) kind = false ∧ m.crews.has 4 = true) := by
  decide +kernel
/-- The cause of a trap. -/
def causeOf (r : Reach) : Option Cause :=
  match r with
  | .trap c _ _ => some c
  | _ => none
/-- What the beginning of the next segments of a copy meets. -/
def begins0 (m : Mach) (c : Copy) : Reach := segCheck m (m.engine 4 0) [(c.kind.at' 0).1, (c.kind.at' 1).1] [0x100200, 0x100201]
theorem witness_CopySegments :
    (let c := copy2 id
     segsHold c [0x100040] [0x100200] = false ∧ segIndexes c (segOf (machCopying c) ⟨1, some 4, 0, false⟩ 0x100040)
       (segOf (machCopying c) ⟨1, some 4, 0, false⟩ 0x100200) 0 = [0, 1] ∧ (begins0 (machCopying c) c).locs.length = 4) ∧
    (let c := copy2 (fun c => { c with kind := src0 0x200000 })
     segIndexes c (segOf (machCopying c) ⟨1, some 4, 0, false⟩ 0x200000) (segOf (machCopying c) ⟨1, some 4, 0, false⟩ 0x100200) 0 = [0] ∧
       causeOf (segCheck (machCopying c) ⟨1, some 4, 0, false⟩ [0x200000] [0x100200]) = some .rangeMiss) ∧
    (∀ p ∈ [none, some 7], let c := copy2 (fun c => { c with regd := true, paused := p })
     let m := { withRange (fun r => { r with rhi := 0 }) with copies := [(50, c)] }
     c.regd = true ∧ segsHold c [0x100040] [0x100200] = false ∧ causeOf (begins0 m c) = some .residency) ∧
    (let m := { machCopying (copy1 0) with access := [] }
     (segLocs m (m.engine 4 0) .read (copy1 0).ssrc [0x100040]).map (·.all (segAdmits m (m.engine 4 0) .read)) = some false) ∧
    (let m := { machCopying (copy1 0) with bad := [(.dram, 0x100040 / 32)] }
     (segLocs m (m.engine 4 0) .read (copy1 0).ssrc [0x100040]).map (·.any m.homeErr) = some true) ∧
    (let c := { copy1 0 with ssrc := [⟨0x100000, 0x110000, some rngFrozen⟩] }
     let m := { machCopying c with ctxs := [(1, { ctx0 with ranges := [rngFrozen] })] }
     segsHold c [0x100040] [0x100200] = true ∧ segLocs m (m.engine 4 0) .read c.ssrc [0x100040] = none ∧ segFrozen c.ssrc 0x100040 = true) := by
  decide +kernel
/-- A CPYQ of 48 halves into K8 in blocks of 24, with n codes landed. -/
def copyQ (n lim : Nat) (buf : List Byte) : Copy :=
  { copy1 0 with kind := .quant 0x100040 2 0x100200 0x108000 lim 5 24 48, hi := 0x100230, total := 48, wm := 0x100200 + n, done := n, buf := buf }
def quantQ (lim : Nat) : Quant := ⟨0x100040, 2, 0x100200, 0x108000, lim, 5, 24, 2⟩
theorem witness_CopyQuant :
    (let c := copyQ 24 0x110000 []; let m := machCopying c; let w := m.engine 4 0; let q := quantQ 0x110000
     c.done < c.total ∧ 48 / max 24 1 = 2 ∧ c.done / max q.codeBytes 1 = 1 ∧ q.inside 1 = true ∧ (quantQ 0x100220).inside 1 = false ∧
       segsHold c (q.srcs 1) (q.codes 1 ++ [0x108001]) = true ∧ (segLocs m w .read c.ssrc (q.srcs 1)).map (·.length) = some 48 ∧
       (segLoc m w .write c.sdst 0x108001).map (·.addr) = some 0x108001 ∧
       (segLoc m w .write c.sdst 0x108001).all (fun l => segAdmits m w .write l && !m.badAt l) = true ∧
       ((segLocs m w .read c.ssrc (q.srcs 1)).getD []).all (fun l => segAdmits m w .read l && !m.homeErr l) = true) ∧
    (∀ n ∈ [24, 47], let c := copyQ n 0x110000 (List.replicate (48 - n) 1); let m := machCopying c; let w := m.engine 4 0
     c.buf ≠ [] ∧ (segLoc m w .write c.sdst (0x100200 + n)).all (fun l => segAdmits m w .write l && !m.badAt l) = true ∧
       (segLoc m w .write c.sdst (0x100200 + n)).map (·.addr) = some (0x100200 + n)) ∧
    (5 ∈ [4, 5, 6] ∧ ((Nat.log2 1024 : Nat) : Int) + (-10) = 0 ∧ ∀ neg a e, FVal.fin neg a e ∈ [FVal.fin false 1024 (-10), .fin true 512 (-10)] → a ≠ 0 →
      ((Nat.log2 a : Nat) : Int) + e ≤ 0) := by
  refine ⟨by decide +kernel, by decide +kernel, by decide, by decide, fun neg a e h _ => ?_⟩
  simp only [List.mem_cons, FVal.fin.injEq, List.not_mem_nil, or_false] at h
  obtain ⟨-, rfl, rfl⟩ | ⟨-, rfl, rfl⟩ := h <;> decide
/-- Two slices of one crew copy, of two gangs, and the push of both. -/
def slices : List Slice := [⟨3, 0x100040, 0x100200, 2, 0x20, [2], 0⟩, ⟨8, 0x100080, 0x100202, 4, 0x20, [12], 0⟩]
def push0 : Push := ⟨4, 3, 0, [(3, [2], 0), (8, [12], 0)], .cpy slices, 0⟩
theorem witness_CrewCopies :
    (∀ f ∈ [[slices.headD default]], ∃ y ∈ f, y.gang = 3) ∧ (∀ y ∈ [slices.headD default], y.gang ≠ 8) ∧ 3 < 4 ∧
    (let m := mach0; let kind := CKind.bytes slices
     push0.k = .cpy slices ∧ (∀ y ∈ slices, y.cw = 0x20) ∧ 0x100202 = 0x100200 + 2 ∧ cwBad 0x20 = false ∧ (0x20 : Word).getLsbD 21 = false ∧
       kind.overlaps = false ∧ srcDead m (m.engine 4 0) kind = false ∧ dstDead m (m.engine 4 0) kind = false ∧ kind.total = 6) := by
  decide +kernel
/-- A gather of rows of four bytes through two indices at 0x100040, the first 0 and the second null, from 0x100300 to 0x100200. -/
def desc0 (kind : Nat) : Desc := { ef := true, kind := kind, tstride := 4, rowb := 4, nrows := 1, count := 3, data := 0x100200, idx := 0x100040, table := 0x100300 }
def job0 (kind rowb n : Nat) : Job := { crew := 4, gang := 3, sp := 0, d := { desc0 kind with rowb := rowb }, raw := [], cw := 0, cur0 := 0, elem := n }
def machJob (j : Job) : Mach :=
  { mach0 with jobs := [(51, j)], dram := Mem.setBytes [] 0x100044 [0xFF, 0xFF, 0xFF, 0xFF] }
def machService (e : BitVec 64) : Mach :=
  { withGang (fun g => { g with q4 := [e] }) with streams := [(60, { stream0 with serv := true, waitQ := true })] }
/-- The bytes at an address, as an engine reaches them. -/
def engLocs (m : Mach) (k : AKind) (va n : Nat) : List Loc :=
  match engAcc m (m.engine 4 0) k (span va n) with
  | .ok ls => ls
  | _ => []
/-- Whether an engine's access of some bytes meets a cause. -/
def engBad (m : Mach) (k : AKind) (va n : Nat) : Bool :=
  match engAcc m (m.engine 4 0) k (span va n) with
  | .bad _ _ => true
  | _ => false
/-- A begun job of a kind, at an element, over a descriptor that differs from the first. -/
def jobAt (kind n : Nat) (f : Desc → Desc) : Job := { job0 kind 4 n with d := f (desc0 kind), started := true, cur0 := 0x100800 }
/-- The machine of such a job, with a pointer at its table. -/
def machAt (j : Job) (p : Nat) : Mach := { machJob j with dram := Mem.setBytes (machJob j).dram 0x100300 (leBytes 8 p) }
/-- What every step of an element asks of its job. -/
def stepsOf (m : Mach) (j : Job) : Bool :=
  m.jobs.find 51 == some j && j.started && j.susp.isNone && decide (j.elem < j.d.count) && engineFree m j && j.rowoff == 0
theorem witness_IndexElements :
    (∀ n < 2, let j := jobAt 4 n (fun d => { d with tstride := 0 }); let m := machAt j 0x100400
      stepsOf m j = true ∧ j.elem + 1 < j.d.count ∧ leNat (m.homeGets (engLocs m .read (0x100040 + 4 * n) 4)) = (if n = 0 then 0 else 2 ^ 32 - 1) ∧
        0 < j.d.nrows ∧ leNat (m.homeGets (engLocs m .read 0x100300 8)) = 0x100400 ∧ (engLocs m .read 0x100400 4).length = 4 ∧
        (engLocs m .write (0x100200 + 4 * n) 4).length = 4) ∧
    (let j := jobAt 4 0 (fun d => { d with tstride := 0 }); let m := machAt j 0
     stepsOf m j = true ∧ leNat (m.homeGets (engLocs m .read 0x100300 8)) = 0) ∧
    (∀ p ∈ [0, 1], ∀ n < 2, let j := { jobAt 1 n (fun d => { d with bag := 2 }) with bagPos := p, pool := if p = 0 then none else some [7] }
      let m := machAt j 5
      stepsOf m j = true ∧ j.elem + 1 < j.d.count ∧ (j.bagPos + 1 < j.d.bag ∨ j.bagPos + 1 = j.d.bag) ∧ j.d.nrows = 1 ∧
        (engLocs m .read 0x100300 4).length = 4 ∧ (engLocs m .write (0x100200 + n / 2 * 4) 4).length = 4) ∧
    (∀ n < 2, let j := jobAt 2 n id; let m := machAt j 5
      stepsOf m j = true ∧ j.elem + 1 < j.d.count ∧ (engLocs m .read (0x100200 + 4 * n) 4).length = 4 ∧ (engLocs m .write 0x100300 4).length = 4) ∧
    (∀ n < 2, let j := jobAt 3 n id; let m := machAt j 5
      stepsOf m j = true ∧ j.elem + 1 < j.d.count ∧ 4 ≤ j.rowoff + 4 ∧ (engLocs m .read (0x100200 + 4 * n) 4).length = 4 ∧
        (engLocs m .atomic 0x100300 4).length = 4) := by
  decide +kernel
theorem witness_IndexSuspends :
    (∀ kind ∈ [0, 1, 2, 3, 4],
      (let j := jobAt kind 0 (fun d => { d with nrows := 0 }); let m := machAt j 5
       stepsOf m j = true ∧ leNat (m.homeGets (engLocs m .read 0x100040 4)) = 0 ∧ (m.gang 3).life ≠ .ended ∧ m.popping 3 3 = [] ∧
         m.gangs.has 3 = true ∧ (engLocs m .write 0x100800 128).length = 128 ∧ engBad m .write 0x200000 128 = true) ∧
      (let j := jobAt kind 0 (fun d => { d with idx := 0x200000 }); let m := machAt j 5
       stepsOf m j = true ∧ engBad m .read 0x200000 4 = true) ∧
      (let j := jobAt kind 0 (fun d => { d with table := 0x200000 }); let m := machAt j 5
       stepsOf m j = true ∧ engBad m .read 0x200000 8 = true ∧ engBad m .write 0x200000 4 = true ∧ engBad m .atomic 0x200000 4 = true) ∧
      (let j := jobAt kind 0 (fun d => { d with data := 0x200000 }); let m := machAt j 0x100400
       stepsOf m j = true ∧ (engLocs m .read (if kind = 4 then 0x100400 else 0x100300) 4).length = 4 ∧ engBad m .read 0x200000 4 = true ∧
         engBad m .write 0x200000 4 = true)) ∧
    (let j := jobAt 4 0 (fun d => { d with tstride := 0 }); let m := machAt j 2
     stepsOf m j = true ∧ leNat (m.homeGets (engLocs m .read 0x100300 8)) % 4 ≠ 0 ∧ engBad (machAt j 0x200000) .read 0x200000 4 = true) ∧
    (let j := { jobAt 3 0 (fun d => { d with rowb := 8, data := 0xFFFC }) with rowoff := 4, ex := some 0 }; let m := machAt j 5
     m.jobs.find 51 = some j ∧ j.rowoff < 8 ∧ engBad m .read (0xFFFC + 4) 4 = true) := by
  decide +kernel
theorem witness_IndexSteps :
    (let j := job0 0 4 0; let m := machJob j
     m.jobs.find 51 = some j ∧ j.out < 1000000 ∧ j.started = false ∧ earlierOverlap m 51 j.crew j.sp j.d.data j.d.hi = false ∧ (slotsUsed m j.sp).length < 32) ∧
    (∀ n < 2, let j := { job0 0 4 n with started := true }; let m := machJob j
      engineFree m j = true ∧ j.susp = none ∧ j.elem + 1 < j.d.count ∧ (engLocs m .read (0x100040 + 4 * n) 4).length = 4 ∧ (engLocs m .write (0x100200 + 4 * n) 4).length = 4 ∧
        leNat (m.homeGets (engLocs m .read (0x100040 + 4 * n) 4)) = (if n = 0 then 0 else 2 ^ 32 - 1)) ∧
    (let j := { job0 3 8 0 with started := true }; let m := machJob j
     engineFree m j = true ∧ j.susp = none ∧ j.elem + 1 < j.d.count ∧ j.rowoff + 4 < 8 ∧ (engLocs m .read 0x100200 4).length = 4 ∧
       (engLocs m .atomic 0x100300 4).length = 4 ∧ leNat (m.homeGets (engLocs m .read 0x100040 4)) < j.d.nrows) ∧
    (let j := { job0 3 12 0 with started := true, rowoff := 4, ex := some 0, eng := true }; let m := machJob j
     engineFree m j = true ∧ j.susp = none ∧ j.elem + 1 < j.d.count ∧ j.rowoff + 4 < 12 ∧ (engLocs m .read 0x100040 4).length = 4 ∧
       (engLocs m .read 0x100204 4).length = 4 ∧ (engLocs m .atomic 0x100304 4).length = 4 ∧ j.ex.getD 7 < j.d.nrows) ∧
    (let m := machService 0x100040; let x := m.streams.at 60
     m.streams.find 60 = some x ∧ x.waitQ = true ∧ x.post = none ∧ (m.gang x.gang).life ≠ .ended ∧ m.gangs.has x.gang = true ∧
       (m.gang x.gang).q4 = [0x100040] ∧ gangBusyBefore m x.gang ((m.gang x.gang).q4at.headD 0) = false ∧ (0x100040#64).getLsbD 63 = false ∧ (0x100040#64).toNat % 64 = 0 ∧ (m.gang x.gang).q5.length < 16) ∧
    (let m := machService 0x8000000000000000; let x := m.streams.at 60
     m.streams.find 60 = some x ∧ x.waitQ = true ∧ x.post = none ∧ (m.gang x.gang).life ≠ .ended ∧ m.gangs.has x.gang = true ∧
       (m.gang x.gang).q4 = [0x8000000000000000] ∧ gangBusyBefore m x.gang ((m.gang x.gang).q4at.headD 0) = false ∧ (0x8000000000000000#64).getLsbD 63 = true ∧ (m.gang x.gang).q5.length < 16) := by
  decide +kernel

/-- A spawn gang whose pre-emption was requested 255 cycles ago, with a thread at a YIELD. -/
def machLeaving (capped : Bool) : Mach :=
  { withGang (fun g => { g with crew := none, preqAt := some 1, capped := capped }) with
    clock := 256, threads := [(2, { thr0 with stat := .yieldWait, preq := true })],
    regions := [(5, { reg0 with rcb := { reg0.rcb with pdead := 255 } })] }
def machSaved : Mach := { withGang (fun g => { g with crew := none, life := .saved }) with ctxs := [(1, { ctx0 with bal := 1 })] }
theorem witness_SaveSteps :
    (let m := machLeaving false
     (m.gangs.has 3 = true ∧ (m.gang 3).crew = none) ∧ (m.gang 3).life = .live ∧ (m.gang 3).preqAt = some 1 ∧
       (∀ u ∈ m.liveThreads 3, m.atSavePoint u = true) ∧ m.results = [] ∧ (m.region 5).rcb.pdead ≤ (m.clock - 1).toNat ∧
       (∃ u ∈ m.liveThreads 3, (m.thr u).stat = .yieldWait)) ∧
    min ((machLeaving true).region 5).rcb.pdead 10000 ≤ ((machLeaving true).clock - 1).toNat ∧
    (let m := { withCrew (fun c => { c with preqAt := some 1 }) with threads := [(2, { thr0 with stat := .joinWait })] }
     m.crews.has 4 = true ∧ (m.crew 4).life = .live ∧ (m.region (m.crew 4).region).rcb.cores = false ∧ (m.crew 4).preqAt ≠ none ∧
       m.crewGangs 4 = [3] ∧ m.liveThreads 3 = [2] ∧ m.atSavePoint 2 = true) ∧
    (let m := machSaved
     (m.gang 3).life = .saved ∧ mayRestore m 5 1 0 = true ∧ (m.gang 3).replay = [] ∧ m.threads.has 2 = true ∧ (m.thr 2).gang = 3) := by
  decide +kernel
/-- A crew past its pre-emption deadline whose thread waits for a load that a watermark holds; its region may be co-resident. -/
def heldLoad : Res := res0 (.load (locs 4) (.words 1))
def machForced (cores : Bool) : Mach :=
  { withCrew (fun c => { c with preqAt := some 1 }) with
    clock := 256, regions := [(5, { reg0 with rcb := { reg0.rcb with pdead := 255, cores := cores } })], results := [heldLoad],
    copies := [(50, { copyW with base := 0x100000, hi := 0x100100, wm := 0x100000 })] }
/-- A saved crew, spindle-bound or not, with a saved entry of the regrouping table. -/
def machCrewSaved (bound : Bool) : Mach :=
  { withCrew (fun c => { c with life := .saved, bound := bound, table := [⟨4, 7, [12], 0, none⟩] }) with
    ctxs := [(1, { ctx0 with bal := 1 })], gangs := [(3, { gang0 with life := .saved })], spindles := [(0, {}), (1, {})],
    threads := [(2, { thr0 with preq := true }), (12, { thr0 with lane := 1, stat := .inTable, preq := true })] }
theorem witness_SaveCrews :
    (∀ cores ∈ [true, false], let m := machForced cores
     m.crews.has 4 = true ∧ (m.crew 4).life = .live ∧ (m.region 5).rcb.cores = cores ∧ (m.crew 4).preqAt = some 1 ∧ m.crewGangs 4 = [3] ∧
       (m.crew 4).capped = false ∧ (m.region 5).rcb.pdead ≤ (m.clock - 1).toNat ∧ m.results = [heldLoad] ∧ heldLoad.src.locs ≠ [] ∧
       m.heldAt (m.gang 3).crew (vasOf heldLoad.src.locs) = true ∧ (m.regionCrews 5).filter (fun k => (m.crew k).life == .live) = [4] ∧
       (m.crews.map (·.1)).Nodup) ∧
    (let m := { machForced true with results := [], threads := [(2, { thr0 with stat := .joinWait })] }
     m.results = [] ∧ ∀ u ∈ m.liveThreads 3, m.atSavePoint u = true) ∧
    (∀ x ∈ [(true, 0), (false, 0), (false, 1)], let m := machCrewSaved x.1
     m.crews.has 4 = true ∧ (m.crew 4).life = .saved ∧ (m.region 5).rcb.cores = false ∧ crewReturns m 4 x.2 = true ∧
       (∀ j ∈ m.crewGangs 4, (m.gang j).replay = [])) ∧ crewReturns (machCrewSaved true) 4 1 = false := by
  decide +kernel
/-- The same in a co-resident region, whose crews return together. -/
def machRegionSaved : Mach := { machCrewSaved false with regions := [(5, { reg0 with rcb := { reg0.rcb with cores := true } })] }
theorem restores {m m' : Mach} {v : Victim} {sp : Nat} (h : contextRestore m v sp = some m') :
    ∃ t, exec (.contextRestore v sp) ⟨m, .idle⟩ = .next t := by
  refine ⟨⟨m'.settle, .idle⟩, ?_⟩
  show event ⟨m, .idle⟩ (fun m => contextRestore m v sp) = _
  unfold event
  simp only [h]
theorem witness_RegionRestore : (machRegionSaved.crews.map (·.1)).Nodup ∧ (machRegionSaved.gangs.map (·.1)).Nodup ∧
    ∃ t, exec (.contextRestore (.region 5) 1) ⟨machRegionSaved, .idle⟩ = .next t := by
  refine ⟨by decide, by decide, ?_⟩
  obtain ⟨m, hm⟩ : ∃ m, contextRestore machRegionSaved (.region 5) 1 = some m := by
    refine Option.isSome_iff_exists.1 ?_
    unfold contextRestore
    rw [if_pos (by decide +kernel), Option.isSome_or]
    exact Bool.or_eq_true_iff.2 (.inr (by decide +kernel))
  exact restores hm
/-- A record that is admitted, and what its admission answers where it differs in one field from that. -/
def rec0 : Rcb := { Rcb.parse (2 ^ 761 + 2 ^ 440 + 2 ^ 434 + 2 ^ 359) with compl := 0x100300 }
def admits (f : Rcb → Rcb) (g : Mach → Mach) : Nat :=
  (admitRegion (g machChild) 1 0x100080 (f rec0) (machChild.region 5).rcb (some (machChild.region 5).pool) 0x100400 (some 5)).1
-- R307: the first failing check gives the status
theorem test_admission : admits id id = 0 ∧ admits (fun r => { r with compl := 0x200000 }) id = 0x47 ∧
    admits (fun r => { r with sig := 0 }) id = 0x40 ∧ admits (fun r => { r with entry := 12 }) id = 0x44 ∧
    admits (fun r => { r with sig := r.sig + 2 ^ 49 }) (fun m => { m with ctxs := [(1, { m.ctx 1 with objs := [(0, { secs := [], uses := [], image := [], unloading := true })] })] }) = 0x45 ∧
    admits (fun r => { r with sig := r.sig + 2 ^ 49, gangs := 17 }) id = 0x46 ∧ admits (fun r => { r with gangs := 17, hbexp := 13, ovr := 0x90 }) id = 0x41 ∧
    admits (fun r => { r with hbexp := 13, ovr := 0x90, cores := true, crews := 65535 }) id = 0x43 ∧
    admits (fun r => { r with cores := true, crews := 65535 }) id = 0x42 := by decide +kernel
theorem witness_Admission : machChild.spanRW 1 0x100080 128 = true ∧ machChild.spanRW 1 0x100300 8 = true ∧ machChild.dram.wf = true ∧
    (locAt 0x100300 8).length = 8 ∧ ((locAt 0x100300 8).map (·.addr)).Nodup ∧
    (∀ j < 8, machChild.translate ⟨1, none, 0, false⟩ .write (0x100300 + j) = .ok ((locAt 0x100300 8).getD j default) true ∧
      machChild.treeAt (0x100300 + j) = none) ∧
    (∀ l ∈ locAt 0x100300 8, l.sto = .dram ∧ ∀ l' ∈ locAt 0x100300 8, l.addr / 64 = l'.addr / 64 → l.tag = l'.tag) ∧
    (complete machChild 1 0x100300 0x47 3).homeGets (locAt 0x100300 8) = [0x47, 3, 0, 0, 0, 0, 0, 0] := by decide +kernel
/-- A region whose next crew may be placed. -/
def machReady : Mach :=
  { mach0 with crews := [], gangs := [], threads := [], ctxs := [(1, { ctx0 with bal := 1 })], regions := [(5, { reg0 with crewsLeft := 1, poolCrew := 32 })] }
/-- Queue 4095 of context 1, enabled, with a ring of 2^4 records at 0x100000. -/
def machQueue (cons prod : Word) : Mach :=
  { mach0 with host := Mem.setBytes [] (32 * 4095) (leBytes 32 (prod.toNat + 2 ^ 32 * cons.toNat + 2 ^ 106 + 2 ^ 110 + 2 ^ 112 + 2 ^ 192 * 0x100000)) }
theorem witness_SchedulerSteps :
    (let m := machQueue 0xFFFFFFFF 0; let h := m.queue 4095
     m.queueOut = [] ∧ m.host.wf = true ∧ h.en = true ∧ h.cons = 0xFFFFFFFF ∧ h.prod = 0 ∧ h.cons ≠ h.prod ∧ h.ctx = 1 ∧ h.ring = 0x100000 ∧ h.logn = 4 ∧
       (h.prod - h.cons).toNat ≤ 2 ^ h.logn ∧ m.moves h.ctx (h.slot h.cons) 128 = false ∧ m.moves h.ctx h.root 128 = false ∧
       (m.engRead ⟨h.ctx, none, 0, false⟩ (h.slot h.cons) 128).all (fun bs => !complMoves m h.ctx (Rcb.parse (leNat bs)).compl) = true) ∧
    (let m := machQueue 0 16; let h := m.queue 4095
     m.host.wf = true ∧ h.en = true ∧ h.cons = 0 ∧ h.prod = 16 ∧ h.cons ≠ h.prod ∧ h.ctx = 1 ∧ h.ring = 0x100000 ∧ h.logn = 4 ∧
       (h.prod - h.cons).toNat ≤ 2 ^ h.logn ∧ m.moves h.ctx (h.slot h.cons) 128 = false ∧ m.moves h.ctx h.root 128 = false ∧
       (m.engRead ⟨h.ctx, none, 0, false⟩ (h.slot h.cons) 128).all (fun bs => !complMoves m h.ctx (Rcb.parse (leNat bs)).compl) = true) ∧
    (let m := machQueue 0 17; let h := m.queue 4095
     m.host.wf = true ∧ h.en = true ∧ h.cons = 0 ∧ h.prod = 17 ∧ h.cons ≠ h.prod ∧ h.ctx = 1 ∧ h.ring = 0x100000 ∧ h.logn = 4 ∧
       2 ^ h.logn < (h.prod - h.cons).toNat) ∧
    (let m := { machQueue 0 1 with host := Mem.setBytes [] (32 * 4095) (leBytes 32 (1 + 2 ^ 106 + 2 ^ 110 + 2 ^ 112 + 2 ^ 192 * 0x100000 + 2 ^ 128 * 0x100800)) }
     (m.queue 4095).root = 0x100800 ∧ (m.engRead ⟨1, none, 0, false⟩ 0x100800 128).isSome = true) ∧
    ((machQueue 0 1).engRead ⟨1, none, 0, false⟩ 0 128 = none ∧ ((machQueue 0 1).queue 4095).root = 0) ∧
    (let m := machReady
     (m.region 5).rcb.cores = false ∧ mayPlace m 5 0 = true ∧ m.threads = [] ∧ m.gangs = []) ∧
    (let m := { mach0 with gangs := [(3, { gang0 with life := .ended })] }
     m.regions.has 5 = true ∧ regionBusy m 5 = false ∧ complMoves m (m.region 5).ctx (m.region 5).rcb.compl = false) ∧
    (let m := { mach0 with clock := 1 }
     m.ctxs.has 1 = true ∧ (m.ctx 1).accrued ≠ m.clock) := by
  decide +kernel

/-- Context 1 belongs to function 512 and owns 8 KiB of the host window from 128 KiB on. -/
def machHost : Mach := { mach0 with ctxs := [(1, { ctx0 with func := 512, hwb := 32, hwl := 2 })] }
theorem witness_HostSteps :
    machHost.power = .up ∧ machHost.funcCtx 512 = some 1 ∧ machHost.funcCtx 511 = none ∧
    (4096 * (machHost.ctx 1).hwb + 8188 = 139260 ∧ 8188 + 4 ≤ 4096 * (machHost.ctx 1).hwl ∧ 139260 + 4 ≤ 2 ^ 21) ∧
    (4096 * (machHost.ctx 1).hwl < 8189 + 4 ∧ (2097148 : Nat) + 4 ≤ 2 ^ 21) ∧ (131072 : Nat) ≤ 131072 ∧ machHost.host.wf = true ∧
    machHost.reach ⟨1, none, 0, false⟩ .read (span 0x100040 4) none = .ok (locs 4) ∧ (∀ l ∈ locs 4, ioErr machHost l = false) ∧
    machHost.reach ⟨1, none, 0, false⟩ .write (span 0x100040 4) none = .ok (locs 4) ∧
    (∀ l ∈ locs 4, machHost.badAt l = false ∧ l.sto ≠ .host) ∧ machHost.ctxs.has 1 = true ∧ (0x158 : Nat) % 8 = 0 := by
  decide
theorem witness_PackageSteps :
    (∀ image, (Config.fwSigned image = true ∧ Config.fuseRollback ≤ Config.fwVersion image) ∨
      (Config.fwSigned image = false ∨ Config.fwVersion image < Config.fuseRollback)) ∧
    ({} : Mach).power = .off ∧ mach0.power = .up ∧
    (mach0.threads.has 2 = true ∧ (mach0.thr 2).stat.live = true ∧ mach0.threads.find 2 = some (mach0.thr 2) ∧
      (mach0.region (mach0.thr 2).region).live = true ∧ mach0.regions.has (mach0.thr 2).region = true) ∧
    (11 < 12 ∧ ({ mach0 with links := 0x800 } : Mach).links.getLsbD 11 = true) ∧
    ((4 < 5 ∧ 105 ≤ 115) ∧ ({ mach0 with dies := [(4, { hot := true })] } : Mach).die 4 = { hot := true }) ∧
    (let m := { mach0 with spindles := [(0, { l1 := [{ loc := loc0 0, val := 3, dirty := 0xFF }] }), (1, {})], l2 := [(0x100041, 5)] }
     (∃ x ∈ (m.spindle 0).l1, x.dirty ≠ 0 ∧ x.loc.sto = .dram ∧ x.loc.addr / 32 = 0x100058 / 32 ∧ sameSector x.loc (loc0 3) = true) ∧
       (∃ x ∈ m.l2, x.1 / 32 = 0x100058 / 32) ∧ (m.modSp 0 (fun x => { x with bad := [(.dram, 0x100058 / 32)] })).readErr 0 (loc0 3) = true ∧
       (m.modSp 0 (fun x => { x with bad := [(.dram, 0x100058 / 32)] })).readErr 1 (loc0 3) = false) ∧
    (machHost.ctxs.has 1 = true ∧ (machHost.ctx 1).func = 512 ∧ machHost.regions.has 5 = true ∧ (machHost.region 5).ctx = 1) := by
  refine ⟨fun image => ?_, ?_⟩
  · by_cases h : Config.fwSigned image = true
    · rcases Nat.lt_or_ge (Config.fwVersion image) Config.fuseRollback with h1 | h1
      · exact .inr (.inr h1)
      · exact .inl ⟨h, h1⟩
    · exact .inr (.inl (by simpa using h))
  · decide

/-! ### Commands -/

/-- A code object: 12 bytes of text, the strong symbol "k" at its start, a kernel at it, and an ABSLO32 relocation of its first word. -/
def imageBytes : List Byte :=
  leBytes 64 (0x32584B5A + 2 ^ 32 * 2 + 2 ^ 96 + 2 ^ 128 + 2 ^ 160 + 2 ^ 192 + 2 ^ 224 * 2 + 2 ^ 256 * 64 + 2 ^ 320 * 96 + 2 ^ 384 * 112 + 2 ^ 448 * 144) ++
  leBytes 32 (2 ^ 64 * 170 + 2 ^ 128 * 12) ++ leBytes 16 (2 ^ 32) ++ leBytes 32 (2 ^ 32 * 8 + 2 ^ 40 * 8 + 2 ^ 112) ++ leBytes 24 1 ++
  [0x6B, 0] ++ List.replicate 12 0
def image0 : Image := ⟨2, 0, 0, [⟨0, 170, 12, 0⟩], [⟨[0x6B], 1, 0, 0⟩], [⟨1, 0, 0, 0, 0⟩], [⟨0, 8, 0, 0, 0, 1⟩]⟩
/-- A machine whose ring r holds a command of operation op for context 1, with the handle 9, and some bytes at IMAGE. -/
def machCmd (m : Mach) (r op handle : Nat) (bs : List Byte) : Mach :=
  { m.setRing r { ring := 0x200000, logn := 4, en := true, prod := 1 } with
    dram := (Mem.setBytes [] 0x200000 (leBytes 64 (2 ^ 408 * 0x280000 + 2 ^ 352 * 0x100000 + 2 ^ 296 * 0x100200 + 2 ^ 240 * 0x300000 +
      2 ^ 208 * bs.length + 2 ^ 192 * handle + 2 ^ 176 + 2 ^ 160 * op))).setBytes 0x300000 bs }
def cmd0 (op handle n : Nat) : Cmd := ⟨false, 0x280000, 0x100000, 0x100200, 0x300000, n, handle, 1, op⟩
def obj0 : Obj := { secs := [(0x100200, 0x10020C)], uses := [], image := [] }
def machObj : Mach :=
  { mach0 with ctxs := [(1, { ctx0 with objs := [(9, obj0)], syms := [⟨[0x6B], 0x100200, false, 9⟩], kerns := [⟨0x100200, 8, 0, 0, 0, 9, 0, 0⟩] })] }
theorem witness_LoaderSteps :
    (let m := machCmd mach0 0 0 0 imageBytes; let c := cmd0 0 0 182
     m.nextCmd 0 = some c ∧ c.resv = false ∧ m.ctxs.has c.ctx = true ∧ m.physRead c.image c.isize = imageBytes ∧
       Image.parse imageBytes = some image0 ∧ c.cbase % 768 = 0 ∧ c.dbase % 4096 = 0 ∧ c.compl % 8 = 0 ∧ image0.gen = 2 ∧
       (∀ k ∈ image0.kerns, k.cls ≤ 1) ∧ (∀ y ∈ image0.secs, secCovered m c y = true) ∧ (∀ y ∈ image0.syms, y.bind ≠ 3)) ∧
    (let m := machCmd machObj 0 2 9 []; let c := cmd0 2 9 0
     m.nextCmd 0 = some c ∧ (m.ctx 1).objs.find 9 = some obj0 ∧ objUsed (m.ctx 1) 9 = false ∧ objEntered m 1 obj0 = false ∧
       objHeld m 1 obj0 = false ∧ obj0.unloading = false ∧ c.compl % 8 = 0) ∧
    (let m := machCmd { mach0 with ctxs := [(1, { ctx0 with objs := [(9, { obj0 with unloading := true })] })] } 0 2 9 []
     m.nextCmd 0 = some (cmd0 2 9 0) ∧ (m.ctx 1).objs.find 9 = some { obj0 with unloading := true } ∧ m.ctxs.has 1 = true) ∧
    (let m := withThr (fun t => { t with gone := true })
     [2].any m.heldDet = false ∧ [2].any m.fenced = false ∧ ∃ u ∈ [2], (m.thr u).gone = true) ∧
    (let m := machCmd { machObj with threads := [(2, { thr0 with pos := ⟨0x100200, 0⟩ })] } 0 3 9 []
     m.nextCmd 0 = some (cmd0 3 9 0) ∧ (m.ctx 1).objs.find 9 = some obj0 ∧ (m.thr 2).stat.live = true ∧ m.ctxOf 2 = 1 ∧ m.onSpindle 2 = true ∧
       m.nextFetch (m.thr 2) = some 0x100200 ∧ obj0.has 0x100200 = true ∧ m.threads.has 2 = true) ∧
    (let m := machCmd mach0 0 0 0 imageBytes; let c := cmd0 0 0 182
     (∀ j < 12, loadLoc m 1 (c.secAt ⟨0, 170, 12, 0⟩ + j) = some { sto := .dram, addr := 0x100200 + j, va := 0x100200 + j, tag := ⟨7, 1, 0x4008⟩ } ∧
        m.treeAt (0x100200 + j) = none) ∧ m.dram.wf = true ∧ m.l2 = [] ∧ m.spindles = []) := by
  decide +kernel
/-- Under any handle its symbol enters an empty table, its relocation has a target, and it links; a second strong "k" is refused. -/
theorem witness_loadLinks (h : Nat) :
    image0.enter (cmd0 0 0 182) h false [] = some [⟨[0x6B], 0x100200, false, h⟩] ∧
    image0.target (cmd0 0 0 182) h [⟨[0x6B], 0x100200, false, h⟩] ⟨[0x6B], 1, 0, 0⟩ = some (0x100200, h) ∧
    image0.link (cmd0 0 0 182) imageBytes (image0.target (cmd0 0 0 182) h [⟨[0x6B], 0x100200, false, h⟩]) =
      some [[0x00, 0x02, 0x10, 0, 0, 0, 0, 0, 0, 0, 0, 0]] ∧
    image0.enter (cmd0 0 0 182) h false [⟨[0x6B], 0, false, h⟩] = none := by
  refine ⟨rfl, rfl, ?_, rfl⟩
  have ht : image0.target (cmd0 0 0 182) h [⟨[0x6B], 0x100200, false, h⟩] ⟨[0x6B], 1, 0, 0⟩ = some (0x100200, h) := rfl
  have hl : applyRel 1 0x100200 0 (0x100200 : Int) (List.replicate 12 0) = some [0x00, 0x02, 0x10, 0, 0, 0, 0, 0, 0, 0, 0, 0] := by decide
  have hb : Sec.bytes ⟨0, 170, 12, 0⟩ imageBytes = List.replicate 12 0 := by decide +kernel
  show (do
    let t ← image0.target (cmd0 0 0 182) h [⟨[0x6B], 0x100200, false, h⟩] ⟨[0x6B], 1, 0, 0⟩
    let bs ← applyRel 1 0x100200 0 ((t.1 : Int) + 0) (Sec.bytes ⟨0, 170, 12, 0⟩ imageBytes)
    some [bs]) = _
  rw [ht, hb]
  show (do
    let bs ← applyRel 1 0x100200 0 (0x100200 : Int) (List.replicate 12 0)
    some [bs]) = _
  rw [hl]
  rfl
theorem witness_ManagementSteps :
    (let m := machCmd { mach0 with ctxs := [] } 1 0 0 (leBytes 64 (2 ^ 496 * 7 + 2 ^ 486 * 512 + 2 ^ 474 * 1024 + 2 ^ 453 + 2 ^ 443 * 511))
     m.nextCmd 1 = some (cmd0 0 0 64) ∧ m.ctxs.has 1 = false ∧
       Ctx.parse (m.physNat 0x300000 64) = some { mgr := 7, func := 512, csmb := 1024, hwb := 1, hwl := 511 } ∧ groupOf m 0 = some (0, 1)) ∧
    (let m := machCmd { mach0 with regions := [] } 1 1 0 []
     m.nextCmd 1 = some (cmd0 1 0 0) ∧ m.regions = []) ∧
    (let m := machCmd mach0 1 2 4 (leBytes 16 (2 ^ 112 + 2 ^ 110 + 2 ^ 40 * 0x110 + 0x100))
     m.nextCmd 1 = some (cmd0 2 4 16) ∧ Acc.parse (m.physNat 0x300000 16) = some ⟨1, false, true, 0x110, 0x100⟩ ∧ m.access.at 4 = []) ∧
    (let m := machCmd mach0 1 2 1 (leBytes 16 (2 ^ 112 + 2 ^ 40 * 0x110 + 0x100))
     Acc.parse (m.physNat 0x300000 16) = some ⟨1, false, false, 0x110, 0x100⟩ ∧ m.access.at 1 = []) ∧
    (let e := leBytes 16 (2 ^ 112 + 2 ^ 110 + 2 ^ 40 * 0x110 + 0x100)
     let m := machCmd { mach0 with access := [(0, [⟨1, true, true, 0x110, 0x100⟩])] } 1 2 0 e
     m.nextCmd 1 = some (cmd0 2 0 16) ∧ Acc.parse (m.physNat 0x300000 16) = some ⟨1, false, true, 0x110, 0x100⟩ ∧
       (m.access.at 0).find? (fun a => a.ctx == 1 && a.baseg == 0x100) = some ⟨1, true, true, 0x110, 0x100⟩ ∧ (m.access.at 0).length ≤ 2048 ∧
       accBusy m ⟨1, true, true, 0x110, 0x100⟩ 0 = false ∧
       accBusy { m with reqs := [req0 9 (.store 7 0xFF)] } ⟨1, true, true, 0x110, 0x100⟩ 0 = true) ∧
    (let m := machCmd mach0 1 3 4095 (List.replicate 96 0)
     m.nextCmd 1 = some (cmd0 3 4095 96) ∧ leNat ((m.physRead 0x300000 96).drop 80) = 0 ∧ m.ctxs.has 1 = true) ∧
    (let m := machCmd { mach0 with faults := [{ num := 9, sub := 1 }], threads := [(2, { thr0 with stat := .subgang 1 .watch 0x100040 })] } 1 4 9 []
     m.nextCmd 1 = some (cmd0 4 9 0) ∧ m.faults.find? (fun x => x.num == 9) = some { num := 9, sub := 1 } ∧
       m.faults.filter (fun x => x.sub == 1) = [{ num := 9, sub := 1 }] ∧ m.threads.find 2 = some (m.thr 2) ∧ (m.thr 2).stat = .subgang 1 .watch 0x100040) ∧
    (let m := machCmd { mach0 with faults := [{ num := 9, sub := 1 }], copies := [(50, { copy1 0 with regd := true, paused := some 1 }), (51, copy1 0)] } 1 4 9 []
     m.copies.find 50 = some { copy1 0 with regd := true, paused := some 1 } ∧ m.copies.find 51 = some (copy1 0) ∧
       (match exec .resume ⟨m, .idle⟩ with
         | .next t => t.m.copies.map (fun c => c.2.paused) == [none, none]
         | _ => false) = true) ∧
    (let m := machCmd mach0 1 5 0 []
     m.nextCmd 1 = some (cmd0 5 0 0) ∧ m.regions.has 5 = true ∧ (m.region 5).ctx = 1 ∧ (m.region 5).rcb.fdom = 0 ∧ (m.region 5).live = true) ∧
    (machCmd mach0 1 6 96 []).nextCmd 1 = some (cmd0 6 96 0) := by
  decide +kernel

/-! ### The shapes of steps -/

def goesOn (o : Host.Outcome State Fault Refusal) : Bool :=
  match o with
  | .next _ => true
  | _ => false
/-- A context without system privilege, and a thread for which v6 is pending. -/
def machUser : Mach := { mach0 with ctxs := [(1, { ctx0 with sys := false })] }
def machPend : Mach := withThr (fun t => { t with pend := 0x40 })
/-- The words and the run of the group that issues. -/
def groupIn (s : State) : Option (List Word × List Nat) :=
  match s.act with
  | .group x => some (x.rest, x.run)
  | _ => none
/-- The bytes that a sequencer read. -/
def bytesRead (r : SRead) : Option (List Byte) :=
  match r with
  | .ok bs => some bs
  | _ => none
theorem calm0 : Calm (grp mach0) 2 (mach0.thr 2) := ⟨by decide, by decide, by decide, by decide⟩
theorem inMajors_of {i : Instr} {w : Word} {lo hi : Nat} (h : encodeWord i = some w) (hi' : i ≠ .illegalEncoding w)
    (hl : lo ≤ (majorOf w).toNat) (hh : (majorOf w).toNat ≤ hi) : Instr.inMajors i lo hi := ⟨w, h, hi', hl, hh⟩
theorem witness_WordsMeetTheirCauses :
    (sOf machUser).act = .group (grp machUser) ∧ Instr.hdr (.rinv h0 10 4 8) = some h0 ∧ encodeWord (.rinv h0 10 4 8) = some 0x38284201 ∧
    Instr.inMajors (.rinv h0 10 4 8) 0x38 0x38 ∧ (∀ u ∈ (grp machUser).run, machUser.privOf u = false) ∧
    (∀ u ∈ (grp machUser).run, ∀ r ∈ machUser.touches u (.rinv h0 10 4 8), (machUser.thr u).isPend r = false) ∧
    (encodeWord (.eret h0)).isSome = true ∧ (∀ u ∈ (grp mach0).run, (mach0.thr u).h = false) ∧
    Instr.inMajors (.ldW h0 1 4 2) 0x20 0x2F ∧ (∀ u ∈ (grp mach0).run, mach0.detOf u = false) ∧
    (∀ u ∈ (grp mach0).run, memReach (.ldW h0 1 4 2) (grp mach0) u = .trap .align 0x100042 0x100042) ∧
    (encodeWord (.add h0 1 7 6)).isSome = true ∧ goesOn (exec (.add h0 1 7 6) (sOf machPend)) = true ∧ 6 ∈ machPend.touches 2 (.add h0 1 7 6) ∧
    (machPend.thr 2).isPend 6 = true ∧ (∀ r' ∈ machPend.touches 2 (.add h0 1 7 6), (machPend.thr 2).isPend r' = true → (6 : Reg).val ≤ r'.val) ∧
    (let m := withThr (fun t => { t with frames := List.replicate 12 default })
     (m.regionOf 2).frameSlots - 4 ≤ (m.thr 2).frames.length) ∧
    (∀ f ∈ [(default : Frame), { (default : Frame) with kind := .range, state := .active }],
      let t := { thr0 with frames := [f] }
      t.depth.toNat ≤ t.mark.toNat ∧ t.frames.getLast? = some f ∧ (f.kind ≠ .range ∧ f.state = .latent ∨
        f.kind = .range ∧ f.state = .active ∧ f.lo = f.hi ∧ (t.cell (t.frames.length - 1)).nextPiece = none ∧ f.root = false)) := by
  refine ⟨rfl, rfl, by decide, inMajors_of (w := 0x38284201) (by decide) (by decide) (by decide) (by decide), ?_, ?_, ?_, ?_,
    inMajors_of (w := 0x24044002) (by decide) (by decide) (by decide) (by decide), ?_, ?_, ?_, ?_, ?_, ?_, ?_, ?_, ?_⟩ <;> decide
theorem witness_TrapsAreTaken :
    (∀ tr ∈ [({ cause := .illegal, info := 7 } : Trap), { cause := .watch, info := 7 }, { cause := .accessTable, info := 7 },
        { cause := .user, info := 7, res := .after }], ∀ k ∈ [0, 2],
      let g := { grp mach0 with run := [], traps := [(2, tr)], slot := k }
      mach0.threads.has 2 = true ∧ g.trapOf 2 = some tr ∧ mach0.waiting 2 = false ∧ (mach0.thr 2).deferred = none ∧ tr.d = false) ∧
    (mach0.ctx (mach0.ctxOfRegion (mach0.thr 2).region)).hvec ≠ 0 ∧ (mach0.thr 2).h = false ∧ Cause.route .illegal = .handler ∧
    Cause.route .watch = .system ∧ Cause.timer ≠ .killed ∧ Cause.route .accessTable = .fatal ∧ (machHandler.thr 2).h = true ∧ Cause.illegal ≠ .timer := by
  decide
theorem witness_AccessChecks :
    (0x100041 : Nat) % 4 ≠ 0 ∧ accessAt mach0 2 .read 0x100040 4 4 = .ok (locs 4) ∧ (0x10FFFF : Nat) < 0xFD * 2 ^ 48 ∧
    (∀ r ∈ (mach0.ctx 1).ranges, ¬ (r.baseg * 4096 ≤ 0x110000 ∧ 0x110000 < r.limg * 4096)) ∧
    mach0.translate ⟨1, none, 0, true⟩ .fetch 0x10FFFF ≠ .wait ∧ (machMoving 0x4001).translate ⟨1, none, 0, true⟩ .read 0x10003F ≠ .wait ∧
    (machMoving 0x4001).translate ⟨1, none, 0, true⟩ .read 0x100080 ≠ .wait := by
  decide
theorem witness_RegisterWordsChangeOnlyTheirDestinations :
    Instr.inMajors (.add h0 1 6 7) 0x05 0x16 ∧ Instr.inMajors (.add h0 1 6 7) 0x05 0x11 ∧ goesOn (exec (.add h0 1 6 7) s0) = true ∧
    Clear (.add h0 1 6 7) (grp mach0) ∧ Calm (grp mach0) 2 (mach0.thr 2) ∧ (grp mach0).flags = [] ∧
    Instr.inMajors (.xshuf h0 1 6 7 true) 0x17 0x19 ∧ (∀ h a, Instr.xshuf h0 1 6 7 true ≠ .regroup h a) ∧
    goesOn (exec (.xshuf h0 1 6 7 true) s0) = true :=
  ⟨inMajors_of (w := 0x050461C0) (by decide) (by decide) (by decide) (by decide),
   inMajors_of (w := 0x050461C0) (by decide) (by decide) (by decide) (by decide), by decide, (issues_all _).2, calm0, rfl,
   ⟨_, rfl, by decide, by decide, by decide⟩, fun _ _ => nofun, by decide⟩
theorem witness_StoresChangeOnlyTheirBytes :
    Instr.inMajors (.stW h0 6 4 0) 0x20 0x30 ∧ (∀ h sc, Instr.stW h0 6 4 0 ≠ .fence h sc) ∧ goesOn (exec (.stW h0 6 4 0) s0) = true ∧
    (∀ v ∈ (grp mach0).run, chkMem (.stW h0 6 4 0) (grp mach0) v = none) ∧ Calm (grp mach0) 2 (mach0.thr 2) ∧
    ¬ Instr.inMajors (.stW h0 6 4 0) 0x2E 0x2F ∧
    Instr.inMajors (.acas h0 6 4 false 0) 0x2E 0x2F ∧ goesOn (exec (.acas h0 6 4 false 0) s0) = true ∧
    (∀ v ∈ (grp mach0).run, chkMem (.acas h0 6 4 false 0) (grp mach0) v = none) ∧ (mach0.spindle 0).l1 = [] ∧
    (∀ u ∈ (grp mach0).run, ∀ l ∈ (memReach (.acas h0 6 4 false 0) (grp mach0) u).locs, sameSector l { loc0 0 with addr := 0x100060 } = false) ∧
    (∀ k ∈ [ReqK.store 7 0xFFFFFFFF, .atom 0 false 1], let m := machReq [req0 9 k] mach0
      m.reqs.find? (fun x => x.seq == 9) = some (req0 9 k) ∧ goesOn (exec (.memoryAccessPerform 9) ⟨m, .idle⟩) = true ∧
        (m.spindle 0).l1 = [] ∧ m.dram.wf = true ∧ ∀ l ∈ (req0 9 k).ls, l.addr ≠ 0x10003F ∧ l.addr ≠ 0x100044) :=
  ⟨⟨_, rfl, by decide, by decide, by decide⟩, fun _ _ => nofun, by decide, by decide, calm0,
   fun ⟨_, e, _, h, _⟩ => absurd h (by obtain rfl := Option.some.inj e; decide), ⟨_, rfl, by decide, by decide, by decide⟩,
   by decide, by decide, by decide, by decide, by decide⟩
/-- From reset, with a word where it is fetched: it is the next step. -/
theorem witness_AStepRunsTheDecodedInstruction :
    (grp mach0).rest = 0 :: [] ∧ decodeWord 0 = .ok (.nop h0) ∧ decodeWord 0xFFFFFFFF = .error .permanentlyIllegal ∧
    (let s := State.reset.withFetchWord 32 0x852CA300
     s.m.power = .up ∧ s.m.lost = false ∧ owed s.m = none ∧ s.m.turns = .issue 1 :: [] ∧ ({ s.m with turns := [] } : Mach).mayIssue 1 = true ∧
       groupIn (issueTurn { s.m with turns := [] } 1) = some ([0x852CA300, 0], [0]) ∧
       goesOn (exec (.add ⟨true, false⟩ 11 10 12) (issueTurn { s.m with turns := [] } 1)) = true) ∧
    (let s := State.reset.withFetchWord 64 0
     s.m.power = .up ∧ s.m.lost = false ∧ owed s.m = none ∧ s.m.turns = .seq 4 :: [] ∧ (s.m.streams.find 4).isSome = true ∧ (s.m.streams.at 4).out = 0 ∧ tileWaits s.m (s.m.streams.at 4) = false ∧ (s.m.streams.at 4).waitQ = false ∧
       (s.m.streams.at 4).post = none ∧ bytesRead (streamFetch { s.m with turns := [] } (s.m.streams.at 4) 0) = some (List.replicate 8 0) ∧
       decodeStream 0 = .ok .mnop ∧ goesOn (exec .mnop ⟨{ s.m with turns := [] }, .stream 4⟩) = true) ∧
    groupIn (openRun (State.reset.withFetchWord 32 0x852CA300).m 1 [0]) = some ([0x852CA300, 0], [0]) := by
  decide +kernel
/-- A step of the group of thread 2 is a step. -/
theorem witness_EncodeAndDecodeAgree :
    Instr.wellFormed (.add h0 63 6 7) = true ∧ (encodeWord (.add h0 63 6 7)).isSome = true ∧
    Instr.wellFormed (.mma true 3 2 255 1023 1023) = true ∧ (encodeStream (.mma true 3 2 255 1023 1023)).isSome = true ∧
    decodeWord 0x24284010 = .ok (.ldW h0 10 4 0x010) ∧ decodeStream 0x0A20A00004000000 = .ok (.mma true 0 1 5 0 2) ∧
    majorOf 0x39000000 = 0x39#6 ∧ majorOf 0xFFFFFFFF = 0x3F#6 := by
  decide
theorem mach0_memWf : mach0.memWf :=
  ⟨rfl, rfl, rfl, fun x hx => (by cases hx), fun x hx => (by obtain rfl := List.mem_singleton.1 hx; rfl), fun x hx => (by cases hx)⟩
theorem witness_StorageLaws : Mem.wf [(5, 7)] = true ∧ mach0.memWf ∧ (loc0 0).sto = .dram ∧ mach0.treeAt (loc0 0).addr = none ∧
    headByte 0x20000 = false ∧ mach0.crews.has 4 = true ∧ mach0.l1Find 0 (loc0 0) = none :=
  ⟨rfl, mach0_memWf, by decide⟩
theorem witness_GroupsEnd :
    mach0.threads.has 2 = true ∧ 2 ∈ (grp mach0).run ∧ 2 ∉ (grp mach0).held ∧ (grp mach0).xferOf 2 = none ∧
    ({ grp mach0 with xfer := [(2, ⟨0x900, 0⟩)] } : Group).xferOf 2 = some ⟨0x900, 0⟩ ∧
    (machRes (.val [7]) mach0).waiting 2 = true ∧ (machHandler.thr 2).h = true ∧
    Calm { grp mach0 with sw := true } 2 ((machRes (.val [7]) mach0).thr 2) :=
  ⟨by decide, by decide, by decide, by decide, by decide, by decide, by decide, calm0⟩
theorem witness_StepsKeepShapes : s0.shaped ∧ s0.m.memWf ∧ goesOn (step s0) = true ∧ State.reset.m.power = .off :=
  ⟨⟨by decide, rfl⟩, mach0_memWf, by decide, rfl⟩

end Sys2Proof.Tests
end

/-! The integer words and the predicate words (spec/04 R70 to R73, R75, R76, and CMPI of R77): what the model's arithmetic on words is
in terms of numbers and bits, and from that the effect of each word. -/

namespace Sys2Proof.Machine
open Sys2Proof.Laws

/-! ### A word acts: decoder, pipe and effect -/

/-- A well-formed instruction whose word is a gang word is what that word decodes to. -/
theorem decodeWord_of_roundTrip {i : Instr} {w : Word} (hr : RoundTrip.Statement i) (hf : i.wellFormed = true)
    (hw : encodeWord i = some w) (hn : i ≠ .illegalEncoding w) : decodeWord w = .ok i :=
  ((hr hf).1 w hw).resolve_right hn

/-- The words of majors 0x05 to 0x11 issue on the ALU pipe (R20). -/
theorem pipeOf_mkWord_alu (h : Hdr) {mj : BitVec 6} (f3 f2 f1 f0 : BitVec 6) (lo : 0x05 ≤ mj.toNat) (hi : mj.toNat ≤ 0x11) :
    pipeOf (mkWord h mj f3 f2 f1 f0) = some .alu := by
  simp only [pipeOf, majorOf_mk]
  rw [if_neg (by omega), if_pos hi]

section
variable {h : Hdr} {i : Instr} {s : State} {g : Group} {o x : Host.Outcome State Fault Refusal}

/-- An ALU word acts as its instruction does: the round trip gives the decoding, the major gives the pipe. -/
theorem acts_alu {mj f3 f2 f1 f0 : BitVec 6} (hr : RoundTrip.Statement i) (he : Issues i s g → exec i s = o)
    (hf : i.wellFormed = true := by rfl) (hw : encodeWord i = some (mkWord h mj f3 f2 f1 f0) := by rfl)
    (hn : i ≠ .illegalEncoding (mkWord h mj f3 f2 f1 f0) := by nofun)
    (lo : 0x05 ≤ mj.toNat := by decide) (up : mj.toNat ≤ 0x11 := by decide) :
    Acts (mkWord h mj f3 f2 f1 f0) .alu i s g o :=
  ⟨decodeWord_of_roundTrip hr hf hw hn, pipeOf_mkWord_alu h f3 f2 f1 f0 lo up, he⟩

/-- An instruction whose meaning x writes f to register d of each lane writes any f' that agrees with f. -/
theorem exec_didReg {d : Reg} {f f' : Thread → Word} (he : exec i s = x) (hx : x = regWord h i s d f) (hff : ∀ t, f t = f' t)
    (hi : Issues i s g) : exec i s = didReg h s g d f' := by
  obtain rfl : f = f' := funext hff
  exact (he.trans hx).trans (regWord_does hi)

/-- The same for a predicate. -/
theorem exec_didPred {d : PReg} {f f' : Thread → Bool} (he : exec i s = x) (hx : x = predWord h i s d f) (hff : ∀ t, f t = f' t)
    (hi : Issues i s g) : exec i s = didPred h s g d f' := by
  obtain rfl : f = f' := funext hff
  exact (he.trans hx).trans (predWord_does hi)
end

/-! ### Sums, products and differences as numbers -/

theorem add_eq_ofNat (x y : Word) : x + y = BitVec.ofNat 32 (x.toNat + y.toNat) := by simp [BitVec.ofNat_add]
theorem mul_eq_ofNat (x y : Word) : x * y = BitVec.ofNat 32 (x.toNat * y.toNat) := by simp [BitVec.ofNat_mul]
theorem mula_eq_ofNat (z x y : Word) : z + x * y = BitVec.ofNat 32 (z.toNat + x.toNat * y.toNat) := by
  simp [BitVec.ofNat_add, BitVec.ofNat_mul]
theorem sub_eq_ofInt (x y : Word) : x - y = BitVec.ofInt 32 (x.toInt - y.toInt) := by
  apply BitVec.eq_of_toInt_eq
  simp [BitVec.toInt_sub]
theorem ofNat_natAbs (n : Int) : BitVec.ofNat 32 n.natAbs = BitVec.ofInt 32 |n| := by
  rw [Int.abs_eq_natAbs, BitVec.ofInt_natCast]

/-! ### Minima, maxima and saturation -/

theorem minS_eq (x y : Word) : minS x y = BitVec.ofInt 32 (min x.toInt y.toInt) := by
  rw [min_def_lt, apply_ite (BitVec.ofInt 32), BitVec.ofInt_toInt, BitVec.ofInt_toInt]
  simp [minS, BitVec.slt_eq_decide]
theorem maxS_eq (x y : Word) : maxS x y = BitVec.ofInt 32 (max x.toInt y.toInt) := by
  rw [max_comm, max_def_lt, apply_ite (BitVec.ofInt 32), BitVec.ofInt_toInt, BitVec.ofInt_toInt]
  simp [maxS, BitVec.slt_eq_decide]
theorem minU_eq (x y : Word) : minU x y = BitVec.ofNat 32 (min x.toNat y.toNat) := by
  rw [min_def_lt, apply_ite (BitVec.ofNat 32)]
  simp [minU, BitVec.ult_eq_decide]
theorem maxU_eq (x y : Word) : maxU x y = BitVec.ofNat 32 (max x.toNat y.toNat) := by
  rw [max_comm, max_def_lt, apply_ite (BitVec.ofNat 32)]
  simp [maxU, BitVec.ult_eq_decide]

theorem satI_eq_clamp (x : Int) : satI x (-2 ^ 31) (2 ^ 31 - 1) = clamp (-2 ^ 31) (2 ^ 31 - 1) x := by
  unfold satI clamp
  split_ifs <;> omega

theorem satW_eq (x : Int) : satW x = BitVec.ofInt 32 (clamp (-2 ^ 31) (2 ^ 31 - 1) x) := by
  rw [satW, satI_eq_clamp]

theorem toInt_satW (x : Int) : (satW x).toInt = clamp (-2 ^ 31) (2 ^ 31 - 1) x := by
  rw [satW_eq]
  refine BitVec.toInt_ofInt_eq_self (by decide) ?_ ?_ <;> simp [clamp]

/-- The minimum of a saturated sum, as ADDMIN takes it (R70). -/
theorem minS_satW (n : Int) (z : Word) : minS (satW n) z = BitVec.ofInt 32 (min (clamp (-2 ^ 31) (2 ^ 31 - 1) n) z.toInt) := by
  rw [minS_eq, toInt_satW]

/-! ### Shifts and rotations -/

theorem shamt_eq (x : Word) : shamt x = x.toNat % 256 := by simp [shamt]
theorem shlW_eq (x : Word) (n : Nat) : shlW x n = x <<< n := by
  unfold shlW
  split
  · rfl
  · exact (BitVec.shiftLeft_eq_zero (by omega)).symm
theorem shrW_eq (x : Word) (n : Nat) : shrW x n = x >>> n := by
  unfold shrW
  split
  · rfl
  · exact (BitVec.ushiftRight_eq_zero (by omega)).symm
/-- A shift by 32 or more fills the word with the sign bit. -/
theorem sshiftRight_of_le (x : Word) {n : Nat} (hn : 32 ≤ n) :
    x.sshiftRight n = if x.getLsbD 31 then BitVec.allOnes 32 else 0 := by
  apply BitVec.eq_of_getElem_eq
  intro i hi
  rw [BitVec.getElem_sshiftRight, dif_neg (by omega), BitVec.msb_eq_getLsbD_last]
  cases x.getLsbD 31 with
  | false => simp
  | true => exact (BitVec.getElem_allOnes i hi).symm
theorem sarW_eq (x : Word) (n : Nat) : sarW x n = BitVec.ofInt 32 (x.toInt / 2 ^ n) := by
  have h : sarW x n = x.sshiftRight n := by
    unfold sarW
    split
    · rfl
    · exact (sshiftRight_of_le x (by omega)).symm
  rw [h, BitVec.sshiftRight_eq, Int.shiftRight_eq_div_pow]
  norm_cast
theorem shlW_shamt (x y : Word) : shlW x (shamt y) = x <<< (y.toNat % 256) := by rw [shlW_eq, shamt_eq]
theorem shrW_shamt (x y : Word) : shrW x (shamt y) = x >>> (y.toNat % 256) := by rw [shrW_eq, shamt_eq]
theorem sarW_shamt (x y : Word) : sarW x (shamt y) = BitVec.ofInt 32 (x.toInt / 2 ^ (y.toNat % 256)) := by rw [sarW_eq, shamt_eq]
theorem rotlW_shamt (x y : Word) : rotlW x (shamt y) = (x <<< (y.toNat % 32)) ||| (x >>> (32 - y.toNat % 32)) := by
  have h : y.toNat % 256 % 32 % 32 = y.toNat % 32 := by omega
  rw [rotlW, shamt_eq, BitVec.rotateLeft_def, h]

/-! ### Counts of bits -/

/-- The leading run of a range that meets p: empty where 0 fails, else one more than that of the shifted range. -/
theorem length_takeWhile_range_succ (p : Nat → Bool) (n : Nat) :
    ((List.range (n + 1)).takeWhile p).length =
      if p 0 then 1 + ((List.range n).takeWhile (fun k => p (k + 1))).length else 0 := by
  rw [List.range_succ_eq_map, List.takeWhile_cons]
  split
  · rw [List.length_cons, List.takeWhile_map, List.length_map, Nat.add_comm]; rfl
  · rfl

theorem clzN_eq (x : Word) (n : Nat) :
    clzN x n = ((List.range n).takeWhile (fun k => !x.getLsbD (n - 1 - k))).length := by
  induction n with
  | zero => rfl
  | succ n ih =>
    rw [clzN, length_takeWhile_range_succ, ih]
    have h (k : Nat) : n + 1 - 1 - (k + 1) = n - 1 - k := by omega
    simp only [h]
    cases hx : x.getLsbD n <;> simp [hx]

theorem ctzN_eq (x : Word) {n : Nat} (hn : n ≤ 32) :
    ctzN x n = ((List.range n).takeWhile (fun k => !x.getLsbD (32 - n + k))).length := by
  induction n with
  | zero => rfl
  | succ n ih =>
    rw [ctzN, length_takeWhile_range_succ, ih (by omega)]
    have h (k : Nat) : 32 - (n + 1) + (k + 1) = 32 - n + k := by omega
    have h0 : 32 - (n + 1) + 0 = 31 - n := by omega
    simp only [h, h0]
    cases x.getLsbD (31 - n) <;> simp

theorem popN_eq (x : Word) (n : Nat) : popN x n = ((List.range n).filter x.getLsbD).length := by
  induction n with
  | zero => rfl
  | succ n ih =>
    rw [popN, ih, List.range_succ, List.filter_append, List.length_append, List.filter_singleton]
    cases x.getLsbD n <;> rfl

/-- The number that brevW builds from the n lowest bits of x. -/
def revBits (x : Word) (n : Nat) : Nat := (List.range n).foldl (fun a i => 2 * a + (if x.getLsbD i then 1 else 0)) 0

theorem brevW_eq_revBits (x : Word) : brevW x = BitVec.ofNat 32 (revBits x 32) := rfl

theorem revBits_succ (x : Word) (n : Nat) : revBits x (n + 1) = Nat.bit (x.getLsbD n) (revBits x n) := by
  rw [Nat.bit_val, revBits, List.range_succ, List.foldl_append]
  cases h : x.getLsbD n <;> simp [revBits, h]

/-- Bit j of it is bit n - 1 - j of x. -/
theorem testBit_revBits (x : Word) (n j : Nat) : (revBits x n).testBit j = (decide (j < n) && x.getLsbD (n - 1 - j)) := by
  induction n generalizing j with
  | zero => simp [revBits]
  | succ n ih =>
    rw [revBits_succ]
    cases j with
    | zero => simp
    | succ j =>
      rw [Nat.testBit_bit_succ, ih]
      simp [show n - (j + 1) = n - 1 - j by omega]

theorem brevW_eq (x : Word) : brevW x = x.reverse := by
  apply BitVec.eq_of_getLsbD_eq
  intro j hj
  rw [brevW_eq_revBits, BitVec.getLsbD_ofNat, testBit_revBits, BitVec.getLsbD_reverse, BitVec.getMsbD_eq_getLsbD]
  simp [hj]

/-! ### Bit fields -/

theorem fieldPos_eq (y : Word) : fieldPos y = y.toNat % 32 := by simp [fieldPos]
theorem fieldLen_eq (y : Word) : fieldLen y = min (y.toNat / 256 % 64) (32 - y.toNat % 32) := by
  simp [fieldLen, fieldPos_eq, Nat.shiftRight_eq_div_pow]

theorem fieldOf_eq (x y : Word) : fieldOf x y = x.toNat / 2 ^ (y.toNat % 32) % 2 ^ min (y.toNat / 256 % 64) (32 - y.toNat % 32) := by
  rw [fieldOf, fieldPos_eq, fieldLen_eq]
theorem fieldMask_eq (y : Word) :
    fieldMask y = BitVec.ofNat 32 ((2 ^ min (y.toNat / 256 % 64) (32 - y.toNat % 32) - 1) * 2 ^ (y.toNat % 32)) := by
  rw [fieldMask, fieldPos_eq, fieldLen_eq]

/-- The two's complement value of a field of k bits, in terms of 2 ^ k alone. -/
theorem signedOf_eq {x k : Nat} (hk : k ≠ 0) (hx : x < 2 ^ k) :
    signedOf x k = if 2 * x < 2 ^ k then (x : Int) else (x : Int) - 2 ^ k := by
  have hb : bitsOf x 0 k = x := by simp [bitsOf, Nat.mod_eq_of_lt hx]
  have h2 := Nat.two_pow_pred_add_two_pow_pred (Nat.pos_of_ne_zero hk)
  rw [signedOf, hb]
  have h : x < 2 ^ (k - 1) ↔ 2 * x < 2 ^ k := by omega
  simp only [h]

/-- What BFX writes (R72). -/
theorem bfx_eq (x y : Word) :
    (if fieldLen y = 0 then 0 else BitVec.ofInt 32 (signedOf (fieldOf x y) (fieldLen y))) =
      BitVec.ofInt 32 (if 2 * fieldOf x y < 2 ^ fieldLen y then (fieldOf x y : Int)
        else if fieldLen y = 0 then 0 else (fieldOf x y : Int) - 2 ^ fieldLen y) := by
  by_cases hk : fieldLen y = 0
  · have h0 : fieldOf x y = 0 := by rw [fieldOf, hk, pow_zero, Nat.mod_one]
    simp [hk, h0]
  · have hx : fieldOf x y < 2 ^ fieldLen y := Nat.mod_lt _ (Nat.two_pow_pos _)
    simp only [hk, if_false, signedOf_eq hk hx]

/-- What EXTB and EXTH extend: the low bits of a word (R71). -/
theorem signExtend_extractLsb' (x : Word) {k : Nat} (hk : k ≤ 32) : (x.extractLsb' 0 k).signExtend 32 = (x.setWidth k).signExtend 32 := by
  rw [BitVec.setWidth_eq_extractLsb' hk]

/-! ### Conditions and predicates -/

/-- Of the bits of a predicate file, the mask of predicate q holds bit q alone. -/
theorem predMask_getElem : ∀ q j : PReg, (1#8 <<< q.val)[j.val] = decide (j = q) := by decide

/-- A predicate file after a write to a predicate that is not p7 (R12). -/
theorem wrP_p_getLsbD (t : Thread) {q : PReg} (hq : q ≠ 7) (x : Bool) (j : PReg) :
    (t.wrP q x).p.getLsbD j.val = if j = q then x else t.p.getLsbD j.val := by
  have hv : q.val ≠ 7 := fun e => hq (Fin.ext e)
  have hm := predMask_getElem q j
  rw [Thread.wrP, if_neg hv]
  generalize 1#8 <<< q.val = mask at hm ⊢
  obtain rfl | hj := eq_or_ne j q
  · cases x <;> simp [hm]
  · cases x <;> simp [hm, hj]

theorem rdP_wrP_same (t : Thread) {q : PReg} (hq : q ≠ 7) (x : Bool) : (t.wrP q x).rdP q = x := by
  have hv : q.val ≠ 7 := fun e => hq (Fin.ext e)
  rw [Thread.rdP, wrP_p_getLsbD t hq, if_pos rfl]
  simp [hv]
theorem rdP_wrP_other (t : Thread) {q j : PReg} (hq : q ≠ 7) (hj : j ≠ q) (x : Bool) : (t.wrP q x).rdP j = t.rdP j := by
  rw [Thread.rdP, wrP_p_getLsbD t hq, if_neg hj, Thread.rdP]

/-- The index into PLOG's table, from the two predicates (R76). -/
theorem plog_index (x y : Bool) : 2 * x.toNat + y.toNat = (if x then 2 else 0) + (if y then 1 else 0) := by
  cases x <;> cases y <;> rfl

/-! ### The obligations -/

/-- Settles O1: each word decodes by its round trip and issues on the ALU pipe by its major, and its result is the law of its operation
above. The three parts are ALU-A, ALU-B and the bit fields. -/
theorem integerWords : Obligations.IntegerWords :=
  ⟨fun h d a b s g =>
     ⟨acts_alu (RoundTrip.add h d a b) (exec_didReg (x := execAdd h d a b s) rfl rfl fun _ => add_eq_ofNat _ _),
      acts_alu (RoundTrip.sub h d a b) (exec_didReg (x := execSub h d a b s) rfl rfl fun _ => sub_eq_ofInt _ _),
      acts_alu (RoundTrip.and h d a b) (exec_didReg (x := execAnd h d a b s) rfl rfl fun _ => rfl),
      acts_alu (RoundTrip.or h d a b) (exec_didReg (x := execOr h d a b s) rfl rfl fun _ => rfl),
      acts_alu (RoundTrip.xor h d a b) (exec_didReg (x := execXor h d a b s) rfl rfl fun _ => rfl),
      acts_alu (RoundTrip.andn h d a b) (exec_didReg (x := execAndn h d a b s) rfl rfl fun _ => rfl),
      acts_alu (RoundTrip.shl h d a b) (exec_didReg (x := execShl h d a b s) rfl rfl fun _ => shlW_shamt _ _),
      acts_alu (RoundTrip.shr h d a b) (exec_didReg (x := execShr h d a b s) rfl rfl fun _ => shrW_shamt _ _),
      acts_alu (RoundTrip.sar h d a b) (exec_didReg (x := execSar h d a b s) rfl rfl fun _ => sarW_shamt _ _),
      acts_alu (RoundTrip.rotl h d a b) (exec_didReg (x := execRotl h d a b s) rfl rfl fun _ => rotlW_shamt _ _),
      acts_alu (RoundTrip.min h d a b) (exec_didReg (x := execMin h d a b s) rfl rfl fun _ => minS_eq _ _),
      acts_alu (RoundTrip.max h d a b) (exec_didReg (x := execMax h d a b s) rfl rfl fun _ => maxS_eq _ _),
      acts_alu (RoundTrip.minu h d a b) (exec_didReg (x := execMinu h d a b s) rfl rfl fun _ => minU_eq _ _),
      acts_alu (RoundTrip.maxu h d a b) (exec_didReg (x := execMaxu h d a b s) rfl rfl fun _ => maxU_eq _ _),
      acts_alu (RoundTrip.addmin h d a b) (exec_didReg (x := execAddmin h d a b s) rfl rfl fun _ => minS_satW _ _),
      acts_alu (RoundTrip.addsat h d a b) (exec_didReg (x := execAddsat h d a b s) rfl rfl fun _ => satW_eq _),
      acts_alu (RoundTrip.subsat h d a b) (exec_didReg (x := execSubsat h d a b s) rfl rfl fun _ => satW_eq _),
      acts_alu (RoundTrip.absdiff h d a b) (exec_didReg (x := execAbsdiff h d a b s) rfl rfl fun _ => ofNat_natAbs _)⟩,
   fun h d a b s g =>
     ⟨acts_alu (RoundTrip.mul h d a b) (exec_didReg (x := execMul h d a b s) rfl rfl fun _ => mul_eq_ofNat _ _),
      acts_alu (RoundTrip.mulh h d a b) (exec_didReg (x := execMulh h d a b s) rfl rfl fun _ => rfl),
      acts_alu (RoundTrip.mulhu h d a b) (exec_didReg (x := execMulhu h d a b s) rfl rfl fun _ => rfl),
      acts_alu (RoundTrip.mula h d a b) (exec_didReg (x := execMula h d a b s) rfl rfl fun _ => mula_eq_ofNat _ _ _),
      acts_alu (RoundTrip.clz h d a) (exec_didReg (x := execClz h d a s) rfl rfl fun _ => congrArg _ (clzN_eq _ _)),
      acts_alu (RoundTrip.ctz h d a) (exec_didReg (x := execCtz h d a s) rfl rfl fun _ => congrArg _ (ctzN_eq _ le_rfl)),
      acts_alu (RoundTrip.popc h d a) (exec_didReg (x := execPopc h d a s) rfl rfl fun _ => congrArg _ (popN_eq _ _)),
      acts_alu (RoundTrip.brev h d a) (exec_didReg (x := execBrev h d a s) rfl rfl fun _ => brevW_eq _),
      acts_alu (RoundTrip.sel h d a b) (exec_didReg (x := execSel h d a b s) rfl rfl fun _ => rfl),
      acts_alu (RoundTrip.extb h d a) (exec_didReg (x := execExtb h d a s) rfl rfl fun _ => signExtend_extractLsb' _ (by decide)),
      acts_alu (RoundTrip.exth h d a) (exec_didReg (x := execExth h d a s) rfl rfl fun _ => signExtend_extractLsb' _ (by decide))⟩,
   fun h d a b s g =>
     ⟨acts_alu (RoundTrip.bfx h d a b) (exec_didReg (x := execBfx h d a b s) rfl rfl fun _ => by rw [bfx_eq, fieldOf_eq, fieldLen_eq]),
      acts_alu (RoundTrip.bfxu h d a b) (exec_didReg (x := execBfxu h d a b s) rfl rfl fun _ => by rw [fieldOf_eq]),
      acts_alu (RoundTrip.bfi h d a b) (exec_didReg (x := execBfi h d a b s) rfl rfl fun _ => by rw [fieldMask_eq, fieldPos_eq])⟩⟩

/-- Settles O3: the eight conditions by their codes, PLOG's index by the values of its two predicates, and what a predicate reads after a
write. -/
theorem predicateWords : Obligations.PredicateWords := by
  unfold Obligations.PredicateWords
  intro h pd pa pq c lut a b imm s g cond
  have hcond (x y : Word) : condOf c x y = cond x y := by
    have hc := c.isLt
    simp only [condOf, cond]
    generalize c.toNat = n at hc ⊢
    interval_cases n <;> simp [BitVec.slt_eq_decide, BitVec.ult_eq_decide, ← decide_not]
  refine ⟨?_, ?_, ?_, fun t x => ⟨rfl, rfl, fun q hq => ⟨rdP_wrP_same t hq x, fun j hj => rdP_wrP_other t hq hj x⟩⟩⟩
  · exact acts_alu (RoundTrip.cmp h pd c a b) (exec_didPred (x := execCmp h pd c a b s) rfl rfl fun _ => hcond _ _)
  · exact acts_alu (RoundTrip.plog h pd pa pq lut) (exec_didPred (x := execPlog h pd pa pq lut s) rfl rfl fun t => by rw [plog_index])
  · exact acts_alu (RoundTrip.cmpi h pd c a imm) (exec_didPred (x := execCmpi h pd c a imm s) rfl rfl fun _ => hcond _ _)

end Sys2Proof.Machine

/-! The cross-lane words (spec/09 R166 to R172, R174, R175): what each lane of a run reads from the others, in terms of `laneVal` and of
numbers, and from that the result of each word. -/

namespace Sys2Proof.Machine
open Sys2Proof.Laws

/-! ### A cross-lane word acts, or spells no instruction -/

/-- The words of majors 0x17 to 0x19 issue on the XLN pipe (R20). -/
theorem pipeOf_mkWord_xln (h : Hdr) {mj : BitVec 6} (f3 f2 f1 f0 : BitVec 6) (lo : 0x17 ≤ mj.toNat) (hi : mj.toNat ≤ 0x19) :
    pipeOf (mkWord h mj f3 f2 f1 f0) = some .xln := by
  simp only [pipeOf, majorOf_mk]
  rw [if_neg (by omega), if_neg (by omega), if_neg (by omega), if_pos hi]

/-- Fields that spell an instruction outside its operand limits issue as ILLEGAL (R62). -/
theorem issueOf_of_badOperand {h : Hdr} {mj f3 f2 f1 f0 : BitVec 6} {i : Instr} (hd : decodeFields h mj f3 f2 f1 f0 = .ok i)
    (hf : i.wellFormed = false) : issueOf (mkWord h mj f3 f2 f1 f0) = .illegalEncoding (mkWord h mj f3 f2 f1 f0) := by
  have hw : decodeWord (mkWord h mj f3 f2 f1 f0) = .error .badOperand := by rw [decodeWord_mk, hd]; simp [limited, hf]
  rw [issueOf, hw]

section
variable {h : Hdr} {i : Instr} {s : State} {g : Group} {d : Reg}

/-- What a cross-lane word does where its group issues: one long result for each lane (R167). -/
theorem crossWord_does {f : Group → Nat → Word} (hi : Issues i s g) :
    crossWord h i s d f = didLong h s g i d 1 (fun u => [f g u]) := gangWord_plain hi

/-- A cross-lane word whose meaning gives lane u the value f g u gives it v u, where v agrees with f. -/
theorem acts_cross {x : Host.Outcome State Fault Refusal} {f : Group → Nat → Word} {v : Nat → Word} {mj f3 f2 f1 f0 : BitVec 6}
    (hr : RoundTrip.Statement i) (he : exec i s = x) (hx : x = crossWord h i s d f) (hv : ∀ u, f g u = v u)
    (hf : i.wellFormed = true := by rfl) (hw : encodeWord i = some (mkWord h mj f3 f2 f1 f0) := by rfl)
    (hn : i ≠ .illegalEncoding (mkWord h mj f3 f2 f1 f0) := by nofun)
    (lo : 0x17 ≤ mj.toNat := by decide) (up : mj.toNat ≤ 0x19 := by decide) :
    Acts (mkWord h mj f3 f2 f1 f0) .xln i s g (didLong h s g i d 1 (fun u => [v u])) := by
  obtain rfl : f g = v := funext hv
  exact ⟨decodeWord_of_roundTrip hr hf hw hn, pipeOf_mkWord_xln h f3 f2 f1 f0 lo up,
    fun hi => (he.trans hx).trans (crossWord_does hi)⟩
end

/-! ### Shuffles (R169) -/

/-- The register of the source lane is what laneVal reads. -/
theorem src_map_rd (g : Group) (u l : Nat) (a : Reg) : (g.src u l).map (fun w => g.rd w a) = laneVal g u a l := rfl

theorem shuffled_eq (g : Group) (f : Bool) (a : Reg) (u : Nat) (src : Option Nat) :
    shuffled g f a u src = (src.bind (laneVal g u a)).getD (g.fill f a u) := by
  have hb : src.bind (laneVal g u a) = (src.bind (g.src u)).map (fun w => g.rd w a) := by rw [Option.map_bind]; rfl
  rw [hb, shuffled]
  cases src.bind (g.src u) <;> rfl

/-- Bit 5 of XSHUFI's immediate marks a broadcast (R169). -/
theorem broadcastBit_eq (imm : BitVec 6) : imm.getLsbD 5 = decide (32 ≤ imm.toNat) :=
  (BitVec.msb_eq_getLsbD_last imm).symm.trans (BitVec.msb_eq_decide imm)

/-- Its low three bits are e. -/
theorem shufE_toNat (imm : BitVec 6) : (imm.extractLsb' 0 3).toNat = imm.toNat % 8 := by simp

/-- Source(i) by the value of the immediate: a broadcast, or one of four kinds with distance 2 ^ e (R169). -/
theorem patSource_eq (imm : BitVec 6) (i : Nat) :
    patSource imm i =
      if 32 ≤ imm.toNat then some (imm.toNat - 32)
      else if imm.toNat / 8 = 0 then some (i ^^^ 2 ^ (imm.toNat % 8))
      else if imm.toNat / 8 = 1 then (if i < 2 ^ (imm.toNat % 8) then none else some (i - 2 ^ (imm.toNat % 8)))
      else if imm.toNat / 8 = 2 then (if 31 < i + 2 ^ (imm.toNat % 8) then none else some (i + 2 ^ (imm.toNat % 8)))
      else some ((i + 2 ^ (imm.toNat % 8)) % 32) := by
  have hlt := imm.isLt
  have hlo : (imm.extractLsb' 0 5).toNat = imm.toNat % 32 := by simp
  have hkind : (imm.extractLsb' 3 2).toNat = imm.toNat / 8 % 4 := by simp [Nat.shiftRight_eq_div_pow]
  rw [patSource, broadcastBit_eq, shufE_toNat, hlo, hkind]
  by_cases h32 : 32 ≤ imm.toNat
  · simp only [h32, decide_true, if_true]
    congr 1; omega
  · have hk : imm.toNat / 8 < 4 := by omega
    simp only [h32, decide_false, if_false, Bool.false_eq_true]
    generalize 2 ^ (imm.toNat % 8) = p
    generalize imm.toNat / 8 = k at hk ⊢
    interval_cases k
    · rfl
    · simp only [one_ne_zero, if_false, if_true, ← not_lt, ite_not]
    · simp only [OfNat.ofNat_ne_zero, OfNat.ofNat_ne_one, if_false, if_true, ← not_lt, ite_not]
    · rfl

theorem xshufiOk_eq (imm : BitVec 6) : xshufiOk imm = decide (32 ≤ imm.toNat ∨ imm.toNat % 8 < 5) := by
  rw [xshufiOk, broadcastBit_eq, shufE_toNat, Bool.decide_or]

/-! ### Masks and votes (R171) -/

/-- A ballot sets the bit of each lane of the run that meets p. -/
theorem ballot_eq (g : Group) (u : Nat) (p : Nat → Bool) :
    g.ballot u p = ((g.xrun u).filter p).foldl (fun x w => x ||| (1#32 <<< (g.pre.thr w).lane)) 0 := by
  rw [Group.ballot, Mach.laneMask, maskOf, List.foldl_map]

/-- Two pairs are equal exactly when both their halves are. -/
theorem rdPair_beq (t t' : Thread) (a : Reg) : (t.rdPair a == t'.rdPair a) = (t.rd a == t'.rd a && t.rd (a + 1) == t'.rd (a + 1)) := by
  rw [Bool.eq_iff_iff]
  simp only [beq_iff_eq, Bool.and_eq_true]
  refine ⟨fun he => ⟨?_, ?_⟩, fun ⟨hlo, hhi⟩ => by rw [Thread.rdPair, Thread.rdPair, hlo, hhi]⟩
  · have hlo := congrArg (BitVec.extractLsb' 0 32) he
    simpa only [Thread.rdPair, BitVec.extractLsb'_append_eq_right] using hlo
  · have hhi := congrArg (BitVec.extractLsb' 32 32) he
    simpa only [Thread.rdPair, BitVec.extractLsb'_append_eq_left] using hhi

/-- All values equal the first exactly when every two are equal. -/
theorem all_beq_headD (f : Nat → Word) (l : List Nat) :
    (l.map f).all (· == (l.map f).headD 0) = l.all (fun i => l.all (fun j => f i == f j)) := by
  cases l with
  | nil => rfl
  | cons w r =>
    rw [List.all_map, Bool.eq_iff_iff]
    simp only [List.all_eq_true, beq_iff_eq, List.map_cons, List.headD_cons, Function.comp_apply]
    exact ⟨fun h i hi j hj => (h i hi).trans (h j hj).symm, fun h i hi => h i hi w List.mem_cons_self⟩

/-! ### Compactions (R172) -/

/-- A lane's place in its run is the number of lanes before it. -/
theorem indexIn_eq (u : Nat) (l : List Nat) : indexIn u l = (l.takeWhile (· != u)).length := by
  induction l with
  | nil => rfl
  | cons w r ih =>
    rw [indexIn, ih, List.takeWhile_cons]
    by_cases h : u = w
    · simp [h]
    · simp [h, Ne.symm h, Nat.add_comm]

/-! ### Bytes (R170, R175) -/

theorem byteOf_eq (w : Word) (m : Nat) : byteOf w m = w.toNat / 256 ^ m % 256 := by
  rw [byteOf, bitsOf, pow_mul]; rfl

theorem wordOfBytes_eq {f b : Nat → Nat} (hf : ∀ m, f m = b m) :
    wordOfBytes f = BitVec.ofNat 32 (b 0 + 256 * b 1 + 65536 * b 2 + 16777216 * b 3) := by
  rw [wordOfBytes, hf, hf, hf, hf]
  congr 1; omega

/-! ### Ranks (R174) -/

/-- A decoded number is a NaN exactly when its bits are. -/
theorem decode_isNan (f : Fmt) (x : Nat) : (f.decode x).isNan = f.isNan x := by
  by_cases hex : bitsOf x f.fb f.eb = 2 ^ f.eb - 1
  · by_cases hfr : bitsOf x 0 f.fb = 0 <;> simp [Fmt.decode, Fmt.isNan, FVal.isNan, hex, hfr]
  · have hb : f.isNan x = false := by simp [Fmt.isNan, hex]
    rw [hb, Fmt.decode, if_neg hex]
    split <;> rfl

section
variable {imm : BitVec 6}

/-- XRANK's key type (R174). -/
theorem rankKey_toNat (imm : BitVec 6) : (imm.extractLsb' 0 2).toNat = imm.toNat % 4 := by simp

/-- The bit of XRANK's immediate that ranks the lowest key first. -/
theorem rankUp_eq (h : imm.toNat < 8) : imm.getLsbD 2 = decide (4 ≤ imm.toNat) := by
  revert imm; decide
theorem xrankOk_of_keyType (h : imm.toNat < 8) (h3 : imm.toNat % 4 ≠ 3) : xrankOk imm = true := by
  revert imm; decide

theorem better_signed (h : imm.toNat < 8) (h0 : imm.toNat % 4 = 0) (x y : Word) :
    better imm x y = if 4 ≤ imm.toNat then decide (x.toInt < y.toInt) else decide (y.toInt < x.toInt) := by
  simp only [better, rankKey_toNat, h0, rankUp_eq h, BitVec.slt_eq_decide, decide_eq_true_eq]

theorem better_unsigned (h : imm.toNat < 8) (h1 : imm.toNat % 4 = 1) (x y : Word) :
    better imm x y = if 4 ≤ imm.toNat then decide (x.toNat < y.toNat) else decide (y.toNat < x.toNat) := by
  simp only [better, rankKey_toNat, h1, rankUp_eq h, BitVec.ult_eq_decide, decide_eq_true_eq]

/-- A NaN is better than no key, and every other key is better than a NaN. -/
theorem better_float (h : imm.toNat < 8) (h2 : imm.toNat % 4 = 2) (x y : Word) :
    better imm x y = (!fp32.isNan x.toNat && (fp32.isNan y.toNat ||
      if 4 ≤ imm.toNat then FVal.lt false (fp32.decode x.toNat) (fp32.decode y.toNat)
      else FVal.lt false (fp32.decode y.toNat) (fp32.decode x.toNat))) := by
  simp only [better, rankKey_toNat, h2, rankUp_eq h, decode_isNan]
  cases fp32.isNan x.toNat <;> cases fp32.isNan y.toNat <;> simp
end

/-! ### The obligation -/

/-- Settles O9: each word decodes by its round trip and issues on the XLN pipe by its major, and its result is the law of its operation
above; the reserved patterns of XSHUFI and XVOTE and the odd pair of XMATCH break their operand limits. -/
theorem crossLaneWords : Obligations.CrossLaneWords := by
  unfold Obligations.CrossLaneWords
  intro h d a b f imm s g acts w w0 rd lane fill at' mask e source
  refine ⟨?xshuf, ?xshufi, ?badShufi, ?all, ?any, ?same, ?badVote, ?xballot, ?xmatch, ?badMatch, ?xcompact, ?xgath, ?permb, ?xrank⟩
  case xshuf =>
    refine acts_cross (RoundTrip.xshuf h d a b f) (x := execXshuf h d a b f s) rfl rfl fun u => ?_
    simp only [shuffled_eq, rd, at', fill, Group.rd]
    by_cases hk : ((g.pre.thr u).rd b).toNat < 32
    · simp only [hk, if_true]; rfl
    · simp only [hk, if_false]; rfl
  case xshufi =>
    intro hok
    refine acts_cross (RoundTrip.xshufi h d a imm f) (x := execXshufi h d a imm f s) rfl rfl (fun u => ?_)
      (hf := (xshufiOk_eq imm).trans (decide_eq_true hok))
    rw [shuffled_eq, patSource_eq]
    rfl
  case badShufi =>
    intro hlt he
    refine issueOf_of_badOperand (i := .xshufi h d a imm f) (by simp [decodeFields, decMajor18]) ?_
    exact (xshufiOk_eq imm).trans (decide_eq_false (by omega))
  case all =>
    refine acts_cross (RoundTrip.xvote h d a 0) (x := execXvote h d a 0 s) rfl rfl fun u => ?_
    show (if ((g.xrun u).map (fun j => rd j a)).all (· != 0) then 1 else 0) = _
    rw [List.all_map]; rfl
  case any =>
    refine acts_cross (RoundTrip.xvote h d a 1) (x := execXvote h d a 1 s) rfl rfl fun u => ?_
    show (if ((g.xrun u).map (fun j => rd j a)).any (· != 0) then 1 else 0) = _
    rw [List.any_map]; rfl
  case same =>
    refine acts_cross (RoundTrip.xvote h d a 2) (x := execXvote h d a 2 s) rfl rfl fun u => ?_
    simp only [all_beq_headD]; rfl
  case badVote =>
    intro hk
    refine issueOf_of_badOperand (i := .xvote h d a imm) (by simp [decodeFields, decMajor18]) ?_
    exact decide_eq_false (by omega)
  case xballot => exact acts_cross (RoundTrip.xballot h d a) (x := execXballot h d a s) rfl rfl fun u => ballot_eq _ _ _
  case xmatch =>
    intro hok
    refine acts_cross (RoundTrip.xmatch h d a f) (x := execXmatch h d a f s) rfl rfl (fun u => ?_) (hf := ?_)
    · rw [ballot_eq]
      cases f with
      | false => simp only [Bool.not_false, Bool.true_or, Bool.and_true]; rfl
      | true => simp only [rdPair_beq]; rfl
    · cases f with
      | false => rfl
      | true => exact hok rfl
  case badMatch =>
    intro hf ha
    refine issueOf_of_badOperand (i := .xmatch h d a f) (by simp [decodeFields, decMajor18]) ?_
    simp [Instr.wellFormed, hf, ha]
  case xcompact =>
    refine acts_cross (RoundTrip.xcompact h d a b f) (x := execXcompact h d a b f s) rfl rfl fun u => ?_
    simp only [indexIn_eq, List.getD_eq_getElem?_getD, List.getElem?_map, rd, fill, Group.rd]
    cases ((g.xrun u).filter (fun j => (g.pre.thr j).rd b != 0))[((g.xrun u).takeWhile (· != u)).length]? <;> rfl
  case xgath =>
    refine acts_cross (RoundTrip.xgath h d a b f) (x := execXgath h d a b f s) rfl rfl fun u => ?_
    extract_lets k byte
    refine wordOfBytes_eq (b := byte) fun m => ?_
    simp only [byte, k, rd, fill, at', Group.rd, ← src_map_rd, Option.map_map, byteOf_eq, gt_iff_lt]
    by_cases hout : 127 < ((g.pre.thr u).rd b).toNat + m
    · simp only [hout, if_true]; rfl
    · simp only [hout, if_false]
      cases g.src u ((((g.pre.thr u).rd b).toNat + m) / 4) <;> rfl
  case permb =>
    intro ha
    refine acts_cross (RoundTrip.permb h d a b f) (x := execPermb h d a b f s) rfl rfl (fun u => ?_) (hf := beq_iff_eq.2 ha)
    extract_lets byte
    refine wordOfBytes_eq (b := byte) fun m => ?_
    simp only [byteOf_eq]; rfl
  case xrank =>
    intro h8 h3
    refine acts_cross (RoundTrip.xrank h d a imm) (x := execXrank h d a imm s) rfl rfl (fun u => ?_) (hf := xrankOk_of_keyType h8 h3)
    have hk : imm.toNat % 4 = 0 ∨ imm.toNat % 4 = 1 ∨ imm.toNat % 4 = 2 := by omega
    obtain h0 | h1 | h2 := hk
    · simp only [better_signed h8 h0, h0]
      rfl
    · simp only [better_unsigned h8 h1, h1]
      rfl
    · simp only [better_float h8 h2, h2]
      rfl

end Sys2Proof.Machine
